-- ==== Sys2Proof/Word.lean ====
section
/-! DEFINITION. The words of the NG-FJ4 and the sparse finite maps in which its state is held.
The manual's widths: R152 (57-bit virtual and 52-bit physical addresses), R12 (256-bit registers),
R19 and R27 (96-bit cells). -/

namespace Sys2Proof

abbrev Byte := BitVec 8
abbrev W32 := BitVec 32
abbrev W64 := BitVec 64
abbrev Reg := BitVec 256
abbrev Cell96 := BitVec 96
/-- A virtual address or PC: 57 bits (R20, R34). -/
abbrev VA := BitVec 57

/-- A finite map in canonical form: keys strictly rising, absent keys read as the default that
the reader supplies. -/
abbrev Map (V : Type) := List (Nat × V)

end Sys2Proof
end

