-- ==== Sys2Proof/Config.lean ====
section
/-! DEFINITION. What an implementation fixes and the manual leaves open: free values.
Each is an opaque constant without a body, so nothing proved here can depend on what it is. -/

namespace Sys2Proof.Config

/-- A free choice, one for each value of the state's counter `free`: the pseudo-LRU victim of an
L1D or L2 set (R159, R268), which the manual names without giving its algorithm. -/
opaque freeChoice : Nat → Nat

/-- An open time (in cycles or ticks, as its use says), from the state's counter `free`, once the stream
`latencies` of the state is exhausted: the manual fixes no such time. -/
opaque openLatency : Nat → Nat

/-- The value of a byte whose dirty copy is lost with its L2 tag (R413), from the state's counter
`free`: the manual does not say what the channel holds. -/
opaque staleByte : Nat → BitVec 8

/-- The partition number that a guest reads in `%part` (R30), for a physical partition number:
the manual does not say how the two are related. -/
opaque guestPart : Nat → BitVec 64

/-- The number of entries that a checkpoint log region of 2^n × 64 KiB holds (R408, R409): the manual gives
no size of an entry. -/
opaque logCapacity : Nat → Nat

/-- The number of region records that a region log of 2^(n-1) × 64 KiB holds (R286), where n is its size
field: the manual gives no size of a record. -/
opaque regionLogCapacity : Nat → Nat

/-- The n-th signature word Orotik returns for an SPDM request (R429): the fused key is not given. -/
opaque spdmSignature : Nat → BitVec 64

/-- The 64 bytes that one key decrypts from what another has encrypted for a line, by PA[51:6] (R164): the cipher is
named and its keys are known to no instruction. -/
opaque recrypt : Option (BitVec 512) → Option (BitVec 512) → Nat → BitVec 512 → BitVec 512

end Sys2Proof.Config
end

