-- ==== Sys2Proof/Syntax.lean ====
section
/-! DEFINITION. The syntax of the NG-FJ4: operands (R28), types (R40), the six formats (R31 to R37)
and one constructor for each row of the table of operations and events. -/

namespace Sys2Proof

/-- The read-only special registers, operand codes 384 to 402 (R30). -/
inductive SReg where
  | lane | slot | core | cx | cy | die | pkg | part | grp | unit | nunits | clk | time
  | obmin | rklo | rkhi | win | xferid | tstart
  deriving DecidableEq, Repr

/-- A ten-bit operand code (R28), reserved codes excluded. -/
inductive Opnd where
  | g (n : Fin 128)                      -- 0 to 127: a window register
  | k (n : Fin 256)                      -- 128 to 383: a constant word
  | sp (r : SReg)                        -- 384 to 402: a special register
  | lit (cell : Fin 5) (word : Fin 3)    -- 448 to 462: a literal word of the same line
  | i20                                  -- 463: I20 of the same cell
  | m (n : Fin 8)                        -- 464 to 471: a mask register
  | z                                    -- 1023
  deriving DecidableEq, Repr

/-- The type codes 0 to 12 (R40). -/
inductive Ty where
  | i64 | i32 | i32x8 | i16x16 | i8x32 | i4x64 | f32 | f32x8 | f16x16 | bf16x16 | f8ex32 | f8wx32 | o4
  deriving DecidableEq, Repr

/-- The rounding modes 0 to 5 (R31, R54). -/
inductive RM where
  | rn | rz | ru | rd | ra | rs
  deriving DecidableEq, Repr

/-- The scopes 0 to 5 (R34). -/
inductive Scope where
  | ctx | core | die | pkg | part | copse
  deriving DecidableEq, Repr

/-- The access sizes 0 to 5 (R34). -/
inductive Sz where
  | b8 | b16 | b32 | b64 | b128 | b256
  deriving DecidableEq, Repr

/-- The fields every instruction cell has (R27), MAJ apart, which the constructor says. -/
structure Cm where
  d : Opnd
  a : Opnd
  b : Opnd
  c : Opnd
  flg : BitVec 4
  stall : BitVec 4
  min : BitVec 5
  deriving DecidableEq, Repr

/-- FR format, register operations (R31). -/
structure FR extends Cm where
  imm20 : BitVec 20
  mask : Fin 8
  negA : Bool
  negB : Bool
  negC : Bool
  sat : Bool
  rm : RM
  t : Ty
  deriving DecidableEq, Repr

/-- FI format, long immediates (R33). -/
structure FI extends Cm where
  imm : BitVec 32
  t : Ty
  deriving DecidableEq, Repr

/-- FM format, memory access (R34). -/
structure FM extends Cm where
  off : BitVec 24
  scope : Scope
  scl : BitVec 3
  sz : Sz
  deriving DecidableEq, Repr

/-- FB format, branches (R35). -/
structure FB extends Cm where
  loff : BitVec 32
  tcell : Fin 5
  deriving DecidableEq, Repr

/-- FS format, system operations (R36). -/
structure FS extends Cm where
  imm : BitVec 32
  deriving DecidableEq, Repr

/-- FE format, engine operations (R37). Where the instruction names an accumulator, D is one of the
codes 0 to 3. -/
structure FE extends Cm where
  tidc : BitVec 8
  tidb : BitVec 8
  tida : BitVec 8
  deriving DecidableEq, Repr

/-- A slot of a core: where a context lives. `core` is package × 4096 + die × 1024 + site in maker
order (R8). -/
structure CtxId where
  core : Nat
  slot : Nat
  deriving DecidableEq, Repr

/-- A partition on a package. -/
structure PartId where
  pkg : Nat
  part : Nat
  deriving DecidableEq, Repr

/-- The two errors that a read from DRAM can carry (R165). -/
inductive DataErr where
  | media | integrity
  deriving DecidableEq, Repr

/-- An L2 slice or an LLC segment: the two array kinds whose banks may fail (R163). -/
inductive ArrayKind where
  | l2 | llc
  deriving DecidableEq, Repr

/-- A link of the device (R288): a mesh link or a die-to-die port of a die, the point-to-point
link of a package to a peer, or a package's order-plane or bulk-plane fibre. -/
inductive LinkId where
  | mesh (pkg die n : Nat)
  | port (pkg die n : Nat)
  | peer (pkg dst : Nat)
  | orderPlane (pkg : Nat)
  | bulkPlane (pkg : Nat)
  deriving DecidableEq, Repr

/-- One instruction or one event of the device: one constructor for each row of the table. The
arguments of an instruction are its decoded cell; those of an event say which unit it befalls, and
what comes with it from outside the device. -/
inductive Instr where
  -- integer and control instructions
  | nop (f : FR) | add (f : FR) | sub (f : FR) | mul (f : FR) | mulh (f : FR) | div (f : FR) | rem (f : FR)
  | min (f : FR) | max (f : FR) | and (f : FR) | or (f : FR) | xor (f : FR) | andn (f : FR)
  | shl (f : FR) | shrl (f : FR) | shra (f : FR) | rot (f : FR) | clz (f : FR) | popc (f : FR)
  | bfx (f : FR) | bfi (f : FR) | sel (f : FR) | mov (f : FR) | li (f : FI) | lih (f : FI)
  | abs (f : FR) | mad (f : FR) | cmp (f : FR) | fcmp (f : FR) | tstb (f : FR)
  | br (f : FB) | bri (f : FB) | call (f : FB) | calli (f : FB) | ret (f : FB) | loop (f : FB)
  | exit (f : FS) | exitCompletion (x : CtxId) | yield (f : FS) | trap (f : FS)
  -- float, lane and conversion instructions
  | fadd (f : FR) | fsub (f : FR) | fmul (f : FR) | fma (f : FR) | fmin (f : FR) | fmax (f : FR)
  | frcp (f : FR) | frsq (f : FR) | fex2 (f : FR) | flg2 (f : FR) | fsqt (f : FR) | fdot (f : FR)
  | shuf (f : FR) | bcst (f : FR) | redl (f : FR) | extl (f : FR) | insl (f : FR)
  | mlog (f : FR) | mpop (f : FR) | mmov (f : FR)
  | cvt (f : FR) | pack (f : FR) | unpk (f : FR) | qnt (f : FR) | dqnt (f : FR) | sclx (f : FR)
  -- memory, atomic and reduction instructions
  | ld (f : FM) | st (f : FM) | gth (f : FM) | sct (f : FM) | ldfe (f : FM) | ldfc (f : FM)
  | stfl (f : FM) | empt (f : FM) | stmap (f : FM) | stunmap (f : FM) | stag (f : FM) | ldt (f : FM)
  | pfr (f : FM) | prefetchCompletion (n : Nat) | wbk (f : FM) | inv (f : FM)
  | fence (f : FS) | fenceCode (f : FS) | fenceEng (f : FS) | atom (f : FM) | red (f : FM)
  | seedPerform (n : Nat)
  -- the context
  | migr (f : FR) | home (f : FR) | spawn (f : FR) | spawnat (f : FR) | join (f : FR) | nwr (f : FR)
  | arm (f : FR)
  -- obligations and ranks
  | obl (f : FR) | xfer (f : FR) | poison (f : FR) | obq (f : FR) | rksplit (f : FR)
  -- the barrier
  | bnew (f : FR) | bjoin (f : FR) | barv (f : FR) | bwait (f : FR) | bleave (f : FR) | bdel (f : FR)
  -- gates
  | gsig (f : FR) | gwait (f : FR) | gqry (f : FR)
  | gmakeCreate (f : FS) | gmakeRevoke (f : FS) | gmakeSetacl (f : FS) | gmakeFreeze (f : FS)
  | gmakeThaw (f : FS) | gmakeRead (f : FS)
  -- engines
  | cpy (f : FE) | mma (f : FE) | mdrn (f : FE) | mzro (f : FE) | jobc (f : FE)
  | tidw (f : FE) | tidr (f : FE) | tidinv (f : FE)
  -- queues, kernels, groups
  | qsub (f : FR) | launch (f : FR) | cntw (f : FR) | cncl (f : FR) | kswap (f : FR)
  | gred (f : FR) | gbc (f : FR) | gag (f : FR) | gtbl (f : FR) | gtblW (f : FR)
  -- the system
  | svc (f : FS) | hvc (f : FS) | eret (f : FS) | sysr (f : FS) | sysw (f : FS)
  | syswStatus (f : FS) | syswLfsr (f : FS) | syswWmask (f : FS) | bkpt (f : FS) | trmk (f : FS)
  | waiti (f : FS) | tlbiPage (f : FS) | tlbiAll (f : FS) | tlbiPart (f : FS)
  | ckpt (f : FS) | tbeg (f : FS) | tcom (f : FS) | tabt (f : FS) | uiret (f : FS) | uimask (f : FS)
  | pgsnap (f : FS) | pgret (f : FS)
  -- events: results, messages and traps of a core
  | variableResultLanding (core n : Nat)
  | fixedResultLanding (core n : Nat)
  | dividerResult (core : Nat)
  | sqrtUnitResult (core : Nat)
  | syncWakeReply (x : CtxId)
  | lineRefetch (x : CtxId)
  | depositArrival (n : Nat)
  | migrationArrival (n : Nat)
  | migrationRefusal (n : Nat)
  | visitorReturn (x : CtxId)
  | xferDelivery (n : Nat)
  | heirMerge (n : Nat)
  | cancelArrival (x : CtxId)
  | cancelAcknowledge (n : Nat)
  | waitWithdrawal (x : CtxId)
  | trapEntry (x : CtxId)
  | asyncEventDelivery (x : CtxId)
  | userInterruptDelivery (x : CtxId)
  -- events: pages, caches, errors
  | pageWalk (core : Nat) (p : PartId) (va : VA) (write : Bool)
  | cowCopy (p : PartId) (va : VA)
  | l2WaySweep (site : Nat)
  | dataErrorConsumption (x : CtxId) (err : DataErr) (pa : Nat)
  | rollback (p : PartId) (members : List CtxId)
  | checkpointLogRelease (p : PartId)
  | bankRebuildComplete (site : Nat) (arr : ArrayKind) (bank : Nat)
  -- events: engines
  | streamerRequest (core job : Nat)
  | jobStart (core job : Nat)
  | jobCompletion (core job : Nat)
  | followOnCommand (core job : Nat)
  | mmaCompletion (core : Nat)
  | timedCommandStart (core job : Nat)
  | timeZeroFix (p : PartId) (gid : Nat)
  | timeZeroReached (core : Nat) (p : PartId) (gid : Nat)
  -- events: queues and groups
  | cmdConfigure (p : PartId) (q : Nat)
  | cmdSuspend (p : PartId) (q : Nat)
  | cmdResume (p : PartId) (q : Nat)
  | cmdDrain (p : PartId) (q : Nat)
  | cmdReset (p : PartId) (q : Nat)
  | cmdRefused (p : PartId) (q : Nat)
  | packetValidation (p : PartId) (q : Nat)
  | headDependenceMet (p : PartId) (q : Nat)
  | queuePriorityAging (p : PartId) (q : Nat)
  | unitPlacement (n : Nat)
  | placementCompletion (core : Nat)
  | placementReconsider (pkg die : Nat)
  | counterCount (p : PartId) (c : Nat) (poisoned : Bool)
  | watchdogExpiry (p : PartId) (gid : Nat)
  | chunkFrameArrival (n : Nat)
  | collectiveCompletion (n : Nat)
  | fenceReport (a b : Nat) (p : PartId) (gid : Nat)
  | syncUnitReset (site : Nat)
  | gateRefillTick (site entry : Nat)
  | throttleRetry (x : CtxId)
  | throttleTimeout (x : CtxId)
  -- events: links and the order plane
  | retrainTimeout (l : LinkId)
  | viralNoticeArrival (pkg dst : Nat)
  | packageViral (pkg : Nat)
  | resendTimeout (pkg dst : Nat)
  | pauseExpiry (pkg dst : Nat) (vc : Nat)
  | fenceHandshake (a b : Nat)
  | tokenPass (pkg : Nat)
  | copseStore (pkg : Nat)
  | copseAtomic (pkg : Nat)
  | gateOperation (pkg : Nat)
  | copseBarrierOperation (pkg : Nat)
  | transactionReady (pkg : Nat)
  | transactionCommit (pkg : Nat)
  | transactionAbort (pkg : Nat)
  | groupTreeRebuildNotice (pkg : Nat)
  | orderFrameRecovery (pkg src : Nat)
  | orderRecoveryTimeout (pkg : Nat)
  | thornRegeneration (pkg : Nat)
  | bulkSlot (pkg : Nat)
  -- events: the host and Orotik
  | bootSequence (pkg : Nat) (failAt : Option Nat)
  -- events: system software's commands and repairs
  | preemption (core : Nat)
  | resumption (core vd : Nat)
  | slotTableChange (p : PartId)
  | traceSampleTick (core : Nat)
  -- events: steps inside other steps that the table lists by themselves
  | illegalOpcodeCell (w : Cell96)
  | storePerformed (n : Nat)
  | storeAcknowledged (n : Nat)
  | lazyWriteback (core off : Nat)
  | dropReport (x : CtxId) (info : BitVec 64)
  | replayThreshold (l : LinkId)
  -- events that come from outside the steps of the model: failures, the host, Orotik, system software
  | l2TagParityError (site set way : Nat) (dirtyClean : Bool)
  | bankFailure (site : Nat) (arr : ArrayKind) (bank : Nat)
  | linkOn (l : LinkId)
  | linkOff (l : LinkId)
  | trainingComplete (l : LinkId) (lanes total : Nat)
  | laneLoss (l : LinkId) (lanes : Nat)
  | linkFenceCommand (l : LinkId)
  | linkUnfenceCommand (l : LinkId)
  | dataFrameReceive (pkg dst : Nat) (seq : BitVec 12) (good : Bool) (body : Nat)
  | nakReceive (pkg dst : Nat) (ack : BitVec 12)
  | pauseFrame (pkg dst : Nat) (vcs : BitVec 4) (dur : BitVec 16)
  | flitEscapeTimeout (pkg n : Nat)
  | orderFrameGap (pkg : Nat)
  | reservedOkindFrame (pkg : Nat)
  | bulkFrameReceive (pkg src : Nat) (good : Bool)
  | hostFlagWindowAccess (pkg link : Nat) (vf : Option Nat) (off size : Nat) (write : Option (BitVec 64))
  | hostBarAccess (pkg link : Nat) (vf : Option Nat) (off size : Nat) (write : Option (BitVec 64))
  | flush (pkg link : Nat) (vf : Option Nat) (svc off : Nat) (val : BitVec 64)
  | doorbell (p : PartId) (q : Nat) (v : BitVec 32)
  | vfBind (pkg vf part : Nat)
  | keyLoad (p : PartId) (key : BitVec 512)
  | ptmExchange (pkg : Nat) (hostTime : Nat)
  | spdmRequest (pkg blk : Nat)
  | setDieClock (pkg die setting : Nat)
  | gateCore (pkg die site : Nat)
  | ungateCore (pkg die site : Nat)
  | gateChannel (pkg die site : Nat)
  | ungateChannel (pkg die site : Nat)
  | thermalTrip (pkg die : Nat)
  | packageReset (pkg : Nat)
  | bootCommand (pkg : Nat) (kdesc : List VA) (ptroot fmap fmlen : BitVec 64)
  | copseFormation (pkgs : List Nat)
  | coreRemoval (p : PartId) (lcore : Nat)
  | perPartitionReset (p : PartId)
  | partitionTagWrite (x : CtxId) (v : BitVec 64)
  | ebstatClearRecord (pkg : Nat) (v : BitVec 64)
  | ebstatClearCe (pkg : Nat)
  | cklogEnable (p : PartId) (v : BitVec 64)
  | cklogDisable (p : PartId) (v : BitVec 64)
  | debugStop (x : CtxId) (gen : BitVec 32)
  | debugRelease (x : CtxId) (gen : BitVec 32)
  | dieToDieReplay (l : LinkId)
  | dieReset (pkg die : Nat)
  deriving DecidableEq, Repr

end Sys2Proof
end

