-- ==== Sys2Proof/Machine/State.lean ====
section
/-! DEFINITION. The state of the NG-FJ4: a copse of up to 32 packages with everything the manual
gives each context, core, site, partition, group and package, the messages and results under way
between them, and the machine right after reset. All of it is plain data. -/

namespace Sys2Proof.Machine

open Sys2Proof

/-- Why a step stops. -/
inductive Fault where
  /-- No event is due, none is scheduled and no occupied slot can ever issue: the device waits for
  the outside world. Raised by `step` alone. Safe: the machine stops where the device idles. -/
  | quiescent
  deriving DecidableEq, Repr

/-- Why a step has no meaning. -/
inductive Refusal where
  /-- The instruction has no meaning yet; raised by its arm in Dispatch alone. Safe. -/
  | notModelled (mnemonic : String)
  deriving DecidableEq, Repr

/-- Privilege levels, in rising order (R6). -/
inductive Prv where
  | user | guest | hyp | maker
  deriving DecidableEq, Repr

/-- The states of a slot (R85). -/
inductive SlotSt where
  | free | ready | parkedMemory | parkedMessage | parkedSync | migrating | away | trapped
  | stopped | suspended | exited
  deriving DecidableEq, Repr

/-- The kinds of obligation (R68). -/
inductive OblKind where
  | bar | fill | feed | gate | done
  deriving DecidableEq, Repr

/-- A valid entry of an obligation table (R68); `moving` is the part of COUNT in transfer (R74). -/
structure Obl where
  kind : OblKind
  handle : W64
  rank : Nat
  count : Nat
  moving : Nat
  deriving DecidableEq, Repr

/-- A context reference (R79): GEN, logical core and slot. -/
structure CRef where
  gen : BitVec 32
  lcore : Nat
  slot : Nat
  deriving DecidableEq, Repr

/-- One bank of trap registers (R351). -/
structure Bank where
  ecause : W64
  epc : W64
  einfo : W64
  estat : W64
  erst : W64
  escr : W64
  deriving DecidableEq, Repr

/-- The trap causes by name (R353). -/
inductive Cause where
  | userInt | illegalOpcode | illegalEncoding | illegalLine | badTarget | badPc | instrParity | window
  | privilege | latency | timing | schedule | range | fp | intDivZero | translation | protection
  | alignment | cowPool | pageLost | memoryRace | foreignFill | poisoned | rankOrder | rankRange
  | oblOverflow | oblMissing | quota | gateDenied | gateRate | gateStale | protectionPart
  | countMismatch | engineFault | abftUncorrectable | cancelled | orphan | barrierBroken | txAbort
  | rollback | svc | bkpt | trap | machineCheck | hvc
  deriving DecidableEq, Repr

/-- An asynchronous event pending at a context (R357), with its `sys.einfo`; `xid` is the transfer
identifier that an engine's event puts into `%xferid` (R314, R320, R345). -/
structure AsyncEv where
  cause : Cause
  info : W64
  xid : Option (BitVec 16)
  deriving DecidableEq, Repr

/-- An engine completion waiting to be delivered as a user-level interrupt (R320, R359). -/
structure Completion where
  xid : BitVec 16
  handler : W64
  deriving DecidableEq, Repr

/-- A trap that has been taken and waits for the write windows of its context to close (R85, R96). -/
structure PendTrap where
  cause : Cause
  info : W64
  epc : VA
  asy : Bool
  rsm : Bool
  deriving DecidableEq, Repr

/-- Where a result lands: a register-file entry of the core, or a mask register of the slot. -/
inductive Dest where
  | none
  | reg (entry : Nat)
  | mask (slot n : Nat)
  deriving DecidableEq, Repr

/-- The object of a wait that a context has been parked by, or the reason it waits before issuing. -/
inductive WaitOn where
  /-- an operand or D whose presence bit is clear (R93) -/
  | operand
  /-- an armed register-file entry (R93, R115) -/
  | armed (entry : Nat)
  /-- the acknowledgement of the context's own earlier accesses, seeds or jobs (R175, R188, R106) -/
  | drain
  /-- an unresolved OBL or XFER of the context (R73) -/
  | table
  /-- a full/empty word, by LDFE (`take`), LDFC or JOIN (R178, R113) -/
  | word (key : Nat) (take : Bool)
  /-- a phase of a barrier (R245) -/
  | barrier (h : W64) (phase : BitVec 32)
  /-- a signal of a gate (R392) -/
  | gate (h : W64) (target : BitVec 32)
  /-- a value of a completion counter (R216) -/
  | counter (c : Nat) (val : BitVec 32)
  /-- WAITI (R18, R366) -/
  | waiti
  /-- a quota, since a time (R379) -/
  | throttled (since : Nat)
  /-- a GSIG of `n` or a GWAIT for `n` held at a gate: for tokens, since a time, or for the thaw of the
  partition (R385, R389) -/
  | gateHold (h : W64) (wait : Bool) (n : Nat) (since : Option Nat)
  /-- the walk of a page of a partition (R255) -/
  | walk (part vpn : Nat)
  /-- a copy-on-write copy (R259) -/
  | copy (va : VA)
  /-- accesses to a frame that have issued and are not performed (R265) -/
  | frame (n : Nat)
  /-- the channel of a site, which the host has gated (R455) -/
  | channel (site : Nat)
  /-- TLBI: the accesses and walks of a partition that have issued before (R264) -/
  | tlbi (part upTo : Nat)
  /-- a reply from a home, an order store, a dispatcher or another core -/
  | reply
  /-- the check of an MDRN in the array's queue, by its job (R339) -/
  | array (job : Nat)
  /-- TCOM or TABT: the commit or abort of the transaction (R418) -/
  | txEnd
  /-- a frame of the context's own to a copse word (R303) -/
  | ownFrame (word : Nat)
  /-- one of the four collectives outstanding (R230) -/
  | collective
  /-- a unit placed on a core whose stash is being resized, or before time zero (R155, R333) -/
  | placement
  /-- ARM: the open write window of a register-file entry (R115) -/
  | window (e : Nat)
  deriving DecidableEq, Repr

/-- What a reply lands (R94): a value for D, or a trap charged to the waiting instruction. -/
inductive Reply where
  | value (d : Dest) (v : Reg)
  | trap (c : Cause) (info : W64)
  deriving DecidableEq, Repr

/-- A line as the core holds it for a context (R19): its address, its 480 cell bits, its line word. -/
structure Line where
  addr : VA
  cells : BitVec 480
  word : BitVec 32
  deriving DecidableEq, Repr

/-- YIELD's condition (R107): the slots that are still to issue, and the earliest cycle. -/
structure Yielded where
  slots : List Nat
  cycle : Nat
  deriving DecidableEq, Repr

/-- The name of a transaction (R414): the package and GID of range 0, and TXID, with the number of the partition whose
group it is. -/
structure TxId where
  part : Nat
  pkg : Nat
  gid : Nat
  txid : Nat
  deriving DecidableEq, Repr

/-- How a context comes to enter a line (R19, R26, R46): by sequential flow or a checked branch, by an
event that supplies the PC, or by ERET or UIRET. -/
inductive Entry where
  | flow | event | resume
  deriving DecidableEq, Repr

/-- The marks of a register-file entry (R89). -/
structure Marks where
  present : Bool
  unread : Bool
  poison : Bool
  arm : Option Nat
  deriving DecidableEq, Repr

/-- What is taken back of the class-A member of a pair whose class-M member parks and is not performed after
all (R24): the entry that it writes with its old value and marks, the flags, its draws and how often `sys.lfsr`
had been written by software then, and the number of the first result of the pair. -/
structure PairUndo where
  dest : Dest
  old : Reg
  marks : Marks
  fpstat : W64
  draws : Nat
  lfsrWrites : Nat
  first : Nat
  deriving DecidableEq, Repr

/-- The instruction being issued: the slot, its own PC, the PC of the first member of its pair, the
sequential successor (R16), the literal words of its line with the LIT bits, and whether a member
was not performed (it trapped, or waits to issue). -/
structure Cur where
  id : CtxId
  pc : VA
  pc0 : VA
  nx : VA
  lits : BitVec 480
  lit : BitVec 5
  undone : Bool
  /-- it was not performed because it trapped -/
  trapped : Bool
  /-- the instruction is a member of a pair whose checks have been made for both members (R24) -/
  pair : Bool
  /-- what the next PC's `source` becomes (R46): all ones, or the PC of the pair's branch -/
  src : VA
  /-- the next cell in sequential flow has RST set (R417) -/
  rstNext : Bool
  deriving DecidableEq, Repr

/-- A throttled request (R94, R379): the instruction as it issued, and the window registers that its operands name,
as they were then. -/
structure Held where
  cur : Cur
  regs : List (Nat × Reg)
  deriving DecidableEq, Repr

/-- What a context carries (R85, R100, R351, R440, R371). -/
structure Ctx where
  part : Nat
  origin : CtxId
  lcore : Nat
  lcoreHere : Nat
  parent : Option CRef
  /-- the parent exited while the steward of its group, its heir, was yet to be placed (R75, R223) -/
  parentVia : Bool
  isUnit : Bool
  winBase : Nat
  winSize : Nat
  winShared : Bool
  pc : VA
  rstpc : VA
  entry : Entry
  source : VA
  prv : Prv
  status : W64
  fpstat : W64
  pkey : W64
  clampcnt : W64
  rklo : Nat
  rkhi : Nat
  uvec : W64
  gvec : W64
  hvec : W64
  udeleg : W64
  hdeleg : W64
  userBank : Bank
  guestBank : Bank
  hypBank : Bank
  masks : Map W64
  obls : Map Obl
  ownDone : Option W64
  nextIssue : Nat
  xferid : BitVec 16
  tstart : W64
  grp : Nat
  unit : BitVec 32
  nunits : BitVec 32
  kern : Nat
  lastArr : W64 × BitVec 32
  uintTaken : Bool
  /-- pending completions that a WAITI has already been completed by (R366) -/
  uintOwed : Nat
  events : List AsyncEv
  ints : List Completion
  intsOut : Nat
  region : Nat
  regionAt : Nat
  collOut : List Nat
  tx : Option TxId
  snapAt : Nat
  trap : Option PendTrap
  wait : WaitOn
  waitDest : Dest
  waitNx : VA
  /-- what the `source` of the next PC becomes (R46) -/
  waitSrc : VA
  /-- the address of the full/empty word that the context waits for (R178) -/
  waitVa : VA
  /-- the window register that would have received the erroneous data which the context waits to report (R171) -/
  badRead : Option Nat
  /-- the window registers whose presence a handler's ERET gives back, by the level of the handler (R171) -/
  badDest : List (Prv × Nat)
  waitUndo : Option PairUndo
  reply : Option Reply
  line : Option Line
  yielded : Option Yielded
  arrivedAt : Nat
  tableBusy : Nat
  waitSeq : Nat
  /-- the rank of the object of a rank-checked wait that the context is parked in (R64, R74) -/
  waitRank : Option Nat
  clampHere : W64
  /-- the instruction that is throttled and since when (R379) -/
  throttle : Option (VA × Nat)
  /-- the request that it has made and that waits to be offered again -/
  held : Option Held
  /-- a SYSW to `sys.status` that takes effect at the next issue (R443) -/
  statusWr : Option W64
  /-- a debug stop that is taken at the next boundary (R430) -/
  stopReq : Bool
  /-- how many replaced line values there were at its last FENCE.CODE (R272) -/
  codeSeen : Nat
  deriving DecidableEq, Repr

/-- A slot (R85, R87): its state, the state that a debug stop interrupted, the state that is saved while its core is
pre-empted, its GEN, and the context in it. -/
structure Slot where
  st : SlotSt
  prev : SlotSt
  saved : SlotSt
  gen : BitVec 32
  ctx : Ctx
  deriving DecidableEq, Repr

/-- A fixed-latency result in its write window (R92). -/
structure Pend where
  id : Nat
  due : Nat
  slot : Nat
  dst : Dest
  val : Reg
  deriving DecidableEq, Repr

/-- A part of a load: `n` bytes at `key` go to the `w` bits of the result from bit `lo` (R175, R176). -/
structure LoadPart where
  key : Nat
  n : Nat
  lo : Nat
  w : Nat
  sx : Bool
  deriving DecidableEq, Repr

/-- A load whose result has not landed (R278): its place in the program order of its context, and the parts
of it that are not bound. -/
structure Unbound where
  seq : Nat
  ctx : CtxId
  parts : List LoadPart
  deriving DecidableEq, Repr

/-- A variable-latency result that has not landed (R93). -/
structure VPend where
  id : Nat
  due : Nat
  slot : Nat
  dst : Dest
  val : Reg
  /-- of a memory access: what the result is still to be read from -/
  load : Option Unbound
  /-- of OBL: the obligation is unresolved until then (R73) -/
  table : Bool
  deriving DecidableEq, Repr

/-- A request to the divider or the square-root unit (R120, R139). -/
structure UnitReq where
  due : Nat
  slot : Nat
  dst : Dest
  val : Reg
  deriving DecidableEq, Repr

/-- An entry of the stash mapping table (R156, R182): VA and stash offset in bytes, length in KiB,
the partition whose addresses it binds. -/
structure StMap where
  part : Nat
  va : Nat
  off : Nat
  len : Nat
  deriving DecidableEq, Repr

/-- A line of an L1D way (R154): line address, valid and dirty bits of its two sectors. -/
structure L1Line where
  key : Nat
  valid : BitVec 2
  dirty : BitVec 2
  deriving DecidableEq, Repr

/-- An L2 tag entry (R158): line, owner, valid and dirty bits of the sectors, pins. -/
structure L2Line where
  key : Nat
  owner : Nat
  valid : BitVec 2
  dirty : BitVec 2
  pins : Nat
  /-- an invalidation waits for the last pin to be released (R161) -/
  stale : Bool
  deriving DecidableEq, Repr

/-- A line held by an LLC segment (R162). -/
structure LlcLine where
  key : Nat
  dirty : Bool
  deriving DecidableEq, Repr

/-- A TLB entry (R251, R255): tagged with the partition; the leaf PTE with its physical address and the frame it
maps to; whether the leaf is that of a 512 MiB page, and whether the entry serves all of that page. -/
structure TlbEntry where
  part : Nat
  vpn : Nat
  pte : W64
  frame : Nat
  entry : Nat
  wide : Bool
  whole : Bool
  deriving DecidableEq, Repr

/-- A walk that a walker makes or that waits for one (R255): its partition and address, the core that missed first,
whether for a write, and its place in the order of accesses. -/
structure WalkReq where
  part : Nat
  va : VA
  core : Nat
  write : Bool
  id : Nat
  deriving DecidableEq, Repr

/-- A sector that a stash has filled, as its home directory registers it (R156): where it is, and whether it is
dirty. -/
structure DirEnt where
  core : Nat
  off : Nat
  dirty : Bool
  deriving DecidableEq, Repr

/-- A frame under move (R266): the physical partition and the guest frame, the old frame and the new one, the
package, and where the PGRET's D lands. -/
structure FrameMove where
  pkg : Nat
  part : Nat
  gfn : Nat
  old : Nat
  new : Nat
  core : Nat
  slot : Nat
  dest : Dest
  deriving DecidableEq, Repr

/-- The constant bank of a kernel that has a context recorded under it on the core (R201). -/
structure KBank where
  part : Nat
  kern : Nat
  words : Map W32
  deriving DecidableEq, Repr

/-- The type of an accumulator (R326). -/
inductive AccTy where
  | fp32 | i32
  deriving DecidableEq, Repr

/-- An accumulator (R326): elements 32 i + j, checksum column K, checksum row L, type, and its poison
mark with the error that set it. -/
structure Acc where
  e : Map W32
  k : Map W32
  l : Map W32
  ty : AccTy
  poison : Option DataErr
  deriving DecidableEq, Repr

/-- A matrix command in the array's queue (R326, R338, R340): the product of an MMA or of a follow-on
command, described by its job, with the time at which it will be complete once it has begun; an MDRN whose context
waits for its check; or an MZRO. -/
inductive MCmd where
  | mma (job acc : Nat) (due : Option Nat)
  | mdrn (job acc : Nat)
  | mzro (acc : Nat) (ty : AccTy)
  deriving DecidableEq, Repr

/-- A region of a footprint (R321): of memory by virtual address, or of the core's stash. -/
structure Region where
  stash : Bool
  base : Nat
  len : Nat
  deriving DecidableEq, Repr

/-- The stages of a job (R319, R322): it waits to start, it works, its follow-on command works. -/
inductive JobSt where
  | queued | walking | following
  deriving DecidableEq, Repr

/-- What a job is (R321): a copy, a marker, a matrix product, or the writes of a drain. -/
inductive JobKind where
  | copy | marker | mma | drain
  deriving DecidableEq, Repr

/-- An engine job in the job window (R310, R319, R321). -/
structure Job where
  id : Nat
  kind : JobKind
  /-- the origin slot and the reference of the issuing context -/
  ctx : CtxId
  who : CRef
  part : Nat
  st : JobSt
  /-- the request has reached its streamer (R311) -/
  arrived : Bool
  /-- the 128 bytes of the parameter block as read at issue (R311), bit 0 of byte 0 first -/
  block : BitVec 1024
  tid : Reg
  tidA : Reg
  tidB : Reg
  pos : W64
  acc : Nat
  /-- the pages of operand lines with the frames they had at the check (R329) -/
  pages : List (Nat × Nat)
  reads : List Region
  writes : List Region
  /-- the footprint is a job card's (R323) -/
  card : Bool
  /-- the DONE handle counted at completion; `none` where there is none -/
  cnt : Option W64
  tokenKey : Option Nat
  count : Nat
  tiles : List Nat
  /-- an MDRN's writes: address, key, bytes, value (R339) -/
  rows : List (Nat × Nat × Nat × BitVec 256)
  /-- the cycle at which a timed command starts, and its offset (R332) -/
  timedAt : Option (Nat × BitVec 32)
  regionAt : Nat
  prv : Prv
  pkey : W64
  tx : Option TxId
  /-- the issuing context was cancelled: what the job would report is discarded (R334) -/
  mute : Bool
  /-- the operand lines that the tile fetcher is still to read, once it has begun (R329) -/
  rest : Option (List Nat)
  /-- the lines that it holds pinned, and the lines as it has read them (R161) -/
  pinned : List Nat
  got : List (Nat × BitVec 512)
  /-- the error that one of them carried -/
  bad : Option DataErr
  deriving DecidableEq, Repr

/-- A barrier entry (R234); PHIST as 32 bits. -/
structure Barrier where
  st : Nat
  ppois : Bool
  rank : Nat
  npart : Nat
  arrived : Nat
  owed : Nat
  waiters : Nat
  gen : BitVec 32
  phase : BitVec 32
  phist : BitVec 32
  part : Nat
  deriving DecidableEq, Repr

/-- An ACL entry of a gate (R382). -/
structure Acl where
  v : Bool
  frz : Bool
  tokens : Nat
  w : Bool
  s : Bool
  part : Nat
  deriving DecidableEq, Repr

/-- A gate (R382). -/
structure Gate where
  opened : Bool
  strict : Bool
  cps : Bool
  gen : BitVec 32
  waiters : Nat
  rank : Nat
  rate : Nat
  interval : Nat
  sig : BitVec 32
  phist : BitVec 32
  buflen : Nat
  bufpa : W64
  acl : List Acl
  born : Nat
  /-- poisoned signals held for frozen partitions: partition and count (R389) -/
  held : List (Nat × Nat)
  deriving DecidableEq, Repr

/-- Who owes the fill of an empty word (R177). -/
inductive Holder where
  | none
  | ctx (part : PartId) (r : CRef)
  | job (core n : Nat)
  | prefetcher (n : Nat)
  deriving DecidableEq, Repr

/-- The full/empty bit, poison mark and holder of a word (R166, R177). -/
structure FeWord where
  full : Bool
  poison : Bool
  holder : Holder
  deriving DecidableEq, Repr

/-- A record of an access to a sector (R284, R286): who made it, whether it wrote, the PC and VA, and
its place in S: a plain access lies in a region, which has ended at `ended` or is open; a sync
operation stands at one point, `start`. -/
structure RegionRec where
  sector : Nat
  who : CRef
  part : PartId
  job : Option (Nat × Nat)
  sync : Bool
  start : Nat
  ended : Option Nat
  wrote : Bool
  pc : VA
  va : VA
  deriving DecidableEq, Repr

/-- A plain store, or a seed's store, that has issued and is not yet acknowledged (R278). -/
structure PStore where
  id : Nat
  ctx : CtxId
  who : CRef
  part : PartId
  key : Nat
  va : VA
  len : Nat
  val : BitVec 256
  checked : Bool
  performed : Bool
  due : Nat
  pc : VA
  disc : Bool
  unch : Bool
  tx : Option TxId
  /-- the core and stash offset that the address was bound to at issue (R156, R183) -/
  bind : Option (Nat × Nat)
  /-- the lane of SCT, in bits [63:58] (R171) -/
  lane : W64
  deriving DecidableEq, Repr

/-- A seed in flight (R192). -/
structure Seed where
  id : Nat
  ctx : CtxId
  who : CRef
  part : PartId
  op : Nat
  dbl : Bool
  key : Nat
  va : VA
  val : W64
  carried : Option Obl
  checked : Bool
  pc : VA
  disc : Bool
  unch : Bool
  tx : Option TxId
  deriving DecidableEq, Repr

/-- A prefetch under way (R185). -/
structure Prefetch where
  id : Nat
  core : Nat
  part : PartId
  va : VA
  len : Nat
  token : Nat
  prv : Prv
  pkey : W64
  deriving DecidableEq, Repr

/-- A neighbour deposit under way (R97). -/
structure Deposit where
  id : Nat
  core : Nat
  port : Nat
  slot : Nat
  reg : Nat
  val : Reg
  part : PartId
  sender : CRef
  poison : Bool
  deriving DecidableEq, Repr

/-- An ATOM that travels to its word (R191): the operation, the address and its leaf, the operand, its own PC and the
PC at which its pair begins, and what is taken back of the other member where the ATOM is not performed (R24). -/
structure TravelAtom where
  op : Nat
  dbl : Bool
  sx : Bool
  va : VA
  pa : Nat
  pte : W64
  val : Reg
  pc : VA
  pc0 : VA
  undo : Option PairUndo
  deriving DecidableEq, Repr

/-- A migration message (R100): the moving context with its window of 16 registers and their marks,
where it came from, and what is done at placement. -/
structure Flight where
  id : Nat
  ctx : Ctx
  gen : BitVec 32
  regs : List (Reg × Marks)
  sender : CtxId
  target : Nat
  dest : Dest
  home : Bool
  /-- an ATOM that travels (R191) -/
  atom : Option TravelAtom
  deriving DecidableEq, Repr

/-- An offer of an obligation (R74). -/
structure XferMsg where
  id : Nat
  part : PartId
  src : CRef
  /-- the core of the sender's D -/
  core : Nat
  dst : CRef
  obl : Obl
  dest : Dest
  deriving DecidableEq, Repr

/-- Entries passing to an heir (R75). -/
structure MergeMsg where
  id : Nat
  heir : CRef
  part : PartId
  /-- where the context that exited was, and its reference -/
  from_ : CtxId
  who : CRef
  obls : List Obl
  deriving DecidableEq, Repr

/-- A cancel under way (R217): the contexts still to acknowledge, the issuer and its D. -/
structure CancelRec where
  id : Nat
  part : PartId
  left : List CtxId
  groups : List Nat
  issuer : Option CtxId
  /-- the virtual device that the issuer's core ran -/
  vd : Nat
  dest : Dest
  any : Bool
  deriving DecidableEq, Repr

/-- One member's part in a chunk of a collective (R229, R230): the instruction as the member issued it,
whether its data has reached its parent, and whether the completion has reached the member. -/
structure Contrib where
  member : Nat
  pkg : Nat
  who : CRef
  part : Nat
  kind : Nat
  src : VA
  dst : VA
  desc : Reg
  core : Nat
  /-- the virtual device that the core ran -/
  vd : Nat
  dest : Dest
  /-- the LEN bytes at A as they were read last -/
  data : Nat
  landed : Bool
  told : Bool
  deriving DecidableEq, Repr

/-- A chunk of a collective (R229): the partition, the package and GID of range 0, the tree, the sequence number. -/
structure Chunk where
  id : Nat
  part : Nat
  pkg0 : Nat
  gid0 : Nat
  tree : Nat
  seq : Nat
  parts : List Contrib
  complete : Bool
  status : Nat
  deriving DecidableEq, Repr

/-- A chunk frame on its way to a member (R420). -/
structure ChunkMsg where
  id : Nat
  chunk : Nat
  member : Nat
  treb : Nat
  completion : Bool
  status : Nat
  deriving DecidableEq, Repr

/-- The states of a group (R218). -/
inductive GroupSt where
  | placing | running | cancelling | ended
  deriving DecidableEq, Repr

/-- A member range of a group table (R227). -/
structure MRange where
  v : Bool
  lost : Bool
  pkg : Nat
  gid : Nat
  ucount : Nat
  ufirst : Nat
  deriving DecidableEq, Repr

/-- A tree layout of a group table (R227). -/
structure Tree where
  v : Bool
  root : Nat
  fan : Nat
  treb : Nat
  deriving DecidableEq, Repr

/-- Who inherits (R75, R223): nobody, a context, or the steward of a group, which is yet to be placed. -/
inductive Heir where
  | none
  | ctx (r : CRef)
  | held (gid : Nat)
  deriving DecidableEq, Repr

/-- An entry held for a steward that is yet to be placed (R223): the context whose entry it was, and where that ran. -/
structure HeldObl where
  who : CRef
  from_ : CtxId
  obl : Obl
  deriving DecidableEq, Repr

/-- A live group and its table (R218, R226, R227). -/
structure Group where
  part : PartId
  gid : Nat
  st : GroupSt
  rklo : Nat
  rkhi : Nat
  rebuilds : Nat
  wfired : Bool
  wact : Bool
  wdog : Nat
  wcount : Nat
  steward : Nat
  stewardCtx : Option CRef
  /-- the steward was counted with poison and is never placed (R223) -/
  stewardGone : Bool
  issuer : Heir
  lcnt : Nat
  nunits : Nat
  plan : BitVec 256
  ranges : List MRange
  trees : List Tree
  timed : Bool
  t0 : Option Nat
  heldObls : List HeldObl
  /-- the fenced pairs of packages for which notices have been placed (R419) -/
  noticed : List (Nat × Nat)
  queue : Option Nat
  deriving DecidableEq, Repr

/-- A launch that the dispatcher has accepted and not finished placing (R212, R213). -/
structure Launch where
  id : Nat
  pkg : Nat
  die : Nat
  part : Nat
  gid : Nat
  queue : Option Nat
  packet : BitVec 512
  kdesc : Nat
  next : Nat
  lastCore : Option Nat
  issuer : Heir
  /-- no core had room for the next unit; it is reconsidered by R400 -/
  stuck : Bool
  deriving DecidableEq, Repr

/-- What the dispatcher keeps for a queue beside its descriptor (R212): time waited, level raised. -/
structure QueueRt where
  part : PartId
  q : Nat
  raised : Nat
  waited : Nat
  /-- since when the head has been active and unplaced; `none` while it is blocked or suspended -/
  since : Option Nat
  /-- packets taken in a turn that is still open while others are served -/
  turn : Option Nat
  deriving DecidableEq, Repr

/-- A link (R288 to R293). -/
inductive LinkSt where
  | down | training | up | degraded | fenced | viral
  deriving DecidableEq, Repr

/-- A data frame kept until it is acknowledged (R293). -/
structure DFrame where
  seq : BitVec 12
  vc : Nat
  body : Nat
  deriving DecidableEq, Repr

/-- The state of a link's end (R289, R293, R299). -/
structure Link where
  st : LinkSt
  lanes : Nat
  attempts : Nat
  sendSeq : BitVec 12
  ackSeq : BitVec 12
  recvSeq : BitVec 12
  out : List DFrame
  accepted : List Nat
  paused : BitVec 4
  errors : Nat
  relay : Option Nat
  replays : Nat
  /-- frames, by channel and body, that wait at the sender -/
  held : List (Nat × Nat)
  /-- when the replays of the last millisecond were made -/
  rounds : List Nat
  /-- when ACK last made progress, or the first outstanding frame was sent -/
  progress : Nat
  deriving DecidableEq, Repr

/-- The kinds of order frame (R294), with what each carries. -/
inductive OBody where
  | token (members : BitVec 32) (next : Nat)
  | store (word part : Nat) (val : W64) (who : CtxId)
  | atomic (op : Nat) (word part : Nat) (val expected : W64) (who : CtxId) (dest : Dest) (sx : Bool)
  | red (op : Nat) (word part : Nat) (val : W64) (who : CtxId) (carried : Option Obl)
  | gate (op : Nat) (h : W64) (part n imgPart : Nat) (img : BitVec 256) (who : CtxId) (dest : Dest)
  | barrier (op : Nat) (h : W64) (arg : W64) (who : CtxId) (dest : Dest)
  | txReady (t : TxId) (npkgs : Nat)
  | txCommit (t : TxId) (npkgs : Nat)
  | txAbort (t : TxId) (cause code : Nat)
  | rebuild (part pkg0 gid0 tree lost treb : Nat)
  | reserved (okind : Nat)
  deriving DecidableEq, Repr

/-- An order frame (R294): plane sequence number, sender, place in the hold, body. -/
structure OFrame where
  pseq : Nat
  src : Nat
  nth : Nat
  body : OBody
  deriving DecidableEq, Repr

/-- The record of an error bank (R406). -/
structure EBank where
  val : Bool
  uc : Bool
  ovf : Bool
  addrv : Bool
  unit : Nat
  code : Nat
  part : Nat
  cecnt : Nat
  uccnt : Nat
  addr : W64
  misc : W64
  deriving DecidableEq, Repr

/-- An entry of the physical log (R356, R376, R380, R407): a type, a code, an address, a reference. -/
structure LogRec where
  ty : Nat
  code : Nat
  addr : W64
  who : W64
  deriving DecidableEq, Repr

/-- The states of a transaction on a package (R414). -/
inductive TxSt where
  | opened | committed | aborted
  deriving DecidableEq, Repr

/-- A transaction as a package keeps it (R414). -/
structure Tx where
  id : TxId
  st : TxSt
  members : List CtxId
  ready : List CtxId
  readyPkgs : List Nat
  sentReady : Bool
  deriving DecidableEq, Repr

/-- A snapshot of a context (R409). -/
structure Snapshot where
  who : CRef
  interval : Nat
  /-- the transaction whose TBEG made it, if one did (R418) -/
  tx : Option TxId
  slot : Slot
  regs : List (Reg × Marks)
  pc : VA
  deriving DecidableEq, Repr

/-- An undo entry (R409): the old bytes and marks of a line at the first write of a context in the
interval, in log order. -/
structure UndoRec where
  who : CRef
  line : Nat
  tx : Option TxId
  bytes : List Host.Cell
  fe : List (Nat × FeWord)
  deriving DecidableEq, Repr

/-- A barrier entry logged at its first change by a context in the interval (R409). -/
structure BarUndo where
  who : CRef
  site : Nat
  entry : Nat
  old : Barrier
  deriving DecidableEq, Repr

/-- The sync trail (R409): object, context, and whether it acquired or released. -/
structure Trail where
  obj : Nat
  who : CRef
  acq : Bool
  rel : Bool
  deriving DecidableEq, Repr

/-- The checkpoint log of one interval (R409). -/
structure CkLog where
  interval : Nat
  snaps : List Snapshot
  undo : List UndoRec
  bars : List BarUndo
  trail : List Trail
  writers : List (Nat × CRef)
  outside : List CRef
  exited : List CRef
  deriving DecidableEq, Repr

/-- A trace record that the core has still to write into its ring (R431, R432): kind, slot, SUB, payload,
stamp and logical core. -/
structure TraceRec where
  kind : Nat
  slot : Nat
  sub : Nat
  payload : W64
  stamp : Nat
  lcore : Nat
  deriving DecidableEq, Repr

/-- A core (R12, R87 to R92, R154 to R157, R310, R326, R431, R435, R441). -/
structure Core where
  rf : Map Reg
  marks : Map Marks
  slots : Map Slot
  ptr : Nat
  cyc : Nat
  nextAt : Nat
  pend : List Pend
  vpend : List VPend
  divq : List UnitReq
  sqq : List UnitReq
  ids : Nat
  lfsr : W32
  /-- how often software has written `sys.lfsr` -/
  lfsrWrites : Nat
  schk : Bool
  abfttol : BitVec 6
  abftinj : BitVec 18
  stashWays : Nat
  stash : Map Byte
  maps : Map StMap
  tags : Map (BitVec 16)
  resident : Option Nat
  l1 : Map L1Line
  tlb : List TlbEntry
  kbanks : List KBank
  accs : Map Acc
  mq : List MCmd
  jobs : List Job
  tids : Map Reg
  inbox : List Nat
  suspended : Bool
  vd : Nat
  savedInbox : List Instr
  gated : Bool
  placing : Option Nat
  bkstop : Bool
  trbase : W64
  trctl : W64
  trtail : W64
  trhead : W64
  trlost : W64
  trStamp : Option Nat
  trDropped : Nat
  trGap : Option Nat
  trq : List TraceRec
  /-- the slot that issued in the cycle just ended, and the PC (R432, R434) -/
  issued : Option (Nat × VA)
  pmsel : Map W64
  pmcnt : Map W64
  deriving DecidableEq, Repr

/-- A site: what stays in service beside a core (R8, R153, R158, R162, R233, R375, R412). -/
structure Site where
  tag : Nat
  bars : Map Barrier
  gates : Map Gate
  l2 : Map L2Line
  history : Map (List Nat)
  sweepWay : Nat
  llc : Map LlcLine
  badBanks : List (ArrayKind × Nat)
  retiredBanks : List (ArrayKind × Nat)
  gated : Bool
  deriving DecidableEq, Repr

/-- A die: its clock, its shared TLB, its dispatcher and its event counters (R255, R401, R435, R452). -/
structure Die where
  clock : Nat
  stopped : Bool
  tlb : List TlbEntry
  /-- the walks under way, one to a walker, and those that wait for one -/
  walks : List WalkReq
  walkq : List WalkReq
  /-- of each effective priority, the queue whose turn it is, partition × 256 + number, and the packets of its
  turn so far (R212) -/
  turns : Map (Nat × Nat)
  /-- the units placed in a row from LAUNCH requests while a queue was active (R401) -/
  consec : Nat
  dmsel : Map W64
  dmcnt : Map W64
  /-- the partition that wrote each select register -/
  dmpart : Map Nat
  deriving DecidableEq, Repr

/-- The registers and tables of a partition on a package (R351, R373, R374, R377 to R380, R408,
R422, R436, R441). -/
structure Part where
  ptroot : W64
  cowpool : W64
  qtab : W64
  ctab : W64
  rlog : W64
  fmap : W64
  fmlen : W64
  savebase : W64
  slottab : W64
  slotcfg : W64
  l2ptab : W64
  l2plen : W64
  quota : W64
  veqbase : W64
  veqhead : W64
  veqtail : W64
  veqlost : W64
  pmsess : W64
  tuvec : W64
  tgvec : W64
  thvec : W64
  tudeleg : W64
  thdeleg : W64
  cklog : W64
  interval : BitVec 32
  closes : BitVec 16
  rollbacks : BitVec 16
  log : CkLog
  oldLog : Option CkLog
  wmask : Map (BitVec 24)
  key : Option (BitVec 512)
  nextGid : BitVec 32
  /-- the old kernels of the KSWAPs that have been accepted (R202) -/
  swapped : List Nat
  deriving DecidableEq, Repr

/-- A package: its hub, order store, links, host side and Orotik (R11, R290, R295, R406, R422, R455). -/
structure Pkg where
  member : Bool
  members : BitVec 32
  holds : Bool
  lastHolder : Nat
  pseq : Nat
  lastApplied : Nat
  toSend : List OBody
  arrived : List OFrame
  kept : List OFrame
  gapAt : Option Nat
  discarded : Nat
  viral : Bool
  gates : Map Gate
  /-- the first words of the copse barriers that are not free (R240) -/
  copseBars : List Nat
  /-- the waiters recorded at the replica of each copse barrier: handle, phase, context (R234, R240) -/
  barWaits : List (W64 × BitVec 32 × CtxId)
  /-- the parts of a gate image that create or setacl is sending (R387) -/
  imgParts : List (BitVec 256)
  txs : List Tx
  links : List (LinkId × Link)
  detours : List (Nat × Nat)
  bulkOut : List Nat
  bulkIn : List (Nat × Nat)
  bulkSeq : Map (BitVec 12)
  wmsel : W64
  ebsel : BitVec 13
  ebanks : Map EBank
  plog : List LogRec
  pmavail : W64
  vfs : Map Nat
  boot : Nat
  bootFail : Option Nat
  pstatus : Nat
  timeSlew : Int
  /-- the correction being slewed in since a time, at 100 ppm (R428) -/
  slewCorr : Int
  slewAt : Nat
  msix : List (Nat × Nat)
  hostOut : List (BitVec 64)
  hostUr : Nat
  hostAbort : Nat
  flushLog : List (Nat × Nat)
  spdmOut : List W64
  deriving DecidableEq, Repr

/-- The machine: a copse of packages. -/
structure State where
  now : Nat
  agenda : List (Nat × Instr)
  turn : List Nat
  cur : Cur
  latencies : List Nat
  free : Nat
  fused : List Nat
  mem : List Host.Cell
  fe : Map FeWord
  lost : Map Unit
  bad : Map DataErr
  dir : Map DirEnt
  /-- the values that a write has replaced, of one line each, the latest first (R272) -/
  lineOld : List (Nat × BitVec 512)
  /-- the frames under move -/
  moves : List FrameMove
  recs : List RegionRec
  sOrder : Nat
  stores : List PStore
  seeds : List Seed
  prefetches : List Prefetch
  deposits : List Deposit
  flights : List Flight
  xfers : List XferMsg
  merges : List MergeMsg
  cancels : List CancelRec
  chunks : List Chunk
  chunkMsgs : List ChunkMsg
  groups : List Group
  launches : List Launch
  queues : List QueueRt
  cores : Map Core
  sites : Map Site
  dies : Map Die
  parts : Map Part
  pkgs : Map Pkg
  saves : Map Core
  ids : Nat
  deriving DecidableEq, Repr

/-! ### Values after reset (R452, R441) -/

def Bank.zero : Bank := ⟨0, 0, 0, 0, 0, 0⟩

/-- The context that an unoccupied slot shows: every register zero. -/
def Ctx.zero : Ctx where
  part := 0
  origin := ⟨0, 0⟩
  lcore := 0
  lcoreHere := 0
  parent := none
  parentVia := false
  isUnit := false
  winBase := 0
  winSize := 0
  winShared := false
  pc := 0
  rstpc := 0
  entry := .flow
  source := 0
  prv := .user
  status := 0
  fpstat := 0
  pkey := 0
  clampcnt := 0
  rklo := 0
  rkhi := 0
  uvec := 0
  gvec := 0
  hvec := 0
  udeleg := 0
  hdeleg := 0
  userBank := Bank.zero
  guestBank := Bank.zero
  hypBank := Bank.zero
  masks := []
  obls := []
  ownDone := none
  nextIssue := 0
  xferid := 0
  tstart := 0
  grp := 0
  unit := 0
  nunits := 0
  kern := 0
  lastArr := (0, 0)
  uintTaken := false
  uintOwed := 0
  events := []
  ints := []
  intsOut := 0
  region := 0
  regionAt := 0
  collOut := []
  tx := none
  snapAt := 0
  trap := none
  wait := .operand
  waitDest := .none
  waitNx := 0
  waitSrc := 0
  waitVa := 0
  badRead := none
  badDest := []
  waitUndo := none
  reply := none
  line := none
  yielded := none
  arrivedAt := 0
  tableBusy := 0
  waitSeq := 0
  waitRank := none
  clampHere := 0
  throttle := none
  held := none
  statusWr := none
  stopReq := false
  codeSeen := 0

def Slot.zero : Slot := ⟨.free, .free, .free, 0, Ctx.zero⟩

/-- A register-file entry that nothing has used: present, other marks clear (R89). -/
def Marks.fresh : Marks := ⟨true, false, false, none⟩

def FeWord.fresh : FeWord := ⟨true, false, .none⟩

def Acc.zero : Acc := ⟨[], [], [], .fp32, none⟩

/-- A core after package reset (R452, R441): the LFSR at 1, ABFTTOL at 0x10. -/
def Core.zero : Core where
  rf := []
  marks := []
  slots := []
  ptr := 0
  cyc := 0
  nextAt := 0
  pend := []
  vpend := []
  divq := []
  sqq := []
  ids := 0
  lfsr := 1
  lfsrWrites := 0
  schk := false
  abfttol := 0x10
  abftinj := 0
  stashWays := 0
  stash := []
  maps := []
  tags := []
  resident := none
  l1 := []
  tlb := []
  kbanks := []
  accs := []
  mq := []
  jobs := []
  tids := []
  inbox := []
  suspended := false
  vd := 0
  savedInbox := []
  gated := false
  placing := none
  bkstop := false
  trbase := 0
  trctl := 0
  trtail := 0
  trhead := 0
  trlost := 0
  trStamp := none
  trDropped := 0
  trGap := none
  trq := []
  issued := none
  pmsel := []
  pmcnt := []

def Barrier.zero : Barrier := ⟨0, false, 0, 0, 0, 0, 0, 0, 0, 0, 0⟩

def Gate.zero : Gate := ⟨false, false, false, 0, 0, 0, 0, 0, 0, 0, 0, 0, [], 0, []⟩

def Site.zero : Site := ⟨0, [], [], [], [], 0, [], [], [], false⟩

/-- Every die runs at 1.8 GHz after reset (R452): setting 2. -/
def Die.zero : Die := ⟨2, false, [], [], [], [], 0, [], [], []⟩

def CkLog.zero : CkLog := ⟨0, [], [], [], [], [], [], []⟩

def Part.zero : Part where
  ptroot := 0
  cowpool := 0
  qtab := 0
  ctab := 0
  rlog := 0
  fmap := 0
  fmlen := 0
  savebase := 0
  slottab := 0
  slotcfg := 0
  l2ptab := 0
  l2plen := 0
  quota := 0
  veqbase := 0
  veqhead := 0
  veqtail := 0
  veqlost := 0
  pmsess := 0
  tuvec := 0
  tgvec := 0
  thvec := 0
  tudeleg := 0
  thdeleg := 0
  cklog := 0
  interval := 0
  closes := 0
  rollbacks := 0
  log := CkLog.zero
  oldLog := none
  wmask := []
  key := none
  nextGid := 1
  swapped := []

def EBank.zero : EBank := ⟨false, false, false, false, 0, 0, 0, 0, 0, 0, 0⟩

def Link.zero : Link := ⟨.down, 0, 0, 0, 0, 0, [], [], 0, 0, none, 0, [], [], 0⟩

def Pkg.zero : Pkg where
  member := false
  members := 0
  holds := false
  lastHolder := 0
  pseq := 0
  lastApplied := 0
  toSend := []
  arrived := []
  kept := []
  gapAt := none
  discarded := 0
  viral := false
  gates := []
  copseBars := []
  barWaits := []
  imgParts := []
  txs := []
  links := []
  detours := []
  bulkOut := []
  bulkIn := []
  bulkSeq := []
  wmsel := 0
  ebsel := 0
  ebanks := []
  plog := []
  pmavail := 0x1F01FF7FFF
  vfs := []
  boot := 0
  bootFail := none
  pstatus := 0
  timeSlew := 0
  slewCorr := 0
  slewAt := 0
  msix := []
  hostOut := []
  hostUr := 0
  hostAbort := 0
  flushLog := []
  spdmOut := []

def Cur.zero : Cur := ⟨⟨0, 0⟩, 0, 0, 0, 0, 0, false, false, false, 0, false⟩

/-- The machine right after package reset (R452): one package, every slot free, every table empty,
every register at its reset value, memory with nothing listed, no core fused off (the model's choice:
notes/assumptions/119). Orotik's boot sequence has not run (`boot` is 0 in `Pkg.zero`). -/
def State.reset : State where
  now := 0
  agenda := []
  turn := []
  cur := Cur.zero
  latencies := []
  free := 0
  fused := []
  mem := []
  fe := []
  lost := []
  bad := []
  dir := []
  lineOld := []
  moves := []
  recs := []
  sOrder := 0
  stores := []
  seeds := []
  prefetches := []
  deposits := []
  flights := []
  xfers := []
  merges := []
  cancels := []
  chunks := []
  chunkMsgs := []
  groups := []
  launches := []
  queues := []
  cores := []
  sites := []
  dies := []
  parts := []
  pkgs := [(0, Pkg.zero)]
  saves := []
  ids := 0

end Sys2Proof.Machine
end

