-- ==== Sys2Proof/Machine/Map.lean ====
section
/-! DEFINITION. Sparse maps, memory as a canonical list of cells, and the byte-order and bit-field
helpers that every rule uses (R1, R5). -/

namespace Sys2Proof

/-- The value at a key, if the key is listed. -/
def Map.get? {V : Type} : Map V → Nat → Option V
  | [], _ => none
  | (k, v) :: t, a => if k = a then some v else Map.get? t a

/-- The value at a key; `d` where the key is not listed. -/
def Map.get {V : Type} (m : Map V) (a : Nat) (d : V) : V := (Map.get? m a).getD d

/-- Insertion that keeps the keys strictly rising. -/
def Map.put {V : Type} : Map V → Nat → V → Map V
  | [], a, v => [(a, v)]
  | (k, w) :: t, a, v =>
    if a < k then (a, v) :: (k, w) :: t else if a = k then (a, v) :: t else (k, w) :: Map.put t a v

/-- Removal of a key. -/
def Map.del {V : Type} : Map V → Nat → Map V
  | [], _ => []
  | (k, w) :: t, a => if k = a then t else (k, w) :: Map.del t a

/-- Every key of `m` lies above `lo`, and the keys rise strictly. -/
def Map.risingFrom {V : Type} : Map V → Nat → Bool
  | [], _ => true
  | (k, _) :: t, lo => decide (lo < k) && Map.risingFrom t k

/-- The keys rise strictly. -/
def Map.sorted {V : Type} : Map V → Bool
  | [] => true
  | (k, _) :: t => Map.risingFrom t k

namespace Machine

/-- The byte an address holds; an unlisted address reads 0 (the model's choice: notes/assumptions/1). -/
def memGet (m : List Host.Cell) (a : Nat) : Byte := Map.get m a 0

/-- One byte written; writing the value that an unlisted address reads as removes the entry. -/
def memPut (m : List Host.Cell) (a : Nat) (b : Byte) : List Host.Cell :=
  if b = 0 then Map.del m a else Map.put m a b

/-- The canonical form: addresses strictly rising, no entry equal to what an unlisted one reads as. -/
def Memory.wf (m : List Host.Cell) : Bool := Map.sorted m && m.all (fun c => c.2 != 0)

/-- `n` bytes from address `a`, the byte at `a` least significant (R1). -/
def memRead (m : List Host.Cell) (a : Nat) : Nat → Nat
  | 0 => 0
  | n + 1 => (memGet m a).toNat + 256 * memRead m (a + 1) n

/-- The low `n` bytes of `v` written from address `a` upward, least significant first (R1). -/
def memWrite (m : List Host.Cell) (a : Nat) : Nat → Nat → List Host.Cell
  | 0, _ => m
  | n + 1, v => memWrite (memPut m a (BitVec.ofNat 8 v)) (a + 1) n (v / 256)

/-- Bits [lo + n − 1 : lo] of a number. -/
def bitsOf (x lo n : Nat) : Nat := x / 2 ^ lo % 2 ^ n

/-- Bit `i` of a number. -/
def bitAt (x i : Nat) : Bool := x / 2 ^ i % 2 == 1

/-- A w-bit number read as a two's complement integer. -/
def signed (w x : Nat) : Int := if x < 2 ^ (w - 1) then (x : Int) else (x : Int) - 2 ^ w

/-- An integer reduced modulo 2^w (R47). -/
def wrapNat (w : Nat) (x : Int) : Nat := (x % (2 ^ w : Int)).toNat

/-- The numbers 0 to n − 1. -/
def upto (n : Nat) : List Nat := List.range n

/-- The first element that a test accepts. -/
def firstWhere {α : Type} (p : α → Bool) : List α → Option α
  | [] => none
  | x :: t => if p x then some x else firstWhere p t

/-- Insertion of a dated event: after every event due no later. -/
def schedule (l : List (Nat × Instr)) (t : Nat) (i : Instr) : List (Nat × Instr) :=
  match l with
  | [] => [(t, i)]
  | (u, j) :: rest => if u ≤ t then (u, j) :: schedule rest t i else (t, i) :: (u, j) :: rest

end Machine
end Sys2Proof
end

