-- ==== Sys2Proof/Machine/Access.lean ====
section
/-! DEFINITION. Where each piece of state is found, and the one way each is replaced: cores, slots,
contexts, sites, dies, partitions and packages. A core and its site share a number: package × 4096
+ die × 1024 + site in maker order (R8). -/

namespace Sys2Proof.Machine

open Sys2Proof

/-! ### Numbers of cores, dies and partitions (R8, R152) -/

def pkgOf (core : Nat) : Nat := core / 4096
def dieOf (core : Nat) : Nat := core / 1024 % 4
def siteNo (core : Nat) : Nat := core % 1024
def coreId (pkg die site : Nat) : Nat := pkg * 4096 + die * 1024 + site
def cxOf (core : Nat) : Nat := core % 32
def cyOf (core : Nat) : Nat := core / 32 % 32
def dieKey (core : Nat) : Nat := core / 1024
def partKey (p : PartId) : Nat := p.pkg * 65536 + p.part

/-! ### Reading and replacing a component -/

def coreOf (s : State) (c : Nat) : Core := Map.get s.cores c Core.zero
def setCore (s : State) (c : Nat) (k : Core) : State := { s with cores := Map.put s.cores c k }
def modCore (s : State) (c : Nat) (f : Core → Core) : State := setCore s c (f (coreOf s c))

def slotOf (s : State) (x : CtxId) : Slot := Map.get (coreOf s x.core).slots x.slot Slot.zero
def setSlot (s : State) (x : CtxId) (sl : Slot) : State :=
  modCore s x.core fun k => { k with slots := Map.put k.slots x.slot sl }
def modSlot (s : State) (x : CtxId) (f : Slot → Slot) : State := setSlot s x (f (slotOf s x))

def ctxOf (s : State) (x : CtxId) : Ctx := (slotOf s x).ctx
def modCtx (s : State) (x : CtxId) (f : Ctx → Ctx) : State :=
  modSlot s x fun sl => { sl with ctx := f sl.ctx }

def siteOf (s : State) (c : Nat) : Site := Map.get s.sites c Site.zero
def setSite (s : State) (c : Nat) (k : Site) : State := { s with sites := Map.put s.sites c k }
def modSite (s : State) (c : Nat) (f : Site → Site) : State := setSite s c (f (siteOf s c))

def dieAt (s : State) (k : Nat) : Die := Map.get s.dies k Die.zero
def modDie (s : State) (k : Nat) (f : Die → Die) : State :=
  { s with dies := Map.put s.dies k (f (dieAt s k)) }

def partOf (s : State) (p : PartId) : Part := Map.get s.parts (partKey p) Part.zero
def modPart (s : State) (p : PartId) (f : Part → Part) : State :=
  { s with parts := Map.put s.parts (partKey p) (f (partOf s p)) }

def pkgAt (s : State) (p : Nat) : Pkg := Map.get s.pkgs p Pkg.zero
def setPkg (s : State) (p : Nat) (k : Pkg) : State := { s with pkgs := Map.put s.pkgs p k }
def modPkg (s : State) (p : Nat) (f : Pkg → Pkg) : State := setPkg s p (f (pkgAt s p))

/-! ### The context that issues -/

def me (s : State) : CtxId := s.cur.id
def myCtx (s : State) : Ctx := ctxOf s (me s)
def myCore (s : State) : Core := coreOf s (me s).core
def mod (s : State) (f : Ctx → Ctx) : State := modCtx s (me s) f

/-- The partition of a context on the package where it runs. -/
def partId (s : State) (x : CtxId) : PartId := ⟨pkgOf x.core, (ctxOf s x).part⟩
def myPart (s : State) : PartId := partId s (me s)

/-- The place where a context lives: its origin (R102). -/
def originOf (s : State) (x : CtxId) : CtxId := (ctxOf s x).origin

/-- What a context reaches of its extended state: it stays in the origin slot (R100, R103). -/
def extOf (s : State) (x : CtxId) : Ctx := ctxOf s (originOf s x)
def modExt (s : State) (x : CtxId) (f : Ctx → Ctx) : State := modCtx s (originOf s x) f

/-- The context `c` with the extended state of `e` (R100): the trap banks, the vectors, the delegation masks, the
last-arrival record and `sys.clampcnt`. -/
def withExt (c e : Ctx) : Ctx :=
  { c with
    userBank := e.userBank
    guestBank := e.guestBank
    hypBank := e.hypBank
    uvec := e.uvec
    gvec := e.gvec
    hvec := e.hvec
    udeleg := e.udeleg
    hdeleg := e.hdeleg
    lastArr := e.lastArr
    clampcnt := e.clampcnt }

/-- A context with its extended state, wherever it runs. -/
def wholeCtx (s : State) (x : CtxId) : Ctx := withExt (ctxOf s x) (extOf s x)

/-- A context visits when it occupies a slot other than its origin (R85). -/
def visiting (s : State) (x : CtxId) : Bool := (ctxOf s x).origin != x

/-! ### Fresh numbers, open latencies and free choices -/

/-- A fresh number for a message or an entry. -/
def fresh (s : State) : Nat × State := (s.ids, { s with ids := s.ids + 1 })

/-- The next open latency: the head of the stream of latencies, a free value where it is exhausted. The
manual fixes no such value; every statement holds for every stream and every free value. -/
def nextLat (s : State) : Nat × State :=
  match s.latencies with
  | [] => (Config.openLatency s.free, { s with free := s.free + 1 })
  | t :: ts => (t, { s with latencies := ts })

/-- A free choice, from a counter that it advances. -/
def nextChoice (s : State) : Nat × State := (Config.freeChoice s.free, { s with free := s.free + 1 })

/-- An event scheduled at `t`. -/
def at_ (s : State) (t : Nat) (i : Instr) : State := { s with agenda := schedule s.agenda t i }

/-- An event scheduled in place of the same event at another time. -/
def atOnce (s : State) (t : Nat) (i : Instr) : State :=
  { s with agenda := schedule (s.agenda.filter fun e => e.2 != i) t i }

/-- The length of a cycle of a die in units of 1/2574 ns (R12): 780 at 3.3 GHz, 990 at 2.6 GHz and
1430 at 1.8 GHz. Settings 0, 1 and 2. -/
def cycleOf (setting : Nat) : Nat := if setting = 0 then 780 else if setting = 1 then 990 else 1430

def cyc (s : State) (core : Nat) : Nat := cycleOf (dieAt s (dieKey core)).clock

/-- One nanosecond in the units of `now`. -/
def ns (n : Nat) : Nat := n * 2574

/-- A core's cycle count brought up to a time at which it is not behind: cycle `cyc` begins at `nextAt`. -/
def Core.catchUp (k : Core) (len now : Nat) : Core :=
  if k.nextAt < now then
    let n := (now - k.nextAt + len - 1) / len
    { k with
      cyc := k.cyc + n
      nextAt := k.nextAt + n * len }
  else k

/-- An event scheduled `n` cycles of a core ahead. -/
def inCycles (s : State) (core n : Nat) (i : Instr) : State := at_ s (s.now + n * cyc s core) i

/-! ### Lists of records kept by number -/

def listMod {α : Type} (p : α → Bool) (f : α → α) (l : List α) : List α :=
  l.map fun a => if p a then f a else a

def listDel {α : Type} (p : α → Bool) (l : List α) : List α := l.filter fun a => !p a

end Sys2Proof.Machine
end

