-- ==== Sys2Proof/Machine/Operands.lean ====
section
/-! DEFINITION. Operands: types and their lanes (R40, R48), what each operand code reads (R28 to R30),
scalar sources and their extension (R15, R29), the effective address of format FM (R34), and where a
result goes. -/

namespace Sys2Proof

/-- The number of lanes of a type (R40); `o4` counts the 32 elements of a block. -/
def Ty.lanes : Ty → Nat
  | .i64 | .i32 | .f32 => 1
  | .i32x8 | .f32x8 => 8
  | .i16x16 | .f16x16 | .bf16x16 => 16
  | .i8x32 | .f8ex32 | .f8wx32 | .o4 => 32
  | .i4x64 => 64

/-- The width of a lane in bits (R40). -/
def Ty.width : Ty → Nat
  | .i64 => 64
  | .i32 | .f32 | .i32x8 | .f32x8 => 32
  | .i16x16 | .f16x16 | .bf16x16 => 16
  | .i8x32 | .f8ex32 | .f8wx32 => 8
  | .i4x64 | .o4 => 4

def Ty.isFloat : Ty → Bool
  | .f32 | .f32x8 | .f16x16 | .bf16x16 | .f8ex32 | .f8wx32 => true
  | _ => false

def Ty.isInt : Ty → Bool
  | .i64 | .i32 | .i32x8 | .i16x16 | .i8x32 | .i4x64 => true
  | _ => false

def Ty.isScalar : Ty → Bool
  | .i64 | .i32 | .f32 => true
  | _ => false

def Sz.bytes : Sz → Nat
  | .b8 => 1 | .b16 => 2 | .b32 => 4 | .b64 => 8 | .b128 => 16 | .b256 => 32

/-- The operand fields of a cell. -/
def Cm.fields (c : Cm) : List Opnd := [c.d, c.a, c.b, c.c]

/-- The source fields of a cell. -/
def Cm.srcs (c : Cm) : List Opnd := [c.a, c.b, c.c]

/-- The operand fields of an FR cell: those of every format, and the mask register that MK reads (R31, R92). -/
def FR.fields (f : FR) : List Opnd := f.toCm.fields ++ (if f.mask = 0 then [] else [.m f.mask])

/-- Signed variant: MIN[0] clear (R40, R117). -/
def FR.sgn (f : FR) : Bool := !f.min.getLsbD 0

/-- VEC, SENSE and SKIP of a compare (R38). -/
def FR.vec (f : FR) : Bool := f.flg.getLsbD 3
def FR.sense (f : FR) : Bool := f.flg.getLsbD 2
def FR.skip (f : FR) : Nat := f.flg.toNat % 4

namespace Machine

/-- `sys.obmin` (R63): the least rank of a valid entry, 0x1_0000 where there is none. -/
def obminOf (c : Ctx) : Nat := c.obls.foldl (fun m e => Nat.min m e.2.rank) 0x10000

/-- What has been slewed in of a correction: one part in 10,000 of the time since it began (R428). -/
def slewBy (k : Pkg) (n : Nat) : Int :=
  let e : Int := ((n - k.slewAt) / 10000 : Nat)
  if 0 ≤ k.slewCorr then min k.slewCorr e else max k.slewCorr (-e)

/-- The 1 GHz timebase of a package, in ns (R428). -/
def timeOf (s : State) (pkg : Nat) : Nat :=
  ((s.now / 2574 : Nat) + (pkgAt s pkg).timeSlew + slewBy (pkgAt s pkg) (s.now / 2574)).toNat

/-- A context reference as a word (R79). -/
def refWord (r : CRef) : W64 :=
  BitVec.ofNat 64 (r.gen.toNat * 2 ^ 32 + r.lcore % 16384 * 256 + r.slot % 64)

/-- The reference of the context in a slot: the origin's logical core, slot and GEN (R79, R102). -/
def refOf (s : State) (x : CtxId) : CRef :=
  let c := ctxOf s x
  ⟨(slotOf s c.origin).gen, c.lcore, c.origin.slot⟩

/-- The value of a special register (R30) for the context `x`; `lanes` is the lane count of the type. -/
def sregVal (s : State) (x : CtxId) (lanes : Nat) (r : SReg) : Nat :=
  let c := ctxOf s x
  match r with
  | .lane => lanes - 1
  | .slot => x.slot
  | .core => c.lcoreHere
  | .cx => cxOf x.core
  | .cy => cyOf x.core
  | .die => dieOf x.core
  | .pkg => pkgOf x.core
  | .part => (Config.guestPart c.part).toNat
  | .grp => c.grp
  | .unit => c.unit.toNat
  | .nunits => c.nunits.toNat
  | .clk => (coreOf s x.core).cyc % 2 ^ 64
  | .time => timeOf s (pkgOf x.core) % 2 ^ 64
  | .obmin => obminOf c
  | .rklo => c.rklo
  | .rkhi => c.rkhi
  | .win => c.winBase % 2 ^ 11 + c.winSize % 2 ^ 11 * 2 ^ 16
  | .xferid => c.xferid.toNat
  | .tstart => c.tstart.toNat

/-- The register-file entry that window register `n` of a context names (R29). -/
def entryOf (s : State) (x : CtxId) (n : Nat) : Nat := (ctxOf s x).winBase + n

def entryVal (s : State) (core e : Nat) : Reg := Map.get (coreOf s core).rf e 0
def entryMarks (s : State) (core e : Nat) : Marks := Map.get (coreOf s core).marks e Marks.fresh

/-- The value of a window register. -/
def gVal (s : State) (x : CtxId) (n : Nat) : Reg := entryVal s x.core (entryOf s x n)

/-- The value of a mask register: m0 reads as all ones (R140). -/
def maskVal (s : State) (x : CtxId) (n : Nat) : W64 :=
  if n = 0 then BitVec.allOnes 64 else Map.get (ctxOf s x).masks n 0

/-- A constant word of the kernel that the context runs under, on the core where it runs; a word that
the bank does not set reads as zero (R28, R29, R201). -/
def kVal (s : State) (x : CtxId) (n : Nat) : W32 :=
  let c := ctxOf s x
  match firstWhere (fun b => b.part == c.part && b.kern == c.kern) (coreOf s x.core).kbanks with
  | some b => Map.get b.words n 0
  | none => 0

/-- A literal word of the line that issues (R25). -/
def litVal (s : State) (cell word : Nat) : W32 :=
  BitVec.ofNat 32 (s.cur.lits.toNat / 2 ^ (96 * cell + 32 * word))

/-- A scalar source (R29): its bits and their width; `none` for a register-like operand. -/
def scalarSrc (s : State) (imm20 : BitVec 20) (o : Opnd) : Option (Nat × Nat) :=
  match o with
  | .k n => some ((kVal s (me s) n).toNat, 32)
  | .lit c w => some ((litVal s c w).toNat, 32)
  | .i20 => some (imm20.toNat, 20)
  | _ => none

/-- A register-like operand as 256 bits: a window register, a special register with its value in bits
[63:0], a mask register zero-extended, or z (R29). -/
def wideSrc (s : State) (lanes : Nat) (o : Opnd) : Reg :=
  match o with
  | .g n => gVal s (me s) n
  | .sp r => BitVec.ofNat 256 (sregVal s (me s) lanes r)
  | .m n => (maskVal s (me s) n).setWidth 256
  | _ => 0

/-- The bits of a scalar source extended to width `w` (R15). -/
def extend (sgn : Bool) (v n w : Nat) : Nat := if sgn then wrapNat w (signed n v) else v % 2 ^ w

/-- Integer lane `i` of width `w` of an operand, as a bit pattern (R29, R48). -/
def laneBits (s : State) (imm20 : BitVec 20) (lanes : Nat) (o : Opnd) (i w : Nat) (sgn : Bool) : Nat :=
  match scalarSrc s imm20 o with
  | some (v, n) => extend sgn v n w
  | none => bitsOf (wideSrc s lanes o).toNat (w * i) w

/-- A source read as a 64-bit value; scalar sources are sign-extended (R15, R79, R108, R169). `%lane` reads 0 in an
instruction that has no lane type (the model's choice: notes/assumptions/117). -/
def src64i (s : State) (imm20 : BitVec 20) (o : Opnd) : W64 :=
  BitVec.ofNat 64 (laneBits s imm20 1 o 0 64 true)

/-- The same for an instruction of a lane type, whose `%lane` is its lane count minus 1 (R30). An I20 is read as
an integer, whatever the type (the model's reading for a lane index or a group number of a float type:
notes/assumptions/112). -/
def src64L (f : FR) (s : State) (o : Opnd) : W64 := BitVec.ofNat 64 (laneBits s f.imm20 f.t.lanes o 0 64 true)

def src64 (s : State) (o : Opnd) : W64 := src64i s 0 o

/-- A source read as a 64-bit value with scalar sources zero-extended (R126, R365). -/
def src64u (s : State) (o : Opnd) : W64 := BitVec.ofNat 64 (laneBits s 0 1 o 0 64 false)

/-- A source read as 256 bits: a window register whole, any other source in bits [63:0] (R108). -/
def src256 (s : State) (imm20 : BitVec 20) (o : Opnd) : Reg :=
  match o with
  | .g n => gVal s (me s) n
  | _ => (src64i s imm20 o).setWidth 256

/-- The effective address of format FM with index value `ix` (R34). -/
def ea (base ix : W64) (scl : BitVec 3) (off : BitVec 24) : VA :=
  BitVec.ofNat 57 (base.toNat % 2 ^ 57 + ix.toNat * 2 ^ scl.toNat + wrapNat 57 (signed 24 off.toNat))

/-- The address that an FM instruction forms (R34, R171). -/
def fmAddr (f : FM) (s : State) : VA := ea (src64 s f.a) (src64 s f.b) f.scl f.off

/-- The target of format FB, relative to the line of `pc` (R26). -/
def fbTarget (pc : VA) (loff : BitVec 32) (tcell : Fin 5) : VA :=
  BitVec.ofNat 57 (pc.toNat / 64 * 64 + wrapNat 57 (signed 32 loff.toNat * 64) + tcell)

/-- Where the D of an instruction lands: a register-file entry, a mask register, or nowhere. -/
def destOf (s : State) (d : Opnd) : Dest :=
  match d with
  | .g n => .reg (entryOf s (me s) n)
  | .m n => .mask (me s).slot n
  | _ => .none

/-- A 64-bit result in a register: bits [255:64] zero (R29). -/
def w64 (v : W64) : Reg := v.setWidth 256

def nat256 (v : Nat) : Reg := BitVec.ofNat 256 v

/-- A register built from lanes of width `w`, lane 0 first. -/
def packLanes (w : Nat) : List Nat → Nat
  | [] => 0
  | v :: t => v % 2 ^ w + 2 ^ w * packLanes w t

end Machine
end Sys2Proof
end

