-- ==== Sys2Proof/Machine/Monitor.lean ====
section
/-! DEFINITION. What a core and a die record about themselves: event counters (R435) and the trace records
that a core has still to write into its ring (R431, R432). -/

namespace Sys2Proof.Machine

open Sys2Proof

/-- A counter whose select `sel` is enabled for event `ev` and that is not unavailable counts `n` (R435). -/
def bump (sel cnt : W64) (ev n : Nat) : W64 :=
  if sel.getLsbD 8 && bitsOf sel.toNat 0 6 == ev && !cnt.getLsbD 63 then
    BitVec.ofNat 64 ((cnt.toNat + n) % 2 ^ 63)
  else cnt

/-- The counters of a bank that select an event count it. -/
def bumpAll (sels cnts : Map W64) (ok : Nat → Bool) (ev n : Nat) : Map W64 :=
  sels.foldl (fun m e =>
    let v := Map.get m e.1 0
    let w := bump e.2 v ev n
    if ok e.1 && w != v then Map.put m e.1 w else m) cnts

/-- `n` occurrences of an event of a core. -/
def pmCore (s : State) (core ev n : Nat) : State :=
  if (coreOf s core).pmsel.isEmpty || !(pkgAt s (pkgOf core)).pmavail.getLsbD ev then s
  else modCore s core fun k => { k with pmcnt := bumpAll k.pmsel k.pmcnt (fun _ => true) ev n }

/-! ### The classing of slots (R434) -/

/-- The event of a slot that the pointer passes: classes 1 to 4 are events 0x03 to 0x06; a slot awaiting a
travelling context is none. -/
def classEvent (st : SlotSt) : Option Nat :=
  match st with
  | .ready => some 3
  | .parkedMemory => some 4
  | .parkedMessage | .parkedSync => some 5
  | .migrating => none
  | _ => some 6

/-- The bin of the ready histogram. -/
def readyBin (n : Nat) : Nat :=
  if n ≤ 2 then n else if n ≤ 4 then 3 else if n ≤ 8 then 4 else if n ≤ 16 then 5 else if n ≤ 32 then 6
  else if n ≤ 48 then 7 else 8

/-- `n` cycles of a core in which the pointer passes the slots `passed` and issues none of them. -/
def countCycles (s : State) (core n : Nat) (passed : List Nat) : State :=
  let k := coreOf s core
  if k.pmsel.isEmpty then s
  else
    let st := fun i => (Map.get k.slots i Slot.zero).st
    let s := pmCore (pmCore s core 0 n) core (0x10 + readyBin (((upto 64).filter fun i => st i == .ready).length)) n
    passed.foldl (fun s i =>
      match classEvent (st i) with
      | some e => pmCore s core e n
      | none => s) s

/-- A core's cycle count brought up to a time at which it is not behind; the cycles it idled through are
classed as any others. -/
def catchCore (s : State) (c : Nat) : State :=
  let k := coreOf s c
  let k2 := Core.catchUp k (cyc s c) s.now
  let s := setCore s c k2
  if k2.cyc = k.cyc then s else countCycles s c (k2.cyc - k.cyc) (upto 64)

/-- An occurrence of an event of a die; the events of a partition count in the counters that it selected. -/
def pmDie (s : State) (core part ev : Nat) : State :=
  if (dieAt s (dieKey core)).dmsel.isEmpty || !(pkgAt s (pkgOf core)).pmavail.getLsbD ev then s
  else
    let mine : Die → Nat → Bool := fun d i => (ev != 0x20 && ev != 0x21) || Map.get d.dmpart i 0 == part
    modDie s (dieKey core) fun d => { d with dmcnt := bumpAll d.dmsel d.dmcnt (mine d) ev 1 }

/-- Whether a core's ring takes records of a kind (R433): kinds 1, 2, 3 and 8 always. -/
def traced (k : Core) (kind : Nat) : Bool :=
  k.trctl.getLsbD 0 && (kind == 1 || kind == 2 || kind == 3 || kind == 8 || k.trctl.getLsbD (kind + 1))

/-- A record for the ring of a core, stamped now. -/
def note (s : State) (core kind slot sub : Nat) (payload : W64) : State :=
  if traced (coreOf s core) kind then
    modCore s core fun k => { k with trq := k.trq ++
      [⟨kind, slot, sub, payload, timeOf s (pkgOf core),
        (Map.get k.slots slot Slot.zero).ctx.lcoreHere⟩] }
  else s

end Sys2Proof.Machine
end

