-- ==== Sys2Proof/Machine/Ops.lean ====
section
/-! DEFINITION. The operations that every meaning shares: marks, write windows and landings (R89, R92,
R93, R98), taking a trap and returning from one (R351 to R356, R364), the checks every issue makes
(R43, R29, R90 to R93, R70), obligations (R63, R68), waits and parks (R64, R86, R94), and moving on. -/

namespace Sys2Proof.Machine

open Sys2Proof

/-- What a meaning answers. -/
abbrev Out := Host.Outcome State Fault Refusal

/-! ### `sys.status` (R442) -/

def stUH : Nat := 0
def stGH : Nat := 1
def stHH : Nat := 2
def stUIM : Nat := 3
def stSKN : Nat := 4
def stRSM : Nat := 6
def stCLAMP : Nat := 8
def stLINKOVR : Nat := 9
def stLINKDROP : Nat := 10
def stVRET : Nat := 11
def stPTAGR : Nat := 12
def stABFTC : Nat := 13

/-- A bit of a 64-bit register set to a value. -/
def putBit (w : W64) (i : Nat) (b : Bool) : W64 :=
  if b then w ||| BitVec.ofNat 64 (2 ^ i) else w &&& ~~~(BitVec.ofNat 64 (2 ^ i))

/-- A field of a 64-bit register replaced. -/
def putField (w : W64) (lo n v : Nat) : W64 :=
  (w &&& ~~~(BitVec.ofNat 64 ((2 ^ n - 1) * 2 ^ lo))) ||| BitVec.ofNat 64 (v % 2 ^ n * 2 ^ lo)

def skn (c : Ctx) : Nat := bitsOf c.status.toNat stSKN 2
def setStatus (s : State) (x : CtxId) (i : Nat) (b : Bool) : State :=
  modCtx s x fun c => { c with status := putBit c.status i b }

/-! ### Causes (R353) -/

/-- The cause code. -/
def Cause.code : Cause → Nat
  | .userInt => 0x00 | .illegalOpcode => 0x01 | .illegalEncoding => 0x02 | .illegalLine => 0x03
  | .badTarget => 0x04 | .badPc => 0x05 | .instrParity => 0x06 | .window => 0x07 | .privilege => 0x08
  | .latency => 0x09 | .timing => 0x0A | .schedule => 0x0B | .range => 0x0C | .fp => 0x0D
  | .intDivZero => 0x0E | .translation => 0x10 | .protection => 0x11 | .alignment => 0x12
  | .cowPool => 0x13 | .pageLost => 0x14 | .memoryRace => 0x15 | .foreignFill => 0x16
  | .poisoned => 0x17 | .rankOrder => 0x18 | .rankRange => 0x19 | .oblOverflow => 0x1A
  | .oblMissing => 0x1B | .quota => 0x1C | .gateDenied => 0x1D | .gateRate => 0x1E
  | .gateStale => 0x1F | .protectionPart => 0x20 | .countMismatch => 0x21 | .engineFault => 0x22
  | .abftUncorrectable => 0x23 | .cancelled => 0x24 | .orphan => 0x25 | .barrierBroken => 0x26
  | .txAbort => 0x27 | .rollback => 0x28 | .svc => 0x29 | .bkpt => 0x2A | .trap => 0x2B
  | .machineCheck => 0x2C | .hvc => 0x2D

/-- The causes whose bit of `sys.udeleg` can be set (R351, R353). -/
def Cause.delegable (k : Cause) : Bool :=
  let n := k.code
  (0x09 ≤ n && n ≤ 0x0E) || n == 0x12 || (0x14 ≤ n && n ≤ 0x1F) || (0x21 ≤ n && n ≤ 0x28) ||
    n == 0x2A || n == 0x2B

/-- The mask of the delegable codes (R351). -/
def udelegMask : W64 := 0x00000DFEFFF47E00

/-- The level that takes a cause raised in a context, before nesting (R354). -/
def targetLevel (c : Ctx) (k : Cause) (info : W64) : Prv :=
  if k = .userInt then .user
  else if k = .hvc || (k == .translation && info.getLsbD 57) then .hyp
  else if c.prv = .hyp || c.prv == .maker || c.hdeleg.getLsbD k.code then .hyp
  else if k = .svc then .guest
  else if c.prv = .user && c.udeleg.getLsbD k.code then .user
  else .guest

/-- The number of a level's bit in `sys.status` (R442). -/
def levelBit : Prv → Nat
  | .user => stUH
  | .guest => stGH
  | _ => stHH

def levelRuns (c : Ctx) (l : Prv) : Bool := c.status.getLsbD (levelBit l)

/-- The level that a synchronous cause reaches by escalation, and whether it was escalated; `none`
where it would pass the hypervisor (R356). -/
def escalate (c : Ctx) (l : Prv) : Option (Prv × Bool) :=
  if !levelRuns c l then some (l, false)
  else if l = .user && !levelRuns c .guest then some (.guest, true)
  else if (l == .user || l == .guest) && !levelRuns c .hyp then some (.hyp, true)
  else none

def bankOf (c : Ctx) : Prv → Bank
  | .user => c.userBank
  | .guest => c.guestBank
  | _ => c.hypBank

def putBank (c : Ctx) (l : Prv) (b : Bank) : Ctx :=
  match l with
  | .user => { c with userBank := b }
  | .guest => { c with guestBank := b }
  | _ => { c with hypBank := b }

def vecOf (c : Ctx) : Prv → W64
  | .user => c.uvec
  | .guest => c.gvec
  | _ => c.hvec

def prvNo : Prv → Nat
  | .user => 0 | .guest => 1 | .hyp => 2 | .maker => 3

def prvOf (n : Nat) : Prv := if n = 0 then .user else if n = 1 then .guest else if n = 2 then .hyp else .maker

/-- What trap entry writes to `sys.estat` (R352). -/
def estatWord (esc asy rsm : Bool) (skip prv : Nat) : W64 :=
  BitVec.ofNat 64 (esc.toNat * 512 + asy.toNat * 256 + rsm.toNat * 128 + skip % 4 * 16 + prv)

/-- Entry into the handler of a level (R355). `pcv` is the PC of the handler. -/
def enterCtx (c : Ctx) (l : Prv) (k : Cause) (info : W64) (epc pcv : VA) (esc asy rsm : Bool) : Ctx :=
  let b := { bankOf c l with
    ecause := BitVec.ofNat 64 k.code
    einfo := info
    epc := epc.setWidth 64
    erst := c.rstpc.setWidth 64
    estat := estatWord esc asy rsm (if rsm then 0 else skn c) (prvNo c.prv) }
  let st := putBit (putField (putBit c.status stRSM rsm) stSKN 2 0) (levelBit l) true
  { putBank c l b with
    status := st
    prv := l
    pc := pcv
    entry := .event
    source := epc
    line := none
    trap := none
    wait := .operand }

/-- An entry of the physical log of a package (R356, R376, R380). -/
def logPhys (s : State) (pkg ty code : Nat) (addr who : W64) : State :=
  modPkg s pkg fun p => { p with plog := p.plog ++ [⟨ty, code, addr, who⟩] }

/-- A slot leaves the ready state or has issued: it no longer holds back a YIELD (R107). -/
def dropYield (s : State) (x : CtxId) : State :=
  modCore s x.core fun k =>
    { k with slots := k.slots.map fun e => (e.1, { e.2 with ctx := { e.2.ctx with
      yielded := e.2.ctx.yielded.map fun y => { y with slots := y.slots.filter (· != x.slot) } } }) }

/-- A slot's state replaced. -/
def setSt (s : State) (x : CtxId) (st : SlotSt) : State := modSlot s x fun sl => { sl with st := st }

/-- A context that cannot take a cause at any level: it stops, and Orotik logs the cause, the PC and the
three banks (R356). -/
def stopCtx (s : State) (x : CtxId) (k : Cause) (epc : VA) : State :=
  let c := ctxOf s x
  let s := logPhys s (pkgOf x.core) 0x100 k.code (epc.setWidth 64) (refWord (refOf s x))
  let s := [c.userBank, c.guestBank, c.hypBank].foldl
    (fun s b => logPhys s (pkgOf x.core) 0x101 b.ecause.toNat b.epc b.einfo) s
  dropYield (modSlot s x fun sl =>
    { sl with
      st := .stopped
      prev := .ready
      ctx := { sl.ctx with trap := none } }) x

/-- Whether the context is parked. -/
def isParked : SlotSt → Bool
  | .parkedMemory | .parkedMessage | .parkedSync => true
  | _ => false

/-- Every context of a core that waits on operands looks again: the parks before issue of R93. -/
def wakeOperands (s : State) (core after : Nat) (p : WaitOn → Bool) : State :=
  modCore s core fun k =>
    { k with
      slots := k.slots.map fun e =>
        if isParked e.2.st && p e.2.ctx.wait then
          (e.1, { e.2 with
            st := .ready
            ctx := { e.2.ctx with
              wait := .operand
              nextIssue := Nat.max e.2.ctx.nextIssue (k.cyc + after) } })
        else e }

def setMarks (s : State) (core e : Nat) (f : Marks → Marks) : State :=
  modCore s core fun k => { k with marks := Map.put k.marks e (f (Map.get k.marks e Marks.fresh)) }

/-- The window register that would have received erroneous data becomes absent at the entry of the handler, until its
ERET (R171). -/
def withoutBad (s : State) (x : CtxId) (l : Prv) : State :=
  match (ctxOf s x).badRead with
  | none => s
  | some n =>
    modCtx (setMarks s x.core ((ctxOf s x).winBase + n) fun m => { m with present := false }) x fun c =>
      { c with
        badRead := none
        badDest := c.badDest ++ [(l, n)] }

/-- The registers that the handler at level `l` kept absent are present again. -/
def withBad (s : State) (x : CtxId) (l : Prv) : State :=
  let c := ctxOf s x
  if c.badDest.isEmpty then s
  else
    let s := (c.badDest.filter fun e => e.1 == l).foldl
      (fun s e => setMarks s x.core (c.winBase + e.2) fun m => { m with present := true }) s
    wakeOperands (modCtx s x fun c => { c with badDest := c.badDest.filter fun e => e.1 != l }) x.core 0 (· == .operand)

/-- A trap is entered (R354 to R356): the context is at its origin and no write window is open. -/
def enterTrap (s : State) (x : CtxId) (k : Cause) (info : W64) (epc : VA) (asy rsm : Bool) : State :=
  let c := ctxOf s x
  match escalate c (targetLevel c k info) with
  | none => stopCtx s x k epc
  | some (l, esc) =>
    let s := note (pmCore s x.core 0x0E 1) x.core 5 x.slot k.code (epc.setWidth 64)
    let s := withoutBad s x l
    modSlot s x fun sl =>
      { sl with
        st := .ready
        ctx := { enterCtx sl.ctx l k info epc ((vecOf c l).setWidth 57) esc asy rsm with
          nextIssue := (coreOf s x.core).cyc + 2 } }

/-- Whether a write window of the context is open (R92, R96): some fixed-latency result of its own is
still to land. -/
def windowOpen (s : State) (x : CtxId) : Bool :=
  (coreOf s x.core).pend.any fun p => p.slot == x.slot

/-- The last cycle in which a result of the context lands. -/
def windowEnd (s : State) (x : CtxId) : Nat :=
  (coreOf s x.core).pend.foldl (fun m p => if p.slot = x.slot then Nat.max m p.due else m) 0

/-- TAKING A TRAP. The context `x` leaves whatever it does; with no window open and at its origin it
enters the handler at once, otherwise the slot is trapped until it can (R85, R96, R103). `epc` is the
PC that R46 or the cause's own rule gives; with a window open a fault resumes at the restart PC, unless
`exact` says that the instruction's own rule fixes the PC (R130, R363, R438). -/
def takeTrap (s : State) (x : CtxId) (k : Cause) (info : W64) (epc : VA) (asy exact : Bool) : State :=
  let s := dropYield s x
  if windowOpen s x || visiting s x then
    let rsm := windowOpen s x && !exact
    modSlot s x fun sl => { sl with st := .trapped, ctx := { sl.ctx with
      trap := some ⟨k, info, if rsm then sl.ctx.rstpc else epc, asy, rsm⟩ } }
  else enterTrap s x k info epc asy false

/-- The issuing instruction is not performed: a member of the pair that issues is undone. -/
def undo (s : State) : State := { s with cur := { s.cur with undone := true } }

/-- The issuing instruction traps instead of being performed. -/
def undoTrap (s : State) : State := { s with cur := { s.cur with undone := true, trapped := true } }

/-- A precise fault of the instruction that issues: `sys.epc` is the PC of the first member (R46). -/
def fault (k : Cause) (info : W64) (s : State) : State :=
  undoTrap (takeTrap s (me s) k info s.cur.pc0 false false)

/-- A fault with its own `sys.epc`. -/
def faultAt (k : Cause) (info : W64) (epc : VA) (s : State) : State :=
  undoTrap (takeTrap s (me s) k info epc false false)

/-- A fault that reports the PC of the failing cell (R46). -/
def faultHere (k : Cause) (s : State) : State := fault k (s.cur.pc.setWidth 64) s

/-- RETURN FROM A TRAP (R364, R367): from the bank of level `l`, to the privilege `p` and the PC `t`. -/
def returnTrap (s : State) (x : CtxId) (l p : Prv) (t : VA) : State :=
  let b := bankOf (extOf s x) l
  modCtx (withBad s x l) x fun c =>
    let st := putBit (putBit c.status (levelBit l) false) stRSM false
    { c with
      status := putField st stSKN 2 (bitsOf b.estat.toNat 4 2)
      rstpc := b.erst.setWidth 57
      prv := p
      pc := t
      entry := .resume
      source := s.cur.pc
      line := none }

/-! ### Marks and landings (R89, R92, R93, R98) -/

/-- A local result written to a register-file entry: it clears the unread bit and the poison mark and
sets presence, and an armed register is no longer armed. -/
def writeEntry (s : State) (core e : Nat) (v : Reg) : State :=
  modCore s core fun k => { k with
    rf := Map.put k.rf e v
    marks := Map.put k.marks e ⟨true, false, false, none⟩ }

/-- A fixed-latency result written: presence and the arm tag stand as they are. -/
def writeFixed (s : State) (core e : Nat) (v : Reg) : State :=
  modCore s core fun k =>
    let m := Map.get k.marks e Marks.fresh
    { k with
      rf := Map.put k.rf e v
      marks := Map.put k.marks e { m with unread := false, poison := false } }

/-- A mask register written; m0 cannot be written (R140). -/
def writeMask (s : State) (x : CtxId) (n : Nat) (v : W64) : State :=
  if n = 0 then s else modCtx s x fun c => { c with masks := Map.put c.masks n v }

/-- A landing result of fixed latency. -/
def landFixed (s : State) (core : Nat) : Dest → Reg → State
  | .none, _ => s
  | .reg e, v => writeFixed s core e v
  | .mask sl n, v => writeMask s ⟨core, sl⟩ n (v.setWidth 64)

/-- A landing result of variable latency. -/
def landVar (s : State) (core : Nat) : Dest → Reg → State
  | .none, _ => s
  | .reg e, v => writeEntry s core e v
  | .mask sl n, v => writeMask s ⟨core, sl⟩ n (v.setWidth 64)

/-- A result of fixed latency `L` of the issuing instruction opens its write window (R92). -/
def openWindow (s : State) (L : Nat) (d : Dest) (v : Reg) : State :=
  if d = .none then s
  else modCore s (me s).core fun k =>
    { k with pend := k.pend ++ [⟨k.ids, k.cyc + L, (me s).slot, d, v⟩], ids := k.ids + 1 }

/-- The presence bit of D is cleared at issue (R93). -/
def clearPresence (s : State) (d : Dest) : State :=
  match d with
  | .reg e => setMarks s (me s).core e fun m => { m with present := false }
  | _ => s

/-- A result of variable latency that lands `L` cycles after issue; that of a load is read when it is
bound (R278). -/
def openVar (s : State) (L : Nat) (d : Dest) (v : Reg) (load : Option Unbound) : State :=
  if d = .none then s
  else
    let s := clearPresence s d
    modCore s (me s).core fun k =>
      { k with vpend := k.vpend ++ [⟨k.ids, k.cyc + L, (me s).slot, d, v, load, false⟩], ids := k.ids + 1 }

/-- A result of variable latency whose landing time the manual leaves open: at least one cycle. -/
def openResult (s : State) (d : Dest) (v : Reg) : State :=
  let (t, s) := nextLat s
  openVar s (1 + t) d v none

/-- The rank that OBL resolves: D lands, and the table is free again, some cycles later (R73, R80). -/
def openTable (s : State) (d : Dest) (v : Reg) : State :=
  let (t, s) := nextLat s
  modCore (clearPresence s d) (me s).core fun k =>
    { k with vpend := k.vpend ++ [⟨k.ids, k.cyc + 1 + t, (me s).slot, d, v, none, true⟩], ids := k.ids + 1 }

/-! ### Moving on -/

/-- Control passes to the sequential successor of the instruction or pair (R16). -/
def advance (s : State) : State :=
  mod s fun c => { c with pc := s.cur.nx, entry := .flow, source := s.cur.src }

/-- Control passes to `t` (R127). -/
def jump (t : VA) (s : State) : State :=
  mod s fun c => { c with pc := t, entry := .flow, source := s.cur.pc, line := none }

/-! ### Waits and parks (R64, R86, R94) -/

/-- The slot leaves the ready state and waits before issuing its instruction. -/
def parkBefore (st : SlotSt) (w : WaitOn) (s : State) : State :=
  undo (dropYield (modSlot s (me s) fun sl => { sl with st := st, ctx := { sl.ctx with wait := w, waitRank := none } })
    (me s))

/-- The slot waits for the act or reply that completes the instruction it has issued; the PC stays at
the instruction until then. -/
def parkOn (st : SlotSt) (w : WaitOn) (d : Dest) (s : State) : State :=
  dropYield (modSlot (clearPresence s d) (me s) fun sl => { sl with st := st, ctx := { sl.ctx with
    wait := w, waitRank := none, waitDest := d, waitNx := s.cur.nx, waitSrc := s.cur.src, reply := none, pc := s.cur.pc0,
    waitSeq := s.ids } }) (me s) |> fun s => { s with ids := s.ids + 1 }

/-- The rank of the object waited for is kept with the park (R74). -/
def ranked (r : Nat) (s : State) : State := mod s fun c => { c with waitRank := some r }

/-- `wait_check` (R64): the information of RANK_ORDER where the wait is illegal. -/
def waitCheck (s : State) (x : CtxId) (w : Nat) : Option W64 :=
  let m := obminOf (ctxOf s x)
  if m ≤ w then some (BitVec.ofNat 64 (m * 65536 + w)) else none

/-- A parked context becomes ready before the instruction it waits to issue (R94). -/
def wake (s : State) (x : CtxId) (after : Nat) : State :=
  modSlot s x fun sl =>
    if isParked sl.st then
      { sl with
        st := .ready
        ctx := { sl.ctx with
          wait := .operand
          nextIssue := Nat.max sl.ctx.nextIssue ((coreOf s x.core).cyc + after) } }
    else sl

/-- A reply arrives at a context parked on an issued instruction (R94): it is delivered by
SYNC_WAKE_REPLY. -/
def reply (s : State) (x : CtxId) (r : Reply) : State :=
  at_ (modCtx s x fun c => { c with reply := some r }) s.now (.syncWakeReply x)

/-! ### Obligations (R63, R68, R70) -/

/-- The entry of a context for a kind and handle. -/
def findObl (c : Ctx) (k : OblKind) (h : W64) : Option (Nat × Obl) :=
  firstWhere (fun e => e.2.kind == k && e.2.handle == h) c.obls

/-- The lowest free entry number. -/
def freeEntry (c : Ctx) : Option Nat :=
  firstWhere (fun i => (Map.get? c.obls i).isNone) (upto 16)

/-- Taking `n` acts of an obligation; `none` where it would overflow (R68). -/
def takeObl (c : Ctx) (k : OblKind) (h : W64) (rank n : Nat) : Option Ctx :=
  if n = 0 then some c
  else match findObl c k h with
    | some (i, e) =>
      if e.count + n ≤ 65535 then some { c with obls := Map.put c.obls i { e with count := e.count + n } }
      else none
    | none =>
      match freeEntry c with
      | some i =>
        if n ≤ 65535 then some { c with obls := Map.put c.obls i ⟨k, h, rank, n, 0⟩ } else none
      | none => none

/-- `n` acts of an entry discharged; an entry whose count reaches zero becomes free (R68). -/
def dischargeObl (c : Ctx) (k : OblKind) (h : W64) (n : Nat) : Ctx :=
  match findObl c k h with
  | some (i, e) =>
    if e.count ≤ n then
      { c with obls := Map.del c.obls i
               ownDone := if k = .done && c.ownDone == some h then none else c.ownDone }
    else { c with obls := Map.put c.obls i { e with count := e.count - n } }
  | none => c

/-- The part of an entry's count that is not in transfer (R74, R81). -/
def availObl (e : Obl) : Nat := e.count - e.moving

/-- While an OBL or XFER of the context is unresolved it issues no rank-checked wait, no discharging act,
no table instruction and no EXIT (R73). -/
def tableHeld (s : State) (x : CtxId) : Bool :=
  (ctxOf s x).tableBusy != 0 || (coreOf s x.core).vpend.any fun p => p.slot == x.slot && p.table

/-! ### What every issue checks -/

/-- The window register that an operand names. -/
def gOf : Opnd → Option Nat
  | .g n => some n
  | _ => none

/-- WINDOW: a register at or past the window size (R29). -/
def outsideWindow (c : Ctx) (o : Opnd) : Bool :=
  match o with
  | .g n => decide (c.winSize ≤ n.val)
  | _ => false

/-- A literal operand that names a word of a cell which is not literal (R25). -/
def badLiteral (s : State) (o : Opnd) : Bool :=
  match o with
  | .lit c _ => !s.cur.lit.getLsbD c
  | _ => false

/-- The marks of the register that an operand names. -/
def marksOf (s : State) (o : Opnd) : Marks :=
  match o with
  | .g n => entryMarks s (me s).core (entryOf s (me s) n)
  | _ => Marks.fresh

/-- An operand or D inside an open write window of any context of the core (R92). -/
def inWindow (s : State) (o : Opnd) : Bool :=
  match destOf s o with
  | .none => false
  | d => (myCore s).pend.any fun p => p.dst == d

/-- The rank that a group's plan gives to inbound port `d` of the core at (x, y) (R224). -/
def planRank (plan : BitVec 256) (d x y : Nat) : Option Nat :=
  let base := bitsOf plan.toNat (32 * d) 16
  let r : Int := (base : Int) + signed 8 (bitsOf plan.toNat (32 * d + 16) 8) * (x : Int) +
    signed 8 (bitsOf plan.toNat (32 * d + 24) 8) * (y : Int)
  if base = 0xFFFF ∨ r < 0 ∨ 0xFFFE < r then none else some r.toNat

def groupOf (s : State) (p : PartId) (gid : Nat) : Option Group :=
  firstWhere (fun g => g.part == p && g.gid == gid) s.groups

/-- The rank of inbound port `d` of a core in the plan of a group (R224). -/
def portRankAt (s : State) (p : PartId) (gid core d : Nat) : Option Nat :=
  match groupOf s p gid with
  | some g => planRank g.plan d (cxOf core) (cyOf core)
  | none => none

/-- The rank of a port of the core where a context runs, in its group's plan. -/
def portRank (s : State) (x : CtxId) (d : Nat) : Option Nat :=
  portRankAt s (partId s x) (ctxOf s x).grp x.core d

/-- What holds an instruction back from issuing. -/
inductive Hold where
  | go
  | fault (k : Cause) (info : W64)
  | park (st : SlotSt) (w : WaitOn)
  deriving DecidableEq, Repr

/-- The first operand whose presence bit is clear (R93). -/
def absent (s : State) (os : List Opnd) : Option Opnd := firstWhere (fun o => !(marksOf s o).present) os

/-- The checks that precede an instruction's own effect, in order: literal operands (R25), the window
(R29), presence and the rank check of an armed register (R93, R64), open windows under `sys.schk` (R92)
and poison marks of the registers read (R70). An armed register whose port the plan does not rank has rank 0 (the
model's choice: notes/assumptions/122). `os` are the operand fields of the cell, `rs` those that
the instruction reads. -/
def holdOf (os rs : List Opnd) (s : State) : Hold :=
  if s.cur.pair then .go
  else if os.any (badLiteral s) then .fault .illegalEncoding (s.cur.pc.setWidth 64)
  else if os.any (outsideWindow (myCtx s)) then .fault .window (s.cur.pc.setWidth 64)
  else match absent s os with
    | some o =>
      match (marksOf s o).arm with
      | some port =>
        if tableHeld s (me s) then .park .parkedMessage .table
        else match waitCheck s (me s) ((portRank s (me s) port).getD 0) with
        | some info => .fault .rankOrder info
        | none => .park .parkedMessage (.armed (entryOf s (me s) ((gOf o).getD 0)))
      | none => .park .parkedMemory .operand
    | none =>
      if (myCore s).schk && os.any (inWindow s) then .fault .latency 0
      else if rs.any (fun o => (marksOf s o).poison) then .fault .poisoned 0
      else .go

/-- The registers that an instruction reads lose their unread bit (R89). -/
def markRead (rs : List Opnd) (s : State) : State :=
  rs.foldl (fun s o =>
    match o with
    | .g n =>
      if (marksOf s o).unread then
        setMarks s (me s).core (entryOf s (me s) n) fun m => { m with unread := false }
      else s
    | _ => s) s

/-- The effect `k` of an instruction that reads `rs`: an instruction that is not performed after all, because
it traps or waits to issue, has read nothing (R46, R89). -/
def readThen (rs : List Opnd) (k : State → State) (s : State) : State :=
  let t := k (markRead rs s)
  if t.cur.undone && !s.cur.undone then k s else t

/-- An instruction with operand fields `os`, of which it reads `rs`, passes the checks of every issue and
then takes its effect `k`. -/
def issue (os rs : List Opnd) (k : State → State) (s : State) : Out :=
  match holdOf os rs s with
  | .go => .next (readThen rs k s)
  | .fault c info => .next (fault c info s)
  | .park st w => .next (parkBefore st w s)

/-- `issue` for an instruction that a level alone may issue (R43): an encoding fault goes before PRIVILEGE
(R45). -/
def issueFrom (denied : Bool) (os rs : List Opnd) (k : State → State) (s : State) : Out :=
  if !s.cur.pair && os.any (badLiteral s) then .next (faultHere .illegalEncoding s)
  else if denied then .next (faultHere .privilege s)
  else issue os rs k s

/-- `issue` at a least privilege level (R43). -/
def issueAt (l : Prv) (os rs : List Opnd) (k : State → State) (s : State) : Out :=
  issueFrom (decide (prvNo (myCtx s).prv < prvNo l)) os rs k s

end Sys2Proof.Machine
end

