-- ==== Sys2Proof/Machine/Memory.lean ====
section
/-! DEFINITION. Memory as programs see it: address regions and homes (R152, R153), coherent bytes with
the stash (R156), the walk and the TLBs (R249 to R256), the checks of an access (R171), race records
(R283 to R286), the partition check at ejection (R376) and full/empty marks (R166, R177). -/

namespace Sys2Proof.Machine

open Sys2Proof

/-! ### Physical addresses (R152) -/

/-- What a physical address names for a package. -/
inductive Space where
  | dram (home : Nat)
  | hub (off : Nat)
  | copse (word : Nat)
  | reserved
  deriving DecidableEq, Repr

def flagWindowSize : Nat := 0x100000

/-- The decoding of a physical address (R152); the package named is to be a member of the copse, which
the package itself always is. -/
def spaceOf (s : State) (pkg pa : Nat) : Space :=
  let r := pa / 2 ^ 43
  if r = 0 then
    let q := bitsOf pa 38 5
    if q = pkg || (pkgAt s pkg).members.getLsbD q then .dram (coreId q (bitsOf pa 36 2) (bitsOf pa 26 10))
    else .reserved
  else if r = 1 then
    if pa % 2 ^ 43 < flagWindowSize then .hub (pa % 2 ^ 43) else .reserved
  else if r = 2 then
    if bitsOf pa 19 24 = 0 then .copse (bitsOf pa 3 16) else .reserved
  else .reserved

/-- The key of a byte in the memory map: DRAM by its physical address, which names the package; the hub's
window and the replica of copse words apart for each package. -/
def memKey (pkg pa : Nat) : Nat := if pa < 2 ^ 43 then pa else (pkg + 1) * 2 ^ 52 + pa

/-- A byte as every context sees it: a sector that a stash has filled holds the value of its bytes (R156). -/
def readByte (s : State) (key : Nat) : Byte :=
  match Map.get? s.dir (key / 32) with
  | some e => Map.get (coreOf s e.core).stash (e.off + key % 32) 0
  | none => memGet s.mem key

def readN (s : State) (key : Nat) : Nat → Nat
  | 0 => 0
  | n + 1 => (readByte s key).toNat + 256 * readN s (key + 1) n

/-- A stash sector goes home, and its registration is removed (R156, R183, R186). -/
def recallSector (s : State) (sec : Nat) : State :=
  match Map.get? s.dir sec with
  | some e =>
    { s with
      mem := memWrite s.mem (sec * 32) 32
        (packLanes 8 ((upto 32).map fun i => (Map.get (coreOf s e.core).stash (e.off + i) 0).toNat))
      dir := Map.del s.dir sec }
  | none => s

/-- The value that the line of a write is about to lose (R272). -/
def keepLine (s : State) (key : Nat) : State :=
  if key < 2 ^ 43 then
    { s with lineOld := (key / 64, BitVec.ofNat 512 (readN s (key / 64 * 64) 64)) :: s.lineOld }
  else s

/-- `n` bytes written at their home; a stash sector is recalled first. -/
def writeN (s : State) (key n v : Nat) : State :=
  let s := keepLine s key
  let s := recallSector (recallSector s (key / 32)) ((key + n - 1) / 32)
  { s with mem := memWrite s.mem key n v }

/-- Bytes of a physical address as the package `pkg` reads them. -/
def readPA (s : State) (pkg pa n : Nat) : Nat := readN s (memKey pkg pa) n
def writePA (s : State) (pkg pa n v : Nat) : State := writeN s (memKey pkg pa) n v

/-! ### Page table entries (R250) -/

abbrev Pte := W64

def Pte.v (e : Pte) : Bool := e.getLsbD 0
def Pte.rd (e : Pte) : Bool := e.getLsbD 1
def Pte.wr (e : Pte) : Bool := e.getLsbD 2
def Pte.ex (e : Pte) : Bool := e.getLsbD 3
def Pte.usr (e : Pte) : Bool := e.getLsbD 4
def Pte.cow (e : Pte) : Bool := e.getLsbD 5
def Pte.unch (e : Pte) : Bool := e.getLsbD 6
def Pte.disc (e : Pte) : Bool := e.getLsbD 7
def Pte.fe (e : Pte) : Bool := e.getLsbD 8
def Pte.acc (e : Pte) : Bool := e.getLsbD 9
def Pte.dty (e : Pte) : Bool := e.getLsbD 10
def Pte.cps (e : Pte) : Bool := e.getLsbD 11
def Pte.key (e : Pte) : Nat := bitsOf e.toNat 12 4
def Pte.pfn (e : Pte) : Nat := bitsOf e.toNat 16 36
def Pte.srank (e : Pte) : Nat := bitsOf e.toNat 52 12
def Pte.isPtr (e : Pte) : Bool := e.v && !(e.rd || e.wr || e.ex)
/-- The rank of the full/empty words of a page (R67). -/
def Pte.rank (e : Pte) : Nat := e.srank * 16

/-! ### The frame map and the walk (R249 to R254) -/

/-- What a guest frame maps to (R252). -/
inductive FrameRes where
  | ok (frame : Nat)
  | moving (frame : Nat)
  | bad
  deriving DecidableEq, Repr

def fmapEntryPA (s : State) (p : PartId) (gfn : Nat) : Nat := bitsOf (partOf s p).fmap.toNat 3 49 * 8 + 8 * gfn

def frameOf (s : State) (p : PartId) (gfn : Nat) : FrameRes :=
  if bitsOf (partOf s p).fmlen.toNat 0 36 ≤ gfn then .bad
  else
    let e := readPA s p.pkg (fmapEntryPA s p gfn) 8
    if !bitAt e 0 || bitAt e 1 || bitsOf e 3 13 != 0 || bitsOf e 52 12 != 0 then .bad
    else if bitAt e 2 then .moving (bitsOf e 16 36)
    else .ok (bitsOf e 16 36)

/-- The frame as a walk takes it: while it is under move a context's translation waits (`hold`, R266), and a unit's
own access, which is performed at once, comes before the move. -/
def frameFor (s : State) (p : PartId) (hold : Bool) (gfn : Nat) : FrameRes :=
  match frameOf s p gfn with
  | .moving fr => if hold then .moving fr else .ok fr
  | r => r

/-- What a walk answers (R251): a leaf with the guest frame of the address, the frame, the physical address of the
entry and the level; a fault, with bit 57 set where the frame map raised it; or a frame being moved. -/
inductive WalkRes where
  | ok (e : Pte) (gfn frame entryPA : Nat)
  | fault (fmap : Bool)
  | moving
  deriving DecidableEq, Repr

/-- The index into the table of a level (R251). -/
def walkIx (va lvl : Nat) : Nat := if lvl = 0 then bitsOf va 55 2 else bitsOf va (68 - 13 * (lvl + 1)) 13

/-- Whether a pointer that level `lvl` holds breaks R251. -/
def badPointer (lvl : Nat) (e : Pte) : Bool := lvl == 3 || e.srank != 0 || bitsOf e.toNat 1 15 != 0

/-- One level of the walk and those below it; `t` is the guest physical address of the table. -/
def walkFrom (s : State) (p : PartId) (hold : Bool) (va : Nat) : Nat → Nat → Nat → WalkRes
  | 0, _, _ => .fault false
  | fuel + 1, lvl, t =>
    let ga := t + 8 * walkIx va lvl
    match frameFor s p hold (ga / 65536) with
    | .bad => .fault true
    | .moving _ => .moving
    | .ok fr =>
      let pa := fr * 65536 + ga % 65536
      let e : Pte := BitVec.ofNat 64 (readPA s p.pkg pa 8)
      if !e.v then .fault false
      else if e.isPtr then
        if badPointer lvl e then .fault false
        else walkFrom s p hold va fuel (lvl + 1) (e.pfn * 65536)
      else if lvl < 2 || (e.wr && !e.rd) then .fault false
      else if lvl = 2 && (e.pfn % 8192 != 0 || e.cow || e.fe || e.cps) then .fault false
      else
        let gfn := if lvl = 2 then e.pfn + bitsOf va 16 13 else e.pfn
        match frameFor s p hold gfn with
        | .bad => .fault true
        | .moving _ => .moving
        | .ok fr2 => .ok e gfn fr2 pa

/-- The physical addresses of the entries that a walk reads, and whether it ends at a leaf of level 2. -/
def walkReads (s : State) (p : PartId) (va : Nat) : Nat → Nat → Nat → List Nat × Bool
  | 0, _, _ => ([], false)
  | fuel + 1, lvl, t =>
    let ga := t + 8 * walkIx va lvl
    match frameFor s p false (ga / 65536) with
    | .ok fr =>
      let pa := fr * 65536 + ga % 65536
      let e : Pte := BitVec.ofNat 64 (readPA s p.pkg pa 8)
      if e.v && e.isPtr && !badPointer lvl e then
        let r := walkReads s p va fuel (lvl + 1) (e.pfn * 65536)
        (pa :: r.1, r.2)
      else ([pa], e.v && !e.isPtr && lvl == 2)
    | _ => ([], false)

/-- The guest physical address of a partition's table of level 0. -/
def rootOfTables (s : State) (p : PartId) : Nat := bitsOf (partOf s p).ptroot.toNat 6 58 * 64

/-- The walk of an address (R251), for a unit that acts at once. -/
def walk (s : State) (p : PartId) (va : VA) : WalkRes := walkFrom s p false va.toNat 4 0 (rootOfTables s p)

/-- The walk of an address for what waits while a frame is under move. -/
def walkHeld (s : State) (p : PartId) (va : VA) : WalkRes := walkFrom s p true va.toNat 4 0 (rootOfTables s p)

/-! ### TLBs (R251, R255, R256) -/

/-- Whether an entry serves a page. -/
def TlbEntry.serves (e : TlbEntry) (part vpn : Nat) : Bool :=
  e.part == part && (if e.whole then e.vpn / 8192 == vpn / 8192 else e.vpn == vpn)

/-- Whether an entry is one of the page that holds a virtual page number. -/
def TlbEntry.ofPage (e : TlbEntry) (part vpn : Nat) : Bool :=
  e.part == part && (if e.wide then e.vpn / 8192 == vpn / 8192 else e.vpn == vpn)

/-- Whether an entry maps to a frame. -/
def TlbEntry.maps (e : TlbEntry) (frame : Nat) : Bool :=
  if e.whole then e.frame / 8192 == frame / 8192 else e.frame == frame

/-- The entry that serves a page, as it stands for that page. -/
def tlbFind (l : List TlbEntry) (part vpn : Nat) : Option TlbEntry :=
  (firstWhere (fun e : TlbEntry => e.serves part vpn) l).map fun e =>
    if e.whole then { e with vpn := vpn, frame := e.frame / 8192 * 8192 + vpn % 8192 } else e

/-- The set of a die's TLB that an entry goes into (the model's choice: notes/assumptions/115). -/
def TlbEntry.set (e : TlbEntry) : Nat := (if e.whole then e.vpn / 8192 else e.vpn) % 2048

/-- An entry added in front of those that `near` selects; the oldest of them gives way beyond `cap`. -/
def tlbAdd (l : List TlbEntry) (cap : Nat) (near : TlbEntry → Bool) (e : TlbEntry) : List TlbEntry :=
  let l := l.filter fun x => !(x.part == e.part && x.vpn == e.vpn && x.whole == e.whole)
  let kept := ((l.filter near).take (cap - 1))
  e :: l.filter fun x => !near x || kept.contains x

/-- The translation that a core holds: its own TLB first, then its die's. -/
def tlbLook (s : State) (core part : Nat) (va : VA) : Option TlbEntry :=
  match tlbFind (coreOf s core).tlb part (va.toNat / 65536) with
  | some e => some e
  | none => tlbFind (dieAt s (dieKey core)).tlb part (va.toNat / 65536)

/-- The core's TLB has 64 entries, the die's 2048 sets of 8. -/
def tlbFill (s : State) (core : Nat) (e : TlbEntry) : State :=
  let s := modCore s core fun k => { k with tlb := tlbAdd k.tlb 64 (fun _ => true) e }
  modDie s (dieKey core) fun d => { d with tlb := tlbAdd d.tlb 8 (fun x => x.set == e.set) e }

/-- Entries dropped from every TLB of a package. -/
def tlbDrop (s : State) (pkg : Nat) (p : TlbEntry → Bool) : State :=
  { s with
    cores := s.cores.map fun e =>
      if pkgOf e.1 = pkg then (e.1, { e.2 with tlb := listDel p e.2.tlb }) else e
    dies := s.dies.map fun e =>
      if e.1 / 4 = pkg then (e.1, { e.2 with tlb := listDel p e.2.tlb }) else e }

/-- The walker's marks (R254): ACC on the first translation, DTY on the first write translation. -/
def setAccDty (s : State) (pkg entryPA : Nat) (e : Pte) (write : Bool) : Pte × State :=
  let e' : Pte := putBit (if write && e.wr && !e.cow then putBit e 10 true else e) 9 true
  if e' = e then (e, s) else (e', writePA s pkg entryPA 8 e'.toNat)

/-- The 8192 frames of a 512 MiB page are contiguous and aligned (R251). -/
def contiguous (s : State) (p : PartId) (e : Pte) : Bool :=
  match frameOf s p e.pfn with
  | .ok base => base % 8192 == 0 && (upto 8192).all fun i => frameOf s p (e.pfn + i) == .ok (base + i)
  | _ => false

/-! ### The checks of an access (R171) -/

/-- What an access does, for the checks of R171. -/
structure Need where
  size : Nat
  read : Bool
  write : Bool
  /-- acts on full/empty marks: requires FE -/
  fe : Bool
  /-- LD, ST, ATOM and RED, which the host window and copse words admit -/
  word : Bool
  /-- has no effect on a copse word, rather than a fault: WBK and INV -/
  cacheOp : Bool
  deriving DecidableEq, Repr

/-- A translated access. -/
structure Hit where
  pte : Pte
  pa : Nat
  space : Space
  deriving DecidableEq, Repr

inductive Acc3 where
  | hit (h : Hit)
  | fault (k : Cause) (info : W64)
  | miss
  /-- a write through a copy-on-write leaf: the physical address, and whether the pool has a frame (R259) -/
  | copy (pa : Nat) (pool : Bool)
  deriving DecidableEq, Repr

def vaInfo (va : VA) : W64 := va.setWidth 64

/-- TRANSLATION information: the address, and bit 57 where the frame map raised it (R252). -/
def trInfo (va : VA) (fmap : Bool) : W64 := BitVec.ofNat 64 (va.toNat + fmap.toNat * 2 ^ 57)

/-- The protection key check (R253), at user and guest kernel level. -/
def keyDenied (c : Ctx) (e : Pte) (write : Bool) : Bool :=
  prvNo c.prv < 2 && (c.pkey.getLsbD (2 * e.key) || (write && c.pkey.getLsbD (2 * e.key + 1)))

/-- PROTECTION (0x11): check 3 of R171. -/
def denied (c : Ctx) (e : Pte) (sp : Space) (n : Need) : Bool :=
  (n.read && !e.rd) || (n.write && !e.wr) || (c.prv == .user && !e.usr) || keyDenied c e n.write ||
  (match sp with
    | .reserved => true
    | .copse _ => !e.cps
    | _ => e.cps) ||
  (n.fe && !e.fe) ||
  (match sp with
    | .copse _ => !(n.cacheOp || (n.word && n.size == 8))
    | .hub _ => !(n.word && (n.size == 4 || n.size == 8))
    | _ => false)

/-- The physical address of word `n` of a partition's pool, through its own translation (R260). -/
def poolPA (s : State) (p : PartId) (n : Nat) : Option Nat :=
  let va : VA := (partOf s p).cowpool.setWidth 57 + BitVec.ofNat 57 (8 * n)
  match walk s p va with
  | .ok _ _ fr _ => some (fr * 65536 + va.toNat % 65536)
  | _ => none

/-- COUNT of a partition's pool; `none` where its word 0 does not translate. -/
def poolCount (s : State) (p : PartId) : Option Nat := (poolPA s p 0).map fun pa => readPA s p.pkg pa 4

/-- The access of a context with leaf `e` and frame `fr`: the checks 3 and 4 of R171. -/
def checkLeaf (s : State) (x : CtxId) (va : VA) (n : Need) (e : Pte) (fr : Nat) : Acc3 :=
  let pa := fr * 65536 + va.toNat % 65536
  let sp := spaceOf s (pkgOf x.core) pa
  if denied (ctxOf s x) e sp n then .fault .protection (vaInfo va)
  else if n.write && e.cow then .copy pa ((poolCount s (partId s x)).getD 0 != 0)
  else .hit ⟨e, pa, sp⟩

/-- The access checks 1 to 4 of R171 for the context `x`. A translation that no TLB of the core or die serves is a
miss; where the walk would fault, the access faults. A write that finds DTY clear walks again (R254). -/
def checkAccess (s : State) (x : CtxId) (va : VA) (n : Need) : Acc3 :=
  if n.size ≠ 0 && va.toNat % n.size != 0 then .fault .alignment (vaInfo va)
  else
    match tlbLook s x.core (ctxOf s x).part va with
    | some t =>
      let e : Pte := t.pte
      if n.write && !e.dty then
        match walkHeld s (partId s x) va with
        | .ok f _ fr _ => if f.wr && !f.cow then .miss else checkLeaf s x va n f fr
        | .fault fm => .fault .translation (trInfo va fm)
        | .moving => .miss
      else checkLeaf s x va n t.pte t.frame
    | none =>
      match walkHeld s (partId s x) va with
      | .fault fm => .fault .translation (trInfo va fm)
      | _ => .miss

/-! ### Homes and the partition check (R153, R376) -/

/-- The home site of a byte of DRAM. -/
def homeOf (pa : Nat) : Nat := coreId (bitsOf pa 38 5) (bitsOf pa 36 2) (bitsOf pa 26 10)

def fusedOff (s : State) (core : Nat) : Bool := s.fused.contains core

/-- The first enabled core at or after a site in maker order, wrapping on its die (R9). -/
def fosterFrom (s : State) : Nat → Nat → Nat
  | 0, c => c
  | n + 1, c => if fusedOff s c then fosterFrom s n (c / 1024 * 1024 + (c + 1) % 1024) else c

/-- The home core of a site: its own core, or its foster (R9, R153). -/
def homeCore (s : State) (site : Nat) : Nat := fosterFrom s 1024 site

/-- Whether a message from a context reaches a home site (R376). -/
def reachesHome (s : State) (x : CtxId) (site : Nat) : Bool :=
  prvNo (ctxOf s x).prv ≥ 2 || (siteOf s site).tag == 0 || (siteOf s site).tag == (siteOf s x.core).tag

/-- Whether a message from a context reaches a core (R376). -/
def reachesCore (s : State) (x : CtxId) (core : Nat) : Bool :=
  prvNo (ctxOf s x).prv ≥ 2 || (siteOf s core).tag == (siteOf s x.core).tag

/-- Whether an access reaches where its address homes; hub and copse words always do. -/
def reachesSpace (s : State) (x : CtxId) : Space → Bool
  | .dram h => reachesHome s x h
  | _ => true

/-- A dropped message is logged (R376). -/
def logDrop (s : State) (x : CtxId) (info : W64) : State :=
  logPhys s (pkgOf x.core) 0x200 0 info (refWord (refOf s x))

/-! ### Race records (R283 to R286) -/

/-- Whether a plain access by `who` in a region begun at `begun` conflicts with a record. -/
def clashPlain (part : PartId) (who : CRef) (begun : Nat) (write : Bool) (sec : Nat) (r : RegionRec) : Bool :=
  r.sector == sec && !(r.who == who && r.part == part) && (write || r.wrote) &&
    (if r.sync then decide (begun < r.start)
     else match r.ended with
       | none => true
       | some e => decide (begun < e))

/-- Whether a sync operation by `who` conflicts with a record: its point lies inside an open region. -/
def clashSync (part : PartId) (who : CRef) (write : Bool) (sec : Nat) (r : RegionRec) : Bool :=
  r.sector == sec && !(r.who == who && r.part == part) && (write || r.wrote) && !r.sync && r.ended.isNone

/-- `sys.einfo` of MEMORY_RACE (R285): the VA, and bit 57 where the first access wrote. -/
def raceInfo (va : VA) (r : RegionRec) : W64 := BitVec.ofNat 64 (va.toNat + r.wrote.toNat * 2 ^ 57)

/-- The record that a plain access of a context conflicts with (R284). -/
def racePlain (s : State) (x : CtxId) (sec : Nat) (write : Bool) : Option RegionRec :=
  firstWhere (clashPlain (partId s x) (refOf s x) (ctxOf s x).regionAt write sec) s.recs

def raceSync (s : State) (x : CtxId) (sec : Nat) (write : Bool) : Option RegionRec :=
  firstWhere (clashSync (partId s x) (refOf s x) write sec) s.recs

/-- A record of a plain access. -/
def recPlain (s : State) (x : CtxId) (sec : Nat) (write : Bool) (pc va : VA) : State :=
  { s with recs := s.recs ++
      [⟨sec, refOf s x, partId s x, none, false, (ctxOf s x).regionAt, none, write, pc, va⟩] }

/-- A sync operation of a context takes its place in S: its region ends and the next begins (R283). -/
def syncPoint (s : State) (x : CtxId) : State :=
  let q := s.sOrder + 1
  let who := refOf s x
  let s := { s with
    sOrder := q
    recs := s.recs.map fun r =>
      if r.who = who && r.part = partId s x && !r.sync && r.job.isNone && r.ended.isNone then { r with ended := some q } else r }
  modCtx s x fun c => { c with region := c.region + 1, regionAt := q }

/-- A sync operation's own access is recorded at its point. -/
def recSync (s : State) (x : CtxId) (sec : Nat) (write : Bool) (pc va : VA) : State :=
  { s with recs := s.recs ++
      [⟨sec, refOf s x, partId s x, none, true, s.sOrder, some s.sOrder, write, pc, va⟩] }

/-! ### Errors and lost sectors (R165, R262) -/

/-- A read of DRAM meets an uncorrected error. -/
def badAt (s : State) (key n : Nat) : Option DataErr :=
  (upto ((key + n - 1) / 64 - key / 64 + 1)).findSome? fun i => Map.get? s.bad (key / 64 + i)

def lostAt (s : State) (key n : Nat) : Bool :=
  (upto ((key + n - 1) / 32 - key / 32 + 1)).any fun i => (Map.get? s.lost (key / 32 + i)).isSome

/-! ### Full/empty marks (R166, R177) -/

def feOf (s : State) (key : Nat) : FeWord := Map.get s.fe (key / 8) FeWord.fresh
def setFe (s : State) (key : Nat) (w : FeWord) : State :=
  { s with fe := if w = FeWord.fresh then Map.del s.fe (key / 8) else Map.put s.fe (key / 8) w }

/-! ### The stash (R154 to R157) -/

/-- The mapping-table entry that binds a virtual address (R156). -/
def stashBind (s : State) (core part : Nat) (va : VA) : Option StMap :=
  (firstWhere (fun e => e.2.part == part && decide (e.2.va ≤ va.toNat) &&
    decide (va.toNat < e.2.va + e.2.len * 1024)) (coreOf s core).maps).map (·.2)

/-- The stash offset of a mapped virtual address. -/
def stashOff (m : StMap) (va : VA) : Nat := m.off + (va.toNat - m.va)

/-- `n` bytes at `key` as a load of the context `o` sees them that stands at `seq` in its program order:
the context's earlier stores, in order, over the coherent value (R270). -/
def readBefore (s : State) (o : CtxId) (seq key n : Nat) : Nat :=
  let m0 := readN s key n
  (s.stores.filter fun p => !p.performed && p.ctx == o && decide (p.id < seq)).foldl
    (fun m p =>
      (upto n).foldl (fun m i =>
        let a := key + i
        if p.key ≤ a && a < p.key + p.len then
          let old := bitsOf m (8 * i) 8
          m - old * 256 ^ i + bitsOf p.val.toNat (8 * (a - p.key)) 8 * 256 ^ i
        else m) m) m0

/-- `n` bytes at `key` as a context's own access sees them now. -/
def readOwn (s : State) (x : CtxId) (key n : Nat) : Nat := readBefore s (originOf s x) s.ids key n

/-! ### Loads that are not bound (R278, R282) -/

/-- The result of a load whose value is fixed now. -/
def boundVal (s : State) (u : Unbound) (v : Reg) : Reg :=
  nat256 (u.parts.foldl (fun m q =>
    m - bitsOf m q.lo q.w * 2 ^ q.lo +
      extend q.sx (readBefore s u.ctx u.seq q.key q.n) (8 * q.n) q.w * 2 ^ q.lo) v.toNat)

/-- The pending loads of a core that `f` names are bound. -/
def bindLoads (s : State) (core : Nat) (f : Unbound → Bool) : State :=
  if (coreOf s core).vpend.any fun p => p.load.any f then
    modCore s core fun k => { k with vpend := k.vpend.map fun p =>
      match p.load with
      | some u => if f u then { p with val := boundVal s u p.val, load := some { u with parts := [] } } else p
      | none => p }
  else s

/-- Every earlier load of a context is bound: what it does now is not performed before (R282). -/
def bindOwn (s : State) (x : CtxId) : State :=
  let o := originOf s x
  bindLoads s x.core fun u => u.ctx == o

/-- The context's region ends and the next begins (R283, R347); its earlier loads belong to the old one. -/
def newRegion (s : State) (x : CtxId) : State := syncPoint (bindOwn s x) x

/-- A memory access of the context has a result that has not landed. -/
def loadsOut (s : State) (x : CtxId) : Bool :=
  (coreOf s x.core).vpend.any fun p => p.slot == x.slot && p.load.isSome

/-- Whether two loads touch a common byte. -/
def sharesByte (a b : Unbound) : Bool :=
  a.parts.any fun p => b.parts.any fun q => decide (p.key < q.key + q.n) && decide (q.key < p.key + p.n)

/-- A load is bound, after the earlier loads of its context that touch a common byte (R270). -/
def bindThis (s : State) (core : Nat) (u : Unbound) : State :=
  bindLoads s core fun w => w == u || (w.ctx == u.ctx && decide (w.seq < u.seq) && sharesByte w u)

/-- A seed of the context that is not performed touches one of the bytes (R270). -/
def seedAt (s : State) (x : CtxId) (key n : Nat) : Bool :=
  let o := originOf s x
  s.seeds.any fun e =>
    e.ctx == o && decide (e.key < key + n) && decide (key < e.key + (if e.dbl then 8 else 4))

/-- A store of the context that is not performed touches one of the bytes (R270). -/
def storeAt (s : State) (x : CtxId) (key n : Nat) : Bool :=
  let o := originOf s x
  s.stores.any fun p =>
    p.ctx == o && !p.performed && decide (p.key < key + n) && decide (key < p.key + p.len)

/-- The issuer of an order frame. -/
def frameWho : OBody → Option CtxId
  | .store _ _ _ w => some w
  | .atomic _ _ _ _ _ w _ _ => some w
  | .red _ _ _ _ w _ => some w
  | .gate _ _ _ _ _ _ w _ => some w
  | .barrier _ _ _ w _ => some w
  | _ => none

def isRed : OBody → Bool
  | .red _ _ _ _ _ _ => true
  | _ => false

/-- Whether an order frame is a sync operation of a context; REDs apart. -/
def ownFrame (who : CtxId) (b : OBody) : Bool := frameWho b == some who && !isRed b

/-- Whether an order frame is a context's store, atomic or RED of a copse word, which transmission acknowledges
(R301). -/
def ownWrite (who : CtxId) : OBody → Bool
  | .store _ _ _ w => w == who
  | .atomic _ _ _ _ _ w _ _ => w == who
  | .red _ _ _ _ w _ => w == who
  | _ => false

/-- Whether every store, seed, write-back and prefetch issue of the context is acknowledged (R173, R175, R188), its
accesses to copse words among them (R301). -/
def drained (s : State) (x : CtxId) : Bool :=
  let o := originOf s x
  !(s.stores.any fun p => p.ctx == o) && !(s.seeds.any fun p => p.ctx == o) &&
    !((pkgAt s (pkgOf x.core)).toSend.any (ownWrite o))

/-- The 64 KiB that `sys.ctab` names are guarded against writes below hypervisor level (R220): by their addresses, and
by the frames in which the table stands. -/
def guarded (s : State) (p : PartId) (prv : Prv) (va : VA) (pa n : Nat) : Bool :=
  let t := (partOf s p).ctab.toNat % 2 ^ 57
  if (partOf s p).ctab = 0 || prvNo prv ≥ 2 then false
  else if va.toNat < t + 65536 && t < va.toNat + n then true
  else
    [t, t + 65535].any fun a =>
      match walk s p (BitVec.ofNat 57 a) with
      | .ok _ _ fr _ =>
        let lo := if a = t then fr * 65536 + t % 65536 else fr * 65536
        let hi := if a = t then (fr + 1) * 65536 else fr * 65536 + a % 65536 + 1
        decide (pa < hi) && decide (lo < pa + n)
      | _ => false

end Sys2Proof.Machine
end

