-- ==== Sys2Proof/Machine/Tags.lean ====
section
/-! DEFINITION. The tags of the L1D, the L2 and the LLC (R154, R158 to R162) and the walks that read through the L2
(R251). Values live in memory and in the stashes; the caches hold only which lines and sectors they keep. -/

namespace Sys2Proof.Machine

open Sys2Proof

/-- The mask of the sector of an address in its line. -/
def sectorBit (pa : Nat) : BitVec 2 := BitVec.ofNat 2 (2 ^ (pa / 32 % 2))

/-! ### The LLC (R162) -/

/-- A line looked up in the LLC segment of its home and filled on a miss; a victim goes to the channel. -/
def llcTouch (s : State) (pa : Nat) (dirty : Bool) : State :=
  let set := bitsOf pa 6 8
  let line := pa / 64
  let m := (siteOf s (homeOf pa)).llc
  match firstWhere (fun w => (Map.get? m (set * 24 + w)).any fun e => e.key == line) (upto 24) with
  | some w =>
    let d := dirty || (Map.get? m (set * 24 + w)).any fun e => e.dirty
    modSite s (homeOf pa) fun k => { k with llc := Map.put k.llc (set * 24 + w) ⟨line, d⟩ }
  | none =>
    let (c, s) := nextChoice s
    let w := (firstWhere (fun w => (Map.get? m (set * 24 + w)).isNone) (upto 24)).getD (c % 24)
    modSite s (homeOf pa) fun k => { k with llc := Map.put k.llc (set * 24 + w) ⟨line, dirty⟩ }

/-! ### The L2 (R158, R159) -/

/-- The slice of a line on a die. -/
def sliceOf (pa : Nat) : Nat :=
  bitsOf pa 6 10 ^^^ bitsOf pa 16 10 ^^^ bitsOf pa 26 10 ^^^ bitsOf pa 36 10 ^^^ bitsOf pa 46 6

def l2Set (pa : Nat) : Nat := bitsOf pa 16 7

/-- The site whose L2 slice serves a core's accesses to an address. -/
def l2Site (core pa : Nat) : Nat := core / 1024 * 1024 + sliceOf pa

/-- The fill mask of a partition on a die. -/
def maskOf (s : State) (p : PartId) (die : Nat) : BitVec 24 := Map.get (partOf s p).wmask die 0xFFFFFF

/-- The ways of a set that hold a line. -/
def wayOf (m : Map L2Line) (set line : Nat) : Option Nat :=
  firstWhere (fun w => match Map.get? m (set * 24 + w) with
    | some e => e.key == line
    | none => false) (upto 24)

/-- The victim of a fill by a partition with mask `k` (R159): an invalid way first; then a line whose
owner's mask does not include its way, lowest first; then a line by a free choice. Pinned lines stay. -/
def l2Victim (s : State) (pkg die site set : Nat) (k : BitVec 24) (choice : Nat) : Option Nat :=
  let m := (siteOf s site).l2
  let ways := (upto 24).filter fun w => k.getLsbD w &&
    (match Map.get? m (set * 24 + w) with
     | some e => e.pins == 0
     | none => true)
  match firstWhere (fun w => (Map.get? m (set * 24 + w)).isNone) ways with
  | some w => some w
  | none =>
    match firstWhere (fun w => match Map.get? m (set * 24 + w) with
        | some e => !(maskOf s ⟨pkg, e.owner⟩ die).getLsbD w
        | none => true) ways with
    | some w => some w
    | none => ways[choice % ways.length]?

/-- Sectors of a line that are valid from now on, and those of them that are dirty. -/
def l2Mark (m : Map L2Line) (i : Nat) (v d : BitVec 2) : Map L2Line :=
  match Map.get? m i with
  | some e => Map.put m i
      { e with
        valid := e.valid ||| v
        dirty := e.dirty ||| d }
  | none => m

/-- A dirty line that leaves an L2 is written back to its home (R159, R162). -/
def l2Evict (s : State) (e : Option L2Line) : State :=
  match e with
  | some e => if e.dirty = 0 then s else llcTouch s (e.key * 64) true
  | none => s

/-- Sectors `v` of a line looked up in the L2 of a die and filled on a miss, through the LLC of their home; those of
`dirty` are written. -/
def l2Touch (s : State) (core part pa : Nat) (v dirty : BitVec 2) : State :=
  let site := l2Site core pa
  let set := l2Set pa
  let line := pa / 64
  let missed := fun (s : State) =>
    let s := pmDie (pmDie s core part 0x20) core part 0x23
    if v &&& ~~~dirty = 0 then s else llcTouch s pa false
  match wayOf (siteOf s site).l2 set line with
  | some w =>
    let have_ := (Map.get? (siteOf s site).l2 (set * 24 + w)).any fun e => e.valid &&& v == v
    modSite (if have_ then s else missed s) site fun k => { k with l2 := l2Mark k.l2 (set * 24 + w) v dirty }
  | none =>
    let (c, s) := nextChoice (missed s)
    match l2Victim s (pkgOf core) (dieOf core) site set (maskOf s ⟨pkgOf core, part⟩ (dieOf core)) c with
    | some w =>
      let first := (siteOf s site).l2.isEmpty
      let s := l2Evict s (Map.get? (siteOf s site).l2 (set * 24 + w))
      let s := modSite s site fun k => { k with l2 := Map.put k.l2 (set * 24 + w) ⟨line, part, v, dirty, 0, false⟩ }
      if first && !s.agenda.any (fun e => e.2 == .l2WaySweep site) then inCycles s site 65536 (.l2WaySweep site) else s
    | none => if dirty = 0 then s else llcTouch s pa true

/-! ### The L1D (R154) -/

def l1Set (pa : Nat) : Nat := bitsOf pa 6 8

def l1Way (k : Core) (pa : Nat) : Option Nat :=
  firstWhere (fun w => match Map.get? k.l1 (l1Set pa * 32 + w) with
    | some e => e.key == pa / 64
    | none => false) (upto (20 - k.stashWays))

/-- Sectors of a line that are valid from now on, and those of them that are dirty. -/
def l1Mark (m : Map L1Line) (i : Nat) (v d : BitVec 2) : Map L1Line :=
  match Map.get? m i with
  | some e => Map.put m i
      { e with
        valid := e.valid ||| v
        dirty := e.dirty ||| d }
  | none => m

/-- A DRAM access to one sector through the L1D: a miss fills the sector through the L2, and into the L1D unless `nt`
asks it not to. A line evicted dirty goes into the L2. -/
def l1Touch (s : State) (core part pa : Nat) (write nt : Bool) : State :=
  let sec := sectorBit pa
  let dirty : BitVec 2 := if write then sec else 0
  let k := coreOf s core
  let way := l1Way k pa
  let holds := way.any fun w => (Map.get? k.l1 (l1Set pa * 32 + w)).any fun e => e.valid &&& sec == sec
  if holds then
    if write && nt then l2Touch s core part pa sec dirty
    else modCore s core fun k => { k with l1 := l1Mark k.l1 (l1Set pa * 32 + way.getD 0) sec dirty }
  else
    let s := l2Touch (pmCore s core 0x0D 1) core part pa sec (if nt then dirty else 0)
    if nt then s
    else
      match way with
      | some w => modCore s core fun k => { k with l1 := l1Mark k.l1 (l1Set pa * 32 + w) sec dirty }
      | none =>
        let (c, s) := nextChoice s
        let k := coreOf s core
        let n := 20 - k.stashWays
        let w := (firstWhere (fun w => (Map.get? k.l1 (l1Set pa * 32 + w)).isNone) (upto n)).getD (c % n)
        let s := match Map.get? k.l1 (l1Set pa * 32 + w) with
          | some e => if e.dirty = 0 then s else l2Touch s core part (e.key * 64) e.dirty e.dirty
          | none => s
        modCore s core fun k => { k with l1 := Map.put k.l1 (l1Set pa * 32 + w) ⟨pa / 64, sec, dirty⟩ }

/-- A sector of a line that a cache no longer holds. -/
def L1Line.without (e : L1Line) (b : BitVec 2) : L1Line :=
  { e with
    valid := e.valid &&& ~~~b
    dirty := e.dirty &&& ~~~b }

def L2Line.without (e : L2Line) (b : BitVec 2) : L2Line :=
  { e with
    valid := e.valid &&& ~~~b
    dirty := e.dirty &&& ~~~b }

/-- A sector of a line is dropped from an L1D. -/
def l1Without (m : Map L1Line) (line : Nat) (b : BitVec 2) : Map L1Line :=
  m.filterMap fun l =>
    if l.2.key ≠ line then some l
    else if (l.2.without b).valid = 0 then none
    else some (l.1, l.2.without b)

/-- A sector of a line is dropped from an L2; of a pinned line once the last pin is released (R161). -/
def l2Without (m : Map L2Line) (line : Nat) (b : BitVec 2) : Map L2Line :=
  m.filterMap fun l =>
    if l.2.key ≠ line then some l
    else if l.2.pins ≠ 0 then some (l.1, { l.2 with stale := true })
    else if (l.2.without b).valid = 0 then none
    else some (l.1, l.2.without b)

/-- A write leaves no other copy of the sector: the home directory invalidates them (R278). -/
def invalidateOthers (s : State) (core pa : Nat) : State :=
  { s with
    cores := s.cores.map fun e =>
      if e.1 = core then e else (e.1, { e.2 with l1 := l1Without e.2.l1 (pa / 64) (sectorBit pa) })
    sites := s.sites.map fun e =>
      if e.1 / 1024 = core / 1024 then e else (e.1, { e.2 with l2 := l2Without e.2.l2 (pa / 64) (sectorBit pa) }) }

/-- Every copy of a line is made clean (R186). -/
def cleanLine (s : State) (line : Nat) : State :=
  { s with
    cores := s.cores.map fun e => (e.1, { e.2 with
      l1 := e.2.l1.map fun l => if l.2.key = line then (l.1, { l.2 with dirty := 0 }) else l })
    sites := s.sites.map fun e => (e.1,
      { e.2 with
        l2 := e.2.l2.map fun l => if l.2.key = line then (l.1, { l.2 with dirty := 0 }) else l
        llc := e.2.llc.map fun l => if l.2.key = line then (l.1, { l.2 with dirty := false }) else l }) }

/-- A core's own copy of a line is dropped; what of it is dirty is written back first (R186). -/
def dropL1 (s : State) (core part line : Nat) : State :=
  let dirty := ((coreOf s core).l1.filter fun l => l.2.key == line).foldl (fun d l => d ||| l.2.dirty) 0
  let s := if dirty = 0 then s else l2Touch s core part (line * 64) dirty dirty
  modCore s core fun k => { k with l1 := k.l1.filter fun l => l.2.key != line }

/-! ### Walks (R251, R254) -/

/-- A walk reads its entries through the L2 of the die of `core` under the partition's fill mask. -/
def walkTouch (s : State) (core : Nat) (p : PartId) (va : VA) : State :=
  (walkReads s p va.toNat 4 0 (rootOfTables s p)).1.foldl (fun s pa => l2Touch s core p.part pa (sectorBit pa) 0) s

/-- A walk made and marked at once, for a unit at `core` that translates for itself. -/
def walkMark (s : State) (core : Nat) (p : PartId) (va : VA) (write : Bool) : WalkRes × State :=
  match walk s p va with
  | .ok e g fr pa =>
    let (e', s) := setAccDty (walkTouch s core p va) p.pkg pa e write
    (.ok e' g fr pa, s)
  | r => (r, s)

/-- The entry that a walk by a core fills (R251). -/
def tlbEntryOf (s : State) (p : PartId) (va : VA) (e : Pte) (frame entryPA : Nat) : TlbEntry :=
  let wide := (walkReads s p va.toNat 4 0 (rootOfTables s p)).2
  ⟨p.part, va.toNat / 65536, e, frame, entryPA, wide, wide && contiguous s p e⟩

end Sys2Proof.Machine
end

