-- ==== Sys2Proof/Machine/Fetch.lean ====
section
/-! DEFINITION. Lines: how a line is read, its parity and structure (R19 to R23), the checks of entering
a line (R44 to R46), the sequential successor (R16) and the check of a branch target (R26). -/

namespace Sys2Proof.Machine

open Sys2Proof

/-- Cell `k` of a line. -/
def Line.cell (l : Line) (k : Nat) : Cell96 := BitVec.ofNat 96 (l.cells.toNat / 2 ^ (96 * k))

def Line.tgt (l : Line) (k : Nat) : Bool := l.word.getLsbD k
def Line.rst (l : Line) (k : Nat) : Bool := l.word.getLsbD (5 + k)
def Line.lit (l : Line) (k : Nat) : Bool := l.word.getLsbD (10 + k)
def Line.pair (l : Line) (k : Nat) : Bool := k < 4 && l.word.getLsbD (15 + k)
/-- Whether a cell is the second member of a pair. -/
def Line.second (l : Line) (k : Nat) : Bool := k ≠ 0 && l.pair (k - 1)

/-- The number of ones among the low `n` bits, modulo 2. -/
def parityOf : Nat → Nat → Bool
  | 0, _ => false
  | n + 1, x => (x % 2 == 1) != parityOf n (x / 2)

/-- Whether the parity of the line word and of every cell is even (R22). -/
def Line.parityGood (l : Line) : Bool :=
  parityOf 24 l.word.toNat == l.word.getLsbD 29 &&
    (upto 5).all fun k => parityOf 96 (l.cell k).toNat == l.word.getLsbD (24 + k)

/-- Whether the structure of a line is legal (R23). -/
def Line.legal (l : Line) : Bool :=
  bitsOf l.word.toNat 30 2 == 0 && bitsOf l.word.toNat 19 5 == 0 &&
  ((upto 3).all fun k => !(l.pair k && l.pair (k + 1))) &&
  ((upto 4).all fun k => !(l.pair k && (l.lit k || l.lit (k + 1)))) &&
  ((upto 5).all fun k => !((l.tgt k || l.rst k) && (l.lit k || l.second k)))

/-- A line from its 64 bytes (R19). -/
def lineOf (addr : VA) (x : Nat) : Line := ⟨addr, BitVec.ofNat 480 x, BitVec.ofNat 32 (x / 2 ^ 480)⟩

/-- What reading a line answers: the line, a page that must be walked, a fault, or data in error (R165). -/
inductive LineRes where
  | ok (l : Line)
  | miss
  | fault (k : Cause) (fmap : Bool)
  | bad (e : DataErr) (pa : Nat)
  deriving DecidableEq, Repr

def lineAddr (pc : VA) : VA := BitVec.ofNat 57 (pc.toNat / 64 * 64)

/-- The values of a line that stores have replaced since the context's last FENCE.CODE, the latest first (R272). -/
def olderLines (s : State) (x : CtxId) (key : Nat) : List (BitVec 512) :=
  ((s.lineOld.take (s.lineOld.length - (ctxOf s x).codeSeen)).filter fun e => e.1 == key / 64).map (·.2)

/-- The 64 bytes of a line as a fetch finds them: the line as it stands, or as it stood at one point since the
context's last FENCE.CODE, by a free choice for each fetch (R272). A lost sector of a page with DISC set reads as zero
(R261). -/
def lineBytes (s : State) (x : CtxId) (key : Nat) : Nat :=
  let now := (upto 2).foldl (fun m i =>
    m + (if (Map.get? s.lost (key / 32 + i)).isSome then 0 else readN s (key + 32 * i) 32) * 2 ^ (256 * i)) 0
  match olderLines s x key with
  | [] => now
  | old => (old[Config.freeChoice s.free % (old.length + 1)]?.map (·.toNat)).getD now

/-- The line of a PC in a frame: the page's rights (R44), the data (R165, R262), then the checks of R22 and R23. -/
def readLine (s : State) (x : CtxId) (pc : VA) (e : Pte) (frame : Nat) : LineRes :=
  let pkg := pkgOf x.core
  let pa := frame * 65536 + (lineAddr pc).toNat % 65536
  match spaceOf s pkg pa with
  | .dram _ =>
    if !e.ex || ((ctxOf s x).prv == .user && !e.usr) || e.cps then .fault .protection false
    else if !e.disc && lostAt s pa 64 then .fault .pageLost false
    else
      match badAt s pa 64 with
      | some b => .bad b pa
      | none =>
        let l := lineOf (lineAddr pc) (lineBytes s x (memKey pkg pa))
        if !l.parityGood then .fault .instrParity false
        else if !l.legal then .fault .illegalLine false
        else .ok l
  | _ => .fault .protection false

/-- The channel of the line of a PC in a frame is gated (R455). -/
def lineGated (s : State) (x : CtxId) (pc : VA) (frame : Nat) : Bool :=
  match spaceOf s (pkgOf x.core) (frame * 65536 + (lineAddr pc).toNat % 65536) with
  | .dram d => (siteOf s d).gated
  | _ => false

/-- The fetch of the line of a PC for a context (R44); a fetch from a gated channel is offered again, as a miss is. -/
def fetchLine (s : State) (x : CtxId) (pc : VA) : LineRes :=
  match tlbLook s x.core (ctxOf s x).part pc with
  | none =>
    match walkHeld s (partId s x) pc with
    | .fault fm => .fault .translation fm
    | _ => .miss
  | some t =>
    match readLine s x pc t.pte t.frame with
    | .fault .protection m => .fault .protection m
    | r => if lineGated s x pc t.frame then .miss else r

/-- The fetch of a line by a context that stands at it and makes the walk at once. -/
def fetchNow (s : State) (x : CtxId) (pc : VA) : LineRes :=
  match fetchLine s x pc with
  | .miss =>
    match walk s (partId s x) pc with
    | .ok e _ fr _ => readLine s x pc e fr
    | _ => .miss
  | r => r

/-- A PC that R20 forbids. -/
def badPc (t : VA) : Bool := bitsOf t.toNat 3 3 != 0 || decide (4 < t.toNat % 8)

def cellNo (t : VA) : Nat := t.toNat % 8

/-- The line that a context holds for a PC, or the fetch of it. -/
def heldLine (s : State) (x : CtxId) (pc : VA) : LineRes :=
  match (ctxOf s x).line with
  | some l => if l.addr = lineAddr pc then .ok l else fetchLine s x pc
  | none => fetchLine s x pc

/-- A context fetches a line: the next free choice is another (R272). -/
def fetched (s : State) (x : CtxId) (pc : VA) : State :=
  match tlbLook s x.core (ctxOf s x).part pc with
  | some t =>
    if (olderLines s x (memKey (pkgOf x.core) (t.frame * 65536 + (lineAddr pc).toNat % 65536))).isEmpty then s
    else { s with free := s.free + 1 }
  | none => s

/-- `sys.einfo` of a fault of entering a line from `src` (R46): the PC that transferred control, with bit 57 of R252;
of PAGE_LOST the address of the line (R262). -/
def lineInfo (k : Cause) (fmap : Bool) (src pc : VA) : W64 :=
  if k = .pageLost then (lineAddr pc).setWidth 64 else BitVec.ofNat 64 (src.toNat + fmap.toNat * 2 ^ 57)

/-- The first cell at or after `k` of a line that is not a literal cell. -/
def firstCell (l : Line) (k : Nat) : Option Nat := firstWhere (fun i => decide (k ≤ i) && !l.lit i) (upto 5)

/-- The sequential successor inside a line, or cell 0 of the next line (R16). -/
def nextPc (l : Line) (k : Nat) : VA :=
  match firstCell l k with
  | some i => l.addr + BitVec.ofNat 57 i
  | none => l.addr + 64

/-- The lines of the address space. -/
def allLines : Nat := 0x8000000000000

/-- The sequential successor with literal cells passed over (R16), reading at most `fuel` lines: a PC, or
the fault found where sequential flow would enter a line. -/
def successor (s : State) (x : CtxId) : Nat → VA → Except (LineRes × VA) VA
  | 0, t => .ok t
  | n + 1, t =>
    if cellNo t ≠ 0 then .ok t
    else
      match heldLine s x t with
      | .ok l => match firstCell l 0 with
        | some i => .ok (l.addr + BitVec.ofNat 57 i)
        | none => successor s x n (l.addr + 64)
      | r => .error (r, t)

/-- A walker takes up a walk. -/
def beginWalk (s : State) (die : Nat) (r : WalkReq) : State :=
  let s := modDie s die fun d => { d with walks := d.walks ++ [r] }
  let (t, s) := nextLat s
  at_ s (s.now + t) (.pageWalk r.core ⟨pkgOf r.core, r.part⟩ r.va r.write)

/-- A miss in the TLB of a die (R255): it joins the walk of its page; or a walker takes it up, or it waits for one; or,
where no more may wait, it is offered again. -/
def requestWalk (s : State) (core : Nat) (p : PartId) (va : VA) (write : Bool) : State :=
  let d := dieAt s (dieKey core)
  let same : WalkReq → Bool := fun r => r.part == p.part && r.va.toNat / 65536 == va.toNat / 65536
  if d.walks.any same || d.walkq.any same then s
  else
    let (n, s) := fresh s
    let r : WalkReq := ⟨p.part, va, core, write, n⟩
    if d.walks.length < 32 then beginWalk s (dieKey core) r
    else if d.walkq.length < 2048 then modDie s (dieKey core) fun d => { d with walkq := d.walkq ++ [r] }
    else
      let (t, s) := nextLat s
      at_ s (s.now + 1 + t) (.pageWalk core p va write)

/-- A context waits for a walk: it parks on memory and the walk is asked for. -/
def parkWalk (s : State) (va : VA) (write : Bool) : State :=
  let p := myPart s
  requestWalk (parkBefore .parkedMemory (.walk p.part (va.toNat / 65536)) s) (me s).core p va write

/-- The same for a context that is about to enter a line. -/
def parkWalkOf (s : State) (x : CtxId) (va : VA) : State :=
  let p := partId s x
  let s := dropYield (modSlot s x fun sl =>
    { sl with st := .parkedMemory, ctx := { sl.ctx with wait := .walk p.part (va.toNat / 65536) } }) x
  requestWalk s x.core p va false

/-- A context consumes a line with erroneous data as it enters it (R165). -/
def parkBadLine (s : State) (x : CtxId) (e : DataErr) (pa : Nat) : State :=
  let s := dropYield (modSlot s x fun sl => { sl with st := .parkedMemory, ctx := { sl.ctx with wait := .reply } }) x
  at_ s s.now (.dataErrorConsumption x e pa)

/-- What the check of a branch target answers (R26, R127). -/
inductive Target where
  | ok
  | badPc
  | badTarget
  | miss
  deriving DecidableEq, Repr

/-- The check of a target that a branch takes: R20, then R26 once the line has passed R22 and R23. A line
that does not pass is left to the entry itself, after the branch is performed. -/
def checkTarget (s : State) (x : CtxId) (t : VA) : Target :=
  if badPc t then .badPc
  else match fetchLine s x t with
    | .ok l =>
      if l.lit (cellNo t) || l.second (cellNo t) || !l.tgt (cellNo t) then .badTarget else .ok
    | .miss => .miss
    | .fault _ _ => .ok
    | .bad _ _ => .ok

/-- The effect `k` of an instruction that needs its sequential successor (R16): a fault found in a line
that must be read is taken as though sequential flow had entered it. -/
def withSuccessor (k : VA → State → State) (s : State) : State :=
  match successor s (me s) allLines s.cur.nx with
  | .ok nx => k nx s
  | .error (.fault c fm, t) => faultAt c (lineInfo c fm (BitVec.allOnes 57) t) t s
  | .error (.bad e pa, _) => undo (parkBadLine s (me s) e pa)
  | .error (_, t) => parkWalk s t false

/-- TRAP, SVC, HVC and BKPT do not issue while a write window of the context is open: the slot stays
ready until the last of them has landed (R90, R130). -/
def holdWindows (k : State → State) (s : State) : State :=
  if windowOpen s (me s) && !s.cur.pair then
    undo (mod s fun c => { c with nextIssue := Nat.max c.nextIssue (windowEnd s (me s)) })
  else k s

end Sys2Proof.Machine
end

