-- ==== Sys2Proof/Machine/Report.lean ====
section
/-! DEFINITION. Where contexts are found (R79, R102), who inherits from them (R75, R223), reports to the
virtual error queue (R380), asynchronous events (R357), the checkpoint log's entries (R409), and the point
of a sync operation with its race check (R279, R283 to R285). -/

namespace Sys2Proof.Machine

open Sys2Proof

/-! ### Finding contexts -/

/-- The slots of a package, by core and then by number. -/
def slotsOf (s : State) (pkg : Nat) : List (CtxId × Slot) :=
  s.cores.flatMap fun e =>
    if pkgOf e.1 = pkg then e.2.slots.map fun t => (⟨e.1, t.1⟩, t.2) else []

/-- The slots of every package. -/
def allSlots (s : State) : List (CtxId × Slot) :=
  s.cores.flatMap fun e => e.2.slots.map fun t => (⟨e.1, t.1⟩, t.2)

/-- The state a slot is in, pre-emption (R86) and a debug stop (R430) apart. -/
def effSt (sl : Slot) : SlotSt :=
  let st := if sl.st = .suspended then sl.saved else sl.st
  if st = .stopped then sl.prev else st

/-- A slot holds the body of a context: neither free, nor the origin of a context that is elsewhere. -/
def hasBody (st : SlotSt) : Bool := st != .free && st != .away

/-- A context that has not issued EXIT. -/
def isLive (st : SlotSt) : Bool := hasBody st && st != .exited

/-- Whether the context in a slot is the one a reference of partition `part` names. -/
def isRef (s : State) (part : Nat) (r : CRef) (x : CtxId) (sl : Slot) : Bool :=
  isLive (effSt sl) && sl.ctx.part == part && refOf s x == r

/-- Where the context that a reference names is now; `none` for a stale reference or a context in a
migration message. -/
def findCtx (s : State) (p : PartId) (r : CRef) : Option CtxId :=
  (firstWhere (fun e => isRef s p.part r e.1 e.2) (slotsOf s p.pkg)).map (·.1)

/-- The reference of a context that travels. -/
def flightRef (s : State) (f : Flight) : CRef :=
  ⟨(slotOf s f.ctx.origin).gen, f.ctx.lcore, f.ctx.origin.slot⟩

/-- The migration message that holds a context. -/
def findFlight (s : State) (p : PartId) (r : CRef) : Option Flight :=
  firstWhere (fun f => pkgOf f.ctx.origin.core == p.pkg && f.ctx.part == p.part && flightRef s f == r) s.flights

/-- Whether a reference names a live context of the partition on the package. -/
def refLive (s : State) (p : PartId) (r : CRef) : Bool :=
  (findCtx s p r).isSome || (findFlight s p r).isSome

/-- The save records of a package: the cores of devices that are not resident (R371). -/
def savedCores (s : State) (pkg : Nat) : List (Nat × Core) := s.saves.filter fun e => e.1 / 2 ^ 38 == pkg

/-- The slots of a package, those of devices that are not resident among them. -/
def heldSlots (s : State) (pkg : Nat) : List Slot :=
  (slotsOf s pkg).map (·.2) ++ (savedCores s pkg).flatMap fun e => e.2.slots.map (·.2)

/-- The save record and the slot of it that hold the context a reference names. -/
def findSaved (s : State) (p : PartId) (r : CRef) : Option (Nat × Nat) :=
  (savedCores s p.pkg).findSome? fun e =>
    (firstWhere (fun (t : Nat × Slot) => isLive (effSt t.2) && t.2.ctx.part == p.part &&
      CRef.mk (if t.1 < 56 then t.2.gen else (slotOf s t.2.ctx.origin).gen) t.2.ctx.lcore t.2.ctx.origin.slot == r)
      e.2.slots).map fun t => (e.1, t.1)

/-- A message for a device that is not resident joins the saved inbox of its record. -/
def saveInto (s : State) (key : Nat) (i : Instr) : State :=
  let k := Map.get s.saves key Core.zero
  { s with saves := Map.put s.saves key { k with savedInbox := k.savedInbox ++ [i] } }

/-- A change to a slot kept in a save record. -/
def modSaved (s : State) (key slot : Nat) (f : Ctx → Ctx) : State :=
  let k := Map.get s.saves key Core.zero
  let slots := k.slots.map fun t => if t.1 = slot then (t.1, { t.2 with ctx := f t.2.ctx }) else t
  { s with saves := Map.put s.saves key { k with slots := slots } }

/-- The context that a reference names: in a slot, in a migration message or in a save record. -/
def ctxNamed (s : State) (p : PartId) (r : CRef) : Option Ctx :=
  match findCtx s p r with
  | some x => some (ctxOf s x)
  | none =>
    match findFlight s p r with
    | some m => some m.ctx
    | none => (findSaved s p r).bind fun e =>
      (firstWhere (fun (t : Nat × Slot) => t.1 == e.2) (Map.get s.saves e.1 Core.zero).slots).map (·.2.ctx)

/-- A change to a context wherever it is. -/
def modRef (s : State) (p : PartId) (r : CRef) (f : Ctx → Ctx) : State :=
  match findCtx s p r with
  | some x => modCtx s x f
  | none =>
    match findFlight s p r with
    | some m => { s with flights := listMod (fun q => q.id == m.id) (fun q => { q with ctx := f q.ctx }) s.flights }
    | none =>
      match findSaved s p r with
      | some e => modSaved s e.1 e.2 f
      | none => s

/-- The live contexts of a partition on a package, in slots. -/
def liveCtxs (s : State) (p : PartId) : List CtxId :=
  ((slotsOf s p.pkg).filter fun e => isLive (effSt e.2) && e.2.ctx.part == p.part).map (·.1)

def modGroup (s : State) (p : PartId) (gid : Nat) (f : Group → Group) : State :=
  { s with groups := listMod (fun g => g.part == p && g.gid == gid) f s.groups }

/-- An arrival at a unit restarts the count of its group's watchdog (R226). -/
def arrival (s : State) (p : PartId) (c : Ctx) : State :=
  if c.grp = 0 then s else modGroup s p c.grp fun g => { g with wcount := 0 }

def arrivalAt (s : State) (x : CtxId) : State := arrival s (partId s x) (ctxOf s x)

def arrivalFor (s : State) (p : PartId) (r : CRef) : State :=
  match ctxNamed s p r with
  | some c => arrival s p c
  | none => s

/-! ### Heirs (R75, R223) -/

/-- An heir, if it still names a context. -/
def heirRef (s : State) (p : PartId) : Heir → Heir
  | .ctx r => if (ctxNamed s p r).isSome then .ctx r else .none
  | h => h

/-- The heir of a unit of group `g` that is not its steward. -/
def heirViaGroup (s : State) (g : Group) : Heir :=
  if g.steward = 0xFFFF then heirRef s g.part g.issuer
  else
    match g.stewardCtx with
    | some r => if (ctxNamed s g.part r).isSome then .ctx r else heirRef s g.part g.issuer
    | none => if g.stewardGone then .none else .held g.gid

/-- The heir of a context. -/
def heirOf (s : State) (x : CtxId) : Heir :=
  let c := ctxOf s x
  let p := partId s x
  match groupOf s p c.grp with
  | some g =>
    if c.isUnit then
      if g.stewardCtx = some (refOf s x) then heirRef s p g.issuer else heirViaGroup s g
    else
      match c.parent with
      | some r => if (ctxNamed s p r).isSome then .ctx r else heirViaGroup s g
      | none => if c.parentVia then heirViaGroup s g else .none
  | none => heirRef s p ((c.parent.map Heir.ctx).getD .none)

/-! ### The virtual error queue and the physical log (R380) -/

/-- One entry of the virtual error queue. -/
def veqPush (s : State) (p : PartId) (ty code : Nat) (addr who : W64) (detail : Nat) : State :=
  let s := logPhys s p.pkg (0x300 + ty) code addr who
  let q := partOf s p
  let n := bitsOf q.veqbase.toNat 0 4
  let lostOne := fun (s : State) => modPart s p fun q => { q with veqlost := q.veqlost + 1 }
  if n < 4 ∨ (q.veqtail - q.veqhead).toNat ≥ 2 ^ n then lostOne s
  else
    let va : VA := BitVec.ofNat 57 (bitsOf q.veqbase.toNat 6 51 * 64 + 64 * (q.veqtail.toNat % 2 ^ n))
    match walkMark s (p.pkg * 4096) p va true with
    | (.ok _ _ fr _, s) =>
      let v := ty + code % 2 ^ 32 * 2 ^ 32 + timeOf s p.pkg % 2 ^ 64 * 2 ^ 64 + addr.toNat * 2 ^ 128 +
        who.toNat * 2 ^ 192 + detail * 2 ^ 256
      modPart (writePA s p.pkg (fr * 65536 + va.toNat % 65536) 64 v) p fun q =>
        { q with veqtail := q.veqtail + 1 }
    | (_, s) => lostOne s

/-- TYPE 4: the first access of a race (R285). -/
def reportRace (s : State) (p : PartId) (r : RegionRec) : State :=
  veqPush s p 4 r.wrote.toNat (r.va.setWidth 64) (refWord r.who) (r.pc.toNat + r.sync.toNat * 2 ^ 64)

/-! ### Asynchronous events (R357) -/

/-- An event posted to a context wherever it is; where it has exited, `gone` reports it. -/
def postEvent (s : State) (p : PartId) (r : CRef) (e : AsyncEv) (gone : State → State) : State :=
  if (ctxNamed s p r).isSome then modRef s p r fun c => { c with events := c.events ++ [e] } else gone s

/-! ### The checkpoint log (R408, R409) -/

def ckEnabled (s : State) (p : PartId) : Bool := (partOf s p).cklog.getLsbD 63

def modLog (s : State) (p : PartId) (f : CkLog → CkLog) : State :=
  modPart s p fun q => { q with log := f q.log }

/-- The bytes of a line that the memory lists. -/
def lineCells (s : State) (line : Nat) : List Host.Cell :=
  (upto 64).map fun i => (line * 64 + i, readByte s (line * 64 + i))

/-- The marks of the eight words of a line. -/
def lineMarks (s : State) (line : Nat) : List (Nat × FeWord) :=
  (upto 8).map fun i => (line * 8 + i, Map.get s.fe (line * 8 + i) FeWord.fresh)

/-- An undo entry for the line of `key` at the first write by `who` in the interval, and at the first
since its TBEG (R409, R415). Pages with DISC set are not logged. -/
def logUndo (s : State) (p : PartId) (who : CRef) (tx : Option TxId) (disc : Bool) (key : Nat) : State :=
  if !ckEnabled s p || disc || 2 ^ 43 ≤ key then s
  else
    let ln := key / 64
    let add := fun (s : State) (t : Option TxId) =>
      if (partOf s p).log.undo.any (fun u => u.who == who && u.line == ln && u.tx == t) then s
      else modLog s p fun l => { l with undo := l.undo ++ [⟨who, ln, t, lineCells s ln, lineMarks s ln⟩] }
    let s := add s none
    let s := match tx with
      | some t => add s (some t)
      | none => s
    modLog s p fun l => { l with writers := l.writers.filter (· != (ln, who)) ++ [(ln, who)] }

/-- The command event of a CMD byte (R209): 0 and 0xFF ask for nothing. -/
def cmdEvent (p : PartId) (q v : Nat) : Option Instr :=
  if v = 0 ∨ v = 0xFF then none
  else if v = 1 then some (.cmdConfigure p q)
  else if v = 2 then some (.cmdSuspend p q)
  else if v = 3 then some (.cmdResume p q)
  else if v = 4 then some (.cmdDrain p q)
  else if v = 5 then some (.cmdReset p q)
  else some (.cmdRefused p q)

/-- The queue whose CMD byte is at a key, for a partition that has a queue table (R207): the byte 4 of one
of its 256 descriptors. -/
def cmdQueue (s : State) (p : PartId) (key : Nat) : Option Nat :=
  let t := (partOf s p).qtab.toNat % 2 ^ 57
  if (partOf s p).qtab = 0 then none
  else
    [t, t + 16320].findSome? fun a =>
      match walk s p (BitVec.ofNat 57 a) with
      | .ok _ _ fr _ =>
        if memKey p.pkg (fr * 65536) ≤ key ∧ key < memKey p.pkg (fr * 65536) + 65536 then
          let va := a / 65536 * 65536 + key % 65536
          if t + 4 ≤ va ∧ va < t + 16384 then some ((va - t) / 64) else none
        else none
      | _ => none

/-- A store that has been performed on `n` bytes at `key`: the dispatcher acts on a CMD byte among them, before the
machine's step is over (R209, `runCommands`). -/
def cmdHook (s : State) (key n : Nat) : State :=
  if n = 0 ∨ 4 < key % 64 ∨ key % 64 + n ≤ 4 then s
  else
    let c := key / 64 * 64 + 4
    s.parts.foldl (fun s e =>
      let p : PartId := ⟨e.1 / 65536, e.1 % 65536⟩
      match cmdQueue s p c with
      | some q =>
        match cmdEvent p q (readByte s c).toNat with
        | some i => at_ s s.now i
        | none => s
      | none => s) s

/-- A write to memory on behalf of a context: its line is logged first. -/
def ctxWrite (s : State) (p : PartId) (who : CRef) (tx : Option TxId) (disc : Bool) (key n v : Nat) : State :=
  cmdHook (writeN (logUndo s p who tx disc key) key n v) key n

/-- A copse access, gate operation or collective makes a later rollback of the context infeasible (R410). -/
def markOutside (s : State) (x : CtxId) : State :=
  let p := partId s x
  if ckEnabled s p then modLog s p fun l => { l with outside := l.outside ++ [refOf s x] } else s

/-- The sync trail (R409). -/
def trail (s : State) (x : CtxId) (obj : Nat) (acq rel : Bool) : State :=
  let p := partId s x
  if ckEnabled s p then
    modLog s p fun l => { l with trail := l.trail ++ [⟨obj, refOf s x, acq, rel⟩] }
  else s

/-! ### Quotas (R378, R379) -/

/-- A limit of the partition on a package; 0xFFFF where no block is named. -/
def quotaOf (s : State) (p : PartId) (i : Nat) : Nat :=
  let q := (partOf s p).quota
  if q = 0 then 0xFFFF else readPA s p.pkg (q.toNat % 2 ^ 52 + 2 * i) 2

/-- Throttled contexts whose request may now pass offer it again (R379). -/
def retryThrottled (s : State) (q : WaitOn → Bool) : State :=
  ((allSlots s).filter fun e => isParked e.2.st && q e.2.ctx.wait).foldl
    (fun s e => at_ s s.now (.throttleRetry e.1)) s

/-- Whether a wait is one on a quota. -/
def onQuota : WaitOn → Bool
  | .throttled _ => true
  | _ => false

/-- The record of a plain access fits neither in the records that the partition's quota allows nor in a
region log (R286, R378). -/
def recordsFull (s : State) (x : CtxId) (sec : Nat) : Bool :=
  let p := partId s x
  let lim := quotaOf s p 7
  if lim = 0xFFFF then false
  else
    let n := bitsOf (partOf s p).rlog.toNat 0 6
    let lim := if n = 0 then lim else lim + Config.regionLogCapacity n
    let live := (s.recs.filter fun r => r.part == p && !r.sync && r.ended.isNone).map fun r => (r.who, r.sector)
    !live.contains (refOf s x, sec) && decide (lim ≤ live.eraseDups.length)

/-! ### Sync operations (R279, R283 to R285) -/

/-- A sync operation on an object that is no DRAM word takes its place in S. -/
def syncObj (s : State) (x : CtxId) (obj : Nat) (acq rel : Bool) : State :=
  trail (retryThrottled (newRegion s x) onQuota) x obj acq rel

/-- Where the context of an origin slot is. -/
def atOrigin (s : State) (o : CtxId) : Option CtxId :=
  (firstWhere (fun e => hasBody (effSt e.2) && e.2.ctx.origin == o) (slotsOf s (pkgOf o.core))).map (·.1)

/-- A sync operation that its object performs after its issue takes its place in S: its context, if it is live, begins
a region there (R281, R283). -/
def syncLate (s : State) (x : Option CtxId) (obj : Nat) (acq rel : Bool) : State :=
  match x with
  | some x => syncObj s x obj acq rel
  | none => { s with sOrder := s.sOrder + 1 }

/-- The race that a sync operation's own access to a DRAM word would be second in. -/
def syncRace (s : State) (x : CtxId) (h : Hit) (write : Bool) : Option RegionRec :=
  match h.space with
  | .dram _ => if h.pte.unch then none else raceSync s x (h.pa / 32) write
  | _ => none

/-- A sync operation on a DRAM word takes its place in S and leaves its record. -/
def syncWord (s : State) (x : CtxId) (h : Hit) (acq rel write : Bool) (pc va : VA) : State :=
  let s := syncObj s x (h.pa / 8) acq rel
  match h.space with
  | .dram _ => if h.pte.unch then s else recSync s x (h.pa / 32) write pc va
  | _ => s

/-- The effect `k` of a sync operation of the issuing context on a word, after the race check. -/
def withSync (h : Hit) (acq rel write : Bool) (va : VA) (k : State → State) (s : State) : State :=
  match syncRace s (me s) h write with
  | some r => fault .memoryRace (raceInfo va r) (reportRace s (myPart s) r)
  | none => k (syncWord s (me s) h acq rel write s.cur.pc va)

/-- The physical address key of a hit. -/
def hitKey (s : State) (h : Hit) : Nat := memKey (pkgOf (me s).core) h.pa

end Sys2Proof.Machine
end

