-- ==== Sys2Proof/Decode.lean ====
section
/-! DEFINITION. Decoding of a 96-bit cell (R27 to R42), total and rejecting by name: the MIN values that each
instruction defines (R42; any other faults ILLEGAL_OPCODE), the fields that each allows (R28, R32 to R38, R40,
and the table of each chapter; any other faults ILLEGAL_ENCODING, R45), the opcode map, and the encoder
written from the same tables. -/

namespace Sys2Proof

/-! ### Operand fields -/

def isZ (o : Opnd) : Bool := o == .z
def isG : Opnd → Bool
  | .g _ => true
  | _ => false
def isGZ : Opnd → Bool
  | .g _ | .z => true
  | _ => false
def isM : Opnd → Bool
  | .m _ => true
  | _ => false
/-- m1 to m7: a mask as D (R28). -/
def isDM : Opnd → Bool
  | .m n => n != 0
  | _ => false
/-- Any source of an FR instruction: everything but a mask (R28). -/
def isSrc : Opnd → Bool
  | .m _ => false
  | _ => true
/-- A window register or a scalar source (R29, R141, R143). -/
def isGS : Opnd → Bool
  | .g _ | .k _ | .lit _ _ | .i20 => true
  | _ => false
/-- Any source of another format: I20 exists in FR only (R28). -/
def isSrcX : Opnd → Bool
  | .m _ | .i20 => false
  | _ => true
/-- A window register, a constant word or a literal word (R362). -/
def isGKL : Opnd → Bool
  | .g _ | .k _ | .lit _ _ => true
  | _ => false
def isGKLZ (o : Opnd) : Bool := isGKL o || isZ o
/-- A branch source that is not z (R126). -/
def isBrSrc : Opnd → Bool := isGKL
/-- An accumulator: D codes 0 to 3 (R335). -/
def isAccD : Opnd → Bool
  | .g n => decide (n.val < 4)
  | _ => false

/-! ### Types -/

def intTys : List Ty := [.i64, .i32, .i32x8, .i16x16, .i8x32, .i4x64]
def scalarTy : Ty → Bool
  | .i64 | .i32 | .f32 => true
  | _ => false
def floatTys : List Ty := [.f32, .f32x8, .f16x16, .bf16x16, .f8ex32, .f8wx32]
def laneFloatTys : List Ty := [.f32x8, .f16x16, .bf16x16, .f8ex32, .f8wx32]
def laneTys : List Ty := [.i32x8, .i16x16, .i8x32, .i4x64, .f32x8, .f16x16, .bf16x16, .f8ex32, .f8wx32]
def laneIntTys : List Ty := [.i32x8, .i16x16, .i8x32, .i4x64]

/-! ### FR instructions -/

/-- What an FR instruction allows, beside its MIN. -/
structure Shape where
  tys : List Ty
  sat : Bool
  rm : Bool
  na : Bool
  nb : Bool
  nc : Bool
  mask : Bool
  d : Opnd → Bool
  a : Opnd → Bool
  b : Opnd → Bool
  c : Opnd → Bool

/-- The checks of R32 and of the operand fields; FLG is checked apart. -/
def Shape.ok (h : Shape) (f : FR) : Bool :=
  h.tys.contains f.t && (h.sat || !f.sat) && (h.rm || f.rm == .rn) && (h.na || !f.negA) &&
  (h.nb || !f.negB) && (h.nc || !f.negC) && ((h.mask && !scalarTy f.t) || f.mask == 0) &&
  h.d f.d && h.a f.a && h.b f.b && h.c f.c

/-- An integer instruction of R118: NEG only with MIN[0] = 0 (R117). -/
def intShape (tys : List Ty) (sat na nb nc : Bool) (b c : Opnd → Bool) (f : FR) : Bool :=
  let sg := !f.min.getLsbD 0
  f.flg == 0 && Shape.ok ⟨tys, sat, false, na && sg, nb && sg, nc && sg, true, isGZ, isSrc, b, c⟩ f

def wf2 (sat neg : Bool) (f : FR) : Bool := intShape intTys sat neg neg false isSrc isZ f
def wf1 (sat neg : Bool) (f : FR) : Bool := intShape intTys sat neg false false isZ isZ f

def wfSel (f : FR) : Bool := intShape intTys false true true false isSrc (if scalarTy f.t then isSrc else isM) f

/-- Compare instructions: VEC, SENSE and SKIP (R38, R124, R133). -/
def wfCompare (scal lane : List Ty) (neg : Bool) (f : FR) : Bool :=
  let vec := f.flg.getLsbD 3
  let skip := f.flg.toNat % 4
  Shape.ok ⟨if vec then lane else scal, false, false, neg, neg, false, vec,
    if vec then isDM else if skip = 0 then isGZ else isZ, isSrc, isSrc, isZ⟩ f && !(vec && skip != 0)

def floatShape (tys : List Ty) (rs nb nc : Bool) (b c : Opnd → Bool) (f : FR) : Bool :=
  f.flg == 0 && Shape.ok ⟨tys, rs, rs, true, nb, nc, true, isGZ, isSrc, b, c⟩ f

/-- Lane instructions of R141. -/
def laneShape (tys : List Ty) (rm mask : Bool) (d a b : Opnd → Bool) (f : FR) : Bool :=
  f.flg == 0 && Shape.ok ⟨tys, false, rm, false, false, false, mask, d, a, b, isZ⟩ f

/-- The source type code of a conversion (R144). -/
def convTs (f : FR) : Option Ty :=
  match f.min.toNat % 16 with
  | 0 => some .i64 | 1 => some .i32 | 2 => some .i32x8 | 3 => some .i16x16 | 4 => some .i8x32
  | 5 => some .i4x64 | 6 => some .f32 | 7 => some .f32x8 | 8 => some .f16x16 | 9 => some .bf16x16
  | 10 => some .f8ex32 | 11 => some .f8wx32 | 12 => some .o4
  | _ => none

/-- The lane count by which R145 pairs types; 0 for o4. -/
def convLanes : Ty → Nat
  | .i64 | .i32 | .f32 => 1
  | .i32x8 | .f32x8 => 8
  | .i16x16 | .f16x16 | .bf16x16 => 16
  | .i8x32 | .f8ex32 | .f8wx32 => 32
  | .i4x64 => 64
  | .o4 => 0

/-- The flags DU and SU are legal only with integer types; STRICT with QNT only (R144). -/
def convFlg (f : FR) (ts : Ty) (strict : Bool) : Bool :=
  !f.flg.getLsbD 3 && (strict || !f.flg.getLsbD 2) && (intTys.contains f.t || !f.flg.getLsbD 1) &&
  (intTys.contains ts || !f.flg.getLsbD 0)

def wfCvt (f : FR) : Bool :=
  match convTs f with
  | none => false
  | some ts =>
    convLanes ts == convLanes f.t && convLanes f.t != 0 && convFlg f ts false &&
    Shape.ok ⟨[f.t], true, true, !f.flg.getLsbD 0, false, false, true, isGZ, isSrc, isZ, isZ⟩ f

def wfPack (f : FR) : Bool :=
  match convTs f with
  | none => false
  | some ts =>
    convLanes f.t == 2 * convLanes ts && convLanes ts != 0 && convFlg f ts false &&
    Shape.ok ⟨[f.t], true, true, false, false, false, true, isGZ, isG, isG, isZ⟩ f

/-- The pairs of UNPK (R147). -/
def unpkPair (ts td : Ty) (su : Bool) : Bool :=
  match ts with
  | .i16x16 => td == .f32x8 || td == .i32x8
  | .f16x16 | .bf16x16 => td == .f32x8
  | .i8x32 => td == .i16x16 || td == .f16x16 || td == .bf16x16
  | .f8ex32 | .f8wx32 => td == .f16x16 || td == .bf16x16
  | .i4x64 => td == .i8x32 || td == .f8ex32 || (td == .f8wx32 && !su)
  | _ => false

def wfUnpk (f : FR) : Bool :=
  match convTs f with
  | none => false
  | some ts =>
    unpkPair ts f.t (f.flg.getLsbD 0) && convFlg f ts false &&
    Shape.ok ⟨[f.t], false, false, false, false, false, false, isGZ, isG, isSrc, isZ⟩ f

/-- The source types of QNT and SCLX (R148). -/
def blockTs (ts : Ty) : Bool := ts == .f16x16 || ts == .bf16x16 || ts == .f8ex32 || ts == .f8wx32

def wfBlock (rm strict : Bool) (f : FR) : Bool :=
  match convTs f with
  | none => false
  | some ts =>
    blockTs ts && convFlg f ts strict &&
    Shape.ok ⟨[.o4], true, rm, false, false, false, false, isGZ, isG,
      if convLanes ts = 16 then isG else isZ, isSrc⟩ f

def wfDqnt (f : FR) : Bool :=
  convTs f == some .o4 && f.flg == 0 &&
  Shape.ok ⟨laneFloatTys, true, true, false, false, false, true, isGZ, isG, isSrc, isZ⟩ f

/-- The field map of R79: everything 0 but the operands and, where `flg` says so, FLG. A special register is taken as a
source (the model's choice: notes/assumptions/124). -/
def wfR79 (d a b c : Opnd → Bool) (flg : BitVec 4) (f : FR) : Bool :=
  f.flg == flg && Shape.ok ⟨[.i64], false, false, false, false, false, false, d, a, b, c⟩ f

/-! ### FM instructions (R169, R170) -/

/-- What an FM instruction allows. -/
structure MShape where
  sz : List Sz
  sx : Bool
  nt : Bool
  rel : Bool
  acq : Bool
  /-- SCOPE 1 to 5 is required -/
  needScope : Bool
  d : Opnd → Bool
  a : Opnd → Bool
  b : Opnd → Bool
  c : Opnd → Bool

/-- SCL shifts an index; where B is not one, it is 0 (R169). -/
def MShape.ok (h : MShape) (f : FM) : Bool :=
  h.sz.contains f.sz && (h.acq || !f.flg.getLsbD 0) && (h.rel || !f.flg.getLsbD 1) &&
  (h.nt || !f.flg.getLsbD 2) &&
  (!f.flg.getLsbD 3 || (h.sx && (f.sz == .b8 || f.sz == .b16 || f.sz == .b32))) &&
  (if h.needScope then f.scope != .ctx
   else f.scope == .ctx || f.flg.getLsbD 0 || f.flg.getLsbD 1) &&
  (!isZ f.b || f.scl == 0) && h.d f.d && h.a f.a && h.b f.b && h.c f.c

def allSz : List Sz := [.b8, .b16, .b32, .b64, .b128, .b256]

/-! ### FB instructions (R126, R127) -/

def wfFB (d a : Opnd → Bool) (rel : Bool) (f : FB) : Bool :=
  f.flg == 0 && isZ f.b && isZ f.c && d f.d && a f.a && (rel || (f.loff == 0 && f.tcell == 0))

/-! ### FS instructions -/

def wfFS (d a b c : Opnd → Bool) (imm : BitVec 32 → Bool) (f : FS) : Bool :=
  f.flg == 0 && d f.d && a f.a && b f.b && c f.c && imm f.imm

def immIs (n : Nat) (x : BitVec 32) : Bool := x.toNat == n
def immBelow (n : Nat) (x : BitVec 32) : Bool := decide (x.toNat < n)
def immAny (_ : BitVec 32) : Bool := true

/-! ### FE instructions (R335, R336) -/

def wfFE (d a b c : Opnd → Bool) (ta tb tc : Bool) (f : FE) : Bool :=
  f.flg == 0 && d f.d && a f.a && b f.b && c f.c && (ta || f.tida == 0) && (tb || f.tidb == 0) &&
  (tc || f.tidc == 0)

/-! ### MIN (R17, R42, R118, R141 to R144) -/

def min0 (m : BitVec 5) : Bool := m == 0
def minUpTo (n : Nat) (m : BitVec 5) : Bool := decide (m.toNat ≤ n)

/-- Whether MIN is one that the instruction defines; otherwise the cell faults ILLEGAL_OPCODE. -/
def minOk : Instr → Bool
  | .nop f => min0 f.min
  | .add f | .sub f | .mul f | .mulh f | .div f | .rem f | .min f | .max f | .and f | .or f | .xor f
  | .andn f | .shl f | .shrl f | .shra f | .rot f | .clz f | .popc f | .bfx f | .bfi f | .sel f
  | .mov f | .mad f => minUpTo 1 f.min
  | .abs f => min0 f.min
  | .li f => minUpTo 1 f.min
  | .lih f => min0 f.min
  | .cmp f | .tstb f => decide (f.min.toNat / 2 ≤ 5)
  | .fcmp f => decide (f.min.toNat / 2 ≤ 7) && !f.min.getLsbD 0
  | .br f => minUpTo 2 f.min
  | .bri f | .call f | .calli f | .ret f | .loop f => min0 f.min
  | .exit f | .yield f | .trap f => min0 f.min
  | .fadd f | .fsub f | .fmul f | .fma f | .fmin f | .fmax f | .frcp f | .frsq f | .fex2 f | .flg2 f
  | .fsqt f | .fdot f => min0 f.min
  | .shuf f | .bcst f | .insl f => min0 f.min
  | .redl f => decide (f.min.toNat / 2 ≤ 5)
  | .extl f => minUpTo 1 f.min
  | .mlog f => minUpTo 4 f.min
  | .mpop f | .mmov f => minUpTo 2 f.min
  | .cvt f | .pack f | .unpk f | .qnt f | .dqnt f | .sclx f => !f.min.getLsbD 4
  | .ld f | .st f | .gth f | .sct f | .ldfe f | .ldfc f | .stfl f | .empt f | .stmap f | .stunmap f
  | .stag f | .ldt f | .pfr f | .wbk f | .inv f => min0 f.min
  | .fence f => f.min == 0
  | .fenceCode f => f.min == 1
  | .fenceEng f => f.min == 2
  | .atom f => minUpTo 12 f.min
  | .red f => minUpTo 4 f.min
  | .migr f | .home f | .spawn f | .spawnat f | .join f | .nwr f | .arm f => min0 f.min
  | .obl f => decide (2 ≤ f.min.toNat) && minUpTo 4 f.min
  | .xfer f | .poison f => minUpTo 4 f.min
  | .obq f | .rksplit f => minUpTo 1 f.min
  | .bnew f | .bjoin f | .barv f | .bwait f | .bleave f | .bdel f => min0 f.min
  | .gsig f | .gwait f | .gqry f => min0 f.min
  | .cpy f | .mma f | .mdrn f | .jobc f => min0 f.min
  | .mzro f => minUpTo 1 f.min
  | .tidw f => f.min == 0
  | .tidr f => f.min == 1
  | .tidinv f => f.min == 2
  | .qsub f => f.min == 0
  | .launch f => f.min == 1
  | .cntw f => f.min == 2
  | .cncl f => f.min == 3
  | .kswap f => f.min == 4
  | .gred f => f.min == 5
  | .gbc f => f.min == 6
  | .gag f => f.min == 7
  | .gtbl f | .gtblW f => f.min == 8
  | .svc f => f.min == 0
  | .hvc f => f.min == 1
  | .eret f => f.min == 2
  | .sysr f => f.min == 3
  | .sysw f | .syswStatus f | .syswLfsr f | .syswWmask f => f.min == 4
  | .bkpt f => f.min == 5
  | .trmk f => f.min == 6
  | .waiti f => f.min == 7
  | .tlbiPage f | .tlbiAll f | .tlbiPart f => f.min == 8
  | .ckpt f => f.min == 9
  | .tbeg f => f.min == 10
  | .tcom f => f.min == 11
  | .tabt f => f.min == 12
  | .uiret f => f.min == 13
  | .uimask f => f.min == 14
  | .gmakeCreate f | .gmakeRevoke f | .gmakeSetacl f | .gmakeFreeze f | .gmakeThaw f | .gmakeRead f =>
    f.min == 15
  | .pgsnap f => f.min == 16
  | .pgret f => f.min == 17
  | _ => true

/-- Whether every other field is one that the instruction allows; otherwise the cell faults
ILLEGAL_ENCODING. -/
def fieldsOk : Instr → Bool
  | .nop f => wfR79 isZ isZ isZ isZ 0 f && f.imm20 == 0
  | .add f | .sub f | .mul f => wf2 true true f
  | .mulh f | .min f | .max f => wf2 false true f
  | .div f | .rem f => intShape [.i64, .i32, .i32x8] false true true false isSrc isZ f
  | .and f | .or f | .xor f | .andn f | .shrl f | .shra f | .rot f => wf2 false false f
  | .shl f => wf2 true false f
  | .clz f | .popc f => wf1 false false f
  | .bfx f => intShape [.i64, .i32] false false false false isSrc isZ f
  | .bfi f => intShape [.i64, .i32] false false false false isSrc isSrc f
  | .sel f => wfSel f
  | .mov f => wf1 false true f
  | .abs f => wf1 true true f
  | .mad f => intShape intTys true true true true isSrc isSrc f
  | .li f => f.flg == 0 && isGZ f.d && isZ f.a && isZ f.b && isZ f.c && intTys.contains f.t
  | .lih f => f.flg == 0 && isGZ f.d && isZ f.a && isZ f.b && isZ f.c && f.t == .i64
  | .cmp f | .tstb f => wfCompare [.i64, .i32] laneIntTys (!f.min.getLsbD 0) f
  | .fcmp f => wfCompare [.f32] laneFloatTys true f
  | .br f => wfFB isZ (if f.min = 0 then isZ else isBrSrc) true f
  | .bri f | .ret f => wfFB isZ isBrSrc false f
  | .call f => wfFB isGZ isZ true f
  | .calli f => wfFB isGZ isBrSrc false f
  | .loop f => wfFB isZ isG true f
  | .exit f => wfFS isZ isSrcX isZ isZ (immIs 0) f
  | .yield f => wfFS isZ isZ isZ isZ (immBelow 0x10000) f
  | .trap f => wfFS isZ isZ isZ isZ immAny f && f.stall == 0
  | .fadd f | .fsub f | .fmul f => floatShape floatTys true true false isSrc isZ f
  | .fma f => floatShape floatTys true true true isSrc isSrc f
  | .fmin f | .fmax f => floatShape floatTys false true false isSrc isZ f
  | .frcp f | .frsq f | .fex2 f | .flg2 f | .fsqt f => floatShape [.f32, .f32x8] true false false isZ isZ f
  | .fdot f => floatShape laneFloatTys true true true isSrc isSrc f
  | .shuf f => laneShape [.i32x8, .i16x16, .i8x32, .f32x8, .f16x16, .bf16x16, .f8ex32, .f8wx32]
      false true isGZ isG isG f
  | .bcst f => laneShape laneTys false true isGZ isG isGS f
  | .redl f =>
    laneShape laneTys (f.min.toNat / 2 == 0 && laneFloatTys.contains f.t) true isGZ isG isZ f &&
    (!laneFloatTys.contains f.t || (decide (f.min.toNat / 2 < 3) && !f.min.getLsbD 0))
  | .extl f => laneShape laneTys false false isGZ isG isGS f
  | .insl f => laneShape laneTys false false isGZ isSrc isGS f
  | .mlog f => laneShape [.i64] false false isDM isM (fun o => isZ o || (f.min != 4 && isM o)) f
  | .mpop f => laneShape laneTys false false isGZ isM isZ f
  | .mmov f =>
    if f.min = 0 then laneShape [.i64] false false isDM isGS isZ f
    else if f.min = 1 then laneShape [.i64] false false isGZ isM isZ f
    else laneShape [.i64] false false isDM isM isZ f
  | .cvt f => wfCvt f
  | .pack f => wfPack f
  | .unpk f => wfUnpk f
  | .qnt f => wfBlock true true f
  | .dqnt f => wfDqnt f
  | .sclx f => wfBlock false false f
  | .ld f => MShape.ok ⟨allSz, true, true, false, true, false, isGZ, isSrcX, isSrcX, isZ⟩ f
  | .st f => MShape.ok ⟨allSz, false, true, true, false, false, isGZ, isSrcX, isSrcX, isZ⟩ f
  | .gth f | .sct f => MShape.ok ⟨[.b32, .b64], false, true, false, false, false, isGZ, isSrcX, isG, isM⟩ f
  | .ldfe f | .ldfc f | .stfl f | .empt f =>
    MShape.ok ⟨[.b64], false, false, false, false, true, isGZ, isSrcX, isSrcX, isZ⟩ f
  | .stmap f => MShape.ok ⟨[.b8], false, false, false, false, false, isZ, isSrcX, isZ, isSrcX⟩ f
  | .stunmap f => MShape.ok ⟨[.b8], false, false, false, false, false, isZ, isZ, isZ, isSrcX⟩ f && f.off == 0
  | .stag f => MShape.ok ⟨[.b8], false, false, false, false, false, isGZ, isSrcX, isSrcX, isZ⟩ f
  | .ldt f => MShape.ok ⟨allSz, true, false, false, false, false, isGZ, isSrcX, isSrcX, isSrcX⟩ f
  | .pfr f => MShape.ok ⟨[.b8], false, false, false, false, false, isZ, isSrcX, isSrcX, isSrcX⟩ f && f.scl == 0
  | .wbk f | .inv f => MShape.ok ⟨[.b8], false, false, false, false, false, isZ, isSrcX, isSrcX, isZ⟩ f
  | .fence f => wfFS isZ isZ isZ isZ (fun x => decide (1 ≤ x.toNat) && decide (x.toNat ≤ 5)) f
  | .fenceCode f | .fenceEng f => wfFS isZ isZ isZ isZ (immIs 0) f
  | .atom f =>
    let flt := decide (10 ≤ f.min.toNat)
    MShape.ok ⟨if flt then [.b32] else [.b32, .b64], !flt, false, false, false, true, isGZ, isSrcX, isSrcX,
      if f.min = 9 then isG else isSrcX⟩ f
  | .red f =>
    MShape.ok ⟨if f.min = 4 then [.b32] else [.b32, .b64], false, false, false, false, true, isGZ, isSrcX,
      isSrcX, isSrcX⟩ f
  | .migr f => wfR79 isGZ isSrc isZ isZ 0 f
  | .home f => wfR79 isGZ isZ isZ isZ 0 f
  | .spawn f | .spawnat f => wfR79 isGZ isSrc isG isSrc 0 f
  | .join f => wfR79 isGZ isSrc isZ isZ 0 f
  | .nwr f => wfR79 isZ isSrc isSrc isZ 0 f
  | .arm f => wfR79 isG isSrc isZ isZ 0 f
  | .obl f => wfR79 isGZ isSrc isSrc isZ 0 f
  | .xfer f => wfR79 isGZ isSrc isSrc isSrc 0 f
  | .poison f => wfR79 isZ isSrc isSrc isZ 0 f
  | .obq f => wfR79 isGZ (if f.min = 0 then isSrc else isZ) isZ isZ 0 f
  | .rksplit f => wfR79 (if f.min = 0 then isGZ else isZ) isSrc isSrc isZ 0 f
  | .bnew f => wfR79 isG isSrc isSrc isSrc 0 f
  | .bjoin f | .barv f | .bleave f | .bdel f => wfR79 isGZ isSrc isZ isZ 0 f
  | .bwait f => wfR79 isGZ isSrc isSrc isZ 0 f
  | .gsig f | .gwait f => wfR79 isGZ isSrc isSrc isZ 0 f
  | .gqry f => wfR79 isG isSrc isZ isZ 0 f
  | .gmakeCreate f => wfFS isGZ isGKLZ isGKLZ isZ (fun x => x.toNat == 0 || x.toNat == 256) f &&
      (f.imm == 0 || isZ f.b)
  | .gmakeRevoke f => wfFS isGZ isGKLZ isZ isZ (immIs 1) f
  | .gmakeSetacl f => wfFS isGZ isGKLZ isGKLZ isZ (immIs 2) f
  | .gmakeFreeze f => wfFS isGZ isGKLZ isGKLZ isZ (immIs 3) f
  | .gmakeThaw f => wfFS isGZ isGKLZ isGKLZ isZ (immIs 4) f
  | .gmakeRead f => wfFS isGZ isGKLZ isGKLZ isZ (immIs 5) f
  | .cpy f => wfFE isZ isSrcX isZ isSrcX false false false f
  | .mma f => wfFE isAccD isSrcX isSrcX isZ true true false f
  | .mdrn f => wfFE isAccD isSrcX isSrcX isZ false false true f
  | .mzro f => wfFE isAccD isZ isZ isZ false false false f
  | .jobc f => wfFE isZ isSrcX isZ isZ false false false f
  | .tidw f => wfFE isZ isG isZ isZ true false false f
  | .tidr f => wfFE isG isZ isZ isZ true false false f
  | .tidinv f => wfFE isZ isZ isZ isZ true false false f
  | .qsub f | .cntw f => wfR79 isGZ isSrc isSrc isZ 0 f
  | .launch f | .cncl f => wfR79 isGZ isSrc isZ isZ 0 f
  | .kswap f => wfR79 isGZ isSrc isSrc isZ 0 f
  | .gred f | .gbc f | .gag f => wfR79 isGZ isSrc isSrc isG 0 f
  | .gtbl f => wfR79 isGZ isSrc isZ isSrc 0 f
  | .gtblW f => wfR79 isGZ isSrc isG isSrc 1 f
  | .svc f | .hvc f => wfFS isZ isZ isZ isZ immAny f && f.stall == 0
  | .eret f | .uiret f => wfFS isZ isZ isZ isZ (immIs 0) f && f.stall == 0
  | .sysr f => wfFS isG isZ isZ isZ immAny f
  | .sysw f => wfFS isZ isGKL isZ isZ (fun x => x.toNat != 0 && x.toNat != 0x11 && x.toNat != 0x35) f
  | .syswStatus f => wfFS isZ isGKL isZ isZ (immIs 0) f
  | .syswLfsr f => wfFS isZ isGKL isZ isZ (immIs 0x11) f
  | .syswWmask f => wfFS isZ isGKL isZ isZ (immIs 0x35) f
  | .bkpt f => wfFS isZ isZ isZ isZ immAny f
  | .trmk f => wfFS isZ isGZ isZ isZ (immBelow 0x1000) f
  | .waiti f => wfFS isZ isZ isZ isZ (immIs 0) f
  | .tlbiPage f => wfFS isZ isSrcX isZ isZ (immIs 0) f
  | .tlbiAll f => wfFS isZ isZ isZ isZ (immIs 1) f
  | .tlbiPart f => wfFS isZ isSrcX isZ isZ (immIs 2) f
  | .ckpt f | .tcom f => wfFS isGZ isZ isZ isZ (immIs 0) f
  | .tbeg f => wfFS isGZ isZ isZ isZ (immBelow 0x10000) f
  | .tabt f => wfFS isZ isZ isZ isZ (immBelow 0x100) f
  | .uimask f => wfFS isGZ isZ isZ isZ (immBelow 2) f
  | .pgsnap f => wfFS isGZ isSrcX isSrcX isSrcX (immIs 0) f
  | .pgret f => wfFS isGZ isSrcX isSrcX isZ (immIs 0) f
  | _ => true

/-! ### The ten-bit operand codes (R28, R30) -/

def sregCode : SReg → Nat
  | .lane => 384
  | .slot => 385
  | .core => 386
  | .cx => 387
  | .cy => 388
  | .die => 389
  | .pkg => 390
  | .part => 391
  | .grp => 392
  | .unit => 393
  | .nunits => 394
  | .clk => 395
  | .time => 396
  | .obmin => 397
  | .rklo => 398
  | .rkhi => 399
  | .win => 400
  | .xferid => 401
  | .tstart => 402

def sregOf (n : Nat) : Option SReg :=
  match n with
  | 384 => some .lane
  | 385 => some .slot
  | 386 => some .core
  | 387 => some .cx
  | 388 => some .cy
  | 389 => some .die
  | 390 => some .pkg
  | 391 => some .part
  | 392 => some .grp
  | 393 => some .unit
  | 394 => some .nunits
  | 395 => some .clk
  | 396 => some .time
  | 397 => some .obmin
  | 398 => some .rklo
  | 399 => some .rkhi
  | 400 => some .win
  | 401 => some .xferid
  | 402 => some .tstart
  | _ => none

/-- The operand that a code names; `none` for a reserved code. -/
def opOf (x : BitVec 10) : Option Opnd :=
  let n := x.toNat
  if n < 128 then some (.g (Fin.ofNat 128 n))
  else if n < 384 then some (.k (Fin.ofNat 256 (n - 128)))
  else if n < 403 then (sregOf n).map .sp
  else if n < 448 then none
  else if n < 463 then some (.lit (Fin.ofNat 5 ((n - 448) / 3)) (Fin.ofNat 3 ((n - 448) % 3)))
  else if n = 463 then some .i20
  else if n < 472 then some (.m (Fin.ofNat 8 (n - 464)))
  else if n = 1023 then some .z
  else none

def opCode : Opnd → BitVec 10
  | .g n => BitVec.ofNat 10 n
  | .k n => BitVec.ofNat 10 (128 + n)
  | .sp r => BitVec.ofNat 10 (sregCode r)
  | .lit c w => BitVec.ofNat 10 (448 + 3 * c + w)
  | .i20 => 463
  | .m n => BitVec.ofNat 10 (464 + n)
  | .z => 1023

/-! ### Field codes -/

def tyCode : Ty → BitVec 4
  | .i64 => 0
  | .i32 => 1
  | .i32x8 => 2
  | .i16x16 => 3
  | .i8x32 => 4
  | .i4x64 => 5
  | .f32 => 6
  | .f32x8 => 7
  | .f16x16 => 8
  | .bf16x16 => 9
  | .f8ex32 => 10
  | .f8wx32 => 11
  | .o4 => 12

def tyOfCode (x : BitVec 4) : Option Ty :=
  match x.toNat with
  | 0 => some .i64
  | 1 => some .i32
  | 2 => some .i32x8
  | 3 => some .i16x16
  | 4 => some .i8x32
  | 5 => some .i4x64
  | 6 => some .f32
  | 7 => some .f32x8
  | 8 => some .f16x16
  | 9 => some .bf16x16
  | 10 => some .f8ex32
  | 11 => some .f8wx32
  | 12 => some .o4
  | _ => none

def rmCode : RM → BitVec 3
  | .rn => 0
  | .rz => 1
  | .ru => 2
  | .rd => 3
  | .ra => 4
  | .rs => 5

def rmOfCode (x : BitVec 3) : Option RM :=
  match x.toNat with
  | 0 => some .rn
  | 1 => some .rz
  | 2 => some .ru
  | 3 => some .rd
  | 4 => some .ra
  | 5 => some .rs
  | _ => none

def scopeCode : Scope → BitVec 3
  | .ctx => 0
  | .core => 1
  | .die => 2
  | .pkg => 3
  | .part => 4
  | .copse => 5

def scopeOf (x : BitVec 3) : Option Scope :=
  match x.toNat with
  | 0 => some .ctx
  | 1 => some .core
  | 2 => some .die
  | 3 => some .pkg
  | 4 => some .part
  | 5 => some .copse
  | _ => none

def szCode : Sz → BitVec 4
  | .b8 => 0
  | .b16 => 1
  | .b32 => 2
  | .b64 => 3
  | .b128 => 4
  | .b256 => 5

def szOf (x : BitVec 4) : Option Sz :=
  match x.toNat with
  | 0 => some .b8
  | 1 => some .b16
  | 2 => some .b32
  | 3 => some .b64
  | 4 => some .b128
  | 5 => some .b256
  | _ => none

/-! ### The fields of a cell (R27) -/

/-- The fields that every cell has. -/
structure Raw where
  maj : BitVec 7
  min : BitVec 5
  stall : BitVec 4
  flg : BitVec 4
  d : BitVec 10
  a : BitVec 10
  b : BitVec 10
  c : BitVec 10
  tail : BitVec 36
  deriving DecidableEq, Repr

/-- Bits [lo + n − 1 : lo] of a number. -/
def cut (x lo n : Nat) : BitVec n := BitVec.ofNat n (x / 2 ^ lo)

/-- Bit `i` of a number. -/
def bit (x i : Nat) : Bool := x / 2 ^ i % 2 == 1

/-- Fields laid out from bit 0 upward: each with its value and its width. -/
def lay : List (Nat × Nat) → Nat
  | [] => 0
  | (v, n) :: t => v + 2 ^ n * lay t

def splitCell (w : Cell96) : Raw where
  maj := cut w.toNat 0 7
  min := cut w.toNat 7 5
  stall := cut w.toNat 12 4
  flg := cut w.toNat 16 4
  d := cut w.toNat 20 10
  a := cut w.toNat 30 10
  b := cut w.toNat 40 10
  c := cut w.toNat 50 10
  tail := cut w.toNat 60 36

def joinCell (r : Raw) : Cell96 :=
  BitVec.ofNat 96 (lay [(r.maj.toNat, 7), (r.min.toNat, 5), (r.stall.toNat, 4), (r.flg.toNat, 4),
    (r.d.toNat, 10), (r.a.toNat, 10), (r.b.toNat, 10), (r.c.toNat, 10), (r.tail.toNat, 36)])

/-- The common fields with the operands decoded. -/
def parseCm (r : Raw) : Option Cm :=
  match opOf r.d, opOf r.a, opOf r.b, opOf r.c with
  | some d, some a, some b, some c => some ⟨d, a, b, c, r.flg, r.stall, r.min⟩
  | _, _, _, _ => none

/-- FR (R31). -/
def parseFR (r : Raw) : Option FR :=
  match parseCm r, rmOfCode (cut r.tail.toNat 4 3), tyOfCode (cut r.tail.toNat 0 4) with
  | some c, some rm, some t =>
    if cut r.tail.toNat 14 2 = 0 then
      some ⟨c, cut r.tail.toNat 16 20, Fin.ofNat 8 (cut r.tail.toNat 11 3).toNat,
        bit r.tail.toNat 8, bit r.tail.toNat 9, bit r.tail.toNat 10, bit r.tail.toNat 7, rm, t⟩
    else none
  | _, _, _ => none

/-- FI (R33). -/
def parseFI (r : Raw) : Option FI :=
  match parseCm r, tyOfCode (cut r.tail.toNat 0 4) with
  | some c, some t => some ⟨c, cut r.tail.toNat 4 32, t⟩
  | _, _ => none

/-- FM (R34). -/
def parseFM (r : Raw) : Option FM :=
  match parseCm r, scopeOf (cut r.tail.toNat 7 3), szOf (cut r.tail.toNat 0 4) with
  | some c, some sc, some sz =>
    if cut r.tail.toNat 10 2 = 0 then
      some ⟨c, cut r.tail.toNat 12 24, sc, cut r.tail.toNat 4 3, sz⟩
    else none
  | _, _, _ => none

/-- FB (R35). -/
def parseFB (r : Raw) : Option FB :=
  match parseCm r with
  | some c =>
    if bit r.tail.toNat 3 = false ∧ (cut r.tail.toNat 0 3).toNat < 5 then
      some ⟨c, cut r.tail.toNat 4 32, Fin.ofNat 5 (cut r.tail.toNat 0 3).toNat⟩
    else none
  | none => none

/-- FS (R36). -/
def parseFS (r : Raw) : Option FS :=
  match parseCm r with
  | some c => if cut r.tail.toNat 0 4 = 0 then some ⟨c, cut r.tail.toNat 4 32⟩ else none
  | none => none

/-- FE (R37). -/
def parseFE (r : Raw) : Option FE :=
  match parseCm r with
  | some c =>
    if cut r.tail.toNat 24 12 = 0 then
      some ⟨c, cut r.tail.toNat 16 8, cut r.tail.toNat 8 8, cut r.tail.toNat 0 8⟩
    else none
  | none => none

/-! ### The opcode map (R41, R42) -/

/-- A row of the opcode map: the format, and the instruction its fields make. -/
inductive Row where
  | fr (mk : FR → Instr)
  | fi (mk : FI → Instr)
  | fm (mk : FM → Instr)
  | fb (mk : FB → Instr)
  | fs (mk : FS → Instr)
  | fe (mk : FE → Instr)

def tlbiRow (f : FS) : Instr :=
  if f.imm = 0 then .tlbiPage f else if f.imm = 1 then .tlbiAll f else .tlbiPart f

def gmakeRow (f : FS) : Instr :=
  if f.imm = 1 then .gmakeRevoke f else if f.imm = 2 then .gmakeSetacl f
  else if f.imm = 3 then .gmakeFreeze f else if f.imm = 4 then .gmakeThaw f
  else if f.imm = 5 then .gmakeRead f else .gmakeCreate f

def syswRow (f : FS) : Instr :=
  if f.imm = 0 then .syswStatus f else if f.imm = 0x11 then .syswLfsr f
  else if f.imm = 0x35 then .syswWmask f else .sysw f

def gtblRow (f : FR) : Instr := if f.flg.getLsbD 0 then .gtblW f else .gtbl f

/-- The row of a major opcode, by MIN where the major is a group; `none` faults ILLEGAL_OPCODE. -/
def rowOf (maj min : Nat) : Option Row :=
  match maj with
  | 0x01 => some (.fr .nop)
  | 0x02 => some (.fr .add)
  | 0x03 => some (.fr .sub)
  | 0x04 => some (.fr .mul)
  | 0x05 => some (.fr .mulh)
  | 0x06 => some (.fr .div)
  | 0x07 => some (.fr .rem)
  | 0x08 => some (.fr .min)
  | 0x09 => some (.fr .max)
  | 0x0A => some (.fr .and)
  | 0x0B => some (.fr .or)
  | 0x0C => some (.fr .xor)
  | 0x0D => some (.fr .andn)
  | 0x0E => some (.fr .shl)
  | 0x0F => some (.fr .shrl)
  | 0x10 => some (.fr .shra)
  | 0x11 => some (.fr .rot)
  | 0x12 => some (.fr .clz)
  | 0x13 => some (.fr .popc)
  | 0x14 => some (.fr .bfx)
  | 0x15 => some (.fr .bfi)
  | 0x16 => some (.fr .sel)
  | 0x17 => some (.fr .mov)
  | 0x18 => some (.fi .li)
  | 0x19 => some (.fi .lih)
  | 0x1A => some (.fr .abs)
  | 0x1B => some (.fr .mad)
  | 0x20 => some (.fr .cmp)
  | 0x21 => some (.fr .fcmp)
  | 0x22 => some (.fr .tstb)
  | 0x23 => some (.fb .br)
  | 0x24 => some (.fb .bri)
  | 0x25 => some (.fb .call)
  | 0x26 => some (.fb .calli)
  | 0x27 => some (.fb .ret)
  | 0x28 => some (.fb .loop)
  | 0x29 => some (.fs .exit)
  | 0x2A => some (.fs .yield)
  | 0x2B => some (.fs .trap)
  | 0x30 => some (.fr .fadd)
  | 0x31 => some (.fr .fsub)
  | 0x32 => some (.fr .fmul)
  | 0x33 => some (.fr .fma)
  | 0x34 => some (.fr .fmin)
  | 0x35 => some (.fr .fmax)
  | 0x36 => some (.fr .frcp)
  | 0x37 => some (.fr .frsq)
  | 0x38 => some (.fr .fex2)
  | 0x39 => some (.fr .flg2)
  | 0x3A => some (.fr .fsqt)
  | 0x3B => some (.fr .fdot)
  | 0x3C => some (.fr .shuf)
  | 0x3D => some (.fr .bcst)
  | 0x3E => some (.fr .redl)
  | 0x3F => some (.fr .extl)
  | 0x40 => some (.fr .insl)
  | 0x41 => some (.fr .mlog)
  | 0x42 => some (.fr .mpop)
  | 0x43 => some (.fr .mmov)
  | 0x44 => some (.fr .cvt)
  | 0x45 => some (.fr .pack)
  | 0x46 => some (.fr .unpk)
  | 0x47 => some (.fr .qnt)
  | 0x48 => some (.fr .dqnt)
  | 0x49 => some (.fr .sclx)
  | 0x50 => some (.fm .ld)
  | 0x51 => some (.fm .st)
  | 0x52 => some (.fm .gth)
  | 0x53 => some (.fm .sct)
  | 0x54 => some (.fm .ldfe)
  | 0x55 => some (.fm .ldfc)
  | 0x56 => some (.fm .stfl)
  | 0x57 => some (.fm .empt)
  | 0x58 => some (.fm .stmap)
  | 0x59 => some (.fm .stunmap)
  | 0x5A => some (.fm .stag)
  | 0x5B => some (.fm .ldt)
  | 0x5C => some (.fm .pfr)
  | 0x5D => some (.fm .wbk)
  | 0x5E => some (.fm .inv)
  | 0x5F => some (.fs (if min = 1 then .fenceCode else if min = 2 then .fenceEng else .fence))
  | 0x60 => some (.fm .atom)
  | 0x61 => some (.fm .red)
  | 0x62 => some (.fr .migr)
  | 0x63 => some (.fr .home)
  | 0x64 => some (.fr .spawn)
  | 0x65 => some (.fr .spawnat)
  | 0x66 => some (.fr .join)
  | 0x67 => some (.fr .nwr)
  | 0x68 => some (.fr .arm)
  | 0x69 => some (.fr .obl)
  | 0x6A => some (.fr .xfer)
  | 0x6B => some (.fr .poison)
  | 0x6C => some (.fr .obq)
  | 0x6D => some (.fr .rksplit)
  | 0x6E => some (.fr .bnew)
  | 0x6F => some (.fr .bjoin)
  | 0x70 => some (.fr .barv)
  | 0x71 => some (.fr .bwait)
  | 0x72 => some (.fr .bleave)
  | 0x73 => some (.fr .bdel)
  | 0x74 => some (.fr .gsig)
  | 0x75 => some (.fr .gwait)
  | 0x76 => some (.fr .gqry)
  | 0x77 => some (.fe .cpy)
  | 0x78 => some (.fe .mma)
  | 0x79 => some (.fe .mdrn)
  | 0x7A => some (.fe .mzro)
  | 0x7B => some (.fe .jobc)
  | 0x7C => match min with
    | 0 => some (.fe .tidw)
    | 1 => some (.fe .tidr)
    | 2 => some (.fe .tidinv)
    | _ => none
  | 0x7D => match min with
    | 0 => some (.fr .qsub)
    | 1 => some (.fr .launch)
    | 2 => some (.fr .cntw)
    | 3 => some (.fr .cncl)
    | 4 => some (.fr .kswap)
    | 5 => some (.fr .gred)
    | 6 => some (.fr .gbc)
    | 7 => some (.fr .gag)
    | 8 => some (.fr gtblRow)
    | _ => none
  | 0x7E => match min with
    | 0 => some (.fs .svc)
    | 1 => some (.fs .hvc)
    | 2 => some (.fs .eret)
    | 3 => some (.fs .sysr)
    | 4 => some (.fs syswRow)
    | 5 => some (.fs .bkpt)
    | 6 => some (.fs .trmk)
    | 7 => some (.fs .waiti)
    | 8 => some (.fs tlbiRow)
    | 9 => some (.fs .ckpt)
    | 10 => some (.fs .tbeg)
    | 11 => some (.fs .tcom)
    | 12 => some (.fs .tabt)
    | 13 => some (.fs .uiret)
    | 14 => some (.fs .uimask)
    | 15 => some (.fs gmakeRow)
    | 16 => some (.fs .pgsnap)
    | 17 => some (.fs .pgret)
    | _ => none
  | _ => none

/-- Fields all z or zero, but for MIN: what MIN is checked on before the other fields are read. -/
def Cm.blank (m : BitVec 5) : Cm := ⟨.z, .z, .z, .z, 0, 0, m⟩
def FR.blank (m : BitVec 5) : FR := ⟨Cm.blank m, 0, 0, false, false, false, false, .rn, .i64⟩
def FI.blank (m : BitVec 5) : FI := ⟨Cm.blank m, 0, .i64⟩
def FM.blank (m : BitVec 5) : FM := ⟨Cm.blank m, 0, .ctx, 0, .b8⟩
def FB.blank (m : BitVec 5) : FB := ⟨Cm.blank m, 0, 0⟩
def FS.blank (m : BitVec 5) : FS := ⟨Cm.blank m, 0⟩
def FE.blank (m : BitVec 5) : FE := ⟨Cm.blank m, 0, 0, 0⟩

/-- Why a cell is no instruction (R45, steps 5.1 and 5.2). -/
inductive DecErr where
  | opcode
  | encoding
  deriving DecidableEq, Repr

/-- The instruction of parsed fields, once MIN is one that it defines. -/
def finish {F : Type} (mk : F → Instr) (blank : F) (f : Option F) : Except DecErr Instr :=
  if minOk (mk blank) then
    match f with
    | some f => if fieldsOk (mk f) then .ok (mk f) else .error .encoding
    | none => .error .encoding
  else .error .opcode

/-- The decoder. -/
def decode (w : Cell96) : Except DecErr Instr :=
  let r := splitCell w
  match rowOf r.maj.toNat r.min.toNat with
  | none => .error .opcode
  | some (.fr mk) => finish mk (FR.blank r.min) (parseFR r)
  | some (.fi mk) => finish mk (FI.blank r.min) (parseFI r)
  | some (.fm mk) => finish mk (FM.blank r.min) (parseFM r)
  | some (.fb mk) => finish mk (FB.blank r.min) (parseFB r)
  | some (.fs mk) => finish mk (FS.blank r.min) (parseFS r)
  | some (.fe mk) => finish mk (FE.blank r.min) (parseFE r)

/-! ### The encoder -/

def rawOf (maj : BitVec 7) (c : Cm) (tail : BitVec 36) : Raw :=
  ⟨maj, c.min, c.stall, c.flg, opCode c.d, opCode c.a, opCode c.b, opCode c.c, tail⟩

def rawFR (maj : BitVec 7) (f : FR) : Raw :=
  rawOf maj f.toCm (BitVec.ofNat 36 (lay [((tyCode f.t).toNat, 4), ((rmCode f.rm).toNat, 3),
    (f.sat.toNat, 1), (f.negA.toNat, 1), (f.negB.toNat, 1), (f.negC.toNat, 1), (f.mask.val, 3), (0, 2),
    (f.imm20.toNat, 20)]))

def rawFI (maj : BitVec 7) (f : FI) : Raw :=
  rawOf maj f.toCm (BitVec.ofNat 36 (lay [((tyCode f.t).toNat, 4), (f.imm.toNat, 32)]))

def rawFM (maj : BitVec 7) (f : FM) : Raw :=
  rawOf maj f.toCm (BitVec.ofNat 36 (lay [((szCode f.sz).toNat, 4), (f.scl.toNat, 3),
    ((scopeCode f.scope).toNat, 3), (0, 2), (f.off.toNat, 24)]))

def rawFB (maj : BitVec 7) (f : FB) : Raw :=
  rawOf maj f.toCm (BitVec.ofNat 36 (lay [(f.tcell.val, 3), (0, 1), (f.loff.toNat, 32)]))

def rawFS (maj : BitVec 7) (f : FS) : Raw :=
  rawOf maj f.toCm (BitVec.ofNat 36 (lay [(0, 4), (f.imm.toNat, 32)]))

def rawFE (maj : BitVec 7) (f : FE) : Raw :=
  rawOf maj f.toCm (BitVec.ofNat 36 (lay [(f.tida.toNat, 8), (f.tidb.toNat, 8), (f.tidc.toNat, 8),
    (0, 12)]))

/-- The fields of an instruction; an event has no encoding. -/
def encodeRaw : Instr → Option Raw
  | .nop f => some (rawFR 0x01 f)
  | .add f => some (rawFR 0x02 f)
  | .sub f => some (rawFR 0x03 f)
  | .mul f => some (rawFR 0x04 f)
  | .mulh f => some (rawFR 0x05 f)
  | .div f => some (rawFR 0x06 f)
  | .rem f => some (rawFR 0x07 f)
  | .min f => some (rawFR 0x08 f)
  | .max f => some (rawFR 0x09 f)
  | .and f => some (rawFR 0x0A f)
  | .or f => some (rawFR 0x0B f)
  | .xor f => some (rawFR 0x0C f)
  | .andn f => some (rawFR 0x0D f)
  | .shl f => some (rawFR 0x0E f)
  | .shrl f => some (rawFR 0x0F f)
  | .shra f => some (rawFR 0x10 f)
  | .rot f => some (rawFR 0x11 f)
  | .clz f => some (rawFR 0x12 f)
  | .popc f => some (rawFR 0x13 f)
  | .bfx f => some (rawFR 0x14 f)
  | .bfi f => some (rawFR 0x15 f)
  | .sel f => some (rawFR 0x16 f)
  | .mov f => some (rawFR 0x17 f)
  | .li f => some (rawFI 0x18 f)
  | .lih f => some (rawFI 0x19 f)
  | .abs f => some (rawFR 0x1A f)
  | .mad f => some (rawFR 0x1B f)
  | .cmp f => some (rawFR 0x20 f)
  | .fcmp f => some (rawFR 0x21 f)
  | .tstb f => some (rawFR 0x22 f)
  | .br f => some (rawFB 0x23 f)
  | .bri f => some (rawFB 0x24 f)
  | .call f => some (rawFB 0x25 f)
  | .calli f => some (rawFB 0x26 f)
  | .ret f => some (rawFB 0x27 f)
  | .loop f => some (rawFB 0x28 f)
  | .exit f => some (rawFS 0x29 f)
  | .yield f => some (rawFS 0x2A f)
  | .trap f => some (rawFS 0x2B f)
  | .fadd f => some (rawFR 0x30 f)
  | .fsub f => some (rawFR 0x31 f)
  | .fmul f => some (rawFR 0x32 f)
  | .fma f => some (rawFR 0x33 f)
  | .fmin f => some (rawFR 0x34 f)
  | .fmax f => some (rawFR 0x35 f)
  | .frcp f => some (rawFR 0x36 f)
  | .frsq f => some (rawFR 0x37 f)
  | .fex2 f => some (rawFR 0x38 f)
  | .flg2 f => some (rawFR 0x39 f)
  | .fsqt f => some (rawFR 0x3A f)
  | .fdot f => some (rawFR 0x3B f)
  | .shuf f => some (rawFR 0x3C f)
  | .bcst f => some (rawFR 0x3D f)
  | .redl f => some (rawFR 0x3E f)
  | .extl f => some (rawFR 0x3F f)
  | .insl f => some (rawFR 0x40 f)
  | .mlog f => some (rawFR 0x41 f)
  | .mpop f => some (rawFR 0x42 f)
  | .mmov f => some (rawFR 0x43 f)
  | .cvt f => some (rawFR 0x44 f)
  | .pack f => some (rawFR 0x45 f)
  | .unpk f => some (rawFR 0x46 f)
  | .qnt f => some (rawFR 0x47 f)
  | .dqnt f => some (rawFR 0x48 f)
  | .sclx f => some (rawFR 0x49 f)
  | .ld f => some (rawFM 0x50 f)
  | .st f => some (rawFM 0x51 f)
  | .gth f => some (rawFM 0x52 f)
  | .sct f => some (rawFM 0x53 f)
  | .ldfe f => some (rawFM 0x54 f)
  | .ldfc f => some (rawFM 0x55 f)
  | .stfl f => some (rawFM 0x56 f)
  | .empt f => some (rawFM 0x57 f)
  | .stmap f => some (rawFM 0x58 f)
  | .stunmap f => some (rawFM 0x59 f)
  | .stag f => some (rawFM 0x5A f)
  | .ldt f => some (rawFM 0x5B f)
  | .pfr f => some (rawFM 0x5C f)
  | .wbk f => some (rawFM 0x5D f)
  | .inv f => some (rawFM 0x5E f)
  | .atom f => some (rawFM 0x60 f)
  | .red f => some (rawFM 0x61 f)
  | .migr f => some (rawFR 0x62 f)
  | .home f => some (rawFR 0x63 f)
  | .spawn f => some (rawFR 0x64 f)
  | .spawnat f => some (rawFR 0x65 f)
  | .join f => some (rawFR 0x66 f)
  | .nwr f => some (rawFR 0x67 f)
  | .arm f => some (rawFR 0x68 f)
  | .obl f => some (rawFR 0x69 f)
  | .xfer f => some (rawFR 0x6A f)
  | .poison f => some (rawFR 0x6B f)
  | .obq f => some (rawFR 0x6C f)
  | .rksplit f => some (rawFR 0x6D f)
  | .bnew f => some (rawFR 0x6E f)
  | .bjoin f => some (rawFR 0x6F f)
  | .barv f => some (rawFR 0x70 f)
  | .bwait f => some (rawFR 0x71 f)
  | .bleave f => some (rawFR 0x72 f)
  | .bdel f => some (rawFR 0x73 f)
  | .gsig f => some (rawFR 0x74 f)
  | .gwait f => some (rawFR 0x75 f)
  | .gqry f => some (rawFR 0x76 f)
  | .cpy f => some (rawFE 0x77 f)
  | .mma f => some (rawFE 0x78 f)
  | .mdrn f => some (rawFE 0x79 f)
  | .mzro f => some (rawFE 0x7A f)
  | .jobc f => some (rawFE 0x7B f)
  | .fence f | .fenceCode f | .fenceEng f => some (rawFS 0x5F f)
  | .tidw f | .tidr f | .tidinv f => some (rawFE 0x7C f)
  | .qsub f | .launch f | .cntw f | .cncl f | .kswap f | .gred f | .gbc f | .gag f | .gtbl f | .gtblW f => some (rawFR 0x7D f)
  | .svc f | .hvc f | .eret f | .sysr f | .bkpt f | .trmk f | .waiti f | .ckpt f => some (rawFS 0x7E f)
  | .tbeg f | .tcom f | .tabt f | .uiret f | .uimask f | .pgsnap f | .pgret f | .sysw f => some (rawFS 0x7E f)
  | .syswStatus f | .syswLfsr f | .syswWmask f | .tlbiPage f | .tlbiAll f | .tlbiPart f | .gmakeCreate f | .gmakeRevoke f => some (rawFS 0x7E f)
  | .gmakeSetacl f | .gmakeFreeze f | .gmakeThaw f | .gmakeRead f => some (rawFS 0x7E f)
  | _ => none

/-- The cell of an instruction. -/
def encode (i : Instr) : Option Cell96 := (encodeRaw i).map joinCell

/-- The instruction that the decoder reads from a cell whose bits are `w`: bit 0 is bit 0 of the cell's
first byte. A cell has 96 bits; bits above the `nbits` given are zero. -/
def decodeTableWord (nbits w : Nat) : Option Instr :=
  match decode (BitVec.ofNat 96 (w % 2 ^ nbits)) with
  | .ok i => some i
  | .error _ => none

end Sys2Proof
end

