-- ==== Sys2Proof/Machine/Shape.lean ====
section
/-! DEFINITION. What the issue stage asks of an instruction before its own meaning: its class and its
fields (R41, R24), its least privilege (R43), and which slots may issue (R90, R107). -/

namespace Sys2Proof.Machine

open Sys2Proof

/-! ### Class and fields -/

/-- The major opcode of an instruction; 0 for an event. -/
def majOf (i : Instr) : Nat :=
  match encodeRaw i with
  | some r => r.maj.toNat
  | none => 0

/-- The STALL field. -/
def stallOf (i : Instr) : Nat :=
  match encodeRaw i with
  | some r => r.stall.toNat
  | none => 0

/-- Class M (R41); the other instructions are class A. -/
def classM (i : Instr) : Bool :=
  let m := majOf i
  (0x29 ≤ m && m ≤ 0x2B) || 0x50 ≤ m

/-- Branches, calls, returns and LOOP (R24). -/
def isBranch (i : Instr) : Bool := 0x23 ≤ majOf i && majOf i ≤ 0x28

/-- The control transfers (R24). -/
def isTransfer : Instr → Bool
  | .exit _ | .trap _ | .svc _ | .hvc _ | .eret _ | .uiret _ | .bkpt _ => true
  | i => isBranch i

/-- A compare with SKIP nonzero (R24, R38). -/
def isSkip : Instr → Bool
  | .cmp f | .fcmp f | .tstb f => f.skip != 0
  | _ => false

/-- The operand fields that may name registers: D of MMA, MDRN and MZRO is an accumulator (R335). -/
def fieldsOf (i : Instr) : List Opnd :=
  match (encodeRaw i).bind parseCm with
  | some c => if 0x78 ≤ majOf i && majOf i ≤ 0x7A then c.srcs else c.fields
  | none => []

/-- The window register that an instruction writes, for R24: the data registers of ST, SCT, STFL, STAG
and RED are read, LOOP writes its count register, and ARM's D counts as written (the model's choice:
notes/assumptions/121). -/
def writtenReg (i : Instr) : Option Nat :=
  match (encodeRaw i).bind parseCm with
  | some c =>
    let m := majOf i
    if m = 0x28 then gOf c.a
    else if m = 0x51 || m == 0x53 || m == 0x56 || m == 0x5A || m == 0x61 || (0x78 ≤ m && m ≤ 0x7A) then none
    else gOf c.d
  | none => none

/-- R24: whether two instructions may form a pair. -/
def pairOk (i j : Instr) : Bool :=
  (classM i != classM j) && !isBranch i && !isSkip i && !(isTransfer i && isTransfer j) &&
    (match writtenReg i, writtenReg j with
     | some a, some b => a != b
     | _, _ => true)

/-- The least privilege of an instruction (R43), apart from SYSR and SYSW. -/
def leastPrv : Instr → Prv
  | .gmakeCreate _ | .gmakeRevoke _ | .gmakeSetacl _ | .gmakeFreeze _ | .gmakeThaw _ | .gmakeRead _
  | .pgret _ => .hyp
  | .eret _ | .tlbiPage _ | .tlbiAll _ | .tlbiPart _ | .ckpt _ | .pgsnap _ | .kswap _ | .gtblW _ => .guest
  | _ => .user

/-! ### The next instruction of a slot -/

/-- `cur` for an instruction of context `x` in cell `k` of line `l`; `n` cells issue. -/
def curFor (x : CtxId) (l : Line) (k n : Nat) : Cur where
  id := x
  pc := l.addr + BitVec.ofNat 57 k
  pc0 := l.addr + BitVec.ofNat 57 k
  nx := nextPc l (k + n)
  lits := l.cells
  lit := BitVec.ofNat 5 (l.word.toNat / 2 ^ 10)
  undone := false
  trapped := false
  pair := false
  src := BitVec.allOnes 57
  rstNext := false

/-- The instructions that a slot would issue next from the line it holds or can fetch. -/
def nextCells (s : State) (x : CtxId) : List Instr :=
  let pc := (ctxOf s x).pc
  match heldLine s x pc with
  | .ok l =>
    let k := cellNo pc
    let one := match decode (l.cell k) with
      | .ok i => [i]
      | .error _ => []
    if l.pair k then
      one ++ (match decode (l.cell (k + 1)) with
        | .ok i => [i]
        | .error _ => [])
    else one
  | _ => []

/-- The YIELD condition (R107). -/
def yieldOver (s : State) (x : CtxId) : Bool :=
  match (ctxOf s x).yielded with
  | none => true
  | some y => y.slots.isEmpty && decide (y.cycle ≤ (coreOf s x.core).cyc)

/-- A unit of a timed group does not issue before T0 (R333). -/
def heldForT0 (s : State) (x : CtxId) : Bool :=
  match groupOf s (partId s x) (ctxOf s x).grp with
  | some g =>
    g.timed && (match g.t0 with
      | none => true
      | some t => decide (timeOf s (pkgOf x.core) < t))
  | none => false

/-- A slot that may issue but for what its next instruction finds (R90). -/
def slotReady (s : State) (x : CtxId) : Bool :=
  let sl := slotOf s x
  sl.st == .ready && sl.ctx.held.isNone && decide (sl.ctx.nextIssue ≤ (coreOf s x.core).cyc) && yieldOver s x && !heldForT0 s x

/-- R90 in full. -/
def issuable (s : State) (x : CtxId) : Bool :=
  slotReady s x &&
    (let is := nextCells s x
     let at_x := { s with cur := { s.cur with id := x } }
     (is.all fun i => (absent at_x (fieldsOf i)).isNone) &&
       !(windowOpen s x && is.any fun i => match i with
         | .trap _ | .svc _ | .hvc _ | .bkpt _ => true
         | _ => false))

/-- The slots of a core in the order of the issue pointer. -/
def slotOrder (k : Core) : List Nat := (upto 64).map fun i => (k.ptr + i) % 64

/-- The slot that the pointer takes (R90). -/
def pickSlot (s : State) (core : Nat) : Option Nat :=
  firstWhere (fun i => slotReady s ⟨core, i⟩) (slotOrder (coreOf s core))

end Sys2Proof.Machine
end

