-- ==== Sys2Proof/Machine/Acts.lean ====
section
/-! DEFINITION. The acts that obligations promise, as their homes perform them (R70): filling a word and
waking its waiters (R178), counting (R221), arriving at a barrier (R236, R237), signalling a gate (R385),
depositing into a neighbour (R97); and throttling (R378, R379). -/

namespace Sys2Proof.Machine

open Sys2Proof

/-! ### Waiters -/

/-- Insertion by arrival. -/
def insSeq (e : CtxId × Slot) : List (CtxId × Slot) → List (CtxId × Slot)
  | [] => [e]
  | f :: t => if e.2.ctx.waitSeq < f.2.ctx.waitSeq then e :: f :: t else f :: insSeq e t

/-- The contexts that wait on an act which satisfies `q` and that no reply has reached, earliest first. -/
def waiters (s : State) (q : WaitOn → Bool) : List (CtxId × Slot) :=
  ((allSlots s).filter fun e => isParked (effSt e.2) && e.2.ctx.reply.isNone && q e.2.ctx.wait).foldr insSeq []

/-- A waiter receives a value for D. -/
def answer (s : State) (x : CtxId) (v : Reg) : State := reply s x (.value (ctxOf s x).waitDest v)

/-! ### Full/empty words (R166, R177, R178) -/

/-- A register-file entry as a window register. -/
def windowNo (c : Ctx) : Dest → Option Nat
  | .reg e => some (e - c.winBase)
  | _ => none

/-- A parked context consumes erroneous data, which `reg` would have received (R165, R171). -/
def consumesAt (s : State) (x : CtxId) (reg : Option Nat) (err : DataErr) (pa : Nat) : State :=
  at_ (modCtx s x fun c => { c with
    wait := .reply
    badRead := reg }) s.now (.dataErrorConsumption x err pa)

/-- A wait on a full word is performed for a parked context, at its place in S. -/
def performWord (s : State) (key : Nat) (x : CtxId) (take : Bool) : State :=
  let c := ctxOf s x
  match raceSync s x (key / 32) take, badAt s key 8 with
  | some r, _ => reply (reportRace s (partId s x) r) x (.trap .memoryRace (raceInfo c.waitVa r))
  | none, some e => consumesAt s x (windowNo c c.waitDest) e (key % 2 ^ 52)
  | none, none =>
    let s := syncObj s x (key / 8) true false
    let s := recSync s x (key / 32) take c.pc c.waitVa
    let v := BitVec.ofNat 256 (readN s key 8)
    let s := if take then setFe s key ⟨false, false, .none⟩ else s
    answer s x v

/-- The waiters of a word are woken by a fill: every LDFC and JOIN, then the earliest LDFE; all of them
trap POISONED where the fill was poisoned. -/
def wakeWord (s : State) (key : Nat) : State :=
  let w := feOf s key
  if w.poison then
    (waiters s fun q => match q with
      | .word k _ => k == key
      | _ => false).foldl (fun s e => reply s e.1 (.trap .poisoned 0)) s
  else
    let s := (waiters s (· == .word key false)).foldl (fun s e => performWord s key e.1 false) s
    (waiters s (· == .word key true)).foldl
      (fun s e => if (feOf s key).full then performWord s key e.1 true else s) s

/-- A fill: the word becomes full, its holder is cleared, its data is replaced if a value is given. -/
def fillWord (s : State) (key : Nat) (val : Option W64) (poison : Bool) : State :=
  let s := match val with
    | some v => writeN s key 8 v.toNat
    | none => s
  wakeWord (setFe s key ⟨true, poison, .none⟩) key

/-- The key of the word at a virtual address of a partition. -/
def keyOfVa (s : State) (p : PartId) (va : VA) : Option Nat :=
  match walk s p va with
  | .ok _ _ fr _ => some (memKey p.pkg (fr * 65536 + va.toNat % 65536))
  | _ => none

/-! ### Counters (R220, R221) -/

/-- The address of a counter's entry. -/
def counterVa (s : State) (p : PartId) (c : Nat) : VA :=
  BitVec.ofNat 57 ((partOf s p).ctab.toNat % 2 ^ 57 + 16 * c)

/-- The key of a counter's entry, where the table exists and is mapped. -/
def counterKey (s : State) (p : PartId) (c : Nat) : Option Nat :=
  if (partOf s p).ctab = 0 then none else keyOfVa s p (counterVa s p c)

/-- A counter's entry as a number of 128 bits. -/
def counterEntry (s : State) (p : PartId) (c : Nat) : Nat :=
  match counterKey s p c with
  | some k => readN s k 16
  | none => 0

def ctrCfg (e : Nat) : Bool := bitAt e 0
def ctrPoison (e : Nat) : Bool := bitAt e 1
def ctrLevel (e : Nat) : Nat := bitsOf e 2 2
def ctrValue (e : Nat) : Nat := bitsOf e 32 32
def ctrRank (e : Nat) : Nat := bitsOf e 64 16
def ctrParent (e : Nat) : Option Nat := if bitAt e 95 then some (bitsOf e 80 12) else none
def ctrTarget (e : Nat) : Nat := bitsOf e 96 32

/-- Whether a counter is configured in the partition. -/
def ctrOk (s : State) (p : PartId) (c : Nat) : Bool := c < 4096 && ctrCfg (counterEntry s p c)

/-- A count goes to the counter's home (R221). -/
def countOn (s : State) (p : PartId) (c : Nat) (poison : Bool) : State :=
  at_ s s.now (.counterCount p c poison)

/-! ### DONE (R69, R70) -/

/-- Whether a DONE handle names a counter, and which; `none` for a token word. -/
def doneCounter (h : W64) : Option Nat := if h.getLsbD 63 then some (bitsOf h.toNat 0 12) else none

/-- A DONE handle that names no counter: bit 63 set with stray bits (R69). -/
def strayCounter (h : W64) : Bool := h.getLsbD 63 && bitsOf h.toNat 12 51 != 0

/-- A counter handle that names no counter (R69). -/
def badCounter (s : State) (p : PartId) (h : W64) : Bool :=
  strayCounter h || h.getLsbD 63 && (!ctrOk s p (bitsOf h.toNat 0 12))

/-- The line of a counter's entry is logged before a count on behalf of a context (R411). -/
def logDone (s : State) (p : PartId) (who : CRef) (tx : Option TxId) (h : W64) : State :=
  match (doneCounter h).bind (counterKey s p) with
  | some k => logUndo s p who tx false k
  | none => s

/-- One act of a DONE obligation: a count, or a fill of the token word with `val` or with its own data. -/
def actDone (s : State) (p : PartId) (h : W64) (val : Option W64) (poison : Bool) : State :=
  match doneCounter h with
  | some c => countOn s p c poison
  | none =>
    match keyOfVa s p (h.setWidth 57) with
    | some k => fillWord s k val poison
    | none => s

/-! ### Barriers (R233 to R240) -/

/-- The home site of a home barrier or a home gate. -/
def handleSite (h : W64) : Nat := coreId (bitsOf h.toNat 24 5) (bitsOf h.toNat 22 2) (bitsOf h.toNat 12 10)

def handleGen (h : W64) : BitVec 32 := BitVec.ofNat 32 (h.toNat / 2 ^ 32)
def handleCps (h : W64) : Bool := h.getLsbD 31
def handleEntry (h : W64) : Nat := bitsOf h.toNat 6 6

/-- The physical address of the first copse word of a copse barrier. -/
def copseBarPA (h : W64) : Nat := 2 * 2 ^ 43 + bitsOf h.toNat 3 16 * 8

/-- The 64 bytes of a barrier (R234). -/
def barrierBytes (b : Barrier) : Nat :=
  b.st + b.ppois.toNat * 4 + b.rank * 2 ^ 16 + b.npart * 2 ^ 32 + b.arrived * 2 ^ 48 + b.owed * 2 ^ 64 +
    b.waiters * 2 ^ 80 + b.gen.toNat * 2 ^ 96 + b.phase.toNat * 2 ^ 128 + b.phist.toNat * 2 ^ 160 +
    b.part * 2 ^ 192

def barrierOf (n : Nat) : Barrier where
  st := bitsOf n 0 2
  ppois := bitAt n 2
  rank := bitsOf n 16 16
  npart := bitsOf n 32 16
  arrived := bitsOf n 48 16
  owed := bitsOf n 64 16
  waiters := bitsOf n 80 16
  gen := BitVec.ofNat 32 (n / 2 ^ 96)
  phase := BitVec.ofNat 32 (n / 2 ^ 128)
  phist := BitVec.ofNat 32 (n / 2 ^ 160)
  part := bitsOf n 192 16

/-- A barrier as the package `pkg` sees it; no check of the handle. -/
def rawBarrier (s : State) (pkg : Nat) (h : W64) : Barrier :=
  if handleCps h then barrierOf (readPA s pkg (copseBarPA h) 64)
  else Map.get (siteOf s (handleSite h)).bars (handleEntry h) Barrier.zero

/-- The barrier that a handle names; `none` where it is stale (R233). -/
def getBarrier (s : State) (pkg : Nat) (h : W64) : Option Barrier :=
  let b := rawBarrier s pkg h
  let reserved := if handleCps h then bitsOf h.toNat 19 12 != 0 || bitsOf h.toNat 0 3 != 0
    else bitsOf h.toNat 29 2 != 0 || bitsOf h.toNat 0 6 != 0
  if reserved || b.st == 0 || b.gen != handleGen h then none else some b

def putBarrier (s : State) (pkg : Nat) (h : W64) (b : Barrier) : State :=
  if handleCps h then writePA s pkg (copseBarPA h) 64 (barrierBytes b)
  else modSite s (handleSite h) fun k => { k with bars := Map.put k.bars (handleEntry h) b }

/-- A barrier entry's old state is logged at its first change by a context in the interval (R409). -/
def logBarrier (s : State) (p : PartId) (who : CRef) (h : W64) (old : Barrier) : State :=
  if !ckEnabled s p || handleCps h then s
  else if (partOf s p).log.bars.any fun u =>
      u.who == who && u.site == handleSite h && u.entry == handleEntry h then s
  else modLog s p fun l => { l with bars := l.bars ++ [⟨who, handleSite h, handleEntry h, old⟩] }

/-- The completion check (R237). -/
def Barrier.check (b : Barrier) : Barrier :=
  if b.npart ≤ b.arrived then
    { b with
      phist := (b.phist <<< 1) ||| BitVec.ofNat 32 b.ppois.toNat
      phase := b.phase + 1
      arrived := 0
      ppois := false }
  else b

/-- An arrival, plain or poisoned (R236): a broken barrier only lowers OWED. -/
def Barrier.arrive (b : Barrier) (poison : Bool) : Barrier :=
  if b.st = 2 then { b with owed := b.owed - 1 }
  else Barrier.check
    { b with
      owed := b.owed - 1
      arrived := b.arrived + 1
      ppois := b.ppois || poison }

/-- Whether phase `p` is complete (R245). -/
def Barrier.done (b : Barrier) (p : BitVec 32) : Bool := decide ((b.phase - p - 1).toNat < 2 ^ 31)

/-- Whether the complete phase `p` completed poisoned; one older than 32 phases is taken as clean. -/
def Barrier.poisoned (b : Barrier) (p : BitVec 32) : Bool :=
  decide ((b.phase - p).toNat ≤ 32) && b.phist.getLsbD ((b.phase - p).toNat - 1)

/-- BWAITs whose phase is complete return or trap; for a copse barrier those of the package alone. -/
def wakeBarrier (s : State) (pkg : Nat) (h : W64) : State :=
  let b := rawBarrier s pkg h
  let ws := (waiters s fun q => match q with
    | .barrier g p => g == h && b.done p
    | _ => false).filter fun e => !handleCps h || pkgOf e.1.core == pkg
  let s := ws.foldl (fun s e =>
    match e.2.ctx.wait with
    | .barrier _ p =>
      if b.poisoned p then reply s e.1 (.trap .poisoned 0)
      else answer (syncObj s e.1 (2 ^ 60 + h.toNat % 2 ^ 32) true false) e.1 (BitVec.ofNat 256 b.phase.toNat)
    | _ => s) s
  if ws.isEmpty || handleCps h then s else putBarrier s pkg h { b with waiters := b.waiters - ws.length }

/-- A frame for the order plane: the package sends it when it holds the Thorn (R294, R296). -/
def sendFrame (s : State) (pkg : Nat) (b : OBody) : State :=
  modPkg s pkg fun p => { p with toSend := p.toSend ++ [b] }

/-- The issuer of an order frame that no context sends. -/
def noOne (pkg : Nat) : CtxId := ⟨pkg * 4096, 64⟩

/-- `n` arrivals with the poison mark; `by_` issues the frames of a copse barrier. A stale handle and a barrier of another
partition take none (R233). -/
def poisonArrive (s : State) (pkg part : Nat) (who : CRef) (by_ : CtxId) (h : W64) : Nat → State
  | 0 => s
  | n + 1 =>
    match (getBarrier s pkg h).filter fun b => b.part == part with
    | none => s
    | some b =>
      let s :=
        if handleCps h then sendFrame s pkg (.barrier 6 h 0 by_ .none)
        else wakeBarrier (putBarrier (logBarrier s ⟨pkg, part⟩ who h b) pkg h (b.arrive true)) pkg h
      poisonArrive s pkg part who by_ h n

/-! ### Gates (R381 to R386) -/

def gateIndex (h : W64) : Nat := bitsOf h.toNat 6 10

/-- The gate at a handle's place as the package `pkg` sees it. -/
def rawGate (s : State) (pkg : Nat) (h : W64) : Gate :=
  if handleCps h then Map.get (pkgAt s pkg).gates (gateIndex h) Gate.zero
  else Map.get (siteOf s (handleSite h)).gates (handleEntry h) Gate.zero

/-- The gate that a handle names; `none` where it is stale (R381). -/
def getGate (s : State) (pkg : Nat) (h : W64) : Option Gate :=
  let g := rawGate s pkg h
  let reserved := bitsOf h.toNat 29 2 != 0 || bitsOf h.toNat 0 6 != 0 ||
    (if handleCps h then bitsOf h.toNat 16 13 != 0 else bitsOf h.toNat 10 2 != 0)
  if reserved || !g.opened || g.gen != handleGen h then none else some g

def putGate (s : State) (pkg : Nat) (h : W64) (g : Gate) : State :=
  if handleCps h then modPkg s pkg fun p => { p with gates := Map.put p.gates (gateIndex h) g }
  else modSite s (handleSite h) fun k => { k with gates := Map.put k.gates (handleEntry h) g }

/-- The valid ACL entry of a partition. -/
def Gate.aclFor (g : Gate) (part : Nat) : Option Acl := firstWhere (fun a => a.v && a.part == part) g.acl

def Gate.modAcl (g : Gate) (part : Nat) (f : Acl → Acl) : Gate :=
  { g with acl := listMod (fun a => a.v && a.part == part) f g.acl }

def Gate.frozen (g : Gate) (part : Nat) : Bool :=
  match g.aclFor part with
  | some a => a.frz
  | none => false

/-- The count of `n` signals (R385). -/
def Gate.count (g : Gate) (n : Nat) (poison : Bool) : Gate :=
  let k := Nat.min n 32
  { g with
    sig := g.sig + BitVec.ofNat 32 n
    phist := (g.phist <<< k) ||| (if poison then BitVec.ofNat 32 (2 ^ k - 1) else 0) }

def Gate.reached (g : Gate) (t : BitVec 32) : Bool := decide ((g.sig - t).toNat < 2 ^ 31)
def Gate.poisoned (g : Gate) (t : BitVec 32) : Bool :=
  decide ((g.sig - t).toNat < 32) && g.phist.getLsbD (g.sig - t).toNat

/-- GWAITs whose target is reached return or trap; those of a frozen partition stay (R386). -/
def wakeGate (s : State) (pkg : Nat) (h : W64) : State :=
  let g := rawGate s pkg h
  let ws := (waiters s fun q => match q with
    | .gate k t => k == h && g.reached t
    | _ => false).filter fun e =>
      (!handleCps h || pkgOf e.1.core == pkg) && !g.frozen e.2.ctx.part
  let s := ws.foldl (fun s e =>
    match e.2.ctx.wait with
    | .gate _ t =>
      if g.poisoned t then reply s e.1 (.trap .poisoned 0)
      else answer (syncObj s e.1 (2 ^ 61 + h.toNat % 2 ^ 32) true false) e.1 (BitVec.ofNat 256 g.sig.toNat)
    | _ => s) s
  if ws.isEmpty then s else putGate s pkg h { g with waiters := g.waiters - ws.length }

/-- `n` signals with the poison mark on behalf of a partition: of a frozen one they are held, and on a
stale handle they are reported and dropped (R385, R388, R389). -/
def poisonSignal (s : State) (p : PartId) (who : CRef) (by_ : CtxId) (h : W64) (n : Nat) : State :=
  match getGate s p.pkg h with
  | none => veqPush s p 9 1 h (refWord who) 0
  | some g =>
    if g.frozen p.part then putGate s p.pkg h { g with held := g.held ++ [(p.part, n)] }
    else if handleCps h then sendFrame s p.pkg (.gate 1 h p.part n 0 0 by_ .none)
    else wakeGate (putGate s p.pkg h (g.count n true)) p.pkg h

/-! ### Deposits (R69, R97) -/

/-- The neighbour of a core in a direction: 0 toward x + 1, 1 toward y + 1, 2 toward x − 1, 3 toward
y − 1; links run only inside a die. -/
def neighbour (core dir : Nat) : Option Nat :=
  let x := cxOf core
  let y := cyOf core
  let at_ := fun x y => core / 1024 * 1024 + y * 32 + x
  if dir = 0 then (if x < 31 then some (at_ (x + 1) y) else none)
  else if dir = 1 then (if y < 31 then some (at_ x (y + 1)) else none)
  else if dir = 2 then (if 0 < x then some (at_ (x - 1) y) else none)
  else (if 0 < y then some (at_ x (y - 1)) else none)

def feedDir (h : W64) : Nat := bitsOf h.toNat 0 2
def feedSlot (h : W64) : Nat := bitsOf h.toNat 2 6
def feedReg (h : W64) : Nat := bitsOf h.toNat 8 7

/-- The receiving port that faces the sender. -/
def feedPort (h : W64) : Nat := (feedDir h + 2) % 4

/-- A deposit is sent from a core; it arrives after 3 cycles. -/
def sendDeposit (s : State) (from_ : Nat) (p : PartId) (sender : CRef) (h : W64) (v : Reg) (poison : Bool) : State :=
  match neighbour from_ (feedDir h) with
  | none => s
  | some core =>
    let (n, s) := fresh s
    let s := { s with deposits := s.deposits ++
      [⟨n, core, feedPort h, feedSlot h, feedReg h, v, p, sender, poison⟩] }
    inCycles s from_ 3 (.depositArrival n)

/-! ### Poisoned acts of any kind (R70, R76, R77) -/

/-- `n` acts of an obligation performed with the poison mark, from the place of `x`; `by_` is the context whose
instruction performs them, if one does. The fill of a word whose page does not translate performs nothing (the model's
choice: notes/assumptions/123). -/
def poisonActs (s : State) (x : CtxId) (p : PartId) (who : CRef) (by_ : CtxId) (k : OblKind) (h : W64) (n : Nat) :
    State :=
  match k with
  | .bar => poisonArrive s p.pkg p.part who by_ h n
  | .fill =>
    match keyOfVa s p (h.setWidth 57) with
    | some key => fillWord s key none true
    | none => s
  | .feed => (upto n).foldl (fun s _ => sendDeposit s x.core p who h 0 true) s
  | .gate => poisonSignal s p who by_ h n
  | .done => (upto n).foldl (fun s _ => actDone s p h none true) (logDone s p who none h)

/-! ### Quotas (R378, R379) -/

/-- The limit in force: never above the hardware's maximum. -/
def limitOf (s : State) (p : PartId) (i hw : Nat) : Nat := Nat.min (quotaOf s p i) hw

/-- The length of the throttle limit: 1 ms. -/
def oneMs : Nat := ns 1000000

/-- The instruction that issues, with the window registers that its operands name. -/
def heldRequest (s : State) : Held where
  cur := s.cur
  regs := match decode (BitVec.ofNat 96 (s.cur.lits.toNat / 2 ^ (96 * (s.cur.pc.toNat % 8)))) with
    | .ok i => (fieldsOf i).filterMap fun o => (gOf o).map fun n =>
        (entryOf s (me s) n, entryVal s (me s).core (entryOf s (me s) n))
    | .error _ => []

/-- The issuing context is throttled: its instruction has issued and waits to be performed (R94), and it faults
QUOTA after 1 ms without a break. -/
def throttle (w : Nat → WaitOn) (timed : Bool) (s : State) : State :=
  let t := match (myCtx s).throttle with
    | some (pc, t) => if pc = s.cur.pc0 then t else s.now
    | none => s.now
  let s := parkOn .parkedMessage (w t) .none (mod s fun c => { c with throttle := some (s.cur.pc0, t), held := some (heldRequest s) })
  if timed then at_ s (t + oneMs) (.throttleTimeout (me s)) else s

/-! ### Parks until earlier accesses are acknowledged (R175, R188) -/

/-- The effect `k` after every earlier store, seed, WBK, INV and PFR issue of the context. -/
def afterDrain (k : State → State) (s : State) : State :=
  if drained s (me s) then k s else parkBefore .parkedMemory .drain s

/-- A context that waits for its own accesses looks again. -/
def wakeDrain (s : State) (origin : CtxId) : State :=
  ((allSlots s).filter fun e => e.2.ctx.origin == origin && isParked e.2.st && e.2.ctx.wait == .drain).foldl
    (fun s e => wake s e.1 0) s

/-- The effect `k` unless an OBL or XFER of the context is unresolved (R73). -/
def tableFree (k : State → State) (s : State) : State :=
  if tableHeld s (me s) then parkBefore .parkedMessage .table s else k s

/-- A result of variable latency and the next instruction. -/
def result (d : Opnd) (v : Reg) (s : State) : State := advance (openResult s (destOf s d) v)

/-- The result of a memory access, and the next instruction: the parts are bound when the data reaches the
core (R278). -/
def resultOf (d : Opnd) (v : Reg) (parts : List LoadPart) (s : State) : State :=
  let (q, s) := fresh s
  let (t, s) := nextLat s
  advance (openVar s (1 + t) (destOf s d) v (some ⟨q, originOf s (me s), parts⟩))

end Sys2Proof.Machine
end

