-- ==== Sys2Proof/Machine/Caches.lean ====
section
/-! DEFINITION. The stash as loads and stores meet it (R155 to R157), and lost sectors (R261, R262). -/

namespace Sys2Proof.Machine

open Sys2Proof

/-! ### The stash (R156, R157) -/

def stashBytes (k : Core) : Nat := k.stashWays * 16384

/-- Bytes written straight into the stash. -/
def stashPut (s : State) (core : Nat) : Nat → Nat → Nat → State
  | _, 0, _ => s
  | off, n + 1, v =>
    stashPut (modCore s core fun k => { k with stash := Map.put k.stash off (BitVec.ofNat 8 v) })
      core (off + 1) n (v / 256)

/-- Every sector that a range of stash bytes holds goes home at once. -/
def recallRange (s : State) (core lo hi : Nat) : State :=
  (s.dir.filter fun e => e.2.core == core && decide (lo ≤ e.2.off) && decide (e.2.off < hi)).foldl
    (fun s e => recallSector s e.1) s

/-- A sector that another sector's bytes still occupy goes home before the place is used again (R156, R183). -/
def vacateStash (s : State) (core base sec : Nat) : State :=
  (s.dir.filter fun e => e.2.core == core && e.2.off == base && e.1 != sec).foldl (fun s e => recallSector s e.1) s

/-- A touch of the stash bytes at `off`, bound to `key`: an unfilled sector fills from its global address and is
registered, unless another stash holds it dirty (R156). -/
def stashFill (s : State) (core off key : Nat) : State :=
  let sec := key / 32
  let base := off - key % 32
  match Map.get? s.dir sec with
  | some e =>
    if e.core = core ∧ e.off = base then s
    else
      let s := stashPut (vacateStash s core base sec) core base 32 (readN s (sec * 32) 32)
      if e.dirty then s else { s with dir := Map.put s.dir sec ⟨core, base, false⟩ }
  | none =>
    let s := stashPut (vacateStash s core base sec) core base 32 (readN s (sec * 32) 32)
    { s with dir := Map.put s.dir sec ⟨core, base, false⟩ }

/-- A store to a bound address: its sector becomes dirty in the stash and is registered at its home. The
sector's other bytes are those it held. -/
def stashWrite (s : State) (core off key n v : Nat) : State :=
  let sec := key / 32
  let base := off - key % 32
  let s := keepLine s key
  let s :=
    match Map.get? s.dir sec with
    | some e =>
      if e.core = core ∧ e.off = base then s
      else stashPut (vacateStash (recallSector s sec) core base sec) core base 32 (readN s (sec * 32) 32)
    | none => stashPut (vacateStash s core base sec) core base 32 (readN s (sec * 32) 32)
  stashPut { s with dir := Map.put s.dir sec ⟨core, base, true⟩ } core off n v

/-- The tag of the tile that holds a stash offset (R157). -/
def tileTag (k : Core) (off : Nat) : BitVec 16 := Map.get k.tags (off / 1024) 0xFFFF

/-- Where the sector that a stash offset holds is at home. -/
def heldAt (s : State) (core off : Nat) : Option Nat :=
  (firstWhere (fun (e : Nat × DirEnt) => e.2.core == core && e.2.off == off) s.dir).map (·.1)

/-! ### Lost sectors (R261, R262) -/

/-- The lost marks of sectors that are written whole are cleared. -/
def clearLost (s : State) (key n : Nat) : State :=
  { s with lost := s.lost.filter fun e => !(decide (key ≤ e.1 * 32) && decide (e.1 * 32 + 32 ≤ key + n)) }

/-- A lost sector of a page with DISC set reads as zero, and its mark is cleared. -/
def healLost (s : State) (key n : Nat) : State :=
  (upto ((key + n - 1) / 32 - key / 32 + 1)).foldl
    (fun s i =>
      let sec := key / 32 + i
      if (Map.get? s.lost sec).isSome then
        { writeN s (sec * 32) 32 0 with lost := Map.del s.lost sec }
      else s) s

end Sys2Proof.Machine
end

