-- ==== Sys2Proof/Machine/Float.lean ====
section
/-! DEFINITION. The floating-point formats (R49 to R51), exact values, `round` (R54), the LFSR (R55),
exact sums, products and functions (R134 to R138), and the O4 block (R52, R53, R60). -/

namespace Sys2Proof.Machine

open Sys2Proof

/-- A binary format (R49). -/
structure Fmt where
  ebits : Nat
  fbits : Nat
  bias : Nat
  hasInf : Bool
  canon : Nat
  deriving DecidableEq, Repr

def fp32 : Fmt := ⟨8, 23, 127, true, 0x7FC00000⟩
def f16 : Fmt := ⟨5, 10, 15, true, 0x7E00⟩
def bf16 : Fmt := ⟨8, 7, 127, true, 0x7FC0⟩
def f8e : Fmt := ⟨4, 3, 7, false, 0x7F⟩
def f8w : Fmt := ⟨5, 2, 15, true, 0x7E⟩

/-- The lane format of a type (R40, R49). -/
def fmtOf : Ty → Fmt
  | .f16x16 => f16
  | .bf16x16 => bf16
  | .f8ex32 => f8e
  | .f8wx32 => f8w
  | _ => fp32

def Fmt.width (f : Fmt) : Nat := 1 + f.ebits + f.fbits
def Fmt.p (f : Fmt) : Nat := f.fbits + 1
def Fmt.emin (f : Fmt) : Int := 1 - (f.bias : Int)
/-- The exponent of the largest binade. -/
def Fmt.emax (f : Fmt) : Int := if f.hasInf then (f.bias : Int) else 8
/-- The largest finite magnitude as mantissa and exponent (R49): F8E stops at 1.75 × 2^8. -/
def Fmt.maxM (f : Fmt) : Nat := if f.hasInf then 2 ^ f.p - 1 else 14
def Fmt.maxE (f : Fmt) : Int := if f.hasInf then f.emax - (f.fbits : Int) else 5

/-- A value: NaN, an infinity, or (−1)^neg × (m + ε) × 2^e, where ε is zero, or lies strictly between
0 and 1 where `sticky` is set. -/
inductive FVal where
  | nan
  | inf (neg : Bool)
  | fin (neg : Bool) (m : Nat) (e : Int) (sticky : Bool)
  deriving DecidableEq, Repr

def FVal.zero (neg : Bool) : FVal := .fin neg 0 0 false

def FVal.isNan : FVal → Bool
  | .nan => true
  | _ => false

def FVal.isInf : FVal → Bool
  | .inf _ => true
  | _ => false

def FVal.isZero : FVal → Bool
  | .fin _ m _ st => m == 0 && !st
  | _ => false

def FVal.sign : FVal → Bool
  | .nan => false
  | .inf n => n
  | .fin n _ _ _ => n

def FVal.negate : FVal → FVal
  | .nan => .nan
  | .inf n => .inf (!n)
  | .fin n m e st => .fin (!n) m e st

/-- The value of an encoding (R49, R50). -/
def decodeF (f : Fmt) (x : Nat) : FVal :=
  let s := bitAt x (f.ebits + f.fbits)
  let e := bitsOf x f.fbits f.ebits
  let m := bitsOf x 0 f.fbits
  if f.hasInf && e == 2 ^ f.ebits - 1 then (if m = 0 then .inf s else .nan)
  else if !f.hasInf && e == 2 ^ f.ebits - 1 && m == 2 ^ f.fbits - 1 then .nan
  else if e = 0 then .fin s m (f.emin - (f.fbits : Int)) false
  else .fin s (2 ^ f.fbits + m) ((e : Int) - (f.bias : Int) - (f.fbits : Int)) false

/-- A mantissa moved by 2^k, exact where no set bit is lost. -/
def shiftInt (m : Nat) (k : Int) : Nat := if 0 ≤ k then m * 2 ^ k.toNat else m / 2 ^ (-k).toNat

/-- The encoding of a value that the format represents (R49); a NaN is the canonical NaN (R51). -/
def encodeF (f : Fmt) : FVal → Nat
  | .nan => f.canon
  | .inf n => (if n then 2 ^ (f.ebits + f.fbits) else 0) +
      (if f.hasInf then (2 ^ f.ebits - 1) * 2 ^ f.fbits else 2 ^ (f.ebits + f.fbits) - 1)
  | .fin n m e _ =>
    let sb := if n then 2 ^ (f.ebits + f.fbits) else 0
    if m = 0 then sb
    else
      let big : Int := e + (Nat.log2 m : Int)
      if f.emin ≤ big then
        sb + ((big + (f.bias : Int)).toNat) * 2 ^ f.fbits +
          (shiftInt m (e - (big - (f.fbits : Int))) - 2 ^ f.fbits)
      else sb + shiftInt m (e - (f.emin - (f.fbits : Int)))

/-- Flags (R57): nv 1, dz 2, of 4, uf 8, nx 16, badblk 32. -/
abbrev Flags := BitVec 6

def fNV : Flags := 1
def fDZ : Flags := 2
def fOF : Flags := 4
def fUF : Flags := 8
def fNX : Flags := 16
def fBAD : Flags := 32

def flagIf (b : Bool) (f : Flags) : Flags := if b then f else 0

/-- Whether (m + ε) × 2^−k, rounded by `rm`, goes up from its floor (R54); `neg` is the sign, `draw`
the 24 bits of `sys.lfsr`. -/
def roundsUp (rm : RM) (neg : Bool) (m k : Nat) (sticky : Bool) (draw : Nat) : Bool :=
  let n := m / 2 ^ k
  let rem := m % 2 ^ k
  let half := 2 ^ k
  match rm with
  | .rn => decide (half < 2 * rem) || (2 * rem == half && (sticky || n % 2 == 1))
  | .ra => decide (half ≤ 2 * rem)
  | .rz => false
  | .ru => !neg && (rem != 0 || sticky)
  | .rd => neg && (rem != 0 || sticky)
  | .rs => decide (2 ^ (k + 24) ≤ rem * 2 ^ 24 + draw * 2 ^ k)

/-- The result of `round`: the value and the flags ovf (as `of`), nx and uf. -/
structure Rounded where
  val : FVal
  flags : Flags
  deriving DecidableEq, Repr

/-- `round` into a float format (R54). The flag nx accompanies every overflow of a finite value, as
R57 and the example of R139 have it. -/
def roundF (f : Fmt) (rm : RM) (draw : Nat) : FVal → Rounded
  | .nan => ⟨.nan, 0⟩
  | .inf n => if f.hasInf then ⟨.inf n, 0⟩ else ⟨.nan, fOF⟩
  | .fin neg m e st =>
    if m = 0 then ⟨.fin neg 0 0 false, 0⟩
    else
      let top : Int := e + (Nat.log2 m : Int)
      let q : Int := (if top < f.emin then f.emin else top) - (f.fbits : Int)
      let k := (q - e).toNat
      let m' := if q ≤ e then m * 2 ^ (e - q).toNat else m
      let inexact := m' % 2 ^ k != 0 || st
      let n := m' / 2 ^ k + (if roundsUp rm neg m' k st draw then 1 else 0)
      let tiny := decide (n = 0) || decide (q + (Nat.log2 n : Int) < f.emin)
      let tooBig := decide (n ≠ 0) && (decide (f.emax < q + (Nat.log2 n : Int)) ||
        (decide (q + (Nat.log2 n : Int) = f.emax) &&
          decide (shiftInt f.maxM (f.maxE - q) < n)))
      if tooBig then
        let toMax := rm == .rz || (rm == .ru && neg) || (rm == .rd && !neg) || rm == .rs
        ⟨if !f.hasInf then .nan else if toMax then .fin neg f.maxM f.maxE false else .inf neg,
          fOF ||| fNX⟩
      else
        ⟨.fin neg n q false, flagIf inexact fNX ||| flagIf (inexact && tiny) fUF⟩

/-- `round` to an integer (R54): the integer and whether it is inexact. -/
def roundI (rm : RM) (draw : Nat) (neg : Bool) (m : Nat) (e : Int) (st : Bool) : Int × Bool :=
  let k := (-e).toNat
  let m' := m * 2 ^ e.toNat
  let n := m' / 2 ^ k + (if roundsUp rm neg m' k st draw then 1 else 0)
  (if neg then -(n : Int) else (n : Int), m' % 2 ^ k != 0 || st)

/-- One step of the LFSR (R55). -/
def lfsrStep (x : W32) : W32 := if x.getLsbD 0 then (x >>> 1) ^^^ 0x80200003 else x >>> 1

/-- `n` steps of the LFSR. -/
def lfsrSteps : Nat → W32 → W32
  | 0, x => x
  | n + 1, x => lfsrSteps n (lfsrStep x)

/-- The register one step before: the inverse of `lfsrStep`. -/
def lfsrBack (x : W32) : W32 := if x.getLsbD 31 then ((x ^^^ 0x80200003) <<< 1) ||| 1 else x <<< 1

/-- `n` steps taken back. -/
def lfsrBackBy : Nat → W32 → W32
  | 0, x => x
  | n + 1, x => lfsrBackBy n (lfsrBack x)

/-! ### Exact arithmetic -/

/-- A signed mantissa at exponent `q`, which is no greater than the value's own exponent. -/
def atExp (neg : Bool) (m : Nat) (e q : Int) : Int :=
  let v := (m * 2 ^ (e - q).toNat : Nat)
  if neg then -(v : Int) else (v : Int)

/-- An exact sum; ∞ − ∞ gives NaN and nv. A zero sum of operands of opposite signs is +0, and −0 under
rd (R54). -/
def addF (rm : RM) : FVal → FVal → FVal × Flags
  | .nan, _ => (.nan, 0)
  | _, .nan => (.nan, 0)
  | .inf a, .inf b => if a = b then (.inf a, 0) else (.nan, fNV)
  | .inf a, _ => (.inf a, 0)
  | _, .inf b => (.inf b, 0)
  | .fin n1 m1 e1 _, .fin n2 m2 e2 _ =>
    let q := if e1 ≤ e2 then e1 else e2
    let t := atExp n1 m1 e1 q + atExp n2 m2 e2 q
    if t = 0 then
      (.zero (if n1 = n2 then n1 else rm == .rd), 0)
    else (.fin (decide (t < 0)) t.natAbs q false, 0)

/-- An exact product; 0 × ∞ gives NaN and nv. -/
def mulF : FVal → FVal → FVal × Flags
  | .nan, _ => (.nan, 0)
  | _, .nan => (.nan, 0)
  | .inf a, .inf b => (.inf (a != b), 0)
  | .inf a, .fin b m _ _ => if m = 0 then (.nan, fNV) else (.inf (a != b), 0)
  | .fin b m _ _, .inf a => if m = 0 then (.nan, fNV) else (.inf (a != b), 0)
  | .fin a m e _, .fin b n f _ => (.fin (a != b) (m * n) (e + f) false, 0)

/-- An exact product multiplied by 2^k. -/
def scaleF (k : Int) : FVal → FVal
  | .fin n m e st => .fin n m (e + k) st
  | v => v

/-- a × b + c, exact (R134): an invalid product sets nv whatever c is. -/
def fmaF (rm : RM) (a b c : FVal) : FVal × Flags :=
  let (p, f1) := mulF a b
  let (r, f2) := addF rm p c
  (r, f1 ||| f2)

/-- Comparison of two values that are not NaN: −0 and +0 are equal (R133). -/
def cmpF : FVal → FVal → Ordering
  | .fin n1 m1 e1 _, .fin n2 m2 e2 _ =>
    let q := if e1 ≤ e2 then e1 else e2
    compare (atExp n1 m1 e1 q) (atExp n2 m2 e2 q)
  | .inf true, .inf true => .eq
  | .inf false, .inf false => .eq
  | .inf true, _ => .lt
  | _, .inf true => .gt
  | .inf false, _ => .gt
  | _, .inf false => .lt
  | _, _ => .eq

/-- FMIN and FMAX (R137): one NaN gives the other operand, two give NaN, nv in either case; −0 lies
below +0. -/
def minmaxF (max : Bool) (a b : FVal) : FVal × Flags :=
  if a.isNan && b.isNan then (.nan, fNV)
  else if a.isNan then (b, fNV)
  else if b.isNan then (a, fNV)
  else
    let less := match cmpF a b with
      | .lt => true
      | .gt => false
      | .eq => a.sign && !b.sign
    (if less != max then a else b, 0)

/-- The integer square root by Newton's iteration from above; `fuel` bounds the iterations. -/
def isqrtLoop : Nat → Nat → Nat → Nat
  | 0, _, x => x
  | fuel + 1, n, x =>
    let y := (x + n / x) / 2
    if y < x then isqrtLoop fuel n y else x

def isqrt (n : Nat) : Nat :=
  if n = 0 then 0 else isqrtLoop 64 n (2 ^ (Nat.log2 n / 2 + 1))

/-- m × 2^e with an even exponent. -/
def evenExp (m : Nat) (e : Int) : Nat × Int := if e % 2 = 0 then (m, e) else (2 * m, e - 1)

/-- The root of m × 2^e, m > 0. -/
def sqrtM (m : Nat) (e : Int) : FVal :=
  let (m', e') := evenExp m e
  let n := m' * 2 ^ 160
  let r := isqrt n
  .fin false r (e' / 2 - 80) (r * r != n)

/-- The reciprocal of (−1)^neg × m × 2^e, m > 0. -/
def rcpM (neg : Bool) (m : Nat) (e : Int) : FVal :=
  .fin neg (2 ^ 160 / m) (-160 - e) (2 ^ 160 % m != 0)

/-- The reciprocal root of m × 2^e, m > 0. -/
def rsqM (m : Nat) (e : Int) : FVal :=
  let (m', e') := evenExp m e
  let r := isqrt (2 ^ 240 / m')
  .fin false r (-120 - e' / 2) (r * r * m' != 2 ^ 240)

/-- 2^(i/2^j) for the set bits i of a fraction, in fixed point with 320 fraction bits: `r` is the root
2^(2^−j) of the current bit, which the top bit of `frac` decides. -/
def exp2Loop : Nat → Nat → Nat → Nat → Nat
  | 0, _, _, acc => acc
  | fuel + 1, r, frac, acc =>
    if frac = 0 then acc
    else
      let r' := isqrt (r * 2 ^ 320)
      let b := frac / 2 ^ 159 % 2
      exp2Loop fuel r' (frac * 2 % 2 ^ 160) (if b = 1 then acc * r' / 2 ^ 320 else acc)

/-- 2^a for a = (−1)^neg × m × 2^e (R135): exact where a is an integer, else a value of 304 bits and a
sticky fraction. Beyond ±1024 the value lies outside every format on the same side as 2^±1024. -/
def exp2M (neg : Bool) (m : Nat) (e : Int) : FVal :=
  if m = 0 then .fin false 1 0 false
  else if 10 < e + (Nat.log2 m : Int) then .fin false 1 (if neg then -1024 else 1024) true
  else
    let n := shiftInt m e
    let frac := shiftInt m (e + 160) % 2 ^ 160
    if frac = 0 then .fin false 1 (if neg then -(n : Int) else (n : Int)) false
    else
      let v := exp2Loop 160 (2 ^ 321) frac (2 ^ 320)
      if neg then .fin false (2 ^ 640 / v / 2 ^ 16) (-304 - (n : Int)) true
      else .fin false (v / 2 ^ 16) ((n : Int) - 304) true

/-- The binary digits of log2 y, y in [1, 2) in fixed point with 300 fraction bits. -/
def log2Loop : Nat → Nat → Nat → Nat
  | 0, _, acc => acc
  | fuel + 1, y, acc =>
    let y2 := y * y / 2 ^ 300
    if 2 ^ 301 ≤ y2 then log2Loop fuel (y2 / 2) (2 * acc + 1) else log2Loop fuel y2 (2 * acc)

/-- log2 of m × 2^e, m > 0 (R135): exact where m is a power of two. -/
def log2M (m : Nat) (e : Int) : FVal :=
  let k := Nat.log2 m
  let n : Int := e + (k : Int)
  if m = 2 ^ k then
    if n = 0 then .zero false else .fin (decide (n < 0)) n.natAbs 0 false
  else
    let frac := log2Loop 128 (shiftInt m (300 - (k : Int))) 0
    let t : Int := n * 2 ^ 128 + (frac : Int)
    if 0 ≤ t then .fin false t.natAbs (-128) true else .fin true (t.natAbs - 1) (-128) true

/-! ### The one-operand functions with their special results (R136) -/

def frcpF : FVal → FVal × Flags
  | .nan => (.nan, 0)
  | .inf n => (.zero n, 0)
  | .fin n m e _ => if m = 0 then (.inf n, fDZ) else (rcpM n m e, 0)

def frsqF : FVal → FVal × Flags
  | .nan => (.nan, 0)
  | .inf n => if n then (.nan, fNV) else (.zero false, 0)
  | .fin n m e _ => if m = 0 then (.inf n, fDZ) else if n then (.nan, fNV) else (rsqM m e, 0)

def fex2F : FVal → FVal × Flags
  | .nan => (.nan, 0)
  | .inf n => if n then (.zero false, 0) else (.inf false, 0)
  | .fin n m e _ => (exp2M n m e, 0)

def flg2F : FVal → FVal × Flags
  | .nan => (.nan, 0)
  | .inf n => if n then (.nan, fNV) else (.inf false, 0)
  | .fin n m e _ => if m = 0 then (.inf true, fDZ) else if n then (.nan, fNV) else (log2M m e, 0)

def fsqtF : FVal → FVal × Flags
  | .nan => (.nan, 0)
  | .inf n => if n then (.nan, fNV) else (.inf false, 0)
  | .fin n m e _ => if m = 0 then (.zero n, 0) else if n then (.nan, fNV) else (sqrtM m e, 0)

/-- `clamp_sign` (R56): the largest finite magnitude with the sign of a value. -/
def clampF (f : Fmt) (neg : Bool) : FVal := .fin neg f.maxM f.maxE false

/-- A float value converted to a lane format for a scalar source (R29): nearest-even, a finite overflow
clamped, an infinity kept where the format has one. -/
def laneFromFp32 (f : Fmt) (v : FVal) : Nat :=
  let r := roundF f .rn 0 v
  if v.isInf then encodeF f r.val
  else if r.flags &&& fOF != 0 then encodeF f (clampF f v.sign)
  else encodeF f r.val

/-! ### O4 blocks (R52, R53) -/

/-- The value of an E8M0 scale (R51). -/
def e8m0 (b : Nat) : FVal := if b = 255 then .nan else .fin false 1 ((b : Int) - 127) false

def o4Nib (blk i : Nat) : Nat := bitsOf blk (4 * i) 4

/-- The inlier code of a nibble: the marker decodes as 0 (R53). -/
def o4Code (n : Nat) : Int := if n < 8 then (n : Int) else if n = 8 then 0 else (n : Int) - 16

/-- One element of a decoded block: an inlier code, a live outlier's F8E byte, or a partner's zero. -/
inductive O4El where
  | code (c : Int)
  | out (byte : Nat)
  deriving DecidableEq, Repr

/-- The pairs of a block in ascending order (R53): the 32 elements and whether a third outlier was met. -/
def o4Walk (blk : Nat) : Nat → Nat → Nat → List O4El × Bool
  | 0, _, _ => ([], false)
  | fuel + 1, j, live =>
    let e := o4Nib blk (2 * j)
    let o := o4Nib blk (2 * j + 1)
    if e = 8 ∨ o = 8 then
      let prt := if e = 8 then o else e
      if live < 2 then
        let v := O4El.out (bitsOf blk (136 + 4 * live) 4 * 16 + prt)
        let (t, b) := o4Walk blk fuel (j + 1) (live + 1)
        ((if e = 8 then [v, .code 0] else [.code 0, v]) ++ t, b)
      else
        let (t, _) := o4Walk blk fuel (j + 1) live
        ((if e = 8 then [.code 0, .code (o4Code prt)] else [.code (o4Code prt), .code 0]) ++ t, true)
    else
      let (t, b) := o4Walk blk fuel (j + 1) live
      ([.code (o4Code e), .code (o4Code o)] ++ t, b)

def o4Elems (blk : Nat) : List O4El := (o4Walk blk 16 0 0).1
def o4Bad (blk : Nat) : Bool := (o4Walk blk 16 0 0).2
def o4Scale (blk : Nat) : Nat := bitsOf blk 128 8

def intF (c : Int) : FVal := .fin (decide (c < 0)) c.natAbs 0 false

/-- `o4_decode` (R53): the values of the 32 elements. -/
def o4Decode (blk : Nat) : List FVal :=
  (o4Elems blk).map fun el =>
    match el with
    | .code c => (mulF (intF c) (e8m0 (o4Scale blk))).1
    | .out b => (mulF (decodeF f8e b) (e8m0 (o4Scale blk))).1

/-- The canonical NaN block (R60). -/
def o4NaN : Nat := 0xFF * 2 ^ 128

end Sys2Proof.Machine
end

