-- ==== Sys2Proof/Machine/Loads.lean ====
section
/-! DEFINITION. LD, ST, GTH, SCT, the full/empty instructions, stash mapping and tags, prefetch, cache
control and FENCE (R169 to R188), and the events of their stores (R277, R278, R285). -/

namespace Sys2Proof.Machine

open Sys2Proof

/-! ### The shared access path (R171) -/

/-- A need of `size` bytes. -/
def needOf (size : Nat) (read write : Bool) : Need := ⟨size, read, write, false, true, false⟩
def needFe (read write : Bool) : Need := ⟨8, read, write, true, false, false⟩
def needOther (size : Nat) (read write : Bool) : Need := ⟨size, read, write, false, false, false⟩

/-- A context's counted clamp (R305). -/
def clampStep (s : State) : State :=
  let v := visiting s (me s)
  setStatus (mod s fun c =>
    if v then { c with clampHere := if c.clampHere = BitVec.allOnes 64 then c.clampHere else c.clampHere + 1 }
    else { c with clampcnt := if c.clampcnt = BitVec.allOnes 64 then c.clampcnt else c.clampcnt + 1 })
    (me s) stCLAMP true

/-- Copse scope is clamped to part below hypervisor level (R305). An instruction that is not performed (it
faults, it waits to issue, or it is throttled) counts nothing. -/
def clamped (copse : Bool) (k : State → State) (s : State) : State :=
  let t := k s
  if copse && prvNo (myCtx s).prv < 2 && !t.cur.undone && (myCtx t).held.isNone then k (clampStep s) else t

/-- Whether an instruction's scope is copse once R305 has been applied. -/
def copseScope (sc : Scope) (s : State) : Bool := sc == .copse && decide (2 ≤ prvNo (myCtx s).prv)

/-- The report of a message dropped at ejection reaches the issuing context (R376): it waits for it. -/
def dropped (info : W64) (s : State) : State :=
  at_ (parkBefore .parkedMemory .reply s) s.now (.dropReport (me s) info)

/-- The window register that the instruction at the issuing PC loads. -/
def loadedReg (s : State) : Option Nat :=
  match decode (BitVec.ofNat 96 (s.cur.lits.toNat / 2 ^ (96 * (s.cur.pc.toNat % 8)))) with
  | .ok (.ld f) | .ok (.gth f) | .ok (.ldt f) | .ok (.ldfe f) | .ok (.ldfc f) | .ok (.empt f) | .ok (.atom f) => gOf f.d
  | .ok (.join f) => gOf f.d
  | _ => none

/-- A context consumes erroneous data (R165, R171). -/
def consumes (err : DataErr) (pa : Nat) (s : State) : State :=
  let s := parkBefore .parkedMemory .reply (mod s fun c => { c with badRead := loadedReg s })
  at_ s s.now (.dataErrorConsumption (me s) err pa)

/-- A write to a copy-on-write page waits for the copy (R259). -/
def waitCopy (va : VA) (s : State) : State :=
  let p := myPart s
  let s := parkBefore .parkedMemory (.copy va) s
  if s.agenda.any (fun e => e.2 == .cowCopy p va) then s
  else
    let (t, s) := nextLat s
    at_ s (s.now + t) (.cowCopy p va)

/-- Whether an access writes whole sectors only. -/
def wholeSectors (va : VA) (n : Need) : Bool := n.write && !n.read && va.toNat % 32 == 0 && n.size % 32 == 0

/-- The effect `k` of an access at `va` once the checks 1 to 4 of R171 pass and it reaches its home. `lane` goes into
bits [63:58] of the information of a fault, but for a TRANSLATION of the frame map (R252). -/
def withHit (lane : W64) (va : VA) (n : Need) (k : Hit → State → State) (s : State) : State :=
  match checkAccess s (me s) va n with
  | .fault c i => fault c (if c = .translation && i.getLsbD 57 then i else i ||| lane) s
  | .miss => parkWalk s va n.write
  | .copy pa pool =>
    if guarded s (myPart s) (myCtx s).prv va pa n.size then fault .protection (vaInfo va ||| lane) s
    else if pool then waitCopy va s
    else fault .cowPool (vaInfo va ||| lane) s
  | .hit h =>
    if n.write && guarded s (myPart s) (myCtx s).prv va h.pa n.size then fault .protection (vaInfo va ||| lane) s
    else if !reachesSpace s (me s) h.space then dropped (vaInfo va) s
    else k h s

/-- The effect `k` of a request to the channel of a site, and to the sync unit beside it: while the host has gated the
channel it is out of service, and the request waits (R455). -/
def onChannel (site : Nat) (k : State → State) (s : State) : State :=
  if (siteOf s site).gated then parkBefore .parkedMemory (.channel site) s else k s

/-- The data of an access: a lost sector traps or heals, and what it reads is good (R165, R261, R262). -/
def goodData (lane : W64) (va : VA) (n : Need) (k : Hit → State → State) (h : Hit) (s : State) : State :=
  if (n.read || n.write) && lostAt s h.pa n.size && !wholeSectors va n then
    if h.pte.disc then k h (healLost s h.pa n.size) else fault .pageLost (vaInfo va ||| lane) s
  else if n.read then
    match badAt s h.pa n.size with
    | some e => consumes e h.pa s
    | none => k h s
  else k h s

/-- The data of an access to DRAM, whose channel serves it (R165, R261, R262, R455). -/
def withData (lane : W64) (va : VA) (n : Need) (k : Hit → State → State) (h : Hit) (s : State) : State :=
  match h.space with
  | .dram site =>
    if n.size ≠ 0 && (n.read || n.write) then onChannel site (goodData lane va n k h) s else k h s
  | _ => k h s

/-- The effect `k` of an access at `va` that passes both. -/
def accessLane (lane : W64) (va : VA) (n : Need) (k : Hit → State → State) (s : State) : State :=
  withHit lane va n (withData lane va n k) s

def access (va : VA) (n : Need) (k : Hit → State → State) (s : State) : State := accessLane 0 va n k s

/-- The order frames that a package has still to apply: those that have arrived and the one that it is missing
(R295). -/
def unapplied (s : State) (pkg : Nat) : List OFrame :=
  let p := pkgAt s pkg
  match p.gapAt with
  | none => p.arrived
  | some n => (firstWhere (fun f => f.pseq == n) (s.pkgs.flatMap fun q => q.2.kept ++ q.2.arrived)).toList ++ p.arrived

/-- The context's previous sync operation has been performed: no order frame of its own waits for
transmission (R279, R301). -/
def syncFree (k : State → State) (s : State) : State :=
  let p := pkgAt s (pkgOf (me s).core)
  if p.toSend.any (ownFrame (originOf s (me s))) then parkBefore .parkedMemory .drain s else k s

/-- A release: earlier writes and seeds are acknowledged and the context's previous sync operation has been performed
(R279); at copse scope its own frames have also been applied at its package (R173, R304). -/
def afterRelease (copse : Bool) (k : State → State) (s : State) : State :=
  let p := pkgAt s (pkgOf (me s).core)
  let o := originOf s (me s)
  if !drained s (me s) || p.toSend.any (ownFrame o) ||
      (copse && (unapplied s (pkgOf (me s).core)).any fun f => ownWrite o f.body) then
    parkBefore .parkedMemory .drain s
  else k s

/-! ### LD and ST (R175) -/

/-- What LD writes to D (R175). -/
def loadValue (sz : Sz) (sx : Bool) (v : Nat) : Reg :=
  match sz with
  | .b8 | .b16 | .b32 | .b64 => BitVec.ofNat 256 (extend sx v (8 * sz.bytes) 64)
  | .b128 | .b256 => BitVec.ofNat 256 v

def sxOf (f : FM) : Bool := f.flg.getLsbD 3
def ntOf (f : FM) : Bool := f.flg.getLsbD 2
def relOf (f : FM) : Bool := f.flg.getLsbD 1
def acqOf (f : FM) : Bool := f.flg.getLsbD 0

/-- The bytes of a plain access pass through the stash where the address is bound, else the L1D (R172). -/
def passThrough (va : VA) (h : Hit) (write nt : Bool) (s : State) : State :=
  match stashBind s (me s).core (myCtx s).part va with
  | some m => stashFill s (me s).core (stashOff m va) h.pa
  | none => l1Touch s (me s).core (myCtx s).part h.pa write nt

/-- A plain access of the issuing context is checked for a race and recorded (R283 to R285). -/
def withPlain (lane : W64) (h : Hit) (write : Bool) (va : VA) (k : State → State) (s : State) : State :=
  if h.pte.unch then k s
  else
    match racePlain s (me s) (h.pa / 32) write with
    | some r => fault .memoryRace (raceInfo va r ||| lane) (reportRace s (myPart s) r)
    | none =>
      if recordsFull s (me s) (h.pa / 32) then throttle .throttled true s
      else k (recPlain s (me s) (h.pa / 32) write s.cur.pc va)

/-- The effect `k` of plain stores to the sectors, once their records have room (R286). -/
def withRoom (hs : List Hit) (k : State → State) (s : State) : State :=
  if hs.any fun h => !h.pte.unch && recordsFull s (me s) (h.pa / 32) then throttle .throttled true s else k s

/-- Where an earlier seed of the context touches one of the bytes the access waits for it (R270). -/
def afterSeed (key n : Nat) (k : State → State) (s : State) : State :=
  if seedAt s (me s) key n then parkBefore .parkedMemory .drain s else k s

/-- A read at the home waits for an earlier store or seed of the context to one of the bytes (R270). -/
def afterOwn (key n : Nat) (k : State → State) (s : State) : State :=
  if seedAt s (me s) key n || storeAt s (me s) key n then parkBefore .parkedMemory .drain s else k s

/-- The one part of LD and LDT: a value of 64 bits or fewer fills D[63:0]. -/
def ldPart (f : FM) (h : Hit) : LoadPart :=
  match f.sz with
  | .b128 | .b256 => ⟨h.pa, f.sz.bytes, 0, 8 * f.sz.bytes, false⟩
  | _ => ⟨h.pa, f.sz.bytes, 0, 64, sxOf f⟩

/-- A context with a frame of its own to a copse word in flight parks at a load of that word (R303). -/
def frameTo (s : State) (word : Nat) : Bool :=
  let p := pkgAt s (pkgOf (me s).core)
  let o := originOf s (me s)
  let hits : OBody → Bool := fun b => match b with
    | .store w _ _ who => w == word && who == o
    | .atomic _ w _ _ _ who _ _ => w == word && who == o
    | .red _ w _ _ who _ => w == word && who == o
    | _ => false
  p.toSend.any hits || (unapplied s (pkgOf (me s).core)).any fun f => hits f.body

/-- LD once its access has passed: `k` receives the bytes. -/
def loadHit (f : FM) (va : VA) (h : Hit) (s : State) : State :=
  let n := f.sz.bytes
  let done := fun (v : Nat) (s : State) => resultOf f.d (loadValue f.sz (sxOf f) v) [] s
  match h.space with
  | .copse w =>
    if frameTo s w then parkBefore .parkedMessage (.ownFrame w) s
    else syncFree (fun s =>
      let s := markOutside (syncObj s (me s) (2 ^ 62 + w) true false) (me s)
      done (readN s (hitKey s h) n) s) s
  | .hub _ =>
    syncFree (fun s => done (readN s (hitKey s h) n) (syncObj s (me s) (2 ^ 63 + h.pa) true false)) s
  | _ =>
    if acqOf f then
      afterOwn h.pa n (syncFree (withSync h true false false va fun s => done (readN s h.pa n) s)) s
    else
      afterSeed h.pa n (fun s => withPlain 0 h false va
          (fun s => resultOf f.d 0 [ldPart f h] (passThrough va h false (ntOf f) s)) s) s

def execLd (f : FM) (s : State) : Out :=
  issue f.fields f.srcs (clamped (f.scope == .copse) fun s =>
    let va := fmAddr f s
    access va (needOf f.sz.bytes true false) (loadHit f va) s) s

/-- The time at which a plain store is performed: open, and after the context's earlier stores to a common
byte (R173). -/
def storeDue (s : State) (o : CtxId) (key n t : Nat) : Nat :=
  s.stores.foldl (fun m p =>
    if p.ctx = o && !p.performed && decide (p.key < key + n) && decide (key < p.key + p.len) then
      Nat.max m p.due else m) t

/-- A plain store leaves the core. -/
def postStore (lane : W64) (va : VA) (h : Hit) (n : Nat) (v : Reg) (nt : Bool) (s : State) : State :=
  let x := me s
  let c := myCtx s
  let b := (stashBind s x.core c.part va).map fun m => (x.core, stashOff m va)
  let s := passThrough va h true nt s
  let (id, s) := fresh s
  let (t, s) := nextLat s
  let due := storeDue s c.origin h.pa n (s.now + (1 + t) * cyc s x.core)
  let s := { s with stores := s.stores ++ [
    { id := id
      ctx := c.origin
      who := refOf s x
      part := partId s x
      key := h.pa
      va := va
      len := n
      val := v
      checked := !h.pte.unch
      performed := false
      due := due
      pc := s.cur.pc
      disc := h.pte.disc
      unch := h.pte.unch
      tx := c.tx
      bind := b
      lane := lane }] }
  at_ s due (.storePerformed id)

/-- The value a store takes from D. -/
def storeValue (f : FM) (s : State) : Reg := BitVec.ofNat 256 ((wideSrc s 1 f.d).toNat % 2 ^ (8 * f.sz.bytes))

/-- A release store, and the write of any sync operation to a DRAM word, is performed at its home. -/
def homeWrite (h : Hit) (n v : Nat) (s : State) : State :=
  let x := me s
  invalidateOthers (clearLost (ctxWrite s (partId s x) (refOf s x) (myCtx s).tx h.pte.disc h.pa n v) h.pa n)
    x.core h.pa

/-- A write to a copse word of a copse barrier that is not free (R240). -/
def barrierWord (s : State) (w : Nat) : Bool :=
  (pkgAt s (pkgOf (me s).core)).copseBars.any fun b => decide (b ≤ w) && decide (w < b + 8)

def storeHit (f : FM) (va : VA) (h : Hit) (s : State) : State :=
  let n := f.sz.bytes
  let v := storeValue f s
  match h.space with
  | .copse w =>
    if barrierWord s w then fault .protection (vaInfo va) s
    else afterRelease (copseScope f.scope s) (fun s =>
      let x := me s
      let s := markOutside s x
      advance (sendFrame s (pkgOf x.core) (.store w (myCtx s).part (v.setWidth 64) (originOf s x)))) s
  | .hub _ =>
    afterRelease false (fun s =>
      advance (writeN (syncObj s (me s) (2 ^ 63 + h.pa) false true) (hitKey s h) n v.toNat)) s
  | _ =>
    if relOf f then
      afterRelease (copseScope f.scope s) (withSync h false true true va fun s =>
        advance (homeWrite h n v.toNat s)) s
    else afterSeed h.pa n (withRoom [h] fun s => advance (postStore 0 va h n v (ntOf f) s)) s

def execSt (f : FM) (s : State) : Out :=
  issue f.fields f.fields (clamped (f.scope == .copse) fun s =>
    let va := fmAddr f s
    access va (needOf f.sz.bytes false true) (storeHit f va) s) s

/-! ### The events of a plain store (R278, R285) -/

def findStore (s : State) (n : Nat) : Option PStore := firstWhere (fun p => p.id == n) s.stores

/-- The home serialises a store: it writes, or it is the second of a conflicting pair and writes nothing. -/
def execStorePerformed (n : Nat) (s : State) : Out :=
  match findStore s n with
  | none => .next s
  | some p =>
    let who := p.who
    let at_x := (findCtx s p.part who).getD p.ctx
    let s := bindLoads s at_x.core fun u => u.ctx == p.ctx && decide (u.seq < n)
    let begun := (ctxOf s at_x).regionAt
    match (if p.unch then none else firstWhere (clashPlain p.part who begun true (p.key / 32)) s.recs) with
    | some r =>
      let s := { s with stores := listDel (fun q => q.id == n) s.stores }
      let s := reportRace s p.part r
      let s := postEvent s p.part who ⟨.memoryRace, raceInfo p.va r ||| p.lane, none⟩ fun s =>
        veqPush s p.part 4 0x15 (vaInfo p.va) (refWord who) 0
      .next (wakeDrain s p.ctx)
    | none =>
      let s := if p.unch then s else recPlain s at_x (p.key / 32) true p.pc p.va
      let s := logUndo s p.part who p.tx p.disc p.key
      let s := match p.bind with
        | some (c, off) => stashWrite s c off p.key p.len p.val.toNat
        | none => cmdHook (writeN s p.key p.len p.val.toNat) p.key p.len
      let s := clearLost s p.key p.len
      let s := { s with stores := listMod (fun q => q.id == n) (fun q => { q with performed := true }) s.stores }
      let (t, s) := nextLat s
      .next (at_ s (s.now + t) (.storeAcknowledged n))

/-- Every other copy of the sector is invalidated; the parks that wait for earlier writes look again. -/
def execStoreAcknowledged (n : Nat) (s : State) : Out :=
  match findStore s n with
  | none => .next s
  | some p =>
    let s := invalidateOthers s ((findCtx s p.part p.who).getD p.ctx).core p.key
    .next (wakeDrain { s with stores := listDel (fun q => q.id == n) s.stores } p.ctx)

/-! ### GTH and SCT (R176) -/

def vecLanes (f : FM) : Nat := if f.sz = .b32 then 8 else 4

/-- The selected lanes, ascending. -/
def vecOn (f : FM) (s : State) : List Nat :=
  (upto (vecLanes f)).filter fun i => match f.c with
    | .m n => (maskVal s (me s) n).getLsbD i
    | _ => false

/-- The address of lane `i`. -/
def vecAddr (f : FM) (s : State) (i : Nat) : VA :=
  let w := 8 * f.sz.bytes
  let ix := signed w (bitsOf (wideSrc s 1 f.b).toNat (w * i) w)
  ea (src64 s f.a) (BitVec.ofInt 64 ix) f.scl f.off

def laneInfo (i : Nat) : W64 := BitVec.ofNat 64 (i * 2 ^ 58)

/-- Every selected lane is checked before any is touched; `k` receives the lanes' hits. -/
def vecAccess (f : FM) (n : Need) (k : List (Nat × VA × Hit) → State → State) :
    List Nat → List (Nat × VA × Hit) → State → State
  | [], acc, s => k acc.reverse s
  | i :: t, acc, s =>
    accessLane (laneInfo i) (vecAddr f s i) n
      (fun h s => vecAccess f n k t ((i, vecAddr f s i, h) :: acc) s) s

/-- The race that the first lane of a GTH to have one is second in. -/
def gthRace (s : State) : List (Nat × VA × Hit) → Option (Nat × VA × RegionRec)
  | [] => none
  | (i, va, h) :: t =>
    match (if h.pte.unch then none else racePlain s (me s) (h.pa / 32) false) with
    | some r => some (i, va, r)
    | none => gthRace s t

/-- The race checks of the lanes of a GTH, then their records. -/
def gthRaces (k : State → State) (ls : List (Nat × VA × Hit)) (s : State) : State :=
  match gthRace s ls with
  | some (i, va, r) => fault .memoryRace (raceInfo va r ||| laneInfo i) (reportRace s (myPart s) r)
  | none =>
    withRoom (ls.map (·.2.2)) (fun s => k (ls.foldl (fun s e =>
      if e.2.2.pte.unch then s else recPlain s (me s) (e.2.2.pa / 32) false s.cur.pc e.2.1) s)) s

/-- `afterSeed` for the lanes of GTH and SCT. -/
def lanesAfterSeeds (n : Nat) (k : State → State) (ls : List (Nat × VA × Hit)) (s : State) : State :=
  if ls.any fun e => seedAt s (me s) e.2.2.pa n then parkBefore .parkedMemory .drain s else k s

def execGth (f : FM) (s : State) : Out :=
  issue f.fields (f.d :: f.srcs) (vecAccess f (needOther f.sz.bytes true false)
    (fun ls => lanesAfterSeeds f.sz.bytes (gthRaces (fun s =>
      let w := 8 * f.sz.bytes
      let v := packLanes w ((upto (vecLanes f)).map fun i => bitsOf (wideSrc s 1 f.d).toNat (w * i) w)
      let s := ls.foldl (fun s e => passThrough e.2.1 e.2.2 false (ntOf f) s) s
      resultOf f.d (nat256 v) (ls.map fun e => ⟨e.2.2.pa, f.sz.bytes, w * e.1, w, false⟩) s) ls) ls)
    (vecOn f s) []) s

def execSct (f : FM) (s : State) : Out :=
  issue f.fields f.fields (vecAccess f (needOther f.sz.bytes false true)
    (fun ls => lanesAfterSeeds f.sz.bytes (withRoom (ls.map (·.2.2)) fun s =>
      let w := 8 * f.sz.bytes
      let v := wideSrc s 1 f.d
      advance (ls.foldl (fun s e =>
        postStore (laneInfo e.1) e.2.1 e.2.2 f.sz.bytes (BitVec.ofNat 256 (bitsOf v.toNat (w * e.1) w)) (ntOf f) s) s)) ls)
    (vecOn f s) []) s

/-! ### Full/empty instructions (R177 to R181) -/

/-- The holder that the issuing context is recorded as. -/
def myHolder (s : State) : Holder := .ctx (myPart s) (refOf s (me s))

/-- LDFE (`take`), LDFC and JOIN at the home: a full word is read, an empty one waited for. -/
def readWord (take : Bool) (d : Opnd) (va : VA) (rank : Nat) (h : Hit) (s : State) : State :=
  afterOwn h.pa 8 (fun s =>
  let w := feOf s h.pa
  if w.full then
    if w.poison then fault .poisoned 0 s
    else withSync h true false take va (fun s =>
      let v := readN s h.pa 8
      let s := if take then setFe s h.pa ⟨false, false, .none⟩ else s
      resultOf d (nat256 v) [] s) s
  else
    match waitCheck s (me s) rank with
    | some info => fault .rankOrder info s
    | none =>
      let s := mod s fun c => { c with waitVa := va }
      ranked rank (parkOn .parkedSync (.word h.pa take) (destOf s d) s)) s

def ldfeEffect (take : Bool) (f : FM) (s : State) : State :=
  clamped (f.scope == .copse) (tableFree fun s =>
    let va := fmAddr f s
    syncFree (access va (needFe true false) fun h s => readWord take f.d va h.pte.rank h s) s) s

def execLdfe (f : FM) (s : State) : Out := issue f.fields f.srcs (ldfeEffect true f) s
def execLdfc (f : FM) (s : State) : Out := issue f.fields f.srcs (ldfeEffect false f) s

/-- An empty word that another holder owes. -/
def foreign (s : State) (key : Nat) : Bool :=
  let w := feOf s key
  !w.full && w.holder != .none && w.holder != myHolder s

/-- The FILL handle of a word. -/
def fillHandle (va : VA) : W64 := va.setWidth 64

def stflEffect (f : FM) (s : State) : State :=
  clamped (f.scope == .copse) (tableFree fun s =>
    let va := fmAddr f s
    let v : W64 := (wideSrc s 1 f.d).setWidth 64
    access va (needFe false true) (fun h s =>
      afterRelease (copseScope f.scope s) (fun s =>
        if foreign s h.pa then fault .foreignFill (vaInfo va) s
        else withSync h false true true va (fun s =>
          let s := homeWrite h 8 v.toNat s
          let s := fillWord s h.pa none false
          advance (mod s fun c => dischargeObl c .fill (fillHandle va) 1)) s) s) s) s

def execStfl (f : FM) (s : State) : Out := issue f.fields f.fields (stflEffect f) s

/-- The old data of an emptied word. -/
def emptEffect (f : FM) (s : State) : State :=
  clamped (f.scope == .copse) (tableFree fun s =>
    let va := fmAddr f s
    access va (needFe true true) (fun h s =>
      afterRelease (copseScope f.scope s) (fun s =>
        let c := myCtx s
        if foreign s h.pa then fault .foreignFill (vaInfo va) s
        else if (findObl c .fill (fillHandle va)).isNone && (freeEntry c).isNone then fault .oblOverflow 0 s
        else withSync h true true true va (fun s =>
          let v := readN s h.pa 8
          let s := logUndo s (myPart s) (refOf s (me s)) c.tx h.pte.disc h.pa
          let s := setFe s h.pa ⟨false, false, myHolder s⟩
          let s := match findObl c .fill (fillHandle va) with
            | some _ => s
            | none => mod s fun c => (takeObl c .fill (fillHandle va) h.pte.rank 1).getD c
          resultOf f.d (nat256 v) [] s) s) s) s) s

def execEmpt (f : FM) (s : State) : Out := issue f.fields f.srcs (emptEffect f) s

/-! ### Stash mapping and tags (R182 to R184) -/

/-- PROTECTION with a code of R182. -/
def stashFault (code other : Nat) (s : State) : State :=
  fault .protection (BitVec.ofNat 64 (15 * 2 ^ 60 + other * 256 + code)) s

/-- The name of a launch resident on a core: partition and group. -/
def launchKey (part gid : Nat) : Nat := part * 2 ^ 32 + gid

/-- The context does not belong to the core's resident stash-using launch (R182 code 1). -/
def outsideLaunch (s : State) : Bool :=
  myCore s |>.resident |> fun r => r != some (launchKey (myCtx s).part (myCtx s).grp)

/-- The mapping entry is cleared: dirty sectors go home later, clean ones are dropped (R183). -/
def unmapEntry (s : State) (core i : Nat) : State :=
  match Map.get? (coreOf s core).maps i with
  | none => s
  | some m =>
    let lo := m.off
    let hi := m.off + m.len * 1024
    let s := modCore s core fun k => { k with maps := Map.del k.maps i }
    let mine : Nat × DirEnt → Bool := fun e => e.2.core == core && decide (lo ≤ e.2.off) && decide (e.2.off < hi)
    let s := { s with dir := s.dir.filter fun e => !mine e || e.2.dirty }
    (s.dir.filter mine).foldl (fun s e =>
      let (t, s) := nextLat s
      at_ s (s.now + t) (.lazyWriteback core e.2.off)) s

def overlaps (a m b n : Nat) : Bool := decide (a < b + n) && decide (b < a + m)

/-- The checks of R182 on a descriptor, `bad5` saying whether a page has FE or CPS set: the code and the
conflicting entry of the first that fails. -/
def stmapCheck (k : Core) (part : Nat) (va : Nat) (desc : W64) (bad5 : Bool) : Option (Nat × Nat) :=
  let d := desc.toNat
  let len := bitsOf d 32 9
  let off := bitsOf d 16 9
  let e := bitsOf d 0 6
  let others := k.maps.filter fun m => m.1 != e
  if bitsOf d 41 23 != 0 || bitsOf d 25 7 != 0 || bitsOf d 6 10 != 0 || len = 0 ||
      decide (stashBytes k < (off + len) * 1024) then some (2, 0)
  else
    match firstWhere (fun m => m.2.part == part && overlaps va (len * 1024) m.2.va (m.2.len * 1024)) others with
    | some m => some (3, m.1)
    | none =>
      match firstWhere (fun m => overlaps (off * 1024) (len * 1024) m.2.off (m.2.len * 1024)) others with
      | some m => some (4, m.1)
      | none => if bad5 then some (5, 0) else none

/-- Binding as STMAP makes it. -/
def bindStash (s : State) (core part va : Nat) (desc : W64) : State :=
  let d := desc.toNat
  let e := bitsOf d 0 6
  modCore (unmapEntry s core e) core fun k =>
    { k with maps := Map.put k.maps e ⟨part, va, bitsOf d 16 9 * 1024, bitsOf d 32 9⟩ }

/-- The pages that a range touches are checked in turn, and no byte of them is read; `k` learns whether one has FE or
CPS set. -/
def stmapPages (va : VA) (k : Bool → State → State) : List VA → Bool → State → State
  | [], bad, s => k bad s
  | p :: t, bad, s =>
    withHit 0 p ⟨1024, true, false, false, false, true⟩
      (fun h s => stmapPages va k t (bad || h.pte.fe || h.pte.cps) s) s

def stmapEffect (f : FM) (s : State) : State :=
  let va := fmAddr f s
  let desc := src64 s f.c
  let len := bitsOf desc.toNat 32 9 * 1024
  let pages := va :: ((upto 9).map fun i => BitVec.ofNat 57 ((va.toNat / 65536 + 1 + i) * 65536)).filter
    fun p => decide (p.toNat < va.toNat + len)
  stmapPages va (fun bad s =>
    if outsideLaunch s then stashFault 1 0 s
    else
      match stmapCheck (myCore s) (myCtx s).part va.toNat desc bad with
      | some (code, e) => stashFault code e s
      | none => advance (bindStash s (me s).core (myCtx s).part va.toNat desc)) pages false s

def execStmap (f : FM) (s : State) : Out := issue f.fields f.srcs (stmapEffect f) s

def execStunmap (f : FM) (s : State) : Out :=
  issue f.fields f.srcs (fun s =>
    if outsideLaunch s then stashFault 1 0 s
    else advance (unmapEntry s (me s).core (bitsOf (src64 s f.c).toNat 0 6))) s

/-- A sector of an invalidated entry goes home; nothing else of it changes. -/
def execLazyWriteback (core off : Nat) (s : State) : Out :=
  match heldAt s core off with
  | some sec => .next (if (Map.get? s.dir sec).any fun e => e.dirty then recallSector s sec else s)
  | none => .next s

/-- The effect `k` at the stash offset of a bound address, else PROTECTION code 6 (R184). -/
def bound (va : VA) (k : Nat → State → State) (s : State) : State :=
  match stashBind s (me s).core (myCtx s).part va with
  | some m => k (stashOff m va) s
  | none => stashFault 6 0 s

def execStag (f : FM) (s : State) : Out :=
  issue f.fields f.fields (fun s =>
    let va := fmAddr f s
    access va (needOther 1 false false) (fun _ s => bound va (fun off s =>
      let tag : BitVec 16 := (wideSrc s 1 f.d).setWidth 16
      advance (modCore s (me s).core fun k => { k with tags := Map.put k.tags (off / 1024) tag })) s) s) s

/-- LDT: it is performed where it issues, its data bound with its tag (R184); finding its tag ends the region of the
context (R347). -/
def ldtEffect (f : FM) (s : State) : State :=
  let va := fmAddr f s
  access va (needOther f.sz.bytes true false) (fun h s => bound va (fun off s =>
    let tag := tileTag (myCore s) off
    let want : BitVec 16 := (src64 s f.c).setWidth 16
    if tag != want || tag == 0xFFFF then
      fault .schedule (BitVec.ofNat 64 (tag.toNat + want.toNat * 65536)) s
    else afterSeed h.pa f.sz.bytes (fun s => withPlain 0 h false va (fun s =>
      let u : Unbound := ⟨s.ids, originOf s (me s), [ldPart f h]⟩
      bindThis (resultOf f.d 0 [ldPart f h] (passThrough va h false false s)) (me s).core u) (newRegion s (me s))) s) s) s

def execLdt (f : FM) (s : State) : Out := issue f.fields f.srcs (ldtEffect f) s

/-! ### Prefetch and cache control (R185, R186) -/

def pfrEffect (f : FM) (s : State) : State :=
  let va := ea (src64 s f.a) 0 0 f.off
  let len := Nat.min (src64 s f.b).toNat 0x4000000
  let tva : VA := (src64 s f.c).setWidth 57
  access tva (needFe false true) (fun h s =>
    if foreign s h.pa then fault .foreignFill (vaInfo tva) s
    else
      let (n, s) := fresh s
      let s := logUndo s (myPart s) (refOf s (me s)) (myCtx s).tx h.pte.disc h.pa
      if len = 0 then advance (fillWord s h.pa (some 0) false)
      else
      let s := setFe s h.pa ⟨false, false, .prefetcher n⟩
      let s := { s with prefetches := s.prefetches ++
        [⟨n, (me s).core, myPart s, va, len, h.pa, (myCtx s).prv, (myCtx s).pkey⟩] }
      let (t, s) := nextLat s
      advance (at_ s (s.now + t) (.prefetchCompletion n))) s

def execPfr (f : FM) (s : State) : Out := issue f.fields f.srcs (pfrEffect f) s

/-- The pages of a range, as address and number of bytes. -/
def pieces : Nat → Nat → Nat → List (Nat × Nat)
  | 0, _, _ => []
  | fuel + 1, a, n =>
    if n = 0 then []
    else
      let m := Nat.min n (65536 - a % 65536)
      (a, m) :: pieces fuel (a + m) (n - m)

/-- A page that the key of its context shuts out, or whose home its partition cannot reach, is skipped (R185, R253,
R376). -/
def prefetchBarred (s : State) (p : Prefetch) (e : Pte) (pa : Nat) : Bool :=
  keyDenied { Ctx.zero with prv := p.prv, pkey := p.pkey } e false ||
    (match spaceOf s p.part.pkg pa with
     | .dram site => prvNo p.prv < 2 && (siteOf s site).tag != 0 && (siteOf s site).tag != (siteOf s p.core).tag
     | _ => false)

/-- What one page of a prefetch gives: the bytes fetched, and whether anything was skipped. -/
def prefetchPage (s : State) (p : Prefetch) (a n : Nat) : (Nat × Bool) × State :=
  let va : VA := BitVec.ofNat 57 a
  match walkMark s p.core p.part va false with
  | (.ok e _ fr _, s) =>
    let pa := fr * 65536 + va.toNat % 65536
    match spaceOf s p.part.pkg pa with
    | .dram _ =>
      if !e.rd || (p.prv == .user && !e.usr) || e.cps || prefetchBarred s p e pa then ((0, true), s)
      else
        let lines := (upto (n / 64 + 2)).map fun i => pa / 64 + i
        let ok := lines.filter fun l => decide (l * 64 < pa + n) && (Map.get? s.bad l).isNone
        let bad := lines.any fun l => decide (l * 64 < pa + n) && (Map.get? s.bad l).isSome
        let s := ok.foldl (fun s l => l2Touch s p.core p.part.part (l * 64) 3 0) s
        let got := ok.foldl (fun m l => m + (Nat.min (pa + n) (l * 64 + 64) - Nat.max pa (l * 64))) 0
        ((got, bad), s)
    | _ => ((0, true), s)
  | (_, s) => ((0, true), s)

/-- Every line has arrived: the token is filled with the number of bytes fetched. -/
def execPrefetchCompletion (n : Nat) (s : State) : Out :=
  match firstWhere (fun p => p.id == n) s.prefetches with
  | none => .next s
  | some p =>
    let (got, bad, s) := (pieces 1025 p.va.toNat p.len).foldl
      (fun (a : Nat × Bool × State) e =>
        let ((g, b), s) := prefetchPage a.2.2 p e.1 e.2
        (a.1 + g, a.2.1 || b, s)) (0, false, s)
    let s := { s with prefetches := listDel (fun q => q.id == n) s.prefetches }
    .next (fillWord s p.token (some (BitVec.ofNat 64 got)) bad)

def cacheNeed : Need := ⟨1, false, false, false, false, true⟩

/-- A stash sector is written home and stays in the stash, clean. -/
def cleanSector (s : State) (sec : Nat) : State :=
  { recallSector s sec with
    dir := listMod (fun e => e.1 == sec) (fun e => (e.1, { e.2 with dirty := false })) s.dir }

/-- WBK: dirty sectors of the line go to the channel; every copy stays valid and is clean. -/
def writeBackLine (s : State) (pa : Nat) : State :=
  cleanLine (cleanSector (cleanSector s (pa / 64 * 2)) (pa / 64 * 2 + 1)) (pa / 64)

def execWbk (f : FM) (s : State) : Out :=
  issue f.fields f.srcs (fun s =>
    access (fmAddr f s) cacheNeed (fun h s =>
      match h.space with
      | .dram _ => advance (writeBackLine s h.pa)
      | _ => advance s) s) s

/-- INV: the core's own dirty sectors of the line go home and its copies are dropped. -/
def invLine (s : State) (core part : Nat) (va : VA) (pa : Nat) : State :=
  match stashBind s core part va with
  | some m =>
    let off := stashOff m va / 64 * 64
    let mine : Nat × DirEnt → Bool := fun e => e.2.core == core && (e.2.off == off || e.2.off == off + 32)
    (s.dir.filter mine).foldl (fun s e => if e.2.dirty then recallSector s e.1 else { s with dir := Map.del s.dir e.1 }) s
  | none => dropL1 s core part (pa / 64)

def execInv (f : FM) (s : State) : Out :=
  issue f.fields f.srcs (fun s =>
    let va := fmAddr f s
    access va cacheNeed (fun h s =>
      match h.space with
      | .dram _ => advance (invLine s (me s).core (myCtx s).part va h.pa)
      | _ => advance s) s) s

/-! ### FENCE (R187, R188) -/

/-- The effect `k` once every earlier access of the context has its result (R188). -/
def afterLoads (k : State → State) (s : State) : State :=
  if loadsOut s (me s) then parkBefore .parkedMemory .drain s else k s

def fenceCopse (f : FS) (s : State) : Bool := bitsOf f.imm.toNat 0 3 == 5 && decide (2 ≤ prvNo (myCtx s).prv)

def execFence (f : FS) (s : State) : Out :=
  issue f.fields [] (clamped (bitsOf f.imm.toNat 0 3 == 5) fun s =>
    afterLoads (afterRelease (fenceCopse f s) fun s => advance (syncObj s (me s) 0 true true)) s) s

def execFenceCode (f : FS) (s : State) : Out :=
  issue f.fields [] (afterDrain fun s => advance (mod s fun c => { c with
    line := none
    codeSeen := s.lineOld.length })) s

/-- Whether an engine job of the context is in the core's window. -/
def hasJobs (s : State) (x : CtxId) : Bool :=
  let o := originOf s x
  s.cores.any fun e => e.2.jobs.any fun j => j.ctx == o

def execFenceEng (f : FS) (s : State) : Out :=
  issue f.fields [] (afterLoads <| afterDrain fun s =>
    if hasJobs s (me s) then parkBefore .parkedMemory .drain s else advance s) s

end Sys2Proof.Machine
end

