-- ==== Sys2Proof/Machine/Travel.lean ====
section
/-! DEFINITION. Slots, windows and logical cores (R87, R88, R377), constant banks (R201), MIGR, HOME, the
return of a visitor (R100 to R104, R109), and ATOM and RED (R189 to R192). -/

namespace Sys2Proof.Machine

open Sys2Proof

/-! ### Logical cores (R377) -/

/-- The core that a logical number names on a package. An entry with a reserved bit set names none (the model's
choice: notes/assumptions/118). -/
def logicalCore (s : State) (p : PartId) (n : Nat) : Option Nat :=
  let q := partOf s p
  if 16384 ≤ n ∨ q.l2plen.toNat ≤ n then none
  else
    let e := readPA s p.pkg (q.l2ptab.toNat % 2 ^ 52 + 2 * n) 2
    if !bitAt e 15 || bitAt e 14 || bitsOf e 10 2 != 0 then none
    else
      let c := coreId p.pkg (bitsOf e 12 2) (bitsOf e 0 10)
      if fusedOff s c then none else some c

/-- The logical number of a core in a partition; 0x3FFF where it has none. -/
def logicalNo (s : State) (p : PartId) (core : Nat) : Nat :=
  (firstWhere (fun n => logicalCore s p n == some core)
    (upto (Nat.min 16384 (partOf s p).l2plen.toNat))).getD 0x3FFF

/-! ### Slots and windows (R87, R88) -/

/-- The origin slots of a core that are in use. -/
def usedSlots (k : Core) : List (Nat × Slot) := k.slots.filter fun e => e.1 < 56 && e.2.st != .free

/-- The lowest free slot among 0 to 55, within the tenant's quota. -/
def freeSlot (s : State) (p : PartId) (core : Nat) : Option Nat :=
  let k := coreOf s core
  if limitOf s p 0 56 ≤ (usedSlots k).length then none
  else firstWhere (fun i => (Map.get k.slots i Slot.zero).st == .free) (upto 56)

/-- The window of an origin slot: where it stays allocated while the context is elsewhere. -/
def windowOf (e : Nat × Slot) : Nat × Nat := (e.2.ctx.winBase, e.2.ctx.winSize)

/-- First fit in granules of 8 among entries 0 to 1919. -/
def freeWindow (k : Core) (size : Nat) : Option Nat :=
  let used := (usedSlots k).map windowOf
  (firstWhere (fun g => used.all fun w => !overlaps (8 * g) size w.1 w.2)
    (upto (240 + 1 - size / 8))).map (8 * ·)

/-- A freshly allocated window reads as zero, its marks present alone (R89). -/
def clearWindow (s : State) (core base size : Nat) : State :=
  modCore s core fun k => { k with
    rf := k.rf.filter fun e => !(decide (base ≤ e.1) && decide (e.1 < base + size))
    marks := k.marks.filter fun e => !(decide (base ≤ e.1) && decide (e.1 < base + size)) }

/-- GEN after an occupancy (R87). -/
def nextGen (g : BitVec 32) : BitVec 32 := if g = 0xFFFFFFFE then 0 else g + 1

/-- A slot that its context has left. -/
def freeSlotNow (s : State) (x : CtxId) : State :=
  setSlot s x ⟨.free, .free, .free, nextGen (slotOf s x).gen, Ctx.zero⟩

/-- Results of a context that have not landed are dropped with it. -/
def dropResults (s : State) (x : CtxId) : State :=
  modCore s x.core fun k => { k with
    pend := k.pend.filter fun p => p.slot != x.slot
    vpend := k.vpend.filter fun p => p.slot != x.slot
    divq := k.divq.map fun q => if q.slot = x.slot then { q with dst := .none } else q
    sqq := k.sqq.map fun q => if q.slot = x.slot then { q with dst := .none } else q }

/-- Results of an exiting context that have not landed: those for a register that another context's window holds too
land as before, for no slot (R274); the others are dropped. -/
def leaveResults (s : State) (x : CtxId) : State :=
  let shared : Dest → Bool := fun d => match d with
    | .reg e => (coreOf s x.core).slots.any fun t => t.1 != x.slot && hasBody (effSt t.2) &&
        decide (t.2.ctx.winBase ≤ e) && decide (e < t.2.ctx.winBase + t.2.ctx.winSize)
    | _ => false
  let unit : UnitReq → UnitReq := fun q =>
    if q.slot ≠ x.slot then q else if shared q.dst then { q with slot := 64 } else { q with dst := .none }
  modCore s x.core fun k => { k with
    pend := (k.pend.filter fun p => p.slot != x.slot || shared p.dst).map fun p =>
      if p.slot = x.slot then { p with slot := 64 } else p
    vpend := (k.vpend.filter fun p => p.slot != x.slot || shared p.dst).map fun p =>
      if p.slot = x.slot then { p with slot := 64 } else p
    divq := k.divq.map unit
    sqq := k.sqq.map unit }

/-- The results of a context that have not landed land at once: those of the pair that issues with an
instruction which sends the context away. -/
def landOwn (s : State) (x : CtxId) : State :=
  let s := bindOwn s x
  let k := coreOf s x.core
  let s := (k.pend.filter fun p => p.slot == x.slot).foldl (fun s p => landFixed s x.core p.dst p.val) s
  let s := (k.vpend.filter fun p => p.slot == x.slot).foldl (fun s p => landVar s x.core p.dst p.val) s
  let s := ((k.divq ++ k.sqq).filter fun q => q.slot == x.slot).foldl
    (fun s q => landVar s x.core q.dst q.val) s
  dropResults s x

/-! ### Constant banks (R201) -/

/-- Bytes of a partition's memory by virtual address, through the tables as they stand; an unreadable
byte is `none`. -/
def readVa (s : State) (p : PartId) (va n : Nat) : Option Nat :=
  match walk s p (BitVec.ofNat 57 va) with
  | .ok e _ fr _ => if Pte.rd e then some (readPA s p.pkg (fr * 65536 + va % 65536) n) else none
  | _ => none

/-- A field of a kernel descriptor: `n` bytes from byte `lo` (R198). -/
def kfield (s : State) (p : PartId) (kdesc lo n : Nat) : Nat := (readVa s p (kdesc + lo) n).getD 0

/-- The constant bank of a kernel is filled where the core does not hold it. -/
def loadBank (s : State) (core part kern : Nat) : State :=
  let p : PartId := ⟨pkgOf core, part⟩
  if (coreOf s core).kbanks.any fun b => b.part == part && b.kern == kern then s
  else
    let n := Nat.min 256 (kfield s p kern 14 2)
    let t := kfield s p kern 64 8
    let ws : Map W32 := if kern = 0 then []
      else (upto n).map fun i => (i, BitVec.ofNat 32 ((readVa s p (t + 4 * i) 4).getD 0))
    modCore s core fun k => { k with kbanks := k.kbanks ++ [⟨part, kern, ws⟩] }

/-- A bank is freed when no context recorded under its kernel is on the core. -/
def freeBanks (s : State) (core : Nat) : State :=
  modCore s core fun k => { k with
    kbanks := k.kbanks.filter fun b =>
      k.slots.any fun e => hasBody (effSt e.2) && e.2.ctx.part == b.part && e.2.ctx.kern == b.kern }

/-! ### The conditions of R100 -/

/-- The window shares entries with another slot's. -/
def sharesWindow (s : State) (x : CtxId) : Bool :=
  let c := ctxOf s x
  c.winShared || (usedSlots (coreOf s x.core)).any fun e =>
    e.1 != x.slot && x.slot < 56 && overlaps c.winBase c.winSize e.2.ctx.winBase e.2.ctx.winSize

def handlerRuns (c : Ctx) : Bool := levelRuns c .user || levelRuns c .guest || levelRuns c .hyp

/-- The first three conditions. -/
def mayTravel (s : State) (x : CtxId) : Bool :=
  let c := ctxOf s x
  c.winSize == 16 && !sharesWindow s x && !handlerRuns c

/-- The window of a context: its registers and marks. -/
def windowRegs (s : State) (x : CtxId) : List (Reg × Marks) :=
  let c := ctxOf s x
  (upto c.winSize).map fun i =>
    (entryVal s x.core (c.winBase + i), entryMarks s x.core (c.winBase + i))

/-- The last three conditions: what the message can carry. -/
def canCarry (s : State) (x : CtxId) : Bool :=
  let c := ctxOf s x
  decide (c.obls.length ≤ 8) && c.obls.all (fun e => e.2.kind != .feed) &&
    (windowRegs s x).all (fun r => r.2.arm.isNone) && c.ints.isEmpty

/-- Every register of the window is present and no write window is open. -/
def windowQuiet (s : State) (x : CtxId) : Bool :=
  !windowOpen s x && (windowRegs s x).all fun r => r.2.present

/-! ### Sending and placing a context (R100 to R104) -/

/-- The registers of a window written with their marks. -/
def putWindow (s : State) (core base : Nat) (rs : List (Reg × Marks)) : State :=
  modCore s core fun k =>
    let es := (upto rs.length).zip rs
    { k with
      rf := es.foldl (fun m e => Map.put m (base + e.1) e.2.1) k.rf
      marks := es.foldl (fun m e => Map.put m (base + e.1) e.2.2) k.marks }

/-- Mesh hops between two cores of a package. -/
def hops (a b : Nat) : Nat :=
  let d := fun m n : Nat => Nat.max m n - Nat.min m n
  d (cxOf a) (cxOf b) + d (cyOf a) (cyOf b)

/-! ### The migration message (R100) -/

/-- A handle in the 56 bits of the message: without the bits that its kind leaves zero. -/
def packHandle (k : OblKind) (h : W64) : Nat :=
  let n := h.toNat
  match k with
  | .bar | .gate => bitsOf n 31 33 * 2 ^ 23 + bitsOf n 6 23
  | .done => if bitAt n 63 then 2 ^ 55 + bitsOf n 0 12 else bitsOf n 3 54
  | _ => bitsOf n 3 54

def unpackHandle (k : OblKind) (v : Nat) : W64 :=
  BitVec.ofNat 64 (match k with
    | .bar | .gate => bitsOf v 23 33 * 2 ^ 31 + bitsOf v 0 23 * 2 ^ 6
    | .done => if bitAt v 55 then 2 ^ 63 + bitsOf v 0 12 else bitsOf v 0 54 * 8
    | _ => bitsOf v 0 54 * 8)

/-- The number of a kind (R68). -/
def kindNo : OblKind → Nat
  | .bar => 0 | .fill => 1 | .feed => 2 | .gate => 3 | .done => 4

def kindOf (n : Nat) : OblKind :=
  if n = 0 then .bar else if n = 1 then .fill else if n = 2 then .feed else if n = 3 then .gate else .done

/-- An obligation entry in 91 bits. -/
def oblBits (e : Obl) : Nat :=
  packHandle e.kind e.handle + e.rank % 2 ^ 16 * 2 ^ 56 + e.count % 2 ^ 16 * 2 ^ 72 + kindNo e.kind * 2 ^ 88

def oblOfBits (v : Nat) : Obl :=
  let k := kindOf (bitsOf v 88 3)
  ⟨k, unpackHandle k (bitsOf v 0 56), bitsOf v 56 16, bitsOf v 72 16, 0⟩

/-- The entries 0 to 7 that travel: an entry with a higher number takes the lowest free one of them (the model's
choice: notes/assumptions/114). -/
def carriedObls (m : Map Obl) : Map Obl :=
  m.foldl (fun t e =>
    let i := if e.1 < 8 then e.1
      else (firstWhere (fun i => (Map.get? t i).isNone && (Map.get? m i).isNone) (upto 8)).getD e.1
    Map.put t i e.2) []

/-- The run state of a context with the marks of its registers: bit n of `sum` is bit n of flits 8 and 9. -/
def runState (c : Ctx) (rs : List (Reg × Marks)) : BitVec 1024 :=
  let obls := carriedObls c.obls
  let marks := packLanes 2 (rs.map fun r => r.2.unread.toNat + 2 * r.2.poison.toNat)
  BitVec.ofNat 1024 (
    c.pc.toNat + c.rstpc.toNat * 2 ^ 57 + c.status.toNat % 2 ^ 14 * 2 ^ 114 + prvNo c.prv * 2 ^ 128 +
    c.fpstat.toNat % 2 ^ 14 * 2 ^ 130 + c.xferid.toNat * 2 ^ 144 + c.rklo % 2 ^ 16 * 2 ^ 160 +
    c.rkhi % 2 ^ 17 * 2 ^ 176 + c.lcore % 2 ^ 14 * 2 ^ 193 + c.origin.slot % 64 * 2 ^ 207 +
    marks % 2 ^ 32 * 2 ^ 216 + c.pkey.toNat % 2 ^ 32 * 2 ^ 248 +
    obls.foldl (fun n e => n + 2 ^ (280 + e.1) + oblBits e.2 * 2 ^ (288 + 91 * e.1)) 0)

/-- The part of an entry that was in transfer is kept by the sending core (R74). -/
def keepMoving (old : Map Obl) (e : Obl) : Obl :=
  match firstWhere (fun o => o.2.kind == e.kind && o.2.handle == e.handle) old with
  | some o => { e with moving := o.2.moving }
  | none => e

/-- The context that a run state gives; what does not travel (its group, its kernel, what is pending at it) is that
of `c`, and its extended state is left behind. -/
def ofRunState (w : BitVec 1024) (c : Ctx) : Ctx :=
  let n := w.toNat
  { withExt c Ctx.zero with
    pc := BitVec.ofNat 57 n
    rstpc := BitVec.ofNat 57 (bitsOf n 57 57)
    status := BitVec.ofNat 64 (bitsOf n 114 14)
    prv := prvOf (bitsOf n 128 2)
    fpstat := BitVec.ofNat 64 (bitsOf n 130 14)
    xferid := BitVec.ofNat 16 (bitsOf n 144 16)
    rklo := bitsOf n 160 16
    rkhi := bitsOf n 176 17
    lcore := bitsOf n 193 14
    origin := ⟨c.origin.core, bitsOf n 207 6⟩
    pkey := BitVec.ofNat 64 (bitsOf n 248 32)
    obls := ((upto 8).filter fun k => bitAt n (280 + k)).map fun k =>
      (k, keepMoving c.obls (oblOfBits (bitsOf n (288 + 91 * k) 91))) }

/-- The marks of register `n` of the window in a run state. -/
def marksOfRun (w : BitVec 1024) (n : Nat) : Marks :=
  ⟨true, bitAt w.toNat (216 + 2 * n), bitAt w.toNat (217 + 2 * n), none⟩

/-- The message in flits of 64 bytes: the registers, the run state, and the mask registers where one is nonzero. -/
def messageFlits (c : Ctx) (rs : List (Reg × Marks)) : List (BitVec 512) :=
  let regs := packLanes 256 (rs.map fun r => r.1.toNat)
  let run := (runState c rs).toNat
  let masks := packLanes 64 ((upto 7).map fun k => (Map.get c.masks (k + 1) 0).toNat)
  ((upto 8).map fun i => BitVec.ofNat 512 (bitsOf regs (512 * i) 512)) ++
    ((upto 2).map fun i => BitVec.ofNat 512 (bitsOf run (512 * i) 512)) ++
    (if masks = 0 then [] else [BitVec.ofNat 512 masks])

/-- What the receiver makes of a message: the registers with their marks, and the context. -/
def ofFlits (fs : List (BitVec 512)) (c : Ctx) : List (Reg × Marks) × Ctx :=
  let regs := packLanes 512 ((fs.take 8).map (·.toNat))
  let run := BitVec.ofNat 1024 (packLanes 512 (((fs.drop 8).take 2).map (·.toNat)))
  let masks := ((fs.drop 10).headD 0).toNat
  ((upto 16).map fun n => (BitVec.ofNat 256 (bitsOf regs (256 * n) 256), marksOfRun run n),
    { ofRunState run c with
      masks := ((upto 7).filter fun k => bitsOf masks (64 * k) 64 != 0).map fun k =>
        (k + 1, BitVec.ofNat 64 (bitsOf masks (64 * k) 64)) })

/-- The clamped issues of a visit are added to `sys.clampcnt` in the origin slot (R103). -/
def addClamps (s : State) (x : CtxId) : State :=
  let n := (ctxOf s x).clampHere
  let s := modCtx s x fun c => { c with clampHere := 0 }
  modExt s x fun c => { c with
    clampcnt := if 2 ^ 64 ≤ c.clampcnt.toNat + n.toNat then BitVec.allOnes 64 else c.clampcnt + n }

/-- A context leaves its slot in a migration message for `target`. The sending slot is held: an origin
slot until the context comes back, a visitor slot until the target has accepted it. -/
def sendCtx (s : State) (x : CtxId) (target : Nat) (dest : Dest) (home : Bool)
    (atom : Option TravelAtom) : State :=
  let s := if visiting s x then addClamps s x else s
  let s := modCore s x.core fun k => { k with vpend := k.vpend.filter fun p => p.slot != x.slot || !p.table }
  let c := ctxOf s x
  let msg := messageFlits c (windowRegs s x)
  let (regs, c') := ofFlits msg { c with line := none }
  let (n, s) := fresh s
  let s := { s with flights := s.flights ++ [⟨n, c', (slotOf s c.origin).gen, regs, x, target, dest, home, atom⟩] }
  let s := freeBanks (setSt s x .away) x.core
  let s := note (dropYield s x) x.core 7 x.slot (logicalNo s ⟨pkgOf target, c.part⟩ target)
    (c.pc.setWidth 64)
  inCycles s x.core (14 + 2 * hops x.core target + (msg.length - 10)) (.migrationArrival n)

/-- The visitor slot that a context left is freed, and the next arrival in the inbox is placed. -/
def leaveVisit (s : State) (x : CtxId) : State :=
  let s := freeBanks (freeSlotNow s x) x.core
  match (coreOf s x.core).inbox with
  | [] => s
  | n :: _ => at_ s s.now (.migrationArrival n)

def findFlightId (s : State) (n : Nat) : Option Flight := firstWhere (fun f => f.id == n) s.flights
def dropFlight (s : State) (n : Nat) : State := { s with flights := listDel (fun f => f.id == n) s.flights }

/-- A cancel that reached a context while it travelled is taken at its placement (R86). -/
def takeCancel (s : State) (o : CtxId) : State :=
  if s.cancels.any (fun k => k.left.contains o) && !s.agenda.any fun e => e.2 == .cancelArrival o then
    at_ s s.now (.cancelArrival o)
  else s

/-- A travelling context becomes ready, or trapped if a trap sent it home, in slot `x` with window `base`. Its stay is
counted from now, after a refused onward journey too (the model's choice: notes/assumptions/126). -/
def settle (s : State) (f : Flight) (x : CtxId) (base : Nat) : State :=
  let s := catchCore s x.core
  let s := putWindow s x.core base f.regs
  let st : SlotSt := if f.ctx.trap.isSome then .trapped else .ready
  let s := modSlot s x fun sl =>
    { sl with
      st := st
      prev := .ready
      ctx := { (if x = f.ctx.origin then withExt f.ctx sl.ctx else f.ctx) with
        winBase := base
        lcoreHere := logicalNo s ⟨pkgOf x.core, f.ctx.part⟩ x.core
        arrivedAt := (coreOf s x.core).cyc
        nextIssue := (coreOf s x.core).cyc } }
  let s := loadBank s x.core f.ctx.part f.ctx.kern
  let s := takeCancel s f.ctx.origin
  if f.sender = f.ctx.origin || f.sender = x then s else leaveVisit s f.sender

/-- A status lands in the D of a travelling instruction: a register of the window, by number. -/
def landAt (s : State) (x : CtxId) (d : Dest) (v : Reg) : State :=
  match d with
  | .reg n => landVar s x.core (.reg ((ctxOf s x).winBase + n)) v
  | _ => s

/-- D as a window number. -/
def windowDest (d : Opnd) : Dest :=
  match d with
  | .g n => .reg n
  | _ => .none

/-! ### ATOM and RED (R189 to R192) -/

/-- FP32 addition of R190, rounded once to nearest. -/
def fadd32 (a b : Nat) : Nat :=
  encodeF fp32 (roundF fp32 .rn 0 (addF .rn (decodeF fp32 a) (decodeF fp32 b)).1).val

/-- FMIN and FMAX of R137 on FP32 patterns. -/
def fsel32 (max : Bool) (a b : Nat) : Nat := encodeF fp32 (minmaxF max (decodeF fp32 a) (decodeF fp32 b)).1

/-- The new value of the word (R190): ATOM operation `op` of width `w`. -/
def atomNew (op w m v expected : Nat) : Nat :=
  let sm := signed w m
  let sv := signed w v
  if op = 0 then (m + v) % 2 ^ w
  else if op = 1 then (if sv < sm then v else m)
  else if op = 2 then (if sm < sv then v else m)
  else if op = 3 then (if v < m then v else m)
  else if op = 4 then (if m < v then v else m)
  else if op = 5 then m &&& v
  else if op = 6 then m ||| v
  else if op = 7 then m ^^^ v
  else if op = 8 then v
  else if op = 9 then (if m = expected then v else m)
  else if op = 10 then fadd32 m v
  else if op = 11 then fsel32 false m v
  else fsel32 true m v

/-- The ATOM operation of a RED's MIN (R190). -/
def redOp (min : Nat) : Nat :=
  if min = 0 then 0 else if min = 1 then 1 else if min = 2 then 2 else if min = 3 then 6 else 10

def atomBytes (dbl : Bool) : Nat := if dbl then 8 else 4

/-- What ATOM writes to D: the old value, extended. -/
def atomOld (dbl sx : Bool) (m : Nat) : Reg := nat256 (extend sx m (8 * atomBytes dbl) 64)

/-- The operand and the expected value of an ATOM in its C. -/
def atomVal (dbl : Bool) (c : Reg) : Nat := bitsOf c.toNat 0 (8 * atomBytes dbl)
def atomExpected (dbl : Bool) (c : Reg) : Nat := bitsOf c.toNat 64 (8 * atomBytes dbl)

/-- An atomic operation performed by the home for context `x` on a word of DRAM or of the flag window:
the old value. -/
def atomAt (s : State) (x : CtxId) (h : Hit) (op : Nat) (dbl : Bool) (c : Reg) : Nat × State :=
  let n := atomBytes dbl
  let key := memKey (pkgOf x.core) h.pa
  let m := readN s key n
  let v := atomNew op (8 * n) m (atomVal dbl c) (atomExpected dbl c)
  match h.space with
  | .dram _ =>
    (m, invalidateOthers (ctxWrite s (partId s x) (refOf s x) (ctxOf s x).tx h.pte.disc key n v) x.core h.pa)
  | _ => (m, writeN s key n v)

/-- A request: the operation is performed at the home and D lands later. -/
def atomRequest (f : FM) (va : VA) (h : Hit) (s : State) : State :=
  let dbl := f.sz == .b64
  withSync h true true true va (fun s =>
    let (m, s) := atomAt s (me s) h f.min.toNat dbl (src256 s 0 f.c)
    resultOf f.d (atomOld dbl (sxOf f) m) [] s) s

/-- A context that may travel to a word's home core does (R191). -/
def atomTravels (s : State) (h : Hit) : Option Nat :=
  match h.space with
  | .dram site =>
    let x := me s
    let t := homeCore s site
    if mayTravel s x && canCarry s x && pkgOf site == pkgOf x.core &&
        (siteOf s site).tag == (siteOf s x.core).tag && reachesCore s x t && t != x.core then some t
    else none
  | _ => none

/-- The context leaves for `t` with its next instruction as PC; D awaits the placement. -/
def leaveFor (t : Nat) (d : Opnd) (home : Bool) (atom : Option TravelAtom) (s : State) : State :=
  let s := landOwn s (me s)
  let s := clearPresence (advance s) (destOf s d)
  sendCtx s (me s) t (windowDest d) home atom

/-- What sending a context waits for (R109): its accesses, its registers and its windows. -/
def readyToTravel (k : State → State) (s : State) : State :=
  let x := me s
  if s.cur.pair then k s
  else if !drained s x then parkBefore .parkedMemory .drain s
  else if windowOpen s x then
    undo (mod s fun c => { c with nextIssue := Nat.max c.nextIssue (windowEnd s x) })
  else if !windowQuiet s x then parkBefore .parkedMemory .operand s
  else k s

def atomHit (f : FM) (va : VA) (h : Hit) (s : State) : State :=
  let dbl := f.sz == .b64
  let op := f.min.toNat
  match h.space with
  | .copse w =>
    if barrierWord s w then fault .protection (vaInfo va) s
    else afterRelease (copseScope f.scope s) (fun s =>
      let x := me s
      let c := src256 s 0 f.c
      let s := markOutside s x
      let s := sendFrame s (pkgOf x.core)
        (.atomic op w (myCtx s).part (BitVec.ofNat 64 (atomVal dbl c)) (BitVec.ofNat 64 (atomExpected dbl c))
          (originOf s x) .none (sxOf f))
      parkOn .parkedMessage .reply (destOf s f.d) s) s
  | .hub _ =>
    afterRelease false (fun s =>
      let (m, s) := atomAt (syncObj s (me s) (2 ^ 63 + h.pa) true true) (me s) h op dbl (src256 s 0 f.c)
      resultOf f.d (atomOld dbl (sxOf f) m) [] s) s
  | _ =>
    afterRelease (copseScope f.scope s) (fun s =>
      match atomTravels s h with
      | some t =>
        match syncRace s (me s) h true with
        | some r => fault .memoryRace (raceInfo va r) (reportRace s (myPart s) r)
        | none =>
          readyToTravel (fun s =>
            leaveFor t f.d false
              (some ⟨op, dbl, sxOf f, va, h.pa, h.pte, src256 s 0 f.c, s.cur.pc, s.cur.pc0, none⟩) s) s
      | none => atomRequest f va h s) s

def execAtom (f : FM) (s : State) : Out :=
  issue f.fields f.srcs (clamped (f.scope == .copse) fun s =>
    let va := fmAddr f s
    access va (needOf f.sz.bytes true true) (atomHit f va) s) s

/-- The seeds of a partition in flight on a package (R378), those that are order frames among them. -/
def seedsOf (s : State) (p : PartId) : Nat :=
  (s.seeds.filter fun e => e.part == p).length +
    ((pkgAt s p.pkg).toSend.filter fun b => match b with
      | .red _ _ q _ _ _ => q == p.part
      | _ => false).length

/-- The DONE count that a RED passes to its seed; `none` where no such entry exists (R192). -/
def redCarries (f : FM) (s : State) : Option (Option Obl) :=
  if f.c = .z then some none
  else
    let h := src64 s f.c
    match findObl (myCtx s) .done h with
    | some (_, e) => if availObl e = 0 then none else some (some { e with count := 1, moving := 0 })
    | none => none

/-- A carried count is discharged. -/
def dischargeCarried (s : State) (p : PartId) (who : CRef) (o : Option Obl) (poison : Bool) : State :=
  match o with
  | some o => actDone (logDone s p who none o.handle) p o.handle none poison
  | none => s

/-- The reference that a copse RED's issuer has, for the act it carries. -/
def refAtOrigin (s : State) (o : CtxId) : CRef :=
  match atOrigin s o with
  | some x => refOf s x
  | none => ⟨(slotOf s o).gen, 0, o.slot⟩

def redHit (f : FM) (va : VA) (h : Hit) (s : State) : State :=
  let dbl := f.sz == .b64
  let v : W64 := (wideSrc s 1 f.d).setWidth 64
  let x := me s
  if f.c != .z && strayCounter (src64 s f.c) then fault .protectionPart (src64 s f.c) s
  else
  match redCarries f s with
  | none => fault .oblMissing (src64 s f.c) s
  | some carried =>
    let pass := fun (s : State) => match carried with
      | some o => mod s fun c => dischargeObl c .done o.handle 1
      | none => s
    let full := decide (limitOf s (myPart s) 6 0xFFFF ≤ seedsOf s (myPart s))
    match h.space with
    | .copse w =>
      if barrierWord s w then fault .protection (vaInfo va) s
      else if full then throttle .throttled true s
      else if (pkgAt s (pkgOf x.core)).viral then
        advance (dischargeCarried (markOutside (pass s) x) (myPart s) (refOf s x) carried true)
      else
        let s := markOutside (pass s) x
        advance (sendFrame s (pkgOf x.core)
          (.red (redOp f.min.toNat) w (myCtx s).part v (originOf s x) carried))
    | _ =>
      if storeAt s x h.pa (atomBytes dbl) then parkBefore .parkedMemory .drain s
      else if full then throttle .throttled true s
      else
        let s := pass s
        let (n, s) := fresh s
        let s := { s with seeds := s.seeds ++ [
          { id := n
            ctx := originOf s x
            who := refOf s x
            part := myPart s
            op := redOp f.min.toNat
            dbl := dbl
            key := hitKey s h
            va := va
            val := v
            carried := carried
            checked := (match h.space with
              | .dram _ => !h.pte.unch
              | _ => false)
            pc := s.cur.pc
            disc := h.pte.disc
            unch := h.pte.unch
            tx := (myCtx s).tx }] }
        let (t, s) := nextLat s
        advance (inCycles s x.core (1 + t) (.seedPerform n))

def execRed (f : FM) (s : State) : Out :=
  issue f.fields f.fields (clamped (f.scope == .copse) fun s =>
    (if f.c = .z then id else tableFree) |> fun g => g (fun s =>
      let va := fmAddr f s
      let need := needOf f.sz.bytes true true
      withHit 0 va need (fun h s => syncFree (withData 0 va { need with read := false } (redHit f va) h) s) s) s) s

/-- The oldest seed from the same context to the same home as `e`: seeds keep their order (R192). -/
def firstSeed (s : State) (e : Seed) : Seed :=
  (firstWhere (fun q => q.ctx == e.ctx && homeOf q.key == homeOf e.key) s.seeds).getD e

/-! ### MIGR and HOME (R109) -/

/-- A status without travel. -/
def migrStatus (d : Opnd) (n : Nat) (s : State) : State := result d (nat256 n) s

def migrEffect (f : FR) (s : State) : State :=
  if !mayTravel s (me s) then migrStatus f.d 2 s
  else readyToTravel (fun s =>
    let x := me s
    let va : VA := (src64i s f.imm20 f.a).setWidth 57
    match checkAccess s x va ⟨1, true, false, false, false, true⟩ with
    | .fault c i => fault c i s
    | .miss => parkWalk s va false
    | .copy _ _ => migrStatus f.d 4 s
    | .hit h =>
      match h.space with
      | .dram site =>
        let t := homeCore s site
        if t = x.core then migrStatus f.d 1 s
        else if pkgOf t != pkgOf x.core || !reachesCore s x t || (siteOf s t).tag != (siteOf s x.core).tag then
          migrStatus f.d 4 s
        else if !canCarry s x then migrStatus f.d 3 s
        else leaveFor t f.d false none s
      | _ => migrStatus f.d 4 s) s

def execMigr (f : FR) (s : State) : Out := issue f.fields f.srcs (migrEffect f) s

def homeEffect (f : FR) (s : State) : State :=
  if !mayTravel s (me s) then migrStatus f.d 2 s
  else readyToTravel (fun s =>
    let x := me s
    let t := (originOf s x).core
    if t = x.core then migrStatus f.d 1 s else leaveFor t f.d true none s) s

def execHome (f : FR) (s : State) : Out := issue f.fields f.srcs (homeEffect f) s

/-! ### Arrival, refusal and return (R101 to R104) -/

/-- The lowest free visitor slot within the tenant's quota. -/
def freeVisitor (s : State) (p : PartId) (core : Nat) : Option Nat :=
  let k := coreOf s core
  let used := (k.slots.filter fun e => 56 ≤ e.1 && e.2.st != .free && e.2.ctx.part == p.part).length
  if limitOf s p 1 8 ≤ used then none
  else firstWhere (fun i => (Map.get k.slots i Slot.zero).st == .free) ((upto 8).map (56 + ·))

def dropInbox (s : State) (core n : Nat) : State :=
  modCore s core fun k => { k with inbox := k.inbox.filter (· != n) }

/-- The register that the class-A member of a pair writes takes back its value and marks, unless a deposit has
arrived there since. -/
def undoWrite (s : State) (core : Nat) (u : PairUndo) : State :=
  match u.dest with
  | .none => s
  | .mask sl n => writeMask s ⟨core, sl⟩ n (u.old.setWidth 64)
  | .reg e =>
    if (entryMarks s core e).unread then s
    else modCore s core fun k =>
      { k with
        rf := Map.put k.rf e u.old
        marks := Map.put k.marks e u.marks }

/-- The draws of a class-A member are taken back, unless software has written `sys.lfsr` since. -/
def lfsrUndo (s : State) (core : Nat) (u : PairUndo) : State :=
  modCore s core fun k => { k with
    lfsr := if k.lfsrWrites = u.lfsrWrites then lfsrBackBy u.draws k.lfsr else k.lfsr }

/-- The travelling ATOM is not performed: its D is present as before, and what its pair has done is taken back. -/
def undoAtom (s : State) (x : CtxId) (f : Flight) (a : TravelAtom) : State :=
  let base := (ctxOf s x).winBase
  let s := match f.dest with
    | .reg n => setMarks s x.core (base + n) fun m => { m with present := true }
    | _ => s
  let s := match a.undo with
    | some u =>
      let d : Dest := match u.dest with
        | .reg n => .reg (base + n)
        | .mask _ n => .mask x.slot n
        | .none => .none
      modCtx (undoWrite (lfsrUndo s f.sender.core u) x.core { u with dest := d }) x fun c =>
        { c with
          fpstat := u.fpstat
          status := putField c.status stSKN 2 0 }
    | none => s
  modCtx s x fun c => { c with pc := a.pc0 }

/-- The travelling ATOM is performed where its context has arrived, as any sync operation on its word (R191): where it
is second in a race, or the word is erroneous, it faults precisely. -/
def arriveAtom (s : State) (x : CtxId) (f : Flight) : State :=
  match f.atom with
  | none => landAt s x f.dest 0
  | some a =>
    let h : Hit := ⟨a.pte, a.pa, spaceOf s (pkgOf x.core) a.pa⟩
    match syncRace s x h true, badAt s a.pa (atomBytes a.dbl) with
    | some r, _ =>
      takeTrap (undoAtom (reportRace s (partId s x) r) x f a) x .memoryRace (raceInfo a.va r) a.pc0 false false
    | none, some e =>
      let reg := windowNo { Ctx.zero with winBase := 0 } f.dest
      consumesAt (setSt (undoAtom s x f a) x .parkedMemory) x reg e a.pa
    | none, none =>
      let s := syncWord s x h true true true a.pc a.va
      let (m, s) := atomAt s x h a.op a.dbl a.val
      landAt s x f.dest (atomOld a.dbl a.sx m)

/-- The entries of 64 bytes that a saved inbox takes: 10 for a migration message (R371). -/
def savedEntries (s : State) (l : List Instr) : Nat :=
  l.foldl (fun n i => match i with
    | .migrationArrival m => n + (if (findFlightId s m).isSome then 10 else 0)
    | _ => n + 1) 0

/-- A migration message reaches its target: an arrival takes a visitor slot only when no earlier one waits in the
inbox (R101). -/
def execMigrationArrival (n : Nat) (s : State) : Out :=
  match findFlightId s n with
  | none => .next s
  | some f =>
    let p : PartId := ⟨pkgOf f.target, f.ctx.part⟩
    let k := coreOf s f.target
    if k.suspended then
      if f.home || decide (savedEntries s k.savedInbox + 10 ≤ 4096) then
        .next (modCore s f.target fun k => { k with savedInbox := k.savedInbox ++ [.migrationArrival n] })
      else .next (at_ s s.now (.migrationRefusal n))
    else if f.home then
      let x := f.ctx.origin
      let s := settle (dropFlight s n) f x (slotOf s x).ctx.winBase
      .next (landAt s x f.dest 0)
    else
      match (if k.inbox.isEmpty || k.inbox.head? == some n then freeVisitor s p f.target else none) with
      | some v =>
        let x : CtxId := ⟨f.target, v⟩
        let s := settle (dropInbox (dropFlight s n) f.target n) f x (1920 + 16 * (v - 56))
        .next (arriveAtom s x f)
      | none =>
        if k.inbox.contains n then .next s
        else if k.inbox.length < 32 then
          .next (modCore s f.target fun k => { k with inbox := k.inbox ++ [n] })
        else .next (at_ s s.now (.migrationRefusal n))

/-- A refused context is back in the slot that sent it, with status 5; a refused ATOM is sent as a
request instead. -/
def execMigrationRefusal (n : Nat) (s : State) : Out :=
  match findFlightId s n with
  | none => .next s
  | some f =>
    let x := f.sender
    let base := (slotOf s x).ctx.winBase
    let s := settle (dropFlight s n) f x base
    match f.atom with
    | none => .next (landAt s x f.dest 5)
    | some _ => .next (arriveAtom s x f)

end Sys2Proof.Machine
end

