-- ==== Sys2Proof/Machine/Kernels.lean ====
section
/-! DEFINITION. Kernel descriptors and their states (R196 to R202), queue descriptors (R207), the life of
groups (R218, R219), and what a member of a transaction that fails asks for (R415). -/

namespace Sys2Proof.Machine

open Sys2Proof

/-! ### Words of a partition's memory, by virtual address, as units of the device reach them -/

/-- `n` bytes written at a virtual address of a partition, where it translates. -/
def writeVa (s : State) (p : PartId) (va n v : Nat) : State :=
  match walk s p (BitVec.ofNat 57 va) with
  | .ok _ _ fr _ => writePA s p.pkg (fr * 65536 + va % 65536) n v
  | _ => s

/-! ### Kernel descriptors (R197, R198) -/

def kstate (s : State) (p : PartId) (k : Nat) : Nat := kfield s p k 0 4 % 8
def setKstate (s : State) (p : PartId) (k n : Nat) : State :=
  writeVa s p k 4 (kfield s p k 0 4 / 8 * 8 + n)
def klive (s : State) (p : PartId) (k : Nat) : Nat := kfield s p k 4 4
def setKlive (s : State) (p : PartId) (k n : Nat) : State := writeVa s p (k + 4) 4 n
def kcode (s : State) (p : PartId) (k : Nat) : Nat := kfield s p k 40 8
def knext (s : State) (p : PartId) (k : Nat) : Nat := kfield s p k 88 8

/-- The PC at a line offset and cell of the form that ENTRY and RSTTAB use (R198, R199). -/
def codeAt (s : State) (p : PartId) (k w : Nat) : VA :=
  BitVec.ofNat 57 (kcode s p k + 64 * (w / 8) + w % 8)

/-- Whether a context is recorded under a kernel on a package (R112, R201). -/
def recordedUnder (s : State) (p : PartId) (k : Nat) : Bool :=
  ((heldSlots s p.pkg).any fun t => isLive (effSt t) && t.ctx.part == p.part && t.ctx.kern == k) ||
    s.flights.any fun f => pkgOf f.target == p.pkg && f.ctx.part == p.part && f.ctx.kern == k

/-- A context is recorded under a kernel: one that is ready becomes active. -/
def kernJoined (s : State) (p : PartId) (k : Nat) : State :=
  if k ≠ 0 && kstate s p k == 2 then setKstate s p k 3 else s

/-- A context is no longer recorded under a kernel. -/
def kernLeft (s : State) (p : PartId) (k : Nat) : State :=
  if k = 0 || recordedUnder s p k then s
  else if kstate s p k = 4 then setKstate s p k 5
  else if kstate s p k = 3 && klive s p k == 0 then setKstate s p k 2
  else s

/-- The number of a restart point: the index in RSTTAB of the entry that names a PC (R199). -/
def restartNo (s : State) (p : PartId) (k : Nat) (pc : VA) : Option Nat :=
  firstWhere (fun i => (readVa s p (kfield s p k 80 8 + 4 * i) 4).any fun w => codeAt s p k w == pc)
    (upto (kfield s p k 28 4))

/-- KSWAP has named a successor of a kernel. -/
def superseded (s : State) (p : PartId) (k : Nat) : Bool :=
  (kstate s p k == 4 || kstate s p k == 5) && knext s p k != 0

/-- The kernel that a kernel's code has become: the successors of one that is grafting or retired are followed
(R196, R203). -/
def successorOf (s : State) (p : PartId) : Nat → Nat → Nat
  | 0, k => k
  | n + 1, k => if superseded s p k then successorOf s p n (knext s p k) else k

/-- As many successors as there are descriptors of 64 bytes in the address space. -/
def placedKernel (s : State) (p : PartId) (k : Nat) : Nat := successorOf s p (2 ^ 51) k

/-- The restart point of a superseded kernel at a PC, for a context recorded under that kernel or under one that
came after it: a return, a SPAWN or a rollback may have taken it into the old code (R202). -/
def oldRestart (s : State) (p : PartId) (kern : Nat) (pc : VA) : Option Nat :=
  (kern :: (partOf s p).swapped).findSome? fun k =>
    if k ≠ 0 && superseded s p k && placedKernel s p k == placedKernel s p kern then restartNo s p k pc else none

/-- The switch of R202: the successor of a superseded kernel takes over a context at restart point `i`. -/
def switchKernel (s : State) (x : CtxId) (i : Nat) : State :=
  let p := partId s x
  let old := (ctxOf s x).kern
  let new := placedKernel s p old
  let pc := codeAt s p new ((readVa s p (kfield s p new 80 8 + 4 * i) 4).getD 0)
  let unit := (ctxOf s x).isUnit
  let s := modCtx s x fun c =>
    { c with
      pc := pc
      rstpc := pc
      kern := new
      line := none }
  if new = old then s
  else
  let s := if unit then setKlive (setKlive s p old (klive s p old - 1)) p new (klive s p new + 1) else s
  let s := kernLeft (kernJoined s p new) p old
  freeBanks (loadBank s x.core p.part new) x.core

/-! ### Queue descriptors (R207) -/

def qdVa (s : State) (p : PartId) (q : Nat) : Nat := (partOf s p).qtab.toNat % 2 ^ 57 + 64 * q

/-- The key of a queue descriptor, where the partition has a queue table that translates. -/
def qdKey (s : State) (p : PartId) (q : Nat) : Option Nat :=
  if (partOf s p).qtab = 0 ∨ 256 ≤ q then none else keyOfVa s p (BitVec.ofNat 57 (qdVa s p q))

/-- A field of a queue descriptor: `n` bytes from byte `lo`; 0 where there is none. -/
def qget (s : State) (p : PartId) (q lo n : Nat) : Nat :=
  match qdKey s p q with
  | some k => readN s (k + lo) n
  | none => 0

def qput (s : State) (p : PartId) (q lo n v : Nat) : State :=
  match qdKey s p q with
  | some k => writeN s (k + lo) n v
  | none => s

def qState (s : State) (p : PartId) (q : Nat) : Nat := qget s p q 0 4 % 8
def setQState (s : State) (p : PartId) (q n : Nat) : State := qput s p q 0 4 n
def qErr (s : State) (p : PartId) (q : Nat) : Nat := qget s p q 12 1
def qHead (s : State) (p : PartId) (q : Nat) : Nat := qget s p q 20 4
def qTail (s : State) (p : PartId) (q : Nat) : Nat := qget s p q 24 4
def qLive (s : State) (p : PartId) (q : Nat) : Nat := qget s p q 28 4
def qLogn (s : State) (p : PartId) (q : Nat) : Nat := qget s p q 16 1
def qDie (s : State) (p : PartId) (q : Nat) : Nat := qget s p q 10 1
def qRing (s : State) (p : PartId) (q : Nat) : Nat := qget s p q 32 8
def qPrio (s : State) (p : PartId) (q : Nat) : Nat := qget s p q 8 1 % 4
def qHostFed (s : State) (p : PartId) (q : Nat) : Bool := bitAt (qget s p q 8 1) 7

/-- The slot of a queue's packet `k`. -/
def slotVa (s : State) (p : PartId) (q k : Nat) : Nat := qRing s p q + 64 * (k % 2 ^ qLogn s p q)

/-- The launch in the dispatcher whose packet is a queue's head. -/
def headLaunch (s : State) (p : PartId) (q : Nat) : Option Launch :=
  firstWhere (fun l => l.pkg == p.pkg && l.part == p.part && l.queue == some q) s.launches

/-- A draining queue whose work is done becomes unconfigured (R209). -/
def settleQueue (s : State) (p : PartId) (q : Nat) : State :=
  if qState s p q = 5 && qLive s p q == 0 && (headLaunch s p q).isNone then setQState s p q 0 else s

/-! ### Groups (R218, R219) -/

/-- The launch that still places units of a group. -/
def groupLaunch (s : State) (p : PartId) (gid : Nat) : Option Launch :=
  firstWhere (fun l => l.pkg == p.pkg && l.part == p.part && l.gid == gid) s.launches

/-- Whether a unit, or a context created by one, is live in a group (R112). -/
def groupLive (s : State) (p : PartId) (gid : Nat) : Bool :=
  ((heldSlots s p.pkg).any fun t => isLive (effSt t) && t.ctx.part == p.part && t.ctx.grp == gid) ||
    s.flights.any fun f => pkgOf f.target == p.pkg && f.ctx.part == p.part && f.ctx.grp == gid

/-- Entries that go to nobody: each act is performed with poison and reported (R75). -/
def poisonEntries (s : State) (p : PartId) (x : CtxId) (who : CRef) (obls : List Obl) (veq : Bool) : State :=
  obls.foldl (fun s o =>
    let s := poisonActs s x p who (noOne p.pkg) o.kind o.handle o.count
    if veq then veqPush s p 6 (match o.kind with
      | .bar => 0
      | .fill => 1
      | .feed => 2
      | .gate => 3
      | .done => 4) o.handle (refWord who) 0
    else s) s

/-- Entries held for a steward that is never placed go to nobody. -/
def poisonHeld (s : State) (p : PartId) (held : List HeldObl) : State :=
  held.foldl (fun s h => poisonEntries s p h.from_ h.who [h.obl] true) s

/-- What names the steward of a group that is yet to be placed names `r` from now on: parents that have exited, and
issuers of launches. -/
def resolveVia (s : State) (p : PartId) (gid : Nat) (r : Heir) : State :=
  let heir : Heir → Heir := fun h => if h = .held gid then r else h
  let ctx : Ctx → Ctx := fun c =>
    if c.part = p.part && c.grp = gid && c.parentVia then
      { c with
        parentVia := false
        parent := match r with
          | .ctx q => some q
          | _ => none }
    else c
  { s with
    cores := s.cores.map fun e =>
      if pkgOf e.1 = p.pkg then
        (e.1, { e.2 with slots := e.2.slots.map fun t => (t.1, { t.2 with ctx := ctx t.2.ctx }) })
      else e
    flights := s.flights.map fun f => if pkgOf f.target = p.pkg then { f with ctx := ctx f.ctx } else f
    launches := s.launches.map fun l => if l.pkg = p.pkg && l.part = p.part then { l with issuer := heir l.issuer } else l
    groups := s.groups.map fun g => if g.part = p then { g with issuer := heir g.issuer } else g }

/-- The unplaced units of a group have been counted with poison: if the steward was one of them it is never placed, and
what was held for it is poisoned (R223). -/
def stewardLost (s : State) (p : PartId) (gid : Nat) : State :=
  match groupOf s p gid with
  | none => s
  | some g =>
    if g.stewardCtx.isSome || g.steward = 0xFFFF then s
    else
      let s := poisonHeld (resolveVia s p gid .none) p g.heldObls
      modGroup s p gid fun g =>
        { g with
          stewardGone := true
          heldObls := [] }

/-- A cancel that has reached the group and is not acknowledged. -/
def groupCancelled (s : State) (p : PartId) (gid : Nat) : Bool :=
  s.cancels.any fun c => c.part == p && c.groups.contains gid

/-- The state of a group is brought up to date; a group that has ended frees its identifier and table, and
entries still held for a steward that was never placed are poisoned (R223). -/
def settleGroup (s : State) (p : PartId) (gid : Nat) : State :=
  match groupOf s p gid with
  | none => s
  | some g =>
    if groupCancelled s p gid then s
    else if (groupLaunch s p gid).isSome then s
    else if groupLive s p gid then modGroup s p gid fun g => { g with st := .running }
    else
      let s := poisonHeld s p g.heldObls
      { s with groups := listDel (fun g => g.part == p && g.gid == gid) s.groups }

/-! ### Transactions (R414, R415) -/

def txFind (s : State) (pkg : Nat) (t : TxId) : Option Tx := firstWhere (fun e => e.id == t) (pkgAt s pkg).txs

def modTx (s : State) (pkg : Nat) (t : TxId) (f : Tx → Tx) : State :=
  modPkg s pkg fun k => { k with txs := listMod (fun e => e.id == t) f k.txs }

/-- A package asks for the abort of a transaction, unless it has applied the commit or an abort. -/
def requestAbort (s : State) (pkg : Nat) (t : TxId) (cause code : Nat) : State :=
  match txFind s pkg t with
  | some e =>
    if e.st = .opened && !((pkgAt s pkg).toSend.any fun b => match b with
        | .txAbort u _ _ => u == t
        | _ => false) then sendFrame s pkg (.txAbort t cause code)
    else s
  | none => s

/-- A member exits, is cancelled, or takes MACHINE_CHECK or ROLLBACK. -/
def memberFails (s : State) (x : CtxId) : State :=
  match (ctxOf s x).tx with
  | some t => requestAbort s (pkgOf x.core) t 2 0
  | none => s

/-! ### Snapshots (R409) -/

/-- A snapshot of a context, which resumes at `pc`. -/
def takeSnap (s : State) (x : CtxId) (pc : VA) (tx : Option TxId) : State :=
  let p := partId s x
  modLog s p fun l => { l with snaps := l.snaps ++
    [⟨refOf s x, (partOf s p).interval.toNat, tx, { slotOf s x with ctx := wholeCtx s x }, windowRegs s x, pc⟩] }

/-- The snapshot at a context's creation or first restart point of an interval. -/
def snapshot (s : State) (x : CtxId) (pc : VA) : State :=
  let p := partId s x
  let n := (partOf s p).interval.toNat
  if ckEnabled s p && (ctxOf s x).snapAt != n then
    let s := takeSnap (modCtx s x fun c => { c with snapAt := n }) x pc none
    if (partOf s p).oldLog.isSome then at_ s s.now (.checkpointLogRelease p) else s
  else s

/-! ### The dispatcher looks again (R400) -/

/-- A slot, a window or a stash has been freed on a core. -/
def lookAgain (s : State) (core : Nat) : State :=
  at_ s s.now (.placementReconsider (pkgOf core) (dieOf core))

end Sys2Proof.Machine
end

