-- ==== Sys2Proof/Machine/Contexts.lean ====
section
/-! DEFINITION. EXIT and its completion, YIELD, SPAWN, SPAWNAT, JOIN, NWR and ARM (R105 to R107, R110 to
R115), and what passes to an heir (R75). -/

namespace Sys2Proof.Machine

open Sys2Proof

/-! ### YIELD (R107) -/

/-- The other slots of the core that are issuable now. -/
def othersIssuable (s : State) : List Nat :=
  (upto 64).filter fun i => i != (me s).slot && issuable s ⟨(me s).core, i⟩

def execYield (f : FS) (s : State) : Out :=
  issue f.fields [] (fun s =>
    let y : Yielded :=
      ⟨othersIssuable s, (myCore s).cyc + 2 + f.stall.toNat + bitsOf f.imm.toNat 0 16⟩
    advance (mod s fun c => { c with yielded := some y })) s

/-! ### SPAWN and SPAWNAT (R110 to R112) -/

/-- The spawn descriptor (R110). -/
structure SpawnDesc where
  core : Nat
  sh : Bool
  shr : Nat
  size : Nat
  lo : Nat
  hi : Nat
  token : Nat
  reserved : Bool
  deriving DecidableEq, Repr

def spawnDesc (d : Reg) : SpawnDesc where
  core := bitsOf d.toNat 146 14
  sh := bitAt d.toNat 143
  shr := bitsOf d.toNat 136 7
  size := bitsOf d.toNat 128 8
  lo := bitsOf d.toNat 64 16
  hi := bitsOf d.toNat 80 17
  token := bitsOf d.toNat 0 64
  reserved := bitsOf d.toNat 160 96 != 0 || bitsOf d.toNat 144 2 != 0 || bitsOf d.toNat 97 31 != 0

/-- R66: the interval of a descriptor lies within the creator's and below its `sys.obmin`. -/
def intervalOk (c : Ctx) (lo hi : Nat) : Bool :=
  decide (c.rklo ≤ lo) && decide (lo < hi) && decide (hi ≤ c.rkhi) && decide (hi ≤ obminOf c)

/-- A legal window size (R88). -/
def legalSize (n : Nat) : Bool := 8 ≤ n && n ≤ 128 && n % 8 == 0

/-- What a failure writes to D (R111). -/
def spawnFail (n : Nat) : Reg := nat256 (0xFFFFFFFF * 2 ^ 32 + n)

/-- Status 3 for a target core (R111). A descriptor with SH whose CORE names no core has status 4 (the model's choice:
notes/assumptions/125). -/
def badShape (s : State) (d : SpawnDesc) (core : Nat) : Bool :=
  !legalSize d.size || d.reserved ||
    (d.sh && (core != (me s).core || (myCtx s).winSize < d.shr + d.size || visiting s (me s)))

/-- The window that a spawn takes: inside the creator's, or fresh. -/
def spawnWindow (s : State) (d : SpawnDesc) (core : Nat) : Option Nat :=
  if d.sh then some ((myCtx s).winBase + d.shr) else freeWindow (coreOf s core) d.size

/-- A new context of a partition in a slot that is reserved for it. -/
def createCtx (s : State) (x : CtxId) (c : Ctx) : State :=
  let s := catchCore s x.core
  let s := if c.winShared then s else clearWindow s x.core c.winBase c.winSize
  let s := setSlot s x ⟨.ready, .ready, .ready, (slotOf s x).gen, { c with
    origin := x
    lcore := logicalNo s ⟨pkgOf x.core, c.part⟩ x.core
    lcoreHere := logicalNo s ⟨pkgOf x.core, c.part⟩ x.core
    nextIssue := (coreOf s x.core).cyc + 1
    regionAt := s.sOrder }⟩
  let s := kernJoined (loadBank s x.core c.part c.kern) ⟨pkgOf x.core, c.part⟩ c.kern
  snapshot s x c.pc

/-- The new context's own DONE entry on its token (R71, R111). -/
def tokenEntry (token : W64) (rank : Nat) : Map Obl := [(0, ⟨.done, token, rank, 1, 0⟩)]

/-- What a context created by SPAWN starts with: what R440 gives at creation, the rest from its creator. -/
def spawnedCtx (s : State) (d : SpawnDesc) (entry : VA) (base rank : Nat) : Ctx :=
  let c := wholeCtx s (me s)
  { Ctx.zero with
    part := c.part
    parent := some (refOf s (me s))
    winBase := base
    winSize := d.size
    winShared := d.sh
    pc := entry
    rstpc := entry
    entry := .event
    source := entry
    fpstat := c.fpstat
    pkey := c.pkey
    rklo := d.lo
    rkhi := d.hi
    uvec := c.uvec
    gvec := c.gvec
    hvec := c.hvec
    hdeleg := c.hdeleg
    obls := tokenEntry (BitVec.ofNat 64 d.token) rank
    ownDone := some (BitVec.ofNat 64 d.token)
    xferid := c.xferid
    tstart := c.tstart
    grp := c.grp
    unit := BitVec.allOnes 32
    nunits := c.nunits
    kern := c.kern }

/-- The token is emptied, the context created, and its reference written to D. -/
def spawnAct (d : SpawnDesc) (entry : VA) (arg : Reg) (dst : Opnd) (core slot base : Nat) (tva : VA) (h : Hit)
    (s : State) : State :=
  withSync h false true true tva (fun s =>
    let x : CtxId := ⟨core, slot⟩
    let s := logUndo s (myPart s) (refOf s (me s)) (myCtx s).tx h.pte.disc h.pa
    let creator := refWord (refOf s (me s))
    let s := createCtx s x (spawnedCtx s d entry base h.pte.rank)
    let r := refOf s x
    let s := setFe s h.pa ⟨false, false, .ctx (partId s x) r⟩
    let s := if d.sh then s
      else writeEntry (writeEntry s core base (w64 creator)) core (base + 1) arg
    result dst (w64 (refWord r)) s) s

/-- The statuses 3, 4, 1, 2 and 5 in that order, then the creation. -/
def spawnPlace (d : SpawnDesc) (entry : VA) (arg : Reg) (dst : Opnd) (target : Option Nat) (tva : VA) (h : Hit)
    (s : State) : State :=
  let fail := fun n => result dst (spawnFail n) s
  if badShape s d (target.getD (me s).core) then fail 3
  else
    match target with
    | none => fail 4
    | some core =>
      if core ≠ (me s).core && !reachesCore s (me s) core then dropped (entry.setWidth 64) s
      else if (coreOf s core).suspended then
        let s := throttle .throttled false s
        at_ s (s.now + ns 1000) (.throttleRetry (me s))
      else
        match freeSlot s (myPart s) core with
        | none => fail 1
        | some slot =>
          match spawnWindow s d core with
          | none => fail 2
          | some base =>
            if !(feOf s h.pa).full then fail 5 else spawnAct d entry arg dst core slot base tva h s

def spawnEffect (f : FR) (target : SpawnDesc → State → Option Nat) (s : State) : State :=
  let a := src64i s f.imm20 f.a
  let entry : VA := a.setWidth 57
  let d := spawnDesc (src256 s f.imm20 f.b)
  let arg := w64 (src64i s f.imm20 f.c)
  if badPc entry then withSuccessor (fun nx s => faultAt .badPc a nx s) s
  else if !intervalOk (myCtx s) d.lo d.hi then fault .rankRange 0 s
  else
    let tva : VA := BitVec.ofNat 57 d.token
    access tva (needFe false true) (fun h s =>
      afterRelease false (fun s =>
        spawnPlace d entry arg f.d (target d s) tva h s) s) s

def execSpawn (f : FR) (s : State) : Out :=
  issue f.fields f.srcs (spawnEffect f fun _ s => some (me s).core) s

def execSpawnat (f : FR) (s : State) : Out :=
  issue f.fields f.srcs (spawnEffect f fun d s => logicalCore s (myPart s) d.core) s

/-! ### JOIN (R113) -/

def execJoin (f : FR) (s : State) : Out :=
  issue f.fields f.srcs (tableFree (syncFree fun s =>
    let va : VA := (src64i s f.imm20 f.a).setWidth 57
    access va (needFe true false) (fun h s => readWord false f.d va h.pte.rank h s) s)) s

/-! ### NWR and ARM (R114, R115) -/

/-- The neighbour that a FEED handle names cannot be reached (R97, R114). -/
def badFeed (s : State) (h : W64) : Bool :=
  bitsOf h.toNat 15 49 != 0 ||
    (match neighbour (me s).core (feedDir h) with
     | none => true
     | some n => fusedOff s n || !reachesCore s (me s) n)

/-- The effect `k` once every earlier sync operation of the context, seeds among them, has taken its place in S: a FENCE
that a receiver issues after a deposit then stands behind it (R276; how the order is kept is the model's choice:
notes/assumptions/116). -/
def afterSyncs (k : State → State) (s : State) : State :=
  let o := originOf s (me s)
  if (s.seeds.any fun e => e.ctx == o) || (pkgAt s (pkgOf (me s).core)).toSend.any (fun b => frameWho b == some o) then
    parkBefore .parkedMemory .drain s
  else k s

def execNwr (f : FR) (s : State) : Out :=
  issue f.fields f.srcs (tableFree fun s =>
    let h := src64i s f.imm20 f.b
    if badFeed s h then fault .protectionPart h s
    else afterSyncs (fun s =>
      let s := sendDeposit s (me s).core (myPart s) (refOf s (me s)) h (src256 s f.imm20 f.a) false
      advance (mod s fun c => dischargeObl c .feed h 1)) s) s

def armEffect (f : FR) (s : State) : State :=
  let port := (src64i s f.imm20 f.a).toNat
  if 3 < port || (portRank s (me s) port).isNone then fault .rankRange 0 s
  else
    match f.d with
    | .g n =>
      if inWindow s f.d && !s.cur.pair then parkBefore .parkedMemory (.window (entryOf s (me s) n)) s
      else advance (if (marksOf s f.d).unread then s
        else setMarks s (me s).core (entryOf s (me s) n) fun m =>
          { m with
            present := false
            arm := some port })
    | _ => advance s

def execArm (f : FR) (s : State) : Out := issue f.fields f.srcs (armEffect f) s

/-! ### EXIT (R106) -/

/-- The token word of a DONE handle, as a hit of the context. -/
def tokenHit (s : State) (x : CtxId) (h : W64) : Option Hit :=
  match doneCounter h with
  | some _ => none
  | none =>
    match walk s (partId s x) (h.setWidth 57) with
    | .ok e _ fr _ =>
      let pa := fr * 65536 + h.toNat % 65536
      some ⟨e, pa, spaceOf s (pkgOf x.core) pa⟩
    | _ => none

/-- The context's own DONE entry, while its table still holds it (R75 step 1). -/
def ownEntry (c : Ctx) : Option W64 :=
  match c.ownDone with
  | some h => if (findObl c .done h).isSome then some h else none
  | none => none

/-- The slot is exited; the exit value waits there for the completion. -/
def leave (v : W64) (s : State) : State :=
  let x := me s
  let s := dropYield (modSlot s x fun sl =>
    { sl with
      st := .exited
      ctx := { sl.ctx with
        pc := s.cur.pc0
        ints := []
        reply := some (.value .none (w64 v)) } }) x
  at_ s s.now (.exitCompletion x)

def exitEffect (f : FS) (s : State) : State :=
  let v := src64 s f.a
  if loadsOut s (me s) then parkBefore .parkedMemory .drain s
  else afterRelease false (fun s =>
    match (ownEntry (myCtx s)).bind (tokenHit s (me s)) with
    | some h =>
      match syncRace s (me s) h true with
      | some r => fault .memoryRace (raceInfo s.cur.pc r) (reportRace s (myPart s) r)
      | none => leave v s
    | none => leave v s) s

def execExit (f : FS) (s : State) : Out := issue f.fields [f.a] (tableFree (exitEffect f)) s

/-- The fill or count that EXIT makes for the context's own DONE entry. -/
def exitAct (s : State) (x : CtxId) (v : W64) : State :=
  let c := ctxOf s x
  match ownEntry c with
  | none => s
  | some h =>
    let s := modCtx s x fun c => dischargeObl c .done h 1
    match tokenHit s x h with
    | some hit =>
      let s := syncWord s x hit false true true c.pc (h.setWidth 57)
      let s := logUndo s (partId s x) (refOf s x) c.tx hit.pte.disc hit.pa
      fillWord s hit.pa (some v) false
    | none => actDone (syncObj s x (2 ^ 59 + h.toNat % 2 ^ 32) false true) (partId s x) h none false

/-- The entries of a context pass to its heir. -/
def passToHeir (s : State) (x : CtxId) : State :=
  let p := partId s x
  let obls := (ctxOf s x).obls.map (·.2)
  let who := refOf s x
  if obls.isEmpty then s
  else
    match heirOf s x with
    | .ctx r =>
      let (n, s) := fresh s
      at_ { s with merges := s.merges ++ [⟨n, r, p, x, who, obls⟩] } s.now (.heirMerge n)
    | .held gid => modGroup s p gid fun g => { g with heldObls := g.heldObls ++ obls.map fun o => ⟨who, x, o⟩ }
    | .none => poisonEntries s p x who obls true

/-- Every record of a context that exits as a parent, an issuer or an heir names its heir instead; what is on its way
to it is held where that heir is a steward yet to be placed. -/
def replaceRef (s : State) (p : PartId) (who : CRef) (heir : Heir) : State :=
  let sub : Heir → Heir := fun h => if h = .ctx who then heir else h
  let ctx : Ctx → Ctx := fun c =>
    if c.part = p.part && c.parent = some who then
      match heir with
      | .ctx r => { c with parent := some r }
      | .held _ =>
        { c with
          parent := none
          parentVia := true }
      | .none => { c with parent := none }
    else c
  let held : List MergeMsg := match heir with
    | .held _ => s.merges.filter fun m => m.part == p && m.heir == who
    | _ => []
  let into : Group → List HeldObl := fun g =>
    if heir = .held g.gid then held.flatMap fun m => m.obls.map fun o => ⟨m.who, m.from_, o⟩ else []
  { s with
    cores := s.cores.map fun e =>
      if pkgOf e.1 = p.pkg then
        (e.1, { e.2 with slots := e.2.slots.map fun t => (t.1, { t.2 with ctx := ctx t.2.ctx }) })
      else e
    flights := s.flights.map fun f => if pkgOf f.target = p.pkg then { f with ctx := ctx f.ctx } else f
    launches := s.launches.map fun l => if l.pkg = p.pkg && l.part = p.part then { l with issuer := sub l.issuer } else l
    groups := s.groups.map fun g =>
      if g.part = p then
        { g with
          issuer := sub g.issuer
          heldObls := g.heldObls ++ into g }
      else g
    merges := (s.merges.filter fun m => !held.contains m).map fun m =>
      match heir with
      | .ctx r => if m.part = p && m.heir == who then { m with heir := r } else m
      | _ => m }

/-- The stash of a launch whose last unit leaves a core is unmapped (R155). -/
def releaseStash (s : State) (core part gid : Nat) : State :=
  let k := coreOf s core
  if k.resident != some (launchKey part gid) then s
  else if k.slots.any fun e => e.1 < 56 && e.2.st != .free && e.2.ctx.isUnit && e.2.ctx.part == part &&
      e.2.ctx.grp == gid then s
  else
    let s := (upto 64).foldl (fun s i => unmapEntry s core i) s
    modCore s core fun k => { k with resident := none }

/-- A unit leaves the counts of its kernel, its queue and its group. -/
def uncount (s : State) (p : PartId) (c : Ctx) : State :=
  if !c.isUnit then s
  else
    let s := if c.kern = 0 then s else setKlive s p c.kern (klive s p c.kern - 1)
    match (groupOf s p c.grp).bind (·.queue) with
    | some q => settleQueue (qput s p q 28 4 (qLive s p q - 1)) p q
    | none => s

/-- A slot and, for a visitor, its origin slot become free; what the context held goes. -/
def vacate (s : State) (x : CtxId) : State :=
  let c := ctxOf s x
  let s := leaveResults s x
  let s := freeBanks (freeSlotNow s c.origin) c.origin.core
  if c.origin = x then s else leaveVisit s x

def execExitCompletion (x : CtxId) (s : State) : Out :=
  let c := ctxOf s x
  if (slotOf s x).st ≠ .exited then .next s
  else
    let p := partId s x
    let who := refOf s x
    let v : W64 := match c.reply with
      | some (.value _ v) => v.setWidth 64
      | _ => 0
    let s := passToHeir (exitAct s x v) x
    let heir := heirOf s x
    let s := memberFails (newRegion s x) x
    let s := replaceRef s p who heir
    let s := { s with cancels := s.cancels.map fun (k : CancelRec) => 
      { k with left := if k.part = p && (k.groups.contains c.grp || c.grp == 0) then k.left.erase c.origin else k.left } }
    let s := s.cancels.foldl (fun s (k : CancelRec) => at_ s s.now (.cancelAcknowledge k.id)) s
    let s := if ckEnabled s p then modLog s p fun l => { l with exited := l.exited ++ [who] } else s
    let s := vacate s x
    let s := kernLeft (uncount s p c) p c.kern
    let s := settleGroup (releaseStash s c.origin.core c.part c.grp) p c.grp
    let s := if (partOf s p).oldLog.isSome then at_ s s.now (.checkpointLogRelease p) else s
    .next (lookAgain s c.origin.core)

/-! ### Merging into an heir (R75 steps 2 to 5) -/

/-- The entries that fit are merged; the others are left. -/
def mergeObls (c : Ctx) : List HeldObl → Nat × List HeldObl × Ctx
  | [] => (0, [], c)
  | o :: t =>
    match takeObl c o.obl.kind o.obl.handle o.obl.rank o.obl.count with
    | some c =>
      let (n, rest, c) := mergeObls c t
      (n + 1, rest, c)
    | none =>
      let (n, rest, c) := mergeObls c t
      (n, o :: rest, c)

def orphanInfo (merged poisoned : Nat) : W64 := BitVec.ofNat 64 (merged % 256 + poisoned % 256 * 256)

/-- The record of who owes the fill of an empty word follows the obligation (R177). -/
def moveHolder (s : State) (p : PartId) (from_ to_ : CRef) (k : OblKind) (h : W64) : State :=
  if k = .fill || (k == .done && (doneCounter h).isNone) then
    match keyOfVa s p (h.setWidth 57) with
    | some key =>
      let w := feOf s key
      if !w.full && w.holder == .ctx p from_ then setFe s key { w with holder := .ctx p to_ } else s
    | none => s
  else s

/-- Entries merge into a context, wherever it is, those that do not fit are poisoned, and it takes ORPHAN. -/
def mergeInto (s : State) (p : PartId) (r : CRef) (held : List HeldObl) : State :=
  let c := match findCtx s p r with
    | some x => ctxOf s x
    | none => match findFlight s p r with
      | some f => f.ctx
      | none => Ctx.zero
  let (n, rest, c') := mergeObls c held
  let s := modRef s p r fun _ => c'
  let s := held.foldl (fun s h => moveHolder s p h.who r h.obl.kind h.obl.handle) s
  let s := rest.foldl (fun s h => poisonEntries s p h.from_ h.who [h.obl] false) s
  postEvent s p r ⟨.orphan, orphanInfo n rest.length, none⟩ id

def execHeirMerge (n : Nat) (s : State) : Out :=
  match firstWhere (fun m => m.id == n) s.merges with
  | none => .next s
  | some m =>
    let core := (findCtx s m.part m.heir).map (·.core)
    match core.filter fun c => (coreOf s c).suspended with
    | some c =>
      .next (modCore s c fun k => { k with savedInbox := k.savedInbox ++ [.heirMerge n] })
    | none =>
      let s := { s with merges := listDel (fun q => q.id == n) s.merges }
      if refLive s m.part m.heir then .next (mergeInto s m.part m.heir (m.obls.map fun o => ⟨m.who, m.from_, o⟩))
      else .next (poisonEntries s m.part m.from_ m.who m.obls true)

end Sys2Proof.Machine
end

