-- ==== Sys2Proof/Machine/Barriers.lean ====
section
/-! DEFINITION. BNEW, BJOIN, BARV, BWAIT, BLEAVE and BDEL (R233 to R247), at a home sync unit and as copse
barriers on the order plane (R240), and the reset of a sync unit (R239). -/

namespace Sys2Proof


namespace Machine

/-! ### The steps at the home (R236) -/

/-- GEN after a deletion (R234). -/
def genUp (g : BitVec 32) : BitVec 32 := if g = 0xFFFFFFFE then 0 else g + 1

/-- BNEW on a free entry. -/
def Barrier.create (b : Barrier) (npart rank part : Nat) : Barrier :=
  { Barrier.zero with
    st := 1
    rank := rank
    npart := npart
    gen := b.gen
    part := part }

/-- BJOIN: the status, and the entry. -/
def Barrier.join (b : Barrier) : Nat × Barrier :=
  if b.st = 2 then (1, b) else if b.owed = 65535 then (2, b) else (0, { b with owed := b.owed + 1 })

/-- The arrival word of BARV (R244). -/
def Barrier.word (b : Barrier) : Reg := if b.st = 2 then nat256 (2 ^ 32) else nat256 b.phase.toNat

/-- BLEAVE (R246): `held` says that the context discharges an entry. -/
def Barrier.leave (b : Barrier) (held : Bool) : Nat × Barrier :=
  if b.npart = 0 then (2, b)
  else if b.st = 2 then (1, { b with owed := b.owed - held.toNat })
  else (0, Barrier.check
    { b with
      npart := b.npart - 1
      owed := b.owed - held.toNat })

/-- BDEL (R247). -/
def Barrier.delete (b : Barrier) : Nat × Barrier :=
  if b.owed ≠ 0 then (1, b) else if b.waiters ≠ 0 then (2, b)
  else
    (0, { b with
      st := 0
      gen := genUp b.gen })

/-- What BWAIT finds (R245): a fault, the phase, or a wait. -/
inductive BWaitRes where
  | fault (k : Cause) (info : W64)
  | done
  | wait (phase : BitVec 32)
  deriving DecidableEq, Repr

def Barrier.await (b : Barrier) (obmin : Nat) (phase : Option (BitVec 32)) : BWaitRes :=
  let p := phase.getD b.phase
  if obmin ≤ b.rank then .fault .rankOrder (BitVec.ofNat 64 (obmin * 65536 + b.rank))
  else if b.st = 2 then .fault .barrierBroken 0
  else if b.done p then (if b.poisoned p then .fault .poisoned 0 else .done)
  else .wait p

/-! ### Naming a barrier -/

def barObj (h : W64) : Nat := 2 ^ 60 + h.toNat % 2 ^ 32

/-- An operation on a home barrier takes its place in S where it issues; one on a copse barrier at transmission (R240). -/
def barPoint (h : W64) (rel : Bool) (s : State) : State :=
  if handleCps h then s else syncObj s (me s) (barObj h) false rel

/-- The handle of a home barrier. -/
def barHandle (core entry : Nat) (gen : BitVec 32) : W64 :=
  BitVec.ofNat 64 (gen.toNat * 2 ^ 32 + pkgOf core * 2 ^ 24 + dieOf core * 2 ^ 22 + siteNo core * 2 ^ 12 + entry * 2 ^ 6)

/-- The handle of a copse barrier at a word. -/
def copseHandle (word : Nat) (gen : BitVec 32) : W64 :=
  BitVec.ofNat 64 (gen.toNat * 2 ^ 32 + 2 ^ 31 + word * 8)

/-- The effect `k` on the barrier that a handle names (R233). -/
def withBarrier (h : W64) (k : Barrier → State → State) (s : State) : State :=
  if !handleCps h && !reachesHome s (me s) (handleSite h) then dropped h s
  else match getBarrier s (myPart s).pkg h with
  | none => fault .protectionPart h s
  | some b =>
    if b.part ≠ (myCtx s).part then fault .protectionPart h s
    else k b s

/-- A step at a home barrier: its old state is logged, its new one stored, its waiters woken. -/
def stepBarrier (s : State) (h : W64) (old new : Barrier) : State :=
  let p := myPart s
  wakeBarrier (putBarrier (logBarrier s p (refOf s (me s)) h old) p.pkg h new) p.pkg h

/-- An operation on a copse barrier: a frame, whose application answers the context (R240). -/
def sendBarrier (op : Nat) (h arg : W64) (d : Opnd) (s : State) : State :=
  let x := me s
  let s := markOutside s x
  parkOn .parkedMessage .reply (destOf s d)
    (sendFrame s (pkgOf x.core) (.barrier op h arg (originOf s x) .none))

/-! ### BNEW (R242) -/

/-- The barriers of a partition on a package. -/
def barCount (s : State) (p : PartId) : Nat :=
  (s.sites.filter fun e => pkgOf e.1 == p.pkg).foldl (fun n e =>
    n + (e.2.bars.filter fun b => b.2.st != 0 && b.2.part == p.part).length)
    ((pkgAt s p.pkg).copseBars.filter fun w => (rawBarrier s p.pkg (copseHandle w 0)).part == p.part).length

/-- The lowest free entry of a barrier store. -/
def freeBar (s : State) (site : Nat) : Option Nat :=
  firstWhere (fun i => (Map.get (siteOf s site).bars i Barrier.zero).st == 0) (upto 64)

/-- BNEW at a home site. -/
def bnewHome (npart rank site : Nat) (d : Opnd) (s : State) : State :=
  let p := myPart s
  match (if limitOf s p 4 262144 ≤ barCount s p then none else freeBar s site) with
  | none => result d (spawnFail 1) s
  | some i =>
    let b := Map.get (siteOf s site).bars i Barrier.zero
    let h := barHandle site i b.gen
    let s := syncObj (logBarrier s p (refOf s (me s)) h b) (me s) (barObj h) false false
    result d (w64 h) (putBarrier s p.pkg h (b.create npart rank p.part))

def bnewEffect (f : FR) (s : State) : State :=
  let npart := (src64i s f.imm20 f.a).toNat
  let rank := (src64i s f.imm20 f.b).toNat
  let c := myCtx s
  let bad := npart = 0 || 65535 < npart
  if rank < c.rklo || c.rkhi ≤ rank || 0x10000 ≤ rank then fault .rankRange 0 s
  else if f.c = .z then
    if bad then result f.d (spawnFail 2) s else onChannel (me s).core (bnewHome npart rank (me s).core f.d) s
  else
    let va : VA := (src64i s f.imm20 f.c).setWidth 57
    let copse := (tlbLook s (me s).core c.part va).any fun t => (t.pte : Pte).cps
    if copse && va.toNat % 64 != 0 then fault .alignment (vaInfo va) s
    else access va ⟨if copse then 64 else 1, true, false, false, false, true⟩ (fun h s =>
      match h.space with
      | .copse w =>
        if bad then result f.d (spawnFail 2) s
        else if limitOf s (myPart s) 4 262144 ≤ barCount s (myPart s) then result f.d (spawnFail 1) s
        else
          sendBarrier 0 (copseHandle w 0) (BitVec.ofNat 64 (npart + rank * 2 ^ 16 + c.part * 2 ^ 32)) f.d s
      | .dram site => if bad then result f.d (spawnFail 2) s else bnewHome npart rank site f.d s
      | _ => fault .protection (vaInfo va) s) s

def execBnew (f : FR) (s : State) : Out := issue f.fields f.srcs (syncFree (bnewEffect f)) s

/-! ### BJOIN (R243) -/

def bjoinEffect (f : FR) (s : State) : State :=
  let h := src64i s f.imm20 f.a
  if (takeObl (myCtx s) .bar h 0 1).isNone then fault .oblOverflow 0 s
  else
    withBarrier h (fun b s =>
      let s := barPoint h false s
      let take := fun (s : State) => mod s fun c => (takeObl c .bar h b.rank 1).getD c
      if handleCps h then sendBarrier 1 h 0 f.d (take s)
      else
        let (st, b') := b.join
        let s := stepBarrier s h b b'
        result f.d (nat256 st) (if st = 0 then take s else s)) s

def execBjoin (f : FR) (s : State) : Out := issue f.fields f.srcs (tableFree (syncFree (bjoinEffect f))) s

/-! ### BARV (R244) -/

def barvEffect (f : FR) (s : State) : State :=
  let h := src64i s f.imm20 f.a
  match findObl (myCtx s) .bar h with
  | none => fault .oblMissing h s
  | some _ =>
    afterRelease (handleCps h) (fun s =>
      withBarrier h (fun b s =>
        let s := barPoint h true s
        let s := mod s fun c => dischargeObl c .bar h 1
        if handleCps h then sendBarrier 2 h 0 f.d s
        else
          let v := b.word
          let s := if b.st = 2 then s else modExt s (me s) fun c => { c with lastArr := (h, b.phase) }
          result f.d v (stepBarrier s h b (b.arrive false))) s) s

def execBarv (f : FR) (s : State) : Out := issue f.fields f.srcs (tableFree (barvEffect f)) s

/-! ### BWAIT (R245) -/

/-- The phase that BWAIT names; `none` for the open one. -/
def waitPhase (f : FR) (h : W64) (s : State) : Option (BitVec 32) :=
  if f.b ≠ .z then some ((src64i s f.imm20 f.b).setWidth 32)
  else if (extOf s (me s)).lastArr.1 = h then some (extOf s (me s)).lastArr.2
  else none

/-- The argument of a copse BWAIT's frame: phase, `sys.obmin`, and whether the open phase is meant. -/
def waitArg (phase : Option (BitVec 32)) (obmin : Nat) : W64 :=
  BitVec.ofNat 64 ((phase.getD 0).toNat + obmin * 2 ^ 32 + phase.isNone.toNat * 2 ^ 63)

def bwaitEffect (f : FR) (s : State) : State :=
  let h := src64i s f.imm20 f.a
  withBarrier h (fun b s =>
    let ph := waitPhase f h s
    let om := obminOf (myCtx s)
    if handleCps h then
      match b.await om ph with
      | .fault .rankOrder i => fault .rankOrder i s
      | _ => ranked b.rank (sendBarrier 3 h (waitArg ph om) f.d s)
    else
      match b.await om ph with
      | .fault k i => fault k i s
      | .done => result f.d (nat256 b.phase.toNat) (syncObj s (me s) (barObj h) true false)
      | .wait p =>
        let s := logBarrier s (myPart s) (refOf s (me s)) h b
        let s := putBarrier s (myPart s).pkg h { b with waiters := b.waiters + 1 }
        ranked b.rank (parkOn .parkedSync (.barrier h p) (destOf s f.d) s)) s

def execBwait (f : FR) (s : State) : Out := issue f.fields f.srcs (tableFree (syncFree (bwaitEffect f))) s

/-! ### BLEAVE and BDEL (R246, R247) -/

def bleaveEffect (f : FR) (s : State) : State :=
  let h := src64i s f.imm20 f.a
  afterRelease (handleCps h) (fun s =>
    withBarrier h (fun b s =>
      let held := (findObl (myCtx s) .bar h).isSome
      let s := barPoint h true s
      if handleCps h then sendBarrier 4 h (BitVec.ofNat 64 held.toNat) f.d s
      else
        let (st, b') := b.leave held
        let s := if st = 2 then s else mod s fun c => dischargeObl c .bar h 1
        result f.d (nat256 st) (stepBarrier s h b b')) s) s

def execBleave (f : FR) (s : State) : Out := issue f.fields f.srcs (tableFree (bleaveEffect f)) s

def bdelEffect (f : FR) (s : State) : State :=
  let h := src64i s f.imm20 f.a
  withBarrier h (fun b s =>
    let s := barPoint h false s
    if handleCps h then sendBarrier 5 h 0 f.d s
    else
      let (st, b') := b.delete
      result f.d (nat256 st) (stepBarrier s h b b')) s

def execBdel (f : FR) (s : State) : Out := issue f.fields f.srcs (syncFree (bdelEffect f)) s

/-! ### Frames of a copse barrier, as a package applies them (R240) -/

/-- The context that sent a frame receives a value for D, if it waits for one and this is its package. -/
def answerOrigin (s : State) (pkg : Nat) (o : CtxId) (v : Reg) : State :=
  if pkgOf o.core ≠ pkg then s
  else match atOrigin s o with
    | some x => if (ctxOf s x).wait = .reply then answer s x v else s
    | none => s

def trapOrigin (s : State) (pkg : Nat) (o : CtxId) (k : Cause) (info : W64) : State :=
  if pkgOf o.core ≠ pkg then s
  else match atOrigin s o with
    | some x => if (ctxOf s x).wait = .reply then reply s x (.trap k info) else s
    | none => s

def modOrigin (s : State) (pkg : Nat) (o : CtxId) (f : Ctx → Ctx) : State :=
  if pkgOf o.core ≠ pkg then s
  else match atOrigin s o with
    | some x => modCtx s x f
    | none => s

/-- The last-arrival record of the context that sent an arrival (R244), in its origin slot (R103). -/
def arrivedOrigin (s : State) (pkg : Nat) (o : CtxId) (h : W64) (phase : BitVec 32) : State :=
  if pkgOf o.core ≠ pkg then s
  else match atOrigin s o with
    | some x => modExt s x fun c => { c with lastArr := (h, phase) }
    | none => s

/-- The replica's waiters whose phase is complete are released. -/
def releaseCopse (s : State) (pkg : Nat) (h : W64) : State :=
  let b := rawBarrier s pkg h
  let ended := fun (e : W64 × BitVec 32 × CtxId) => e.1 == h && b.done e.2.1
  let n := ((pkgAt s pkg).barWaits.filter ended).length
  let s := wakeBarrier s pkg h
  let s := modPkg s pkg fun k => { k with barWaits := listDel ended k.barWaits }
  putBarrier s pkg h { b with waiters := b.waiters - n }

/-- The handle of the barrier at a word with the generation the word holds. -/
def bnewCopse (s : State) (pkg : Nat) (h arg : W64) (who : CtxId) : State :=
  let b := rawBarrier s pkg h
  if b.st ≠ 0 then answerOrigin s pkg who (spawnFail 1)
  else
    let w := bitsOf h.toNat 3 16
    let s := putBarrier s pkg h
      (b.create (bitsOf arg.toNat 0 16) (bitsOf arg.toNat 16 16) (bitsOf arg.toNat 32 16))
    let s := modPkg s pkg fun k => { k with copseBars := k.copseBars ++ [w] }
    answerOrigin s pkg who (w64 (copseHandle w b.gen))

/-- A copse BWAIT at a replica. -/
def bwaitCopse (s : State) (pkg : Nat) (h arg : W64) (who : CtxId) (b : Barrier) : State :=
  let ph : Option (BitVec 32) := if arg.getLsbD 63 then none else some (arg.setWidth 32)
  match b.await (bitsOf arg.toNat 32 17) ph with
  | .fault k i => trapOrigin s pkg who k i
  | .done => answerOrigin s pkg who (nat256 b.phase.toNat)
  | .wait p =>
    let s := putBarrier s pkg h { b with waiters := b.waiters + 1 }
    let s := modPkg s pkg fun k => { k with barWaits := k.barWaits ++ [(h, p, who)] }
    if pkgOf who.core ≠ pkg then s
    else match atOrigin s who with
      | some x => modSlot s x fun sl =>
          if sl.ctx.wait = .reply then { sl with st := .parkedSync, ctx := { sl.ctx with wait := .barrier h p } } else sl
      | none => s

/-- A copse barrier operation is applied to the replica of a package. -/
def applyBarrier (s : State) (pkg op : Nat) (h arg : W64) (who : CtxId) : State :=
  if op = 0 then bnewCopse s pkg h arg who
  else
    match getBarrier s pkg h with
    | none =>
      let s := if op = 1 then modOrigin s pkg who fun c => dischargeObl c .bar h 1 else s
      if op = 6 || op == 7 then s else trapOrigin s pkg who .protectionPart h
    | some b =>
      if op = 1 then
        let (st, b') := b.join
        let s := putBarrier s pkg h b'
        let s := if st = 0 then s else modOrigin s pkg who fun c => dischargeObl c .bar h 1
        answerOrigin s pkg who (nat256 st)
      else if op = 2 then
        let s := releaseCopse (putBarrier s pkg h (b.arrive false)) pkg h
        let s := arrivedOrigin s pkg who h b.phase
        answerOrigin s pkg who b.word
      else if op = 3 then bwaitCopse s pkg h arg who b
      else if op = 4 then
        let (st, b') := b.leave (arg != 0)
        let s := releaseCopse (putBarrier s pkg h b') pkg h
        let s := if st = 2 then s else modOrigin s pkg who fun c => dischargeObl c .bar h 1
        answerOrigin s pkg who (nat256 st)
      else if op = 5 then
        let (st, b') := b.delete
        let s := putBarrier s pkg h b'
        let w := bitsOf h.toNat 3 16
        let s := if st = 0 then modPkg s pkg fun k => { k with copseBars := k.copseBars.filter (· != w) } else s
        answerOrigin s pkg who (nat256 st)
      else if op = 6 then releaseCopse (putBarrier s pkg h (b.arrive true)) pkg h
      else
        let mine := fun (e : W64 × BitVec 32 × CtxId) => e.1 == h && e.2.2 == who
        let n := ((pkgAt s pkg).barWaits.filter mine).length
        let s := modPkg s pkg fun k => { k with barWaits := listDel mine k.barWaits }
        putBarrier s pkg h { b with waiters := b.waiters - n }

/-! ### The reset of a sync unit (R239) -/

/-- One barrier of the unit breaks. -/
def breakBarrier (s : State) (site : Nat) (i : Nat) (b : Barrier) : State :=
  if b.st ≠ 1 then s
  else
    let h := barHandle site i b.gen
    let s := (waiters s fun q => match q with
      | .barrier g _ => g == h
      | _ => false).foldl (fun s e => reply s e.1 (.trap .barrierBroken 0)) s
    let b' : Barrier :=
      { Barrier.zero with
        st := 2
        rank := b.rank
        npart := b.npart
        owed := b.owed
        gen := b.gen
        part := b.part }
    let s := modSite s site fun k => { k with bars := Map.put k.bars i b' }
    veqPush s ⟨pkgOf site, b.part⟩ 1 0x26 h 0 0

end Machine
end Sys2Proof
end

