-- ==== Sys2Proof/Machine/Control.lean ====
section
/-! DEFINITION. Branches (R126 to R129), TRAP (R130), SVC, HVC, ERET, WAITI, UIRET, UIMASK (R361 to
R369) and the cell that is no instruction (R27). -/

namespace Sys2Proof.Machine

open Sys2Proof

/-- A branch to `t` when `taken`, with its register effect `k`; BAD_PC and BAD_TARGET leave everything
as it was (R26, R46, R127). A taken branch counts as event `ev` (R435). -/
def branchTo (ev : Nat) (taken : Bool) (t : VA) (k : State → State) (s : State) : State :=
  if taken then
    match checkTarget s (me s) t with
    | .ok => jump t (k (pmCore s (me s).core ev 1))
    | .badPc => faultAt .badPc (vaInfo t) s.cur.pc s
    | .badTarget => faultAt .badTarget (vaInfo t) s.cur.pc s
    | .miss => parkWalk s t false
  else advance (k s)

/-- The register that a branch writes lands at issue + 2 (R127). -/
def linkTo (d : Opnd) (v : Nat) (s : State) : State := openWindow s 2 (destOf s d) (nat256 v)

def branchTarget (f : FB) (s : State) : VA := fbTarget s.cur.pc f.loff f.tcell
def regTarget (f : FB) (s : State) : VA := (src64u s f.a).setWidth 57

def brTaken (f : FB) (s : State) : Bool :=
  if f.min = 0 then true else if f.min = 1 then src64u s f.a != 0 else src64u s f.a == 0

def execBr (f : FB) (s : State) : Out :=
  issue f.fields f.srcs (fun s => branchTo 8 (brTaken f s) (branchTarget f s) id s) s

def execBri (f : FB) (s : State) : Out :=
  issue f.fields f.srcs (fun s => branchTo 0x0A true (regTarget f s) id s) s

def execCall (f : FB) (s : State) : Out :=
  issue f.fields f.srcs (fun s =>
    withSuccessor (fun nx s => branchTo 8 true (branchTarget f s) (linkTo f.d nx.toNat) s) s) s

def execCalli (f : FB) (s : State) : Out :=
  issue f.fields f.srcs (fun s =>
    withSuccessor (fun nx s => branchTo 0x0A true (regTarget f s) (linkTo f.d nx.toNat) s) s) s

def execRet (f : FB) (s : State) : Out :=
  issue f.fields f.srcs (fun s => branchTo 9 true (regTarget f s) id s) s

/-- LOOP's count after the decrement (R127). -/
def loopCount (f : FB) (s : State) : W64 := src64u s f.a - 1

def execLoop (f : FB) (s : State) : Out :=
  issue f.fields f.srcs (fun s =>
    let n := loopCount f s
    branchTo 8 (n != 0) (branchTarget f s) (linkTo f.a n.toNat) s) s

/-- A trap that the instruction itself raises, with `sys.epc` its sequential successor (R130, R363). -/
def raiseAfter (k : Cause) (info : W64) (s : State) : State :=
  holdWindows (fun s => withSuccessor (fun nx s => takeTrap s (me s) k info nx false true) s) s

def execTrap (f : FS) (s : State) : Out :=
  issue f.fields [] (raiseAfter .trap (f.imm.setWidth 64)) s

def execSvc (f : FS) (s : State) : Out :=
  issue f.fields [] (raiseAfter .svc (f.imm.setWidth 64)) s

def execHvc (f : FS) (s : State) : Out :=
  issue f.fields [] (raiseAfter .hvc (f.imm.setWidth 64)) s

/-- The level whose handler ERET returns from: the current privilege (R364); maker code uses the
hypervisor bank. -/
def eretLevel (c : Ctx) : Prv := if c.prv = .guest then .guest else if c.prv = .user then .user else .hyp

def eretEffect (s : State) : State :=
  let c := wholeCtx s (me s)
  let l := eretLevel c
  let b := bankOf c l
  let p := bitsOf b.estat.toNat 0 2
  if prvNo c.prv < p then faultHere .privilege s
  else returnTrap s (me s) l (prvOf p) (b.epc.setWidth 57)

def execEret (f : FS) (s : State) : Out := issueAt .guest f.fields [] eretEffect s

/-- UIRET (R367): the user bank, at any privilege, which it leaves as it is. -/
def uiretEffect (s : State) : State :=
  let c := wholeCtx s (me s)
  if !levelRuns c .user then faultHere .illegalEncoding s
  else returnTrap s (me s) .user c.prv (c.userBank.epc.setWidth 57)

def execUiret (f : FS) (s : State) : Out := issue f.fields [] uiretEffect s

/-- UIMASK (R368). -/
def execUimask (f : FS) (s : State) : Out :=
  issue f.fields [] (fun s =>
    let old := (myCtx s).status.getLsbD stUIM
    let s := openWindow s 2 (destOf s f.d) (nat256 old.toNat)
    advance (setStatus s (me s) stUIM (f.imm.getLsbD 0))) s

/-- Whether a context can take a user-level interrupt (R359). -/
def intsOpen (c : Ctx) : Bool :=
  c.prv == .user && !levelRuns c .user && !levelRuns c .guest && !levelRuns c .hyp &&
    !c.status.getLsbD stUIM

/-- WAITI (R18, R366): it completes at once where an interrupt has been taken since the last one, or
where one is pending that the context cannot take now, whose later delivery is then the one awaited here. -/
def execWaiti (f : FS) (s : State) : Out :=
  issue f.fields [] (fun s =>
    let c := myCtx s
    if c.uintTaken then advance (mod s fun c => { c with uintTaken := false })
    else if c.uintOwed < c.ints.length && !intsOpen c then advance (mod s fun c => { c with uintOwed := c.uintOwed + 1 })
    else parkOn .parkedMessage .waiti .none s) s

/-- A cell that is no instruction: a reserved major, or a MIN that its row does not define (R27, R41,
R42). -/
def execIllegalOpcodeCell (_ : Cell96) (s : State) : Out := .next (faultHere .illegalOpcode s)

end Sys2Proof.Machine
end

