-- ==== Sys2Proof/Machine/Integer.lean ====
section
/-! DEFINITION. The integer register operations NOP to MAD, LI, LIH, CMP and TSTB (R116 to R125). -/

namespace Sys2Proof.Machine

open Sys2Proof

/-- The lanes an instruction writes: all of a scalar type, else those of its mask (R117). -/
def lanesOn (f : FR) (s : State) : W64 :=
  if f.t.isScalar then BitVec.allOnes 64 else maskVal s (me s) f.mask

/-- What an instruction of a lane type reads: its sources, and D where the mask leaves a lane of it standing
(R89, R134, R141). -/
def FR.reads (f : FR) (s : State) : List Opnd :=
  if (upto f.t.lanes).all fun i => (lanesOn f s).getLsbD i then f.srcs else f.d :: f.srcs

/-- A lane as an integer, negated where NEG says so; negation wraps (R32, R117). A mask register as C
gives its bit. -/
def intLane (f : FR) (s : State) (o : Opnd) (neg : Bool) (i : Nat) : Int :=
  match o with
  | .m n => if (maskVal s (me s) n).getLsbD i then 1 else 0
  | _ =>
    let w := f.t.width
    let b := laneBits s f.imm20 f.t.lanes o i w f.sgn
    let v : Int := if f.sgn then signed w b else (b : Int)
    if neg then signed w (wrapNat w (-v)) else v

/-- The range of a lane (R47). -/
def clampInt (w : Nat) (sgn : Bool) (x : Int) : Int :=
  let lo : Int := if sgn then -(2 ^ (w - 1) : Int) else 0
  let hi : Int := if sgn then (2 ^ (w - 1) : Int) - 1 else (2 ^ w : Int) - 1
  if x < lo then lo else if hi < x then hi else x

/-- What an operation computes in a lane: width, signedness, a, b, c to the exact result (R118). -/
abbrev LaneOp := Nat → Bool → Int → Int → Int → Int

/-- One result lane (R117). -/
def intResLane (op : LaneOp) (f : FR) (s : State) (i : Nat) : Nat :=
  let w := f.t.width
  if (lanesOn f s).getLsbD i then
    let x := op w f.sgn (intLane f s f.a f.negA i) (intLane f s f.b f.negB i) (intLane f s f.c f.negC i)
    wrapNat w (if f.sat then clampInt w f.sgn x else x)
  else bitsOf (wideSrc s 1 f.d).toNat (w * i) w

/-- The result register (R117): a scalar result is zero above its width. -/
def intResult (op : LaneOp) (f : FR) (s : State) : Reg :=
  nat256 (packLanes f.t.width ((upto f.t.lanes).map (intResLane op f s)))

/-- An integer register operation of fixed latency `L` (R116 to R118). -/
def intOp (L : Nat) (op : LaneOp) (f : FR) (s : State) : Out :=
  issue f.fields (FR.reads f s) (fun s => advance (openWindow s L (destOf s f.d) (intResult op f s))) s

/-! ### The lane operations (R118, R119) -/

/-- The shift count: a lane of B read unsigned (R119). -/
def shiftCount (w : Nat) (b : Int) : Nat := wrapNat w b

def opShl (w : Nat) (_ : Bool) (a b _ : Int) : Int :=
  let k := shiftCount w b
  if w ≤ k then (if a = 0 then 0 else a * 2 ^ w) else a * 2 ^ k

def opShrl (w : Nat) (_ : Bool) (a b _ : Int) : Int :=
  let k := shiftCount w b
  if w ≤ k then 0 else ((wrapNat w a / 2 ^ k : Nat) : Int)

def opShra (w : Nat) (_ : Bool) (a b _ : Int) : Int :=
  let v := signed w (wrapNat w a)
  v.fdiv (2 ^ Nat.min w (shiftCount w b) : Int)

def opRot (w : Nat) (_ : Bool) (a b _ : Int) : Int :=
  let v := wrapNat w a
  let k := shiftCount w b % w
  ((v * 2 ^ k % 2 ^ w + v / 2 ^ (w - k) : Nat) : Int)

/-- The number of significant bits of a number. -/
def bitLen (v : Nat) : Nat := if v = 0 then 0 else Nat.log2 v + 1

def opClz (w : Nat) (_ : Bool) (a _ _ : Int) : Int := (w : Int) - (bitLen (wrapNat w a) : Int)

/-- The number of ones among the low `n` bits. -/
def onesOf : Nat → Nat → Nat
  | 0, _ => 0
  | n + 1, x => x % 2 + onesOf n (x / 2)

def opPopc (w : Nat) (_ : Bool) (a _ _ : Int) : Int := (onesOf w (wrapNat w a) : Int)

/-- The width of the field at `pos` of length `len` (R119). -/
def fieldLen (w pos len : Nat) : Nat := Nat.min (pos + len) w - pos

def opBfx (w : Nat) (sgn : Bool) (a b _ : Int) : Int :=
  let bb := wrapNat w b
  let pos := bitsOf bb 0 8
  let n := fieldLen w pos (bitsOf bb 8 8)
  if n = 0 then 0
  else
    let v := bitsOf (wrapNat w a) pos n
    if sgn then signed n v else (v : Int)

def opBfi (w : Nat) (_ : Bool) (a b c : Int) : Int :=
  let cc := wrapNat w c
  let pos := bitsOf cc 0 8
  let n := fieldLen w pos (bitsOf cc 8 8)
  let v := wrapNat w b
  if n = 0 then (v : Int)
  else ((v - bitsOf v pos n * 2 ^ pos + wrapNat w a % 2 ^ n * 2 ^ pos : Nat) : Int)

/-- A bitwise operation on lane patterns. -/
def opBits (g : Nat → Nat → Nat) (w : Nat) (_ : Bool) (a b _ : Int) : Int :=
  (g (wrapNat w a) (wrapNat w b) : Int)

/-! ### The instructions -/

/-- NOP (R122). -/
def execNop (_ : FR) (s : State) : Out := .next (advance s)

def execAdd (f : FR) (s : State) : Out := intOp 2 (fun _ _ a b _ => a + b) f s
def execSub (f : FR) (s : State) : Out := intOp 2 (fun _ _ a b _ => a - b) f s
def execMul (f : FR) (s : State) : Out := intOp 4 (fun _ _ a b _ => a * b) f s
def execMulh (f : FR) (s : State) : Out := intOp 4 (fun w _ a b _ => (a * b).fdiv (2 ^ w : Int)) f s
def execMin (f : FR) (s : State) : Out := intOp 2 (fun _ _ a b _ => if a ≤ b then a else b) f s
def execMax (f : FR) (s : State) : Out := intOp 2 (fun _ _ a b _ => if a ≤ b then b else a) f s
def execAnd (f : FR) (s : State) : Out := intOp 2 (opBits fun a b => a &&& b) f s
def execOr (f : FR) (s : State) : Out := intOp 2 (opBits fun a b => a ||| b) f s
def execXor (f : FR) (s : State) : Out := intOp 2 (opBits fun a b => a ^^^ b) f s
def execAndn (f : FR) (s : State) : Out := intOp 2 (opBits fun a b => a - (a &&& b)) f s
def execShl (f : FR) (s : State) : Out := intOp 2 opShl f s
def execShrl (f : FR) (s : State) : Out := intOp 2 opShrl f s
def execShra (f : FR) (s : State) : Out := intOp 2 opShra f s
def execRot (f : FR) (s : State) : Out := intOp 2 opRot f s
def execClz (f : FR) (s : State) : Out := intOp 2 opClz f s
def execPopc (f : FR) (s : State) : Out := intOp 2 opPopc f s
def execBfx (f : FR) (s : State) : Out := intOp 2 opBfx f s
def execBfi (f : FR) (s : State) : Out := intOp 2 opBfi f s
def execSel (f : FR) (s : State) : Out := intOp 2 (fun _ _ a b c => if c ≠ 0 then a else b) f s
def execMov (f : FR) (s : State) : Out := intOp 2 (fun _ _ a _ _ => a) f s
def execAbs (f : FR) (s : State) : Out := intOp 2 (fun _ _ a _ _ => (a.natAbs : Int)) f s
def execMad (f : FR) (s : State) : Out := intOp 4 (fun _ _ a b c => a * b + c) f s

/-- The lowest selected lane whose divisor is zero (R120). -/
def zeroLane (f : FR) (s : State) : Option Nat :=
  firstWhere (fun i => (lanesOn f s).getLsbD i && intLane f s f.b f.negB i == 0) (upto f.t.lanes)

/-- The cycle in which a request to a unit that works on one at a time lands (R120, R139). -/
def unitDue (q : List UnitReq) (now L : Nat) : Nat :=
  q.foldl (fun m r => Nat.max m r.due) now + L

/-- DIV and REM (R120): the divider keeps its requests in issue order. -/
def divOp (op : LaneOp) (f : FR) (s : State) : Out :=
  issue f.fields (FR.reads f s) (fun s =>
    match zeroLane f s with
    | some i => fault .intDivZero (BitVec.ofNat 64 i) s
    | none =>
      let d := destOf s f.d
      let v := intResult op f s
      let s := clearPresence s d
      let L := if f.t = .i64 then 34 else 18
      advance (modCore s (me s).core fun k =>
        { k with divq := k.divq ++ [⟨unitDue k.divq k.cyc L, (me s).slot, d, v⟩] })) s

def execDiv (f : FR) (s : State) : Out := divOp (fun _ _ a b _ => a.tdiv b) f s
def execRem (f : FR) (s : State) : Out := divOp (fun _ _ a b _ => a.tmod b) f s

/-! ### LI and LIH (R123) -/

def liResult (f : FI) : Reg :=
  let v := extend (!f.min.getLsbD 0) f.imm.toNat 32 64
  nat256 (packLanes f.t.width ((upto f.t.lanes).map fun _ => v))

def execLi (f : FI) (s : State) : Out :=
  issue f.fields [] (fun s => advance (openWindow s 2 (destOf s f.d) (liResult f))) s

def execLih (f : FI) (s : State) : Out :=
  issue f.fields [f.d] (fun s =>
    let old := bitsOf (wideSrc s 1 f.d).toNat 0 32
    advance (openWindow s 2 (destOf s f.d) (nat256 (f.imm.toNat * 2 ^ 32 + old)))) s

/-! ### CMP and TSTB (R17, R38, R39, R124) -/

/-- The condition of CMP and TSTB (R17). -/
def intCond (cc : Nat) (a b : Int) : Bool :=
  if cc = 0 then a == b else if cc = 1 then a != b else if cc = 2 then decide (a < b)
  else if cc = 3 then decide (a ≤ b) else if cc = 4 then decide (b < a) else decide (b ≤ a)

/-- The effect of a compare whose condition in lane i is `c i` (R124): a mask, a 0 or 1, or annulment. -/
def compareEffect (f : FR) (c : Nat → Bool) (s : State) : State :=
  if f.vec then
    let n := f.t.lanes
    let on := lanesOn f s
    let old := wideSrc s 1 f.d
    let v := packLanes 1 ((upto n).map fun i =>
      if on.getLsbD i then (c i).toNat else (old.getLsbD i).toNat)
    advance (openWindow s 2 (destOf s f.d) (nat256 v))
  else if f.skip = 0 then advance (openWindow s 2 (destOf s f.d) (nat256 (c 0).toNat))
  else
    let s := advance s
    if c 0 == f.sense then mod s fun x => { x with status := putField x.status stSKN 2 f.skip } else s

def execCmp (f : FR) (s : State) : Out :=
  issue f.fields (FR.reads f s) (fun s =>
    compareEffect f (fun i => intCond (bitsOf f.min.toNat 1 4) (intLane f s f.a f.negA i)
      (intLane f s f.b f.negB i)) s) s

/-- The common bits of two lanes (R124). -/
def commonBits (f : FR) (s : State) (i : Nat) : Int :=
  let w := f.t.width
  let v := wrapNat w (intLane f s f.a f.negA i) &&& wrapNat w (intLane f s f.b f.negB i)
  if f.sgn then signed w v else (v : Int)

def execTstb (f : FR) (s : State) : Out :=
  issue f.fields (FR.reads f s) (fun s =>
    compareEffect f (fun i => intCond (bitsOf f.min.toNat 1 4) (commonBits f s i) 0) s) s

end Sys2Proof.Machine
end

