-- ==== Sys2Proof/Machine/Flags.lean ====
section
/-! DEFINITION. Flags and the faults they raise (R57), the LFSR draws of an instruction (R55), the lane
values of float operands (R29, R131) and the shared shape of every lane operation on floats (R134). -/

namespace Sys2Proof.Machine

open Sys2Proof

/-- The flags whose enable bit is set (R57). -/
def enabledFlags (c : Ctx) (fl : Flags) : Flags := fl &&& BitVec.ofNat 6 (c.fpstat.toNat / 256)

/-- Raised flags stick (R57). -/
def raiseFlags (fl : Flags) (s : State) : State :=
  mod s fun c => { c with fpstat := c.fpstat ||| fl.setWidth 64 }

/-- The effect `k` of an instruction that raises `fl`: an enabled flag faults FP, with D unchanged and
the raised flags set (R57). -/
def withFlags (fl : Flags) (k : State → State) (s : State) : State :=
  if enabledFlags (myCtx s) fl ≠ 0 then fault .fp (fl.setWidth 64) (raiseFlags fl s)
  else k (if fl = 0 then s else raiseFlags fl s)

/-- Lane `i` of a float operand in the format of `t` (R29, R131); a scalar source is an FP32 value
converted to the lane format. -/
def floatLaneAt (t : Ty) (imm20 : BitVec 20) (s : State) (o : Opnd) (i : Nat) : FVal :=
  let f := fmtOf t
  let conv (bits : Nat) : FVal :=
    if t = .f32 || t == .f32x8 then decodeF fp32 bits else decodeF f (laneFromFp32 f (decodeF fp32 bits))
  match o with
  | .k n => conv (kVal s (me s) n).toNat
  | .lit c w => conv (litVal s c w).toNat
  | .i20 => conv (imm20.toNat * 4096)
  | _ => decodeF f (bitsOf (wideSrc s t.lanes o).toNat (f.width * i) f.width)

def floatLane (f : FR) (s : State) (o : Opnd) (neg : Bool) (i : Nat) : FVal :=
  let v := floatLaneAt f.t f.imm20 s o i
  if neg then v.negate else v

/-- A lane's exact result with the flags of an invalid or a pole (R134, R136). -/
abbrev FOp := RM → FVal → FVal → FVal → FVal × Flags

/-- The draw of the `n`-th result element, counted from 1 (R55). -/
def drawOf (x : W32) (n : Nat) : Nat := (lfsrSteps n x).toNat % 2 ^ 24

/-- Rounding with SAT (R134): an overflow or an infinity becomes the largest finite magnitude. -/
def roundSat (f : Fmt) (rm : RM) (sat : Bool) (draw : Nat) (x : FVal) : Rounded :=
  let r := roundF f rm draw x
  if sat && !x.isNan && (r.flags &&& fOF != 0 || r.val.isInf) then ⟨clampF f x.sign, r.flags⟩ else r

/-- The number of selected lanes below `i`: how many draws precede lane `i`. -/
def drawsBefore (on : W64) : Nat → Nat
  | 0 => 0
  | n + 1 => drawsBefore on n + (on.getLsbD n).toNat

/-- The lanes of a float result, each with its encoding and flags; an unselected lane keeps D (R134). -/
def floatLanes (t : Ty) (rm : RM) (sat : Bool) (on : W64) (old : Reg) (lfsr : W32)
    (x : Nat → FVal × Flags) : List (Nat × Flags) :=
  let f := fmtOf t
  (upto t.lanes).map fun i =>
    if on.getLsbD i then
      let (v, fl) := x i
      let r := roundSat f rm sat (drawOf lfsr (drawsBefore on i + 1)) v
      (encodeF f r.val, fl ||| r.flags)
    else (bitsOf old.toNat (f.width * i) f.width, 0)

def orFlags (l : List (Nat × Flags)) : Flags := l.foldl (fun a e => a ||| e.2) 0

/-- The LFSR after an instruction that produced `n` elements under `rm` (R55). -/
def stepLfsr (rm : RM) (n : Nat) (s : State) : State :=
  if rm = .rs then modCore s (me s).core fun k => { k with lfsr := lfsrSteps n k.lfsr } else s

/-- A float register operation of latency `L` (R134, R135). -/
def floatOp (L : Nat) (op : FOp) (f : FR) (s : State) : Out :=
  issue f.fields (FR.reads f s) (fun s =>
    let on := lanesOn f s
    let l := floatLanes f.t f.rm f.sat on (wideSrc s 1 f.d) (myCore s).lfsr fun i =>
      op f.rm (floatLane f s f.a f.negA i) (floatLane f s f.b f.negB i) (floatLane f s f.c f.negC i)
    withFlags (orFlags l) (fun s =>
      stepLfsr f.rm (drawsBefore on f.t.lanes)
        (advance (openWindow s L (destOf s f.d)
          (nat256 (packLanes (fmtOf f.t).width (l.map (·.1))))))) s) s

end Sys2Proof.Machine
end

