-- ==== Sys2Proof/Machine/Lanes.lean ====
section
/-! DEFINITION. The lane and mask instructions SHUF to MMOV (R140 to R143). -/

namespace Sys2Proof.Machine

open Sys2Proof

/-- Lane `i` of a register as bits. -/
def rawLane (t : Ty) (r : Reg) (i : Nat) : Nat := bitsOf r.toNat (t.width * i) t.width

/-- A lane result written under the mask, unselected lanes keeping D (R141). -/
def maskedLanes (f : FR) (s : State) (v : Nat → Nat) : Reg :=
  let on := maskVal s (me s) f.mask
  let old := wideSrc s 1 f.d
  nat256 (packLanes f.t.width ((upto f.t.lanes).map fun i =>
    if on.getLsbD i then v i else rawLane f.t old i))

/-- A lane index taken from a scalar (R141). -/
def laneIndex (f : FR) (s : State) (o : Opnd) : Nat := (src64L f s o).toNat % f.t.lanes

def laneOp (rs : List Opnd) (f : FR) (v : State → Reg) (s : State) : Out :=
  issue f.fields rs (fun s => advance (openWindow s 3 (destOf s f.d) (v s))) s

def execShuf (f : FR) (s : State) : Out :=
  laneOp (FR.reads f s) f (fun s =>
    let a := wideSrc s 1 f.a
    let b := wideSrc s 1 f.b
    maskedLanes f s fun i =>
      let ix := rawLane f.t b i
      if 2 ^ (f.t.width - 1) ≤ ix then 0 else rawLane f.t a (ix % f.t.lanes)) s

def execBcst (f : FR) (s : State) : Out :=
  laneOp (FR.reads f s) f (fun s => maskedLanes f s fun _ => rawLane f.t (wideSrc s 1 f.a) (laneIndex f s f.b)) s

/-! ### REDL (R142) -/

/-- The identity of an integer reduction, as an exact value (R142). -/
def redIdent (op w : Nat) (sgn : Bool) : Int :=
  if op = 1 then (if sgn then (2 ^ (w - 1) : Int) - 1 else (2 ^ w : Int) - 1)
  else if op = 2 then (if sgn then -(2 ^ (w - 1) : Int) else 0)
  else if op = 3 then (if sgn then -1 else (2 ^ w : Int) - 1)
  else 0

/-- One step of an integer reduction; the bitwise operations act on patterns of width `w`. -/
def redStep (op w : Nat) (sgn : Bool) (a b : Int) : Int :=
  let bits (g : Nat → Nat → Nat) : Int :=
    let v := g (wrapNat w a) (wrapNat w b)
    if sgn then signed w v else (v : Int)
  if op = 0 then a + b
  else if op = 1 then (if a ≤ b then a else b)
  else if op = 2 then (if a ≤ b then b else a)
  else if op = 3 then bits (· &&& ·)
  else if op = 4 then bits (· ||| ·)
  else bits (· ^^^ ·)

/-- The selected lanes in ascending order. -/
def chosen (f : FR) (s : State) : List Nat := (upto f.t.lanes).filter (maskVal s (me s) f.mask).getLsbD

/-- The lane of a register read as an integer. -/
def laneInt (t : Ty) (sgn : Bool) (r : Reg) (i : Nat) : Int :=
  if sgn then signed t.width (rawLane t r i) else (rawLane t r i : Int)

def redInt (f : FR) (s : State) : Reg :=
  let op := bitsOf f.min.toNat 1 4
  let w := f.t.width
  let a := wideSrc s 1 f.a
  nat256 (wrapNat 64 ((chosen f s).foldl (fun acc i => redStep op w f.sgn acc (laneInt f.t f.sgn a i))
    (redIdent op w f.sgn)))

/-- A float reduction (R142): the value, whether it is rounded, and the flags. -/
def redFloat (f : FR) (s : State) : FVal × Flags :=
  let op := bitsOf f.min.toNat 1 4
  let a := wideSrc s 1 f.a
  let vs := (chosen f s).map fun i => decodeF (fmtOf f.t) (rawLane f.t a i)
  if op = 0 then
    let both := vs.any (· == .inf true) && vs.any (· == .inf false)
    if both then (.nan, fNV)
    else match vs with
      | [] => (.zero false, 0)
      | v :: t => (t.foldl (fun acc v => (addF f.rm acc v).1) v, 0)
  else match vs with
    | [] => (.inf (op == 2), 0)
    | v :: t => t.foldl (fun acc v => let r := minmaxF (op == 2) acc.1 v; (r.1, acc.2 ||| r.2)) (v, 0)

def execRedl (f : FR) (s : State) : Out :=
  issue f.fields f.srcs (fun s =>
    if f.t.isFloat then
      let (x, fl) := redFloat f s
      let r := roundF fp32 f.rm (drawOf (myCore s).lfsr 1) x
      withFlags (fl ||| r.flags) (fun s =>
        stepLfsr f.rm 1 (advance (openWindow s 3 (destOf s f.d) (nat256 (encodeF fp32 r.val))))) s
    else advance (openWindow s 3 (destOf s f.d) (redInt f s))) s

/-- EXTL (R142): an integer lane extended to 64 bits, a float lane converted to FP32. -/
def execExtl (f : FR) (s : State) : Out :=
  laneOp f.srcs f (fun s =>
    let b := rawLane f.t (wideSrc s 1 f.a) (laneIndex f s f.b)
    if f.t.isFloat then nat256 (encodeF fp32 (roundF fp32 .rn 0 (decodeF (fmtOf f.t) b)).val)
    else nat256 (extend f.sgn b f.t.width 64)) s

/-- The value that INSL puts into a lane (R142). -/
def inslValue (f : FR) (s : State) : Nat :=
  if f.t.isFloat then
    let bits := match f.a with
      | .i20 => f.imm20.toNat * 4096
      | .k n => (kVal s (me s) n).toNat
      | .lit c w => (litVal s c w).toNat
      | o => (wideSrc s f.t.lanes o).toNat % 2 ^ 32
    laneFromFp32 (fmtOf f.t) (decodeF fp32 bits)
  else (src64L f s f.a).toNat % 2 ^ f.t.width

def execInsl (f : FR) (s : State) : Out :=
  laneOp (f.d :: f.srcs) f (fun s =>
    let ix := laneIndex f s f.b
    let old := wideSrc s 1 f.d
    nat256 (packLanes f.t.width ((upto f.t.lanes).map fun i =>
      if i = ix then inslValue f s else rawLane f.t old i))) s

/-! ### Mask registers (R143) -/

def mask64 (s : State) (o : Opnd) : W64 := (wideSrc s 1 o).setWidth 64

def mlogResult (mn : Nat) (a b : W64) : W64 :=
  if mn = 0 then a &&& b else if mn = 1 then a ||| b else if mn = 2 then a ^^^ b
  else if mn = 3 then a &&& ~~~b else ~~~a

def execMlog (f : FR) (s : State) : Out :=
  laneOp f.srcs f (fun s => w64 (mlogResult f.min.toNat (mask64 s f.a) (mask64 s f.b))) s

def mpopResult (mn n v : Nat) : Nat :=
  if mn = 0 then onesOf n v
  else if v % 2 ^ n = 0 then n
  else if mn = 1 then (firstWhere (bitAt v) (upto n)).getD n
  else bitLen (v % 2 ^ n) - 1

def execMpop (f : FR) (s : State) : Out :=
  laneOp f.srcs f (fun s => nat256 (mpopResult f.min.toNat f.t.lanes (mask64 s f.a).toNat)) s

def execMmov (f : FR) (s : State) : Out :=
  laneOp f.srcs f (fun s =>
    if f.min = 0 then w64 (src64i s f.imm20 f.a) else w64 (mask64 s f.a)) s

end Sys2Proof.Machine
end

