-- ==== Sys2Proof/Machine/Convert.lean ====
section
/-! DEFINITION. The conversions CVT to SCLX and the RANGE trap (R56, R144 to R151). -/

namespace Sys2Proof.Machine

open Sys2Proof

/-- The type with a code (R40). -/
def tyOf (n : Nat) : Option Ty :=
  match n with
  | 0 => some .i64 | 1 => some .i32 | 2 => some .i32x8 | 3 => some .i16x16 | 4 => some .i8x32
  | 5 => some .i4x64 | 6 => some .f32 | 7 => some .f32x8 | 8 => some .f16x16 | 9 => some .bf16x16
  | 10 => some .f8ex32 | 11 => some .f8wx32 | 12 => some .o4
  | _ => none

/-- The source type of a conversion (R144). -/
def srcTy (f : FR) : Ty := (tyOf (bitsOf f.min.toNat 0 4)).getD .i64

/-- STRICT, DU and SU (R144). -/
def strictOf (f : FR) : Bool := f.flg.getLsbD 2
def duOf (f : FR) : Bool := f.flg.getLsbD 1
def suOf (f : FR) : Bool := f.flg.getLsbD 0

/-- What `convert` answers (R56): an encoding with flags, or RANGE. -/
inductive Conv where
  | ok (bits : Nat) (fl : Flags)
  | range
  deriving DecidableEq, Repr

/-- `convert` (R56). -/
def convertTo (td : Ty) (du : Bool) (rm : RM) (sat : Bool) (draw : Nat) (x : FVal) : Conv :=
  if td.isInt then
    let w := td.width
    let hi : Int := if du then (2 ^ w : Int) - 1 else (2 ^ (w - 1) : Int) - 1
    let lo : Int := if du then 0 else -(2 ^ (w - 1) : Int)
    match x with
    | .nan => if sat then .ok 0 fNV else .range
    | .inf n => if sat then .ok (wrapNat w (if n then lo else hi)) (fOF ||| fNX) else .range
    | .fin n m e st =>
      let (v, inexact) := roundI rm draw n m e st
      if v < lo ∨ hi < v then
        if sat then .ok (wrapNat w (if v < lo then lo else hi)) (fOF ||| fNX) else .range
      else .ok (wrapNat w v) (flagIf inexact fNX)
  else
    let f := fmtOf td
    match x with
    | .nan => .ok f.canon 0
    | .inf n =>
      if f.hasInf then .ok (encodeF f (.inf n)) 0
      else if sat then .ok (encodeF f (clampF f n)) (fOF ||| fNX) else .range
    | .fin n m e st =>
      let r := roundF f rm draw (.fin n m e st)
      if r.flags &&& fOF ≠ 0 then
        if sat then .ok (encodeF f (clampF f n)) (fOF ||| fNX) else .range
      else .ok (encodeF f r.val) r.flags

/-- Lane `i` of a conversion's source as an exact value: an integer lane is exact, a scalar source is
read by R15 and R29. -/
def convSrc (f : FR) (ts : Ty) (s : State) (o : Opnd) (neg : Bool) (i : Nat) : FVal :=
  if ts.isFloat then
    let v := floatLaneAt ts f.imm20 s o i
    if neg then v.negate else v
  else
    let w := ts.width
    let b := laneBits s f.imm20 ts.lanes o i w (!suOf f)
    let v : Int := if suOf f then (b : Int) else signed w b
    intF (if neg then signed w (wrapNat w (-v)) else v)

/-- The lanes of CVT and PACK: each selected lane converted, the others kept (R145, R146). -/
def convLanes (f : FR) (on : W64) (old : Reg) (lfsr : W32) (x : Nat → FVal) : List (Option (Nat × Flags)) :=
  (upto f.t.lanes).map fun i =>
    if on.getLsbD i then
      match convertTo f.t (duOf f) f.rm f.sat (drawOf lfsr (drawsBefore on i + 1)) (x i) with
      | .ok b fl => some (b, fl)
      | .range => none
    else some (rawLane f.t old i, 0)

/-- The first lane that raises RANGE (R151). -/
def firstNone {α : Type} : List (Option α) → Nat → Option Nat
  | [], _ => none
  | none :: _, i => some i
  | some _ :: t, i => firstNone t (i + 1)

def convOp (L : Nat) (x : State → Nat → FVal) (f : FR) (s : State) : Out :=
  issue f.fields (FR.reads f s) (fun s =>
    let on := lanesOn f s
    let l := convLanes f on (wideSrc s 1 f.d) (myCore s).lfsr (x s)
    match firstNone l 0 with
    | some i => fault .range (BitVec.ofNat 64 i) s
    | none =>
      let l := l.map fun e => e.getD (0, 0)
      withFlags (orFlags l) (fun s =>
        stepLfsr f.rm (drawsBefore on f.t.lanes)
          (advance (openWindow s L (destOf s f.d) (nat256 (packLanes f.t.width (l.map (·.1))))))) s) s

def execCvt (f : FR) (s : State) : Out :=
  convOp 4 (fun s i => convSrc f (srcTy f) s f.a f.negA i) f s

def execPack (f : FR) (s : State) : Out :=
  convOp 4 (fun s i =>
    let n := (srcTy f).lanes
    if i < n then convSrc f (srcTy f) s f.a f.negA i else convSrc f (srcTy f) s f.b f.negB (i - n)) f s

/-- One lane of UNPK (R147): exact, an integer destination taken modulo its width. -/
def unpkLane (f : FR) (a : Reg) (j : Nat) : Nat :=
  let ts := srcTy f
  if f.t.isInt then wrapNat f.t.width (laneInt ts (!suOf f) a j)
  else
    let x := if ts.isFloat then decodeF (fmtOf ts) (rawLane ts a j) else intF (laneInt ts (!suOf f) a j)
    encodeF (fmtOf f.t) (roundF (fmtOf f.t) .rn 0 x).val

def execUnpk (f : FR) (s : State) : Out :=
  issue f.fields (FR.reads f s) (fun s =>
    let h := (src64L f s f.b).toNat % 2
    let a := wideSrc s 1 f.a
    advance (openWindow s 4 (destOf s f.d) (nat256 (packLanes f.t.width ((upto f.t.lanes).map fun i =>
      unpkLane f a (h * f.t.lanes + i)))))) s

/-! ### O4 blocks: QNT, DQNT, SCLX -/

/-- The 32 elements of QNT and SCLX (R148): 16 from A and 16 from B, or all from A. -/
def blockElems (f : FR) (s : State) : List FVal :=
  let ts := srcTy f
  let el (o : Opnd) : List FVal :=
    (upto ts.lanes).map fun i => decodeF (fmtOf ts) (rawLane ts (wideSrc s 1 o) i)
  if ts.lanes = 16 then el f.a ++ el f.b else el f.a

/-- One element of a block under quantization: the value, its quotient and the rounded quotient. -/
structure QEl where
  x : FVal
  q : FVal
  n : Int
  deriving DecidableEq, Repr

/-- The magnitude order of quotients: whether |a| > |b|. -/
def magGt (a b : FVal) : Bool :=
  let abs : FVal → FVal := fun v => match v with
    | .fin _ m e st => .fin false m e st
    | .inf _ => .inf false
    | .nan => .nan
  cmpF (abs a) (abs b) == .gt

/-- The candidate of pair `j` (R148): an element whose |n| exceeds 7, the larger quotient, the even
element on a tie. -/
def pairCand (els : List QEl) (j : Nat) : Option (Nat × FVal) :=
  match els[2 * j]?, els[2 * j + 1]? with
  | some e, some o =>
    let ce := decide (7 < e.n.natAbs)
    let co := decide (7 < o.n.natAbs)
    if ce && (!co || !magGt o.q e.q) then some (2 * j, e.q)
    else if co then some (2 * j + 1, o.q)
    else none
  | _, _ => none

def candsOf (els : List QEl) : List (Nat × FVal) := (upto 16).filterMap (pairCand els)

/-- The largest of a list of candidates, the lower index on a tie. -/
def largest : List (Nat × FVal) → Option (Nat × FVal)
  | [] => none
  | c :: t => match largest t with
    | none => some c
    | some d => if magGt d.2 c.2 then some d else some c

/-- The live outliers in element order: the two candidates of largest |q| (R148). -/
def liveOf (els : List QEl) : List Nat :=
  let cs := candsOf els
  match largest cs with
  | none => []
  | some a =>
    match largest (cs.filter (·.1 != a.1)) with
    | none => [a.1]
    | some b => if a.1 < b.1 then [a.1, b.1] else [b.1, a.1]

def partner (i : Nat) : Nat := if i % 2 = 0 then i + 1 else i - 1

/-- The F8E byte of a live outlier, or none where it overflows (R148). -/
def outByte (rm : RM) (sat : Bool) (q : FVal) : Option Nat :=
  let r := roundF f8e (if rm = .rs then .rn else rm) 0 q
  if r.flags &&& fOF ≠ 0 || q.isInf then
    if sat then some (encodeF f8e (clampF f8e q.sign)) else none
  else some (encodeF f8e r.val)

def codeNib (n : Int) : Nat := wrapNat 4 (if n < -7 then -7 else if 7 < n then 7 else n)

/-- The block of QNT with the flag nx, or the index that RANGE reports (R148). -/
def qntBlock (xs : List FVal) (scale : Nat) (rm : RM) (sat strict : Bool) (draw : Nat → Nat) :
    Except Nat (Nat × Flags) :=
  if scale = 255 || xs.any FVal.isNan then .ok (o4NaN, 0)
  else
    let els : List QEl := (xs.zip (upto 32)).map fun p =>
      let q : FVal := match p.1 with
        | .inf n => if sat then .fin n 448 0 false else .inf n
        | v => scaleF (127 - (scale : Int)) v
      match q with
      | .fin n m e st => ⟨p.1, q, (roundI rm (draw (p.2 + 1)) n m e st).1⟩
      | v => ⟨p.1, v, if v.sign then -448 else 448⟩
    let live := liveOf els
    let qAt (i : Nat) : FVal := (els[i]?.map (·.q)).getD (.zero false)
    let nAt (i : Nat) : Int := (els[i]?.map (·.n)).getD 0
    let lost (i : Nat) : Bool :=
      (match xs[i]? with
        | some (.inf _) => !sat
        | _ => false) ||
      (live.contains i && (outByte rm sat (qAt i)).isNone) ||
      (strict && !sat && ((candsOf els).any (·.1 == i) && !live.contains i)) ||
      (strict && !sat && (decide (7 < (nAt i).natAbs) && !live.contains i)) ||
      (strict && !sat && live.contains (partner i) && nAt i != 0)
    match firstWhere lost (upto 32) with
    | some i => .error i
    | none =>
      let nib (i : Nat) : Nat :=
        if live.contains i then 8
        else if live.contains (partner i) then ((outByte rm sat (qAt (partner i))).getD 0) % 16
        else codeNib (nAt i)
      let ohi := packLanes 4 (live.map fun i => (outByte rm sat (qAt i)).getD 0 / 16)
      let blk := packLanes 4 ((upto 32).map nib) + scale * 2 ^ 128 + ohi * 2 ^ 136
      let same := ((o4Decode blk).zip xs).all fun p => cmpF p.1 p.2 == .eq
      .ok (blk, flagIf (!same) fNX)

def execQnt (f : FR) (s : State) : Out :=
  issue f.fields (FR.reads f s) (fun s =>
    let scale := (src64L f s f.c).toNat % 256
    match qntBlock (blockElems f s) scale f.rm f.sat (strictOf f) (drawOf (myCore s).lfsr) with
    | .error i => fault .range (BitVec.ofNat 64 i) s
    | .ok (blk, fl) =>
      withFlags fl (fun s =>
        stepLfsr f.rm 32 (advance (openWindow s 6 (destOf s f.d) (nat256 blk)))) s) s

/-- DQNT (R149). -/
def execDqnt (f : FR) (s : State) : Out :=
  issue f.fields (FR.reads f s) (fun s =>
    let blk := (wideSrc s 1 f.a).toNat % 2 ^ 144
    let n := f.t.lanes
    let g := (src64L f s f.b).toNat % (32 / n)
    let vs := o4Decode blk
    let on := lanesOn f s
    let l := floatLanes f.t f.rm f.sat on (wideSrc s 1 f.d) (myCore s).lfsr fun i =>
      ((vs[g * n + i]?).getD .nan, 0)
    withFlags (orFlags l ||| flagIf (o4Bad blk) fBAD) (fun s =>
      stepLfsr f.rm (drawsBefore on n) (advance (openWindow s 6 (destOf s f.d)
        (nat256 (packLanes f.t.width (l.map (·.1))))))) s) s

/-- Whether |v| ≤ c × 2^(e − 127). -/
def fitsScale (v : FVal) (c e : Nat) : Bool :=
  cmpF (match v with
    | .fin _ m x st => .fin false m x st
    | w => w) (.fin false c ((e : Int) - 127) false) != .gt

/-- Insertion of a magnitude in falling order. -/
def insertMag (v : FVal) : List FVal → List FVal
  | [] => [v]
  | w :: t => if magGt w v then w :: insertMag v t else v :: w :: t

/-- The scale byte of SCLX, or the element that RANGE reports (R150). -/
def sclxByte (xs : List FVal) (k : Nat) (sat : Bool) : Except Nat Nat :=
  if xs.any FVal.isNan then .ok 255
  else match firstWhere (fun i => ((xs[i]?).getD .nan).isInf) (upto xs.length) with
    | some i => if sat then .ok 254 else .error i
    | none =>
      let sorted := xs.foldr insertMag []
      let m := (sorted[k]?).getD (.zero false)
      let top := (sorted[0]?).getD (.zero false)
      match firstWhere (fun e => fitsScale m 7 e && fitsScale top 448 e) (upto 255) with
      | some e => .ok e
      | none =>
        if sat then .ok 254
        else .error ((firstWhere (fun i => !fitsScale ((xs[i]?).getD .nan) 448 254) (upto xs.length)).getD 0)

def execSclx (f : FR) (s : State) : Out :=
  issue f.fields (FR.reads f s) (fun s =>
    let k := Nat.min (src64L f s f.c).toNat 2
    match sclxByte (blockElems f s) k f.sat with
    | .error i => fault .range (BitVec.ofNat 64 i) s
    | .ok e => advance (openWindow s 6 (destOf s f.d) (nat256 e))) s

end Sys2Proof.Machine
end

