-- ==== Sys2Proof/Machine/Matrix.lean ====
section
/-! DEFINITION. Tensor identifiers (R324, R325, R342), the sums of the matrix array (R58, R59, R327), its
format pairs (R328), the checksums of a drain (R330) and a drain's conversions (R339). -/

namespace Sys2Proof.Machine

open Sys2Proof

/-! ### TID entries (R324) -/

def tBase (t : Reg) : Nat := bitsOf t.toNat 0 64
def tFmt (t : Reg) : Nat := bitsOf t.toNat 64 8
def tV (t : Reg) : Bool := t.getLsbD 72
def tUns (t : Reg) : Bool := t.getLsbD 73
def tRows (t : Reg) : Nat := bitsOf t.toNat 80 20
def tCols (t : Reg) : Nat := bitsOf t.toNat 100 20
def tStride (t : Reg) : Nat := bitsOf t.toNat 128 32
def tScale (t : Reg) : Nat := bitsOf t.toNat 192 64

/-- The bits of an element; 0 for a block format or a code that is no format of a tensor. -/
def fmtBits (f : Nat) : Nat :=
  if f = 1 ∨ f = 6 then 32 else if f = 8 ∨ f = 9 then 16 else if f = 4 ∨ f = 10 ∨ f = 11 then 8
  else if f = 5 then 4 else 0

/-- The bytes of `n` elements from the start of a row (R325). -/
def spanBytes (f n : Nat) : Nat := if f = 12 then n / 32 * 18 else (n * fmtBits f + 7) / 8

def rowBytes (t : Reg) : Nat := spanBytes (tFmt t) (tCols t)

/-- What TIDW refuses in a valid entry (R342). -/
def tidBad (t : Reg) : Bool :=
  let f := tFmt t
  bitsOf t.toNat 74 6 != 0 || bitsOf t.toNat 120 8 != 0 || bitsOf t.toNat 160 32 != 0 ||
    !([1, 4, 5, 6, 8, 9, 10, 11, 12].contains f) || tRows t == 0 || tCols t == 0 ||
    (f == 12 && (tCols t % 32 != 0 || tScale t != 0)) || (f == 5 && tCols t % 2 != 0) ||
    tBase t % 64 != 0 || tStride t % 64 != 0 || decide (tStride t < rowBytes t)

def tidOf (k : Core) (n : Nat) : Reg := Map.get k.tids n 0

/-- Whether the `n` bytes at a source address lie within one row of a tensor (R316). -/
def inTensor (t : Reg) (va n : Nat) : Bool :=
  if va < tBase t then false
  else
    let d := va - tBase t
    let r := if tStride t = 0 then 0 else d / tStride t
    let inRow := fun r : Nat => decide (r < tRows t) && decide (tStride t * r ≤ d) &&
      decide (d + n ≤ tStride t * r + rowBytes t)
    inRow r

/-! ### Tiles (R325, R336) -/

def posRow (pos : W64) : Nat := bitsOf pos.toNat 0 16
def posCol (pos : W64) : Nat := bitsOf pos.toNat 16 16
def posK (pos : W64) : Nat := bitsOf pos.toNat 32 16
def posLen (pos : W64) : Nat := bitsOf pos.toNat 48 16
def posBad (pos : W64) : Bool :=
  posK pos % 32 != 0 || posLen pos % 32 != 0 || posLen pos == 0 || decide (4096 < posLen pos)

/-- The bytes that a tile of 32 rows from `row` and `n` columns from `col` names, scales included: the
parts that lie inside the tensor, as address and length. -/
def tileRanges (t : Reg) (row col n : Nat) : List (Nat × Nat) :=
  let hi := Nat.min (tCols t) (col + n)
  if hi ≤ col then []
  else
    ((upto 32).filter fun i => decide (row + i < tRows t)).flatMap fun i =>
      let a := spanBytes (tFmt t) col
      let b := spanBytes (tFmt t) hi
      let data := (tBase t + (row + i) * tStride t + a, b - a)
      if tScale t = 0 then [data]
      else [data, (tScale t + (row + i) * ((tCols t + 31) / 32) + col / 32, (hi + 31) / 32 - col / 32)]

/-- The footprint of an operand: from its first tile row to the end of its last (R321). -/
def tileFoot (t : Reg) (row : Nat) : Option (Nat × Nat) :=
  let last := Nat.min (tRows t) (row + 32)
  if last ≤ row then none
  else some (tBase t + row * tStride t, (last - 1 - row) * tStride t + rowBytes t)

/-! ### Elements (R325, R58, R59) -/

/-- An element of an operand: an integer code, which its block's scale multiplies, or a value. -/
inductive KEl where
  | code (c : Int)
  | val (v : FVal)
  deriving DecidableEq, Repr

/-- Thirty-two elements of a row along k, and the scale of their codes. -/
structure KRow where
  els : List KEl
  scale : FVal
  deriving DecidableEq, Repr

def KRow.zero : KRow := ⟨List.replicate 32 (.code 0), intF 1⟩

/-- The value of an element. -/
def KEl.value (sc : FVal) : KEl → FVal
  | .code c => (mulF (intF c) sc).1
  | .val v => v

/-- The lane format of a float type code. -/
def fmtNo (f : Nat) : Fmt := if f = 8 then f16 else if f = 9 then bf16 else if f = 10 then f8e else if f = 11 then f8w else fp32

/-- The 32 elements of row `r` from column `c` of a tensor, whose bytes `rd` reads; `scaled` is false
where scales are ignored (R327, R328). -/
def kRow (t : Reg) (rd : Nat → Nat → Nat) (scaled : Bool) (r c : Nat) : KRow :=
  let f := tFmt t
  if tRows t ≤ r ∨ tCols t ≤ c then KRow.zero
  else
    let base := tBase t + r * tStride t
    if f = 12 then
      let blk := rd (base + c / 32 * 18) 18
      ⟨(o4Elems blk).map fun e => match e with
        | .code n => .code n
        | .out b => .val (mulF (decodeF f8e b) (e8m0 (o4Scale blk))).1, e8m0 (o4Scale blk)⟩
    else
      let n := Nat.min 32 (tCols t - c)
      let w := fmtBits f
      let x := rd (base + c * w / 8) ((n * w + 7) / 8)
      let sc := if scaled && tScale t != 0 then
          e8m0 (rd (tScale t + r * ((tCols t + 31) / 32) + c / 32) 1)
        else intF 1
      ⟨(upto 32).map fun i =>
        if n ≤ i then .code 0
        else
          let b := bitsOf x (w * i) w
          if f = 4 ∨ f = 5 then .code (if tUns t then (b : Int) else signed w b)
          else .val (mulF (decodeF (fmtNo f) b) sc).1, sc⟩

/-! ### Sums (R58) -/

/-- floor(log2 |p|) of a nonzero product. -/
def topOf (m : Nat) (e : Int) : Int := e + (Nat.log2 m : Int)

/-- `align_sticky` (R58): a product in units of 2^(e − 48). -/
def alignSticky (neg : Bool) (m : Nat) (pe e : Int) : Int :=
  let sh := pe - (e - 47)
  let k := shiftInt m sh
  let s := if 0 ≤ sh then 0 else if m % 2 ^ (-sh).toNat = 0 then 0 else 1
  let v : Int := ((2 * k + s : Nat) : Int)
  if neg then -v else v

/-- FP32, rounded to nearest. -/
def toFp32 (v : FVal) : FVal := (roundF fp32 .rn 0 v).val

/-- One group's terms added to an FP32 accumulator (R58). -/
def accumulate (acc : W32) (terms : List FVal) : W32 :=
  let a := decodeF fp32 acc.toNat
  let nan : W32 := BitVec.ofNat 32 fp32.canon
  let neg := terms.any (· == .inf true)
  let pos := terms.any (· == .inf false)
  if terms.any FVal.isNan || (neg && pos) then nan
  else if a.isNan then acc
  else if a.isInf then
    if (neg || pos) && a.sign != neg then nan else acc
  else if neg || pos then BitVec.ofNat 32 (encodeF fp32 (.inf neg))
  else
    let fins := terms.filterMap fun v => match v with
      | .fin n m e _ => if m = 0 then none else some (n, m, e)
      | _ => none
    match fins with
    | [] => acc
    | f :: rest =>
      let top := rest.foldl (fun x g => if x < topOf g.2.1 g.2.2 then topOf g.2.1 g.2.2 else x) (topOf f.2.1 f.2.2)
      let sum := fins.foldl (fun x g => x + alignSticky g.1 g.2.1 g.2.2 top) (0 : Int)
      let p := toFp32 (.fin (decide (sum < 0)) sum.natAbs (top - 48) false)
      BitVec.ofNat 32 (encodeF fp32 (toFp32 (addF .rn a p).1))

/-- The terms of one element's group (R58, R59): the products at which an element is a value, and the
integer dot product of the codes as one term. -/
def groupTerms (a b : KRow) : List FVal :=
  let ps := a.els.zip b.els
  let fl := ps.filterMap fun p => match p with
    | (.code _, .code _) => none
    | (x, y) => some (mulF (x.value a.scale) (y.value b.scale)).1
  let ints := ps.filterMap fun p => match p with
    | (.code x, .code y) => some (x * y)
    | _ => none
  let sc := (mulF a.scale b.scale).1
  let one := (mulF (intF (ints.foldl (· + ·) 0)) sc).1
  if sc.isNan then [.nan] else if ints.isEmpty then fl else one :: fl

/-- The exact integer dot product of the codes, for an I32 accumulator. -/
def codeOf : KEl → Int
  | .code c => c
  | .val _ => 0

def codeDot (a b : List Int) : Int := (a.zip b).foldl (fun s p => s + p.1 * p.2) 0

/-- The exact sum of rows, element by element (R327). -/
def sumRow (rows : List KRow) : List FVal :=
  (upto 32).map fun k => rows.foldl
    (fun s r => (addF .rn s ((r.els.getD k (.code 0)).value r.scale)).1) (FVal.zero false)

/-- The exact dot product of a row with a sum row. -/
def dotSum (a : KRow) (b : List FVal) : FVal :=
  ((a.els.map fun e => e.value a.scale).zip b).foldl
    (fun s p => (addF .rn s (mulF p.1 p.2).1).1) (FVal.zero false)

def addI32 (a : W32) (x : Int) : W32 := a + BitVec.ofInt 32 x

/-- An accumulator after one group of 32 k (R327). -/
def accGroup (c : Acc) (a b : List KRow) : Acc :=
  let ra := fun i => a.getD i KRow.zero
  let rb := fun j => b.getD j KRow.zero
  match c.ty with
  | .fp32 =>
    let sa := sumRow a
    let sb := sumRow b
    { c with
      e := (upto 1024).map fun n => (n, accumulate (Map.get c.e n 0) (groupTerms (ra (n / 32)) (rb (n % 32))))
      k := (upto 32).map fun i => (i, accumulate (Map.get c.k i 0) [dotSum (ra i) sb])
      l := (upto 32).map fun j => (j, accumulate (Map.get c.l j 0) [dotSum (rb j) sa]) }
  | .i32 =>
    let ca := a.map fun r => r.els.map codeOf
    let cb := b.map fun r => r.els.map codeOf
    let tot := fun (m : List (List Int)) => (upto 32).map fun k => m.foldl (fun s r => s + r.getD k 0) (0 : Int)
    { c with
      e := (upto 1024).map fun n =>
        (n, addI32 (Map.get c.e n 0) (codeDot (ca.getD (n / 32) []) (cb.getD (n % 32) [])))
      k := (upto 32).map fun i => (i, addI32 (Map.get c.k i 0) (codeDot (ca.getD i []) (tot cb)))
      l := (upto 32).map fun j => (j, addI32 (Map.get c.l j 0) (codeDot (cb.getD j []) (tot ca))) }

/-- The whole product: kLen / 32 groups in ascending k order. -/
def product (c : Acc) (ta tb : Reg) (rd : Nat → Nat → Nat) (pos : W64) : Acc :=
  let scaled := c.ty == .fp32
  (upto (posLen pos / 32)).foldl (fun c g =>
    let k := posK pos + 32 * g
    accGroup c ((upto 32).map fun i => kRow ta rd scaled (32 * posRow pos + i) k)
      ((upto 32).map fun j => kRow tb rd scaled (32 * posCol pos + j) k)) c

/-! ### Format pairs (R328) -/

/-- Whether MMA accepts a pair with an accumulator type. -/
def formatsOk (a b : Nat) (ty : AccTy) : Bool :=
  let fl := (a == 8 && b == 8) || (a == 9 && b == 9) ||
    ((a == 10 || a == 11) && (b == 10 || b == 11)) || (a == 12 && b == 12)
  let int := (a == 4 && b == 4) || (a == 5 && b == 5)
  int || (fl && ty == .fp32)

/-- The cycles of an MMA. -/
def mmaCycles (a len : Nat) : Nat :=
  if a = 8 ∨ a = 9 then 2 * len else if a = 5 ∨ a = 12 then len / 2 else len

/-! ### Checksums (R330) -/

/-- An FP32 number in units of 2^−149; `none` for a NaN or an infinity. -/
def units (x : W32) : Option Int :=
  match decodeF fp32 x.toNat with
  | .fin n m e _ => some (atExp n m e (-149))
  | _ => none

/-- A number in units of 2^−149 rounded to FP32. -/
def ofUnits (x : Int) : W32 := BitVec.ofNat 32 (encodeF fp32 (toFp32 (.fin (decide (x < 0)) x.natAbs (-149) false)))

def intSum (l : List Int) : Int := l.foldl (· + ·) 0

/-- Whether the elements `es` of a row or column disagree with its checksum entry. -/
def lineBad (ty : AccTy) (tol : Nat) (es : List W32) (chk : W32) : Bool :=
  match ty with
  | .i32 => intSum (es.map fun e => (e.toNat : Int)) % 2 ^ 32 != (chk.toNat : Int)
  | .fp32 =>
    match (es.map units).foldr (fun u t => u.bind fun u => t.map (u :: ·)) (some []), units chk with
    | some us, some c =>
      let mag := us.foldl (fun s u => s + u.natAbs) c.natAbs
      decide (mag < (intSum us - c).natAbs * 2 ^ tol)
    | _, _ => false

def accRow (c : Acc) (i : Nat) : List W32 := (upto 32).map fun j => Map.get c.e (32 * i + j) 0
def accCol (c : Acc) (j : Nat) : List W32 := (upto 32).map fun i => Map.get c.e (32 * i + j) 0

/-- The checksum value minus the given elements, rounded once; or with no value the sum of the elements. -/
def restOf (ty : AccTy) (chk : W32) (es : List W32) : W32 :=
  match ty with
  | .i32 => es.foldl (· - ·) chk
  | .fp32 => ofUnits ((units chk).getD 0 - intSum (es.map fun e => (units e).getD 0))

def sumOf (ty : AccTy) (es : List W32) : W32 :=
  match ty with
  | .i32 => es.foldl (· + ·) 0
  | .fp32 => ofUnits (intSum (es.map fun e => (units e).getD 0))

/-- What a drain's check finds and does (R330): the accumulator, and whether it was corrected; or the
mismatching rows and columns. -/
inductive Checked where
  | ok (c : Acc) (corrected : Bool)
  | bad (rows cols : BitVec 32)
  deriving DecidableEq, Repr

def bitsSet (l : List Nat) : BitVec 32 := l.foldl (fun m i => m ||| BitVec.ofNat 32 (2 ^ i)) 0

def checkAcc (c : Acc) (tol : Nat) : Checked :=
  let rows := (upto 32).filter fun i => lineBad c.ty tol (accRow c i) (Map.get c.k i 0)
  let cols := (upto 32).filter fun j => lineBad c.ty tol (accCol c j) (Map.get c.l j 0)
  match rows, cols with
  | [], [] => .ok c false
  | [r], [j] =>
    let others := ((upto 32).filter (· != j)).map fun i => Map.get c.e (32 * r + i) 0
    .ok { c with e := Map.put c.e (32 * r + j) (restOf c.ty (Map.get c.k r 0) others) } true
  | [r], [] => .ok { c with k := Map.put c.k r (sumOf c.ty (accRow c r)) } true
  | [], [j] => .ok { c with l := Map.put c.l j (sumOf c.ty (accCol c j)) } true
  | _, _ => .bad (bitsSet rows) (bitsSet cols)

/-! ### A drain's values (R339) -/

/-- Whether MDRN can drain an accumulator into a format. -/
def drainOk (ty : AccTy) (f : Nat) : Bool :=
  match ty with
  | .fp32 => f == 6 || f == 8 || f == 9 || f == 10 || f == 11
  | .i32 => f == 1 || f == 4

/-- `cvt` (R339). -/
def drainVal (ty : AccTy) (t : Reg) (x : W32) : Nat :=
  match ty with
  | .fp32 => laneFromFp32 (fmtNo (tFmt t)) (decodeF fp32 x.toNat)
  | .i32 =>
    if tFmt t = 1 then x.toNat
    else
      let lo : Int := if tUns t then 0 else -128
      let hi : Int := if tUns t then 255 else 127
      let v := signed 32 x.toNat
      wrapNat 8 (if v < lo then lo else if hi < v then hi else v)

/-- The writes of a drain, 32 bytes at most each: address, length and value. -/
def drainWrites (c : Acc) (t : Reg) (pos : W64) : List (Nat × Nat × BitVec 256) :=
  let w := fmtBits (tFmt t)
  let per := 256 / w
  let col := 32 * posCol pos
  let n := Nat.min 32 (tCols t - col)
  ((upto 32).filter fun i => decide (32 * posRow pos + i < tRows t)).flatMap fun i =>
    ((upto (32 / per)).filter fun q => decide (q * per < n)).map fun q =>
      let m := Nat.min per (n - q * per)
      let vs := (upto m).map fun j => drainVal c.ty t (Map.get c.e (32 * i + q * per + j) 0)
      (tBase t + (32 * posRow pos + i) * tStride t + (col + q * per) * w / 8, m * w / 8,
        BitVec.ofNat 256 (packLanes w vs))

end Sys2Proof.Machine
end

