-- ==== Sys2Proof/Machine/Pages.lean ====
section
/-! DEFINITION. TLBI, PGSNAP and PGRET (R263 to R267), the walk of a miss (R251, R254, R255) and the copy of
a copy-on-write frame (R259, R260). -/

namespace Sys2Proof.Machine

open Sys2Proof

/-! ### Walks (R255) -/

/-- Contexts of a core that wait for a translation or a copy look again. -/
def wakeMemory (s : State) (core : Nat) (p : WaitOn → Bool) : State := wakeOperands (catchCore s core) core 0 p

/-- The cores of a die on which a context waits for the walk of a page. -/
def walkWaiters (s : State) (die part vpn : Nat) : List Nat :=
  (s.cores.filter fun e => dieKey e.1 == die && e.2.slots.any fun t =>
    isParked t.2.st && t.2.ctx.wait == .walk part vpn).map (·.1)

/-- They look again. -/
def wakeWalk (s : State) (die part vpn : Nat) : State :=
  (walkWaiters s die part vpn).foldl (fun s c => wakeMemory s c (· == .walk part vpn)) s

/-- Contexts that wait for a channel that is in service look again (R455). -/
def wakeChannels (s : State) : State :=
  let serves : WaitOn → Bool := fun w => match w with
    | .channel c => !(siteOf s c).gated
    | _ => false
  let cores := (s.cores.filter fun e => e.2.slots.any fun t => isParked t.2.st && serves t.2.ctx.wait).map (·.1)
  cores.foldl (fun s c => wakeMemory s c serves) s

/-- A walker is free: it takes up the walk that has waited longest. -/
def endWalk (s : State) (die : Nat) (r : WalkReq) : State :=
  let s := modDie s die fun d => { d with walks := d.walks.erase r }
  match (dieAt s die).walkq with
  | [] => s
  | q :: t => beginWalk (modDie s die fun d => { d with walkq := t }) die q

/-- A walk ends: its marks are set, and the die and the cores that wait for it hold its translation. A frame under
move holds the walk (R266). A miss that no walker and no queue has taken is offered again (R255). -/
def execPageWalk (core : Nat) (p : PartId) (va : VA) (write : Bool) (s : State) : Out :=
  let die := dieKey core
  let vpn := va.toNat / 65536
  match firstWhere (fun (r : WalkReq) => r.part == p.part && r.va.toNat / 65536 == vpn) (dieAt s die).walks with
  | none => .next (wakeWalk s die p.part vpn)
  | some r =>
    match walkHeld s p va with
    | .moving => .next (at_ s (s.now + ns 1000) (.pageWalk core p va write))
    | .fault _ => .next (wakeWalk (endWalk s die r) die p.part vpn)
    | .ok e _ fr pa =>
      let (e', s) := setAccDty (walkTouch (pmDie s core p.part 0x21) core p va) p.pkg pa e write
      let t := tlbEntryOf s p va e' fr pa
      let s := (core :: walkWaiters s die p.part vpn).foldl (fun s c => tlbFill s c t) s
      .next (wakeWalk (endWalk s die r) die p.part vpn)

/-! ### Frames (R259, R266) -/

/-- A key moved from one 64 KiB frame to another. -/
def rekey (old new k : Nat) : Nat := if k / 65536 = old then new * 65536 + k % 65536 else k

/-- Copies of a frame go home. -/
def recallFrame (s : State) (fr : Nat) : State :=
  let s := (s.dir.filter fun e => e.1 / 2048 == fr).foldl (fun s e => recallSector s e.1) s
  (upto 1024).foldl (fun s i => cleanLine s (fr * 1024 + i)) s

/-- The 64 KiB of a frame, with its full/empty, poison and lost marks, copied to another frame; a line that reads with
an error is in error there too. -/
def copyFrame (s : State) (old new : Nat) : State :=
  let s := recallFrame (recallFrame s old) new
  let cells := s.mem.filter fun c => c.1 / 65536 == old
  let kept := s.mem.filter fun c => c.1 / 65536 != new
  let fe := s.fe.filter fun e => e.1 / 8192 == old
  let lost := s.lost.filter fun e => e.1 / 2048 == old
  let bad := s.bad.filter fun e => e.1 / 1024 == old
  { s with
    mem := cells.foldl (fun m c => memPut m (new * 65536 + c.1 % 65536) c.2) kept
    fe := fe.foldl (fun m e => Map.put m (new * 8192 + e.1 % 8192) e.2) (s.fe.filter fun e => e.1 / 8192 != new)
    lost := lost.foldl (fun m e => Map.put m (new * 2048 + e.1 % 2048) e.2)
      (s.lost.filter fun e => e.1 / 2048 != new)
    bad := bad.foldl (fun m e => Map.put m (new * 1024 + e.1 % 1024) e.2) (s.bad.filter fun e => e.1 / 1024 != new) }

/-- The copy that a write through a copy-on-write leaf asks for: made while the pool has a frame (R259, R260). The
unit at `core` reads and writes the pool as any translation of a write does (R254). -/
def cowNow (s : State) (core : Nat) (p : PartId) (va : VA) : State :=
  match walk s p va, poolCount s p with
  | .ok e _ fr pa, some n =>
    if !e.cow || !e.wr || n = 0 then s
    else
      match walkMark s core p ((partOf s p).cowpool.setWidth 57) true, poolPA s p n with
      | (.ok _ _ pf _, s), some ga =>
        let gfn := bitsOf (readPA s p.pkg ga 8) 0 36
        match frameFor s p false gfn with
        | .ok new =>
          let s := writePA s p.pkg (pf * 65536 + (partOf s p).cowpool.toNat % 65536) 4 (n - 1)
          let s := copyFrame s fr new
          let e' := putBit (putBit (putField e 16 36 gfn) 5 false) 10 true
          tlbDrop (writePA s p.pkg pa 8 e'.toNat) p.pkg fun t => t.entry == pa
        | _ => s
      | (_, s), _ => s
  | _, _ => s

/-- The copy is complete and the parked writers look again. -/
def execCowCopy (p : PartId) (va : VA) (s : State) : Out :=
  let s := cowNow s (p.pkg * 4096) p va
  let cores := (s.cores.filter fun e => pkgOf e.1 == p.pkg).map (·.1)
  .next (cores.foldl (fun s c => wakeMemory s c fun w => match w with
    | .copy _ => true
    | _ => false) s)

/-! ### Accesses that dropped entries were used for (R264 to R266) -/

/-- Whether a part of a load that is not bound lies in memory that `f` selects. -/
def loadOn (s : State) (pkg : Nat) (f : State → CtxId → Unbound → Bool) : Bool :=
  s.cores.any fun e => pkgOf e.1 == pkg && e.2.vpend.any fun v => v.load.any fun u =>
    !u.parts.isEmpty && f s ⟨e.1, v.slot⟩ u

/-- The accesses and walks of a partition on a package that were numbered before `upTo` are over (R264). -/
def accessesOver (s : State) (p : PartId) (upTo : Nat) : Bool :=
  !(s.stores.any fun q => q.part == p && !q.performed && decide (q.id < upTo)) &&
    !(s.seeds.any fun q => q.part == p && decide (q.id < upTo)) &&
    !(s.flights.any fun q => q.atom.isSome && q.ctx.part == p.part && pkgOf q.target == p.pkg && decide (q.id < upTo)) &&
    !loadOn s p.pkg (fun s x u => (ctxOf s x).part == p.part && decide (u.seq < upTo)) &&
    !(s.dies.any fun e => e.1 / 4 == p.pkg && (e.2.walks ++ e.2.walkq).any fun r =>
      r.part == p.part && decide (r.id < upTo)) &&
    !(s.cores.any fun e => pkgOf e.1 == p.pkg && e.2.jobs.any fun j =>
      j.part == p.part && !j.pages.isEmpty && decide (j.id < upTo))

/-- No access to a frame is under way. -/
def frameIdle (s : State) (fr : Nat) : Bool :=
  !(s.stores.any fun q => !q.performed && q.key / 65536 == fr) &&
    !(s.seeds.any fun q => q.key / 65536 == fr) &&
    !(s.flights.any fun q => q.atom.any fun a => a.pa / 65536 == fr) &&
    !(s.cores.any fun e => e.2.vpend.any fun v => v.load.any fun u => u.parts.any fun q => q.key / 65536 == fr)

/-- No store or seed to a frame is under way. -/
def writesOver (s : State) (fr : Nat) : Bool :=
  !(s.stores.any fun q => !q.performed && q.key / 65536 == fr) && !(s.seeds.any fun q => q.key / 65536 == fr) &&
    !(s.flights.any fun q => q.atom.any fun a => a.pa / 65536 == fr)

/-- A context that waits for such accesses goes on once they are over. -/
def settleWait (s : State) (x : CtxId) : State :=
  let sl := slotOf s x
  if !isParked sl.st then s
  else
    match sl.ctx.wait with
    | .frame fr => if writesOver s fr then wake (catchCore s x.core) x 0 else s
    | .tlbi part n =>
      if sl.ctx.reply.isNone && accessesOver s ⟨pkgOf x.core, part⟩ n then reply s x (.value .none 0) else s
    | _ => s

/-! ### TLBI (R264) -/

/-- The context goes on when every walk under way and every access that used a dropped entry is over. -/
def tlbiDone (p : PartId) (s : State) : State :=
  if accessesOver s p s.ids then advance s else parkOn .parkedMemory (.tlbi p.part s.ids) .none s

def execTlbiPage (f : FS) (s : State) : Out :=
  issueAt .guest f.fields f.srcs (afterDrain fun s =>
    let p := myPart s
    let vpn := (src64 s f.a).toNat % 2 ^ 57 / 65536
    tlbiDone p (tlbDrop s p.pkg fun t => t.ofPage p.part vpn)) s

def execTlbiAll (f : FS) (s : State) : Out :=
  issueAt .guest f.fields f.srcs (afterDrain fun s =>
    let p := myPart s
    tlbiDone p (tlbDrop s p.pkg fun t => t.part == p.part)) s

def execTlbiPart (f : FS) (s : State) : Out :=
  issueAt .hyp f.fields f.srcs (afterDrain fun s =>
    let p : PartId := ⟨(myPart s).pkg, bitsOf (src64 s f.a).toNat 0 16⟩
    tlbiDone p (tlbDrop s p.pkg fun t => t.part == p.part)) s

/-! ### PGSNAP (R265) -/

/-- What the walk to a level-3 slot finds. -/
inductive SlotRes where
  | slot (entryPA : Nat) (e : Pte)
  | big
  | missing (fmap : Bool)
  | moving
  deriving DecidableEq, Repr

def slotFrom (s : State) (p : PartId) (va : Nat) : Nat → Nat → Nat → SlotRes
  | 0, _, _ => .missing false
  | fuel + 1, lvl, t =>
    let ga := t + 8 * walkIx va lvl
    match frameOf s p (ga / 65536) with
    | .bad => .missing true
    | .moving _ => .moving
    | .ok fr =>
      let pa := fr * 65536 + ga % 65536
      let e : Pte := BitVec.ofNat 64 (readPA s p.pkg pa 8)
      if lvl = 3 then .slot pa e
      else if !e.v then .missing false
      else if e.isPtr then
        if badPointer lvl e then .missing false else slotFrom s p va fuel (lvl + 1) (e.pfn * 65536)
      else if lvl = 2 then .big
      else .missing false

/-- The level-3 slot of an address. -/
def slotWalk (s : State) (p : PartId) (va : Nat) : SlotRes := slotFrom s p va 4 0 (rootOfTables s p)

/-- Whether a slot's entry is a valid leaf of 64 KiB. -/
def leafOk (e : Pte) : Bool := e.v && !e.isPtr && !(e.wr && !e.rd)

def snapStatus (n i : Nat) : W64 := BitVec.ofNat 64 (n * 2 ^ 56 + i)

/-- The pages one after another, from the i-th: what D receives. -/
def snapPages (s : State) (x : CtxId) (a b n : Nat) : Nat → Nat → W64 × State
  | 0, _ => (BitVec.ofNat 64 n, s)
  | fuel + 1, i =>
    let p := partId s x
    let sva := (a + i * 65536) % 2 ^ 57
    let dva := (b + i * 65536) % 2 ^ 57
    match slotWalk s p sva with
    | .slot spa e =>
      if !leafOk e then (snapStatus 1 i, s)
      else
        match slotWalk s p dva with
        | .slot dpa t =>
          if t.v then (snapStatus 2 i, s)
          else if e.fe || e.cps then (snapStatus 3 i, s)
          else
            let src : Pte := putBit e 5 true
            let dst : Pte := putBit (putBit src 9 false) 10 false
            let w := fun (s : State) pa (v : Pte) =>
              ctxWrite s p (refOf s x) (ctxOf s x).tx false (memKey p.pkg pa) 8 v.toNat
            let s := w (w s spa src) dpa dst
            let s := tlbDrop s p.pkg fun q => q.entry == spa
            snapPages s x a b n fuel (i + 1)
        | _ => (snapStatus 2 i, s)
    | _ => (snapStatus 1 i, s)

/-- What keeps PGSNAP from its steps: a walk of either range that ends above level 3, a frame under move, or accesses to
a source frame through an entry that its step will drop. -/
inductive SnapStop where
  | missing (va : VA) (fmap : Bool)
  | moving (va : VA)
  | writes (frame : Nat)
  deriving DecidableEq, Repr

/-- The first of these that the steps from page `i` meet, in their order, up to the page that ends them (R265). -/
def snapStop (s : State) (p : PartId) (a b : Nat) : Nat → Nat → Option SnapStop
  | 0, _ => none
  | fuel + 1, i =>
    let sva := (a + i * 65536) % 2 ^ 57
    let dva := (b + i * 65536) % 2 ^ 57
    match slotWalk s p sva with
    | .missing fm => some (.missing (BitVec.ofNat 57 sva) fm)
    | .moving => some (.moving (BitVec.ofNat 57 sva))
    | .big => none
    | .slot _ e =>
      if !leafOk e then none
      else
        match slotWalk s p dva with
        | .missing fm => some (.missing (BitVec.ofNat 57 dva) fm)
        | .moving => some (.moving (BitVec.ofNat 57 dva))
        | .big => none
        | .slot _ t =>
          if t.v || e.fe || e.cps then none
          else
            match frameOf s p e.pfn with
            | .moving _ => some (.moving (BitVec.ofNat 57 sva))
            | .ok fr => if writesOver s fr then snapStop s p a b fuel (i + 1) else some (.writes fr)
            | .bad => snapStop s p a b fuel (i + 1)

def pgsnapEffect (f : FS) (s : State) : State :=
  let a := (src64 s f.a).toNat
  let b := (src64 s f.b).toNat
  let n := (src64 s f.c).toNat
  if 8192 < n then faultHere .illegalEncoding s
  else if a % 65536 ≠ 0 then fault .alignment (BitVec.ofNat 64 a) s
  else if b % 65536 ≠ 0 then fault .alignment (BitVec.ofNat 64 b) s
  else
    match snapStop s (myPart s) a b n 0 with
    | some (.missing va fm) => fault .translation (trInfo va fm) s
    | some (.moving va) => parkWalk s va false
    | some (.writes fr) => parkBefore .parkedMemory (.frame fr) s
    | none =>
      let (v, s) := snapPages s (me s) a b n n 0
      result f.d (w64 v) s

def execPgsnap (f : FS) (s : State) : Out := issueAt .guest f.fields f.srcs (afterDrain (pgsnapEffect f)) s

/-! ### PGRET (R266) -/

/-- The undo entries and last writers of the lines of a frame follow it. -/
def moveLog (k : Nat → Nat) (l : CkLog) : CkLog :=
  let line := fun n => k (n * 64) / 64
  { l with
    undo := l.undo.map fun u =>
      { u with
        line := line u.line
        bytes := u.bytes.map fun c => (k c.1, c.2)
        fe := u.fe.map fun e => (k (e.1 * 8) / 8, e.2) }
    writers := l.writers.map fun w => (line w.1, w.2) }

/-- Every name of a byte of the old frame follows it to the new one, the undo entries of its lines with it (R409). -/
def moveNames (s : State) (old new : Nat) : State :=
  let k := rekey old new
  let sec := fun n => k (n * 32) / 32
  let wait : WaitOn → WaitOn := fun w => match w with
    | .word a t => .word (k a) t
    | w => w
  { s with
    stores := s.stores.map fun p => { p with key := k p.key }
    seeds := s.seeds.map fun e => { e with key := k e.key }
    flights := s.flights.map fun q => { q with atom := q.atom.map fun a => { a with pa := k a.pa } }
    recs := s.recs.map fun r => { r with sector := sec r.sector }
    lineOld := s.lineOld.map fun e => (k (e.1 * 64) / 64, e.2)
    prefetches := s.prefetches.map fun p => { p with token := k p.token }
    parts := s.parts.map fun e => (e.1,
      { e.2 with
        log := moveLog k e.2.log
        oldLog := e.2.oldLog.map (moveLog k) })
    cores := s.cores.map fun e => (e.1,
      { e.2 with
        vpend := e.2.vpend.map fun v => { v with load := v.load.map fun u =>
          { u with parts := u.parts.map fun q => { q with key := k q.key } } }
        slots := e.2.slots.map fun t => (t.1, { t.2 with ctx := { t.2.ctx with wait := wait t.2.ctx.wait } })
        jobs := e.2.jobs.map fun j =>
          { j with
            tokenKey := j.tokenKey.map k
            rest := j.rest.map fun l => l.map k
            got := j.got.map fun r => (k (r.1 * 64) / 64, r.2)
            pages := j.pages.map fun q => (q.1, if q.2 = old then new else q.2)
            rows := j.rows.map fun r => (r.1, k r.2.1, r.2.2) } }) }

/-- The lines of a frame that read with an uncorrected error. -/
def badLines (s : State) (fr : Nat) : List Nat := (s.bad.filter fun e => e.1 / 1024 == fr).map (·.1)

/-- The frame is moved: how many sectors were lost, and the new state. -/
def retire (s : State) (old new : Nat) : Nat × State :=
  let bad := badLines s old
  let s := moveNames (copyFrame s old new) old new
  let s := { s with
    fe := s.fe.filter fun e => e.1 / 8192 != old
    bad := s.bad.filter fun e => e.1 / 1024 != new }
  let lost := bad.foldl (fun m ln =>
    let q := new * 2048 + ln % 1024 * 2
    Map.put (Map.put m q ()) (q + 1) ()) s.lost
  (2 * bad.length, { s with lost := lost })

/-- MOV of the frame map entry of a guest frame. -/
def setMov (s : State) (p : PartId) (gfn : Nat) (b : Bool) : State :=
  let a := fmapEntryPA s p gfn
  writePA s p.pkg a 8 (putBit (BitVec.ofNat 64 (readPA s p.pkg a 8)) 2 b).toNat

/-- A copy of a frame is being made for a write (R258, R259): the address of a page that it is for. -/
def copyingOf (s : State) (fr : Nat) : Option VA :=
  s.agenda.findSome? fun e => match e.2 with
    | .cowCopy p va => match walk s p va with
      | .ok _ _ f _ => if f = fr then some va else none
      | _ => none
    | _ => none

def pgretEffect (f : FS) (s : State) : State :=
  let a := (src64 s f.a).toNat
  let b := (src64 s f.b).toNat
  let pkg := (myPart s).pkg
  let p : PartId := ⟨pkg, bitsOf a 48 16⟩
  let gfn := bitsOf a 0 36
  match (if bitsOf a 36 12 != 0 then .bad else frameOf s p gfn) with
  | .ok old =>
    if 2 ^ 28 ≤ old then result f.d (w64 (snapStatus 1 0)) s
    else if b % 65536 ≠ 0 || decide (2 ^ 43 ≤ b) || bitsOf b 38 5 != pkg then
      result f.d (w64 (snapStatus 2 0)) s
    else
      match copyingOf s old with
      | some va => parkBefore .parkedMemory (.copy va) s
      | none =>
        let d := destOf s f.d
        let s := tlbDrop (setMov s p gfn true) pkg fun t => t.maps old
        let m : FrameMove := ⟨pkg, p.part, gfn, old, b / 65536, (me s).core, (me s).slot, d⟩
        advance { clearPresence s d with moves := s.moves ++ [m] }
  | _ => result f.d (w64 (snapStatus 1 0)) s

def execPgret (f : FS) (s : State) : Out := issueAt .hyp f.fields f.srcs (pgretEffect f) s

/-- The move of a frame whose accesses are over: the data, marks and names go to the new frame, MOV is cleared, and D
receives the number of lost sectors (R266). -/
def finishMove (s : State) (m : FrameMove) : State :=
  let p : PartId := ⟨m.pkg, m.part⟩
  let s := { s with moves := s.moves.erase m }
  let (lost, s) := retire s m.old m.new
  let e := readPA s m.pkg (fmapEntryPA s p m.gfn) 8
  let s := writePA s m.pkg (fmapEntryPA s p m.gfn) 8 (putBit (putField (BitVec.ofNat 64 e) 16 36 m.new) 2 false).toNat
  let s := if lost = 0 then s else veqPush s p 5 0 (BitVec.ofNat 64 m.gfn) 0 lost
  if m.dest = .none then s
  else
    let (t, s) := nextLat s
    modCore s m.core fun k =>
      { k with
        vpend := k.vpend ++ [⟨k.ids, k.cyc + 1 + t, m.slot, m.dest, nat256 lost, none, false⟩]
        ids := k.ids + 1 }

/-- Moves and waits for accesses that are over by now. -/
def settleAccesses (s : State) : State :=
  let s := (s.moves.filter fun m => frameIdle s m.old).foldl finishMove s
  ((allSlots s).filter fun e => match e.2.ctx.wait with
    | .frame _ => true
    | .tlbi _ _ => true
    | _ => false).foldl (fun s e => settleWait s e.1) s

end Sys2Proof.Machine
end

