-- ==== Sys2Proof/Machine/Jobs.lean ====
section
/-! DEFINITION. The parameter block (R312 to R314), walks (R315 to R318), footprints and the job window
(R321, R322), the matrix array's queue (R326, R338, R340) and the completion of jobs (R319, R320). -/

namespace Sys2Proof.Machine

open Sys2Proof

/-! ### The parameter block (R312) -/

abbrev Block := BitVec 1024

/-- `n` bytes of a block from byte `lo`. -/
def bf (b : Block) (lo n : Nat) : Nat := bitsOf b.toNat (8 * lo) (8 * n)

def bXid (b : Block) : BitVec 16 := BitVec.ofNat 16 (bf b 0 2)
def bKind (b : Block) : Nat := bf b 2 1
def bEsz (b : Block) : Nat := bf b 3 1
def bFlag (b : Block) (i : Nat) : Bool := bitAt (bf b 4 4) i
def bSrc (b : Block) : Nat := bf b 8 8
def bDst (b : Block) : Nat := bf b 16 8
def bExpect (b : Block) : Nat := bf b 24 4
def bSrcTid (b : Block) : Nat := bf b 28 1
def bOffset (b : Block) : BitVec 32 := BitVec.ofNat 32 (bf b 92 4)
def bHandler (b : Block) : W64 := BitVec.ofNat 64 (bf b 96 8)
def bToken (b : Block) : VA := BitVec.ofNat 57 (bf b 104 8)
def bAcc (b : Block) : Nat := bf b 112 1
def bTidA (b : Block) : Nat := bf b 113 1
def bTidB (b : Block) : Nat := bf b 114 1
def bOp (b : Block) : Nat := bf b 115 1
/-- The tile position of the follow-on, in the layout of R336. -/
def bPos (b : Block) : W64 := BitVec.ofNat 64 (bf b 116 8)

/-- The count and strides of level k. -/
def bLevel (b : Block) (k : Nat) : Nat × Int × Int :=
  (bf b (32 + 10 * k) 2, signed 32 (bf b (34 + 10 * k) 4), signed 32 (bf b (38 + 10 * k) 4))

def bTimed (b : Block) : Bool := bOffset b != 0xFFFFFFFF
def bStash (b : Block) : Bool := bFlag b 0
def bytesOf (b : Block) : Nat := 2 ^ bEsz b

/-- ENGINE_FAULT code 1 of a block (R313, R314). -/
def blockBad (b : Block) : Bool :=
  decide (1 < bKind b) || decide (5 < bEsz b) || bitsOf (bf b 4 4) 5 27 != 0 || bf b 29 3 != 0 ||
    (if bKind b = 0 then bf b 112 16 != 0
     else bf b 124 4 != 0 || decide (2 < bOp b) || decide (3 < bAcc b) || posBad (bPos b) || !bStash b) ||
    (bFlag b 4 && !bStash b) || (bFlag b 1 && bSrcTid b == 0xFF) || (bFlag b 4 && bXid b == 0xFFFF)

/-- Code 2: the address that is not a multiple of the element size, 0 for a stride. -/
def blockOdd (b : Block) : Option Nat :=
  let n := bytesOf b
  if bSrc b % n ≠ 0 then some (bSrc b)
  else if bDst b % n ≠ 0 then some (if bStash b then 0 else bDst b)
  else if (upto 6).any fun k =>
      let (c, ss, ds) := bLevel b k
      decide (1 < c) && (ss % (n : Int) != 0 || ds % (n : Int) != 0) then some 0
  else none

/-! ### Walks (R315, R316, R318) -/

/-- The elements of a walk in walk order: source and destination address. -/
def walkOf (b : Block) : List (Nat × Nat) :=
  let raw := (upto 6).reverse.foldl (fun (l : List (Int × Int)) k =>
    let (c, ss, ds) := bLevel b k
    l.flatMap fun e => (upto c).map fun (i : Nat) => (e.1 + (i : Int) * ss, e.2 + (i : Int) * ds))
    [((bSrc b : Int), (bDst b : Int))]
  raw.map fun e => (wrapNat 57 e.1, wrapNat 57 e.2)

/-- Whether an element is in range. -/
def inRange (b : Block) (tid : Reg) (s : Nat) : Bool := !bFlag b 1 || inTensor tid s (bytesOf b)

/-- The sector count: the runs that hold an in-range element (R318). -/
def sectorCount (b : Block) (tid : Reg) : List (Nat × Nat) → Option Nat → Bool → Nat → Nat
  | [], _, hit, n => n + hit.toNat
  | (s, d) :: t, run, hit, n =>
    if run = some (d / 32) then sectorCount b tid t run (hit || inRange b tid s) n
    else sectorCount b tid t (some (d / 32)) (inRange b tid s) (n + hit.toNat)

/-! ### Footprints (R321, R322) -/

/-- The pieces of a region of addresses that the core's mapping table binds. -/
def stashPieces (k : Core) (part lo n : Nat) : List Region :=
  (k.maps.filter fun e => e.2.part == part && overlaps e.2.va (e.2.len * 1024) lo n).map fun e =>
    let a := Nat.max lo e.2.va
    let z := Nat.min (lo + n) (e.2.va + e.2.len * 1024)
    ⟨true, e.2.off + (a - e.2.va), z - a⟩

/-- What is left of intervals once `lo` to `hi` is taken out of them. -/
def cutOut (lo hi : Nat) (l : List (Nat × Nat)) : List (Nat × Nat) :=
  l.flatMap fun e =>
    if e.2 ≤ lo ∨ hi ≤ e.1 then [e]
    else (if e.1 < lo then [(e.1, lo)] else []) ++ (if hi < e.2 then [(hi, e.2)] else [])

/-- A region of virtual addresses as it is compared: bound parts as stash bytes. -/
def regionsOf (k : Core) (part lo n : Nat) : List Region :=
  let rest := (k.maps.filter fun e => e.2.part == part).foldl
    (fun l e => cutOut e.2.va (e.2.va + e.2.len * 1024) l) [(lo, lo + n)]
  stashPieces k part lo n ++ (rest.filter fun e => decide (e.1 < e.2)).map fun e => ⟨false, e.1, e.2 - e.1⟩

/-- The bounding range of addresses, as first byte and length. -/
def bounds (l : List Nat) (size : Nat) : Option (Nat × Nat) :=
  match l with
  | [] => none
  | a :: t =>
    let lo := t.foldl Nat.min a
    let hi := t.foldl Nat.max a
    some (lo, hi + size - lo)

/-- The regions of an optional range. -/
def rangeRegions (k : Core) (part : Nat) (r : Option (Nat × Nat)) : List Region :=
  match r with
  | some (lo, n) => regionsOf k part lo n
  | none => []

/-- The footprint of a copy. -/
def copyReads (k : Core) (part : Nat) (b : Block) (ta tb : Reg) : List Region :=
  let src := rangeRegions k part (bounds ((walkOf b).map (·.1)) (bytesOf b))
  if bKind b = 1 then
    src ++ rangeRegions k part (tileFoot ta (32 * posRow (bPos b))) ++
      rangeRegions k part (tileFoot tb (32 * posCol (bPos b)))
  else src

def copyWrites (k : Core) (part : Nat) (b : Block) : List Region :=
  match bounds ((walkOf b).map (·.2)) (bytesOf b) with
  | some (lo, n) => if bStash b then [⟨true, lo, n⟩] else regionsOf k part lo n
  | none => []

def Region.meets (a b : Region) : Bool := a.stash == b.stash && overlaps a.base a.len b.base b.len

def anyMeet (a b : List Region) : Bool := a.any fun x => b.any fun y => x.meets y

/-- Whether a later job conflicts with an earlier one (R322). -/
def conflicts (early late : Job) : Bool :=
  anyMeet early.writes late.reads || anyMeet early.reads late.writes || anyMeet early.writes late.writes

def findJob (s : State) (core n : Nat) : Option Job := firstWhere (fun j => j.id == n) (coreOf s core).jobs

def modJob (s : State) (core n : Nat) (f : Job → Job) : State :=
  modCore s core fun k => { k with jobs := listMod (fun j => j.id == n) f k.jobs }

/-- The jobs of a window before one of them. -/
def jobsBefore (n : Nat) : List Job → List Job
  | [] => []
  | j :: t => if j.id = n then [] else j :: jobsBefore n t

/-- An earlier job that conflicts is not complete. -/
def blocked (s : State) (core : Nat) (j : Job) : Bool :=
  (jobsBefore j.id (coreOf s core).jobs).any fun e => conflicts e j

/-- The tile operands of a matrix command. -/
def opA (j : Job) : List (Nat × Nat) := tileRanges j.tidA (32 * posRow j.pos) (posK j.pos) (posLen j.pos)
def opB (j : Job) : List (Nat × Nat) := tileRanges j.tidB (32 * posCol j.pos) (posK j.pos) (posLen j.pos)

/-- The addresses of one byte in every sector of a list of ranges. -/
def sectorsOf (l : List (Nat × Nat)) : List Nat :=
  (l.flatMap fun e => (upto ((e.1 % 32 + e.2 + 31) / 32)).map fun i =>
    if i = 0 then e.1 else e.1 / 32 * 32 + 32 * i).eraseDups

/-- One address in every page of a list of ranges: the first byte named there. -/
def pagesOf (l : List (Nat × Nat)) : List Nat :=
  (sectorsOf l).foldl (fun m a => if m.any fun b => b / 65536 == a / 65536 then m else m ++ [a]) []

/-- The physical address of a byte through the pages of a job's check. -/
def pageKey (j : Job) (va : Nat) : Option Nat :=
  (firstWhere (fun e => e.1 == va / 65536) j.pages).map fun e => e.2 * 65536 + va % 65536

/-! ### Races and records of jobs (R345) -/

/-- The record that a job's access conflicts with. -/
def jobRace (s : State) (core : Nat) (j : Job) (sec : Nat) (write : Bool) : Option RegionRec :=
  firstWhere (fun r =>
    (match r.job with
     | some (c, _) => c != core
     | none => true) && clashPlain ⟨pkgOf core, j.part⟩ j.who j.regionAt write sec r) s.recs

def recJob (s : State) (core : Nat) (j : Job) (sec : Nat) (write : Bool) (va : VA) : State :=
  { s with recs := s.recs ++
      [⟨sec, j.who, ⟨pkgOf core, j.part⟩, some (core, j.id), false, j.regionAt, none, write, 0, va⟩] }

/-- The job's region ends: a region that begins later does not overlap it (R284, R345). -/
def endJobRegion (s : State) (core n : Nat) : State :=
  { s with
    sOrder := s.sOrder + 1
    recs := s.recs.map fun r =>
      if r.job = some (core, n) && r.ended.isNone then { r with ended := some (s.sOrder + 1) } else r }

/-! ### The report of a job (R314, R319, R320, R345) -/

def jobPart (core : Nat) (j : Job) : PartId := ⟨pkgOf core, j.part⟩

/-- A job leaves its window; what waits on the window or on the job looks again. -/
def removeJob (s : State) (core n : Nat) : State :=
  let s := modCore s core fun k => { k with
    jobs := listDel (fun j => j.id == n) k.jobs
    mq := k.mq.filter fun m => match m with
      | .mma i _ _ => i != n
      | .mdrn i _ => i != n
      | .mzro _ _ => true }
  let s := ((slotsOf s (pkgOf core)).filter fun e => isParked e.2.st && e.2.ctx.wait == .drain).foldl
    (fun s e => wake s e.1 0) s
  retryThrottled s fun q => match q with
    | .throttled _ => true
    | _ => false

/-- The obligations of a job are discharged (R319 step 3, R314). -/
def dischargeJob (s : State) (core : Nat) (j : Job) (poison : Bool) : State :=
  let p := jobPart core j
  let s := match j.tokenKey with
    | some k =>
      let s := logUndo s p j.who j.tx false k
      let s := if ckEnabled s p then modLog s p fun l => { l with trail := l.trail ++ [⟨k / 8, j.who, false, true⟩] } else s
      fillWord s k (some (BitVec.ofNat 64 j.count)) poison
    | none => s
  match j.cnt with
  | some h => actDone (logDone s p j.who j.tx h) p h none poison
  | none => s

def wantsInt (j : Job) : Bool := j.kind == .copy && bFlag j.block 2

/-- One job fewer whose interrupt is outstanding: a ninth that waits for it looks again (R320). -/
def intGone (s : State) (core : Nat) (j : Job) : State :=
  if wantsInt j && !j.mute then
    let s := modRef s (jobPart core j) j.who fun c => { c with intsOut := c.intsOut - 1 }
    match findCtx s (jobPart core j) j.who with
    | some x => if isParked (slotOf s x).st && (ctxOf s x).wait == .operand then wake s x 0 else s
    | none => s
  else s

/-- A job leaves the core: its completion reaches the unit that issued it. -/
def retireJob (s : State) (core : Nat) (j : Job) : State :=
  removeJob (arrivalFor s (jobPart core j) j.who) core j.id

/-- A job stops: what it wrote stands, its obligations are discharged with poison, and the issuing context
takes `cause` as an asynchronous event. -/
def stopJob (s : State) (core : Nat) (j : Job) (cause : Cause) (info : W64) (ty : Nat) : State :=
  let p := jobPart core j
  let s := intGone (dischargeJob (endJobRegion s core j.id) core j true) core j
  let s := if j.mute then s
    else postEvent s p j.who ⟨cause, info, some (bXid j.block)⟩ fun s =>
      veqPush s p ty cause.code (BitVec.ofNat 64 (info.toNat % 2 ^ 57)) (refWord j.who) 0
  retireJob s core j

/-- `sys.einfo` of ENGINE_FAULT (R314). -/
def engInfo (code va : Nat) : W64 := BitVec.ofNat 64 (code * 2 ^ 58 + va % 2 ^ 57)

/-- A WAITI whose context cannot take the interrupt that has become pending completes without it (R366). -/
def endWaiti (s : State) (p : PartId) (r : CRef) : State :=
  match findCtx s p r with
  | some x =>
    if isParked (slotOf s x).st && (ctxOf s x).wait == .waiti && !intsOpen (ctxOf s x) then
      reply (modCtx s x fun c => { c with uintOwed := c.uintOwed + 1 }) x (.value .none 0)
    else s
  | none => s

/-- The completion of R319 and R320. -/
def finishJob (s : State) (core : Nat) (j : Job) : State :=
  let p := jobPart core j
  let s := endJobRegion s core j.id
  let s := j.tiles.foldl (fun s t => modCore s core fun k => { k with tags := Map.put k.tags t (bXid j.block) }) s
  let off := j.kind == .copy && bExpect j.block != 0xFFFFFFFF && bExpect j.block != j.count
  let s := dischargeJob s core j off
  let s :=
    if off then
      let s := intGone s core j
      if j.mute then s
      else postEvent s p j.who ⟨.countMismatch, BitVec.ofNat 64 (j.count % 2 ^ 32), some (bXid j.block)⟩ fun s =>
        veqPush s p 8 0x21 0 (refWord j.who) j.count
    else if wantsInt j && !j.mute then
      endWaiti (modRef s p j.who fun c => { c with ints := c.ints ++ [⟨bXid j.block, bHandler j.block⟩] }) p j.who
    else s
  retireJob s core j

/-! ### The matrix array (R161, R326 to R331) -/

/-- The race check and record of a job's access. -/
def jobPlain (s : State) (core : Nat) (j : Job) (h : Hit) (va : Nat) (write : Bool) : Except RegionRec State :=
  if h.pte.unch then .ok s
  else
    match jobRace s core j (h.pa / 32) write with
    | some r => .error r
    | none => .ok (recJob s core j (h.pa / 32) write (BitVec.ofNat 57 va))

/-- The ways of a line's set in the L2 of a die that hold pins. -/
def pinnedWays (s : State) (core pa : Nat) : Nat :=
  ((upto 24).filter fun v => (Map.get? (siteOf s (l2Site core pa)).l2 (l2Set pa * 24 + v)).any fun q => q.pins != 0).length

/-- A line of the L2 pinned, or released, on the die of a core. -/
def pinLine (s : State) (core pa : Nat) (up : Bool) : State :=
  let site := l2Site core pa
  let set := l2Set pa
  let m := (siteOf s site).l2
  match wayOf m set (pa / 64) with
  | none => s
  | some w =>
    match Map.get? m (set * 24 + w) with
    | none => s
    | some e =>
      if up then modSite s site fun k => { k with l2 := Map.put k.l2 (set * 24 + w) { e with pins := e.pins + 1 } }
      else if e.pins = 1 && e.stale then modSite s site fun k => { k with l2 := Map.del k.l2 (set * 24 + w) }
      else modSite s site fun k => { k with l2 := Map.put k.l2 (set * 24 + w) { e with pins := e.pins - 1 } }

/-- A pin of the line would be in a 13th way of its set. -/
def pinFull (s : State) (core pa : Nat) : Bool :=
  let m := (siteOf s (l2Site core pa)).l2
  match wayOf m (l2Set pa) (pa / 64) with
  | none => false
  | some w => (Map.get? m (l2Set pa * 24 + w)).any (fun e => e.pins == 0) && decide (12 ≤ pinnedWays s core pa)

/-- The lines of a command's operands, by physical address. -/
def operandKeys (j : Job) : List Nat :=
  (((sectorsOf (opA j ++ opB j)).filterMap (pageKey j)).map fun a => a / 64 * 64).eraseDups

/-- Those that come from the L2: bound ones come from the stash. -/
def operandLines (s : State) (core : Nat) (j : Job) : List Nat :=
  let vas := (sectorsOf (opA j ++ opB j)).filter fun a =>
    (stashBind s core j.part (BitVec.ofNat 57 a)).isNone
  ((vas.filterMap (pageKey j)).map fun a => a / 64 * 64).eraseDups

/-- The pins of a command are released. -/
def releaseTiles (s : State) (core : Nat) (j : Job) : State :=
  modJob (j.pinned.foldl (fun s a => pinLine s core a false) s) core j.id fun j => { j with pinned := [] }

/-- The tile fetcher reads the lines that are left, each pinned as it is read. Where a pin would be the 13th of a set,
the array first consumes what it has; the fetch waits while the pins are another command's. -/
def fetchTiles (core n : Nat) (bound : Nat → Bool) : List Nat → State → Bool × State
  | [], s => (true, modJob s core n fun j => { j with rest := some [] })
  | a :: t, s =>
    let s := if bound a then s else l2Touch s core ((findJob s core n).map (·.part) |>.getD 0) a 3 0
    let s := if !bound a && pinFull s core a then
        (match findJob s core n with
         | some j => releaseTiles s core j
         | none => s)
      else s
    if !bound a && pinFull s core a then (false, modJob s core n fun j => { j with rest := some (a :: t) })
    else
      let s := if bound a then s else pinLine s core a true
      let err := match badAt s a 64 with
        | some e => some e
        | none => if lostAt s a 64 then some DataErr.media else none
      let held := !bound a && (wayOf (siteOf s (l2Site core a)).l2 (l2Set a) (a / 64)).isSome
      let s := modJob s core n fun j =>
        { j with
          pinned := if held then j.pinned ++ [a] else j.pinned
          got := j.got ++ [(a / 64, BitVec.ofNat 512 (readN s a 64))]
          bad := j.bad.or err }
      fetchTiles core n bound t s

/-- Bytes of the operands as the tile fetcher has read them, through the pages of the check. -/
def tileBytes (j : Job) (va n : Nat) : Nat :=
  (upto n).foldl (fun m i =>
    match (pageKey j (va + i)).bind fun key => (firstWhere (fun e => e.1 == key / 64) j.got).map fun e =>
        bitsOf e.2.toNat (8 * (key % 64)) 8 with
    | some b => m + b * 256 ^ i
    | none => m) 0

/-- The reads of a command: every sector checked for a race and recorded, or the race. -/
def tileRaces (core : Nat) (j : Job) : List Nat → State → Except (RegionRec × Nat × State) State
  | [], s => .ok s
  | a :: t, s =>
    match pageKey j a, walk s (jobPart core j) (BitVec.ofNat 57 a) with
    | some key, .ok e _ _ _ =>
      match jobPlain s core j ⟨e, key, .dram (homeOf key)⟩ a false with
      | .error r => .error (r, a, s)
      | .ok s => tileRaces core j t s
    | _, _ => tileRaces core j t s

/-- Whether a command's lines are present for a timed start (R332). -/
def tilesPresent (s : State) (core : Nat) (j : Job) : Bool :=
  (operandLines s core j).all fun a => (wayOf (siteOf s (l2Site core a)).l2 (l2Set a) (a / 64)).isSome

/-- The type that an accumulator has once the commands in the queue are performed. -/
def accType (k : Core) (a : Nat) : AccTy :=
  k.mq.foldl (fun t m => match m with
    | .mzro b ty => if b = a then ty else t
    | _ => t) (Map.get k.accs a Acc.zero).ty

/-- A command on an accumulator is in the queue. -/
def accBusy (k : Core) (a : Nat) : Bool :=
  k.mq.any fun m => match m with
    | .mma _ b _ => b == a
    | .mdrn _ b => b == a
    | .mzro b _ => b == a

/-! ### The check of a drain (R330, R339) -/

/-- The writes of a drain with their physical addresses, through the pages of its check. -/
def drainRows (j : Job) (c : Acc) : List (Nat × Nat × Nat × BitVec 256) :=
  (drainWrites c j.tid j.pos).filterMap fun w => (pageKey j w.1).map fun key => (w.1, key, w.2)

/-- A correction is kept in the accumulator, counted, and shown in `sys.status` (R330). -/
def keepCorrection (s : State) (core : Nat) (x : Option CtxId) (a : Nat) (c : Acc) (corrected : Bool) : State :=
  if corrected then
    let s := pmCore (modCore s core fun k => { k with accs := Map.put k.accs a c }) core 0x0C 1
    match x with
    | some x => setStatus s x stABFTC true
    | none => s
  else s

def abftInfo (rows cols : BitVec 32) : W64 := BitVec.ofNat 64 (rows.toNat + cols.toNat * 2 ^ 32)

def errInfo : DataErr → W64
  | .media => 1
  | .integrity => 2

/-- The check of an MDRN whose context waits for it: the context traps and the job is no more, or it goes on and `k`
receives the job with its writes. -/
def drainCheck (k : Job → State → State) (s : State) (core : Nat) (j : Job) : State :=
  let x := findCtx s (jobPart core j) j.who
  let say := fun (r : Reply) (s : State) => match x with
    | some x => reply s x r
    | none => s
  let c := Map.get (coreOf s core).accs j.acc Acc.zero
  match c.poison with
  | some e => say (.trap .machineCheck (errInfo e)) (removeJob s core j.id)
  | none =>
    match checkAcc c (coreOf s core).abfttol.toNat with
    | .bad rows cols => say (.trap .abftUncorrectable (abftInfo rows cols)) (removeJob s core j.id)
    | .ok c' corrected =>
      let s := keepCorrection s core x j.acc c' corrected
      let j := { j with
        arrived := true
        rows := drainRows j c'
        pages := [] }
      say (.value .none 0) (k j (modJob s core j.id fun _ => j))

/-- The array works on the head of its queue: MZROs at once; the check of an MDRN at once; a product once no earlier job
that it conflicts with is incomplete. -/
def arrayPump (core : Nat) : Nat → State → State
  | 0, s => s
  | fuel + 1, s =>
    match (coreOf s core).mq with
    | [] => s
    | .mzro a ty :: t =>
      let z : Acc := { Acc.zero with ty := ty }
      let s := modCore s core fun k =>
        { k with
          accs := Map.put k.accs a z
          mq := t }
      arrayPump core fuel s
    | .mdrn n _ :: t =>
      let s := modCore s core fun k => { k with mq := t }
      match findJob s core n with
      | none => arrayPump core fuel s
      | some j => arrayPump core fuel (drainCheck (fun j s => atOnce s s.now (.jobStart core j.id)) s core j)
    | .mma n a none :: t =>
      match findJob s core n with
      | none => arrayPump core fuel (modCore s core fun k => { k with mq := t })
      | some j =>
        if j.kind == .mma && j.rest.isNone && j.timedAt.isNone && blocked s core j then s
        else
          let s := if j.kind == .mma && j.rest.isNone then modJob s core n fun j =>
              { j with
                st := .walking
                regionAt := s.sOrder } else s
          let j := (findJob s core n).getD j
          match (if j.rest.isSome then .ok s else tileRaces core j (sectorsOf (opA j ++ opB j)) s) with
          | .error (r, va, s) =>
            let s := stopJob (reportRace s (jobPart core j) r) core j .memoryRace (raceInfo (BitVec.ofNat 57 va) r) 4
            arrayPump core fuel s
          | .ok s =>
            let fromL2 := operandLines s core j
            let (done, s) := fetchTiles core n (fun a => !fromL2.contains a) (j.rest.getD (operandKeys j)) s
            if !done then s
            else
              let due := s.now + mmaCycles (tFmt j.tidA) (posLen j.pos) * cyc s core
              let s := modCore s core fun k => { k with mq := .mma n a (some due) :: t }
              at_ s due (.mmaCompletion core)
    | _ => s

/-- Jobs that may start now do so: the request has arrived and no earlier job conflicts (R322). -/
def jobPump (s : State) (core : Nat) : State :=
  ((coreOf s core).jobs.filter fun j =>
      j.st == .queued && j.arrived && j.kind != .mma && j.timedAt.isNone && !blocked s core j).foldl
    (fun s j => atOnce s s.now (.jobStart core j.id)) s

/-- The window and the array look for work. -/
def pump (s : State) (core : Nat) : State :=
  let s := jobPump s core
  arrayPump core ((coreOf s core).mq.length + 1) s

/-- Pins have been released on the die of a core: fetches that wait for them go on. -/
def refetch (s : State) (core : Nat) : State :=
  (s.cores.filter fun e => e.1 / 1024 == core / 1024 && (match e.2.mq with
    | .mma n _ none :: _ => e.2.jobs.any fun j => j.id == n && j.rest.isSome
    | _ => false)).foldl (fun s e => arrayPump e.1 (e.2.mq.length + 1) s) s

/-! ### Accesses of jobs (R315, R317, R344, R345) -/

/-- Why a job stops at an element. -/
inductive JobStop where
  | fault (code : Nat)
  | race (r : RegionRec)
  deriving DecidableEq, Repr

/-- What the checks of a job's access answer. -/
inductive JobAcc where
  | ok (h : Hit) (s : State)
  | stop (why : JobStop) (s : State)

/-- The rights of a job: those of its issuing context at issue. -/
def jobCtx (j : Job) : Ctx :=
  { Ctx.zero with
    prv := j.prv
    pkey := j.pkey }

/-- A message of a job reaches a site (R376). -/
def jobReaches (s : State) (core : Nat) (j : Job) (sp : Space) : Bool :=
  match sp with
  | .dram site => prvNo j.prv ≥ 2 || (siteOf s site).tag == 0 || (siteOf s site).tag == (siteOf s core).tag
  | _ => true

/-- An access of `n` bytes at `va` that lies in one sector: the walk, the rights, copy-on-write. -/
def jobAccess (s : State) (core : Nat) (j : Job) (va n : Nat) (write : Bool) : JobAcc :=
  let p := jobPart core j
  let v : VA := BitVec.ofNat 57 va
  let s := match walk s p v with
    | .ok e _ _ _ => if write && e.cow then cowNow s core p v else s
    | _ => s
  match walkMark s core p v write with
  | (.ok e _ fr _, s) =>
    let pa := fr * 65536 + va % 65536
    let sp := spaceOf s p.pkg pa
    if denied (jobCtx j) e sp ⟨n, !write, write, false, false, false⟩ || (write && e.cow) ||
        !jobReaches s core j sp || (write && guarded s p j.prv v pa n) then .stop (.fault 7) s
    else
      match (if write then none else badAt s pa n) with
      | some _ => .stop (.fault 8) s
      | none =>
        let whole := write && va % 32 == 0 && n == 32
        if lostAt s pa n && !whole then
          if e.disc then .ok ⟨e, pa, sp⟩ (healLost s pa n) else .stop (.fault 8) s
        else .ok ⟨e, pa, sp⟩ s
  | (_, s) => .stop (.fault 7) s

/-- A core number that no core has: a write of an engine leaves no cached copy anywhere. -/
def noCore : Nat := 2 ^ 30

/-- A job's write to memory. -/
def jobWrite (s : State) (core : Nat) (j : Job) (h : Hit) (n v : Nat) : State :=
  let s := ctxWrite s (jobPart core j) j.who j.tx h.pte.disc h.pa n v
  invalidateOthers (clearLost s h.pa n) noCore h.pa

/-- A write into the stash of the job's core: bound bytes as a store to the bound address, others
directly (R317). -/
def jobStash (s : State) (core : Nat) (j : Job) (off n v : Nat) : Except (JobStop × Nat × State) State :=
  match (firstWhere (fun e => decide (e.2.off ≤ off) && decide (off < e.2.off + e.2.len * 1024))
      (coreOf s core).maps).map (·.2) with
  | none => .ok (stashPut (recallRange s core (off / 32 * 32) (off + n)) core off n v)
  | some m =>
    let va := m.va + (off - m.off)
    match jobAccess s core j va n true with
    | .stop w s => .error (w, va, s)
    | .ok h s =>
      match jobPlain s core j h va true with
      | .error r => .error (.race r, va, s)
      | .ok s =>
        let s := logUndo s (jobPart core j) j.who j.tx h.pte.disc h.pa
        .ok (clearLost (stashWrite s core off h.pa n v) h.pa n)

/-- An element within the regions that a job card declares (R323). -/
def declared (k : Core) (j : Job) (regs : List Region) (stash : Bool) (a n : Nat) : Bool :=
  !j.card || (if stash then [⟨true, a, n⟩] else regionsOf k j.part a n).all fun (r : Region) =>
    regs.any fun q => q.stash == r.stash && decide (q.base ≤ r.base) && decide (r.base + r.len ≤ q.base + q.len)

/-- One element copied; a failure comes with the address that the report names. -/
def copyElem (s : State) (core : Nat) (j : Job) (src dst : Nat) : Except (JobStop × Nat × State) State :=
  let n := bytesOf j.block
  let k := coreOf s core
  let dva := if bStash j.block then 0 else dst
  if !declared k j j.reads false src n then .error (.fault 11, src, s)
  else if !declared k j j.writes (bStash j.block) dst n then .error (.fault 11, dva, s)
  else if bStash j.block && decide (stashBytes k < dst + n) then .error (.fault 3, 0, s)
  else
    match jobAccess s core j src n false with
    | .stop w s => .error (w, src, s)
    | .ok h s =>
      match jobPlain s core j h src false with
      | .error r => .error (.race r, src, s)
      | .ok s =>
        let v := readN s h.pa n
        if bStash j.block then
          match jobStash s core j dst n v with
          | .error (w, va, s) => .error (w, va, s)
          | .ok s =>
            let t := dst / 1024
            .ok (modJob s core j.id fun j => if bFlag j.block 4 && !j.tiles.contains t then
              { j with tiles := (j.tiles.filter (· < t)) ++ t :: j.tiles.filter (t < ·) } else j)
        else
          match jobAccess s core j dst n true with
          | .stop w s => .error (w, dst, s)
          | .ok h s =>
            match jobPlain s core j h dst true with
            | .error r => .error (.race r, dst, s)
            | .ok s => .ok (jobWrite s core j h n v)

/-- The walk (R315): it ends, or stops at an element. -/
def copyWalk (core : Nat) (j : Job) : List (Nat × Nat) → State → Except (JobStop × Nat × State) State
  | [], s => .ok s
  | (a, d) :: t, s =>
    if !inRange j.block j.tid a then copyWalk core j t s
    else
      match copyElem s core j a d with
      | .ok s => copyWalk core j t s
      | .error e => .error e

/-- A job that stops for a reason. -/
def stopFor (s : State) (core n : Nat) (w : JobStop) (va : Nat) : State :=
  match findJob s core n with
  | none => s
  | some j =>
    match w with
    | .fault code => stopJob s core j .engineFault (engInfo code va) 3
    | .race r => stopJob (reportRace s (jobPart core j) r) core j .memoryRace (raceInfo (BitVec.ofNat 57 va) r) 4

/-- The rows of a drain are written. -/
def drainWalk (core : Nat) (j : Job) : List (Nat × Nat × Nat × BitVec 256) → State →
    Except (JobStop × Nat × State) State
  | [], s => .ok s
  | (va, key, n, v) :: t, s =>
    if guarded s (jobPart core j) j.prv (BitVec.ofNat 57 va) (key % 2 ^ 52) n then .error (.fault 7, va, s)
    else match walk s (jobPart core j) (BitVec.ofNat 57 va) with
    | .ok e _ _ _ =>
      let h : Hit := ⟨e, key, .dram (homeOf key)⟩
      let part := lostAt s key n && !(key % 32 == 0 && n % 32 == 0)
      if part && !e.disc then .error (.fault 8, va, s)
      else
        let s := if part then healLost s key n else s
        match jobPlain s core j h va true with
        | .error r => .error (.race r, va, s)
        | .ok s => drainWalk core j t (jobWrite s core j h n v.toNat)
    | _ => drainWalk core j t (jobWrite s core j ⟨0, key, .dram (homeOf key)⟩ n v.toNat)

end Sys2Proof.Machine
end

