-- ==== Sys2Proof/Machine/Engines.lean ====
section
/-! DEFINITION. The eight engine instructions (R335 to R343), the job card (R323), timed dispatch (R332) and
the events of jobs and of the matrix array (R311, R319, R331, R350). -/

namespace Sys2Proof.Machine

open Sys2Proof

/-- A precise ENGINE_FAULT. -/
def engFault (code va : Nat) (s : State) : State := fault .engineFault (engInfo code va) s

/-! ### Reading blocks and cards (R313, R323) -/

/-- `n` lines from a 64-byte aligned address are checked and read; `k` receives the bytes and the hits. -/
def readLines (k : Nat → List (VA × Hit) → State → State) : Nat → VA → Nat → Nat → List (VA × Hit) → State → State
  | 0, _, _, v, hs, s => k v hs.reverse s
  | n + 1, va, i, v, hs, s =>
    access va (needOther 64 true false)
      (fun h s => readLines k n (va + 64) (i + 1) (v + readOwn s (me s) h.pa 64 * 2 ^ (512 * i)) ((va, h) :: hs) s) s

def readAligned (va : VA) (n : Nat) (k : Nat → List (VA × Hit) → State → State) (s : State) : State :=
  if va.toNat % 64 ≠ 0 then fault .alignment (vaInfo va) s else readLines k n va 0 0 [] s

/-- The race checks and records of the lines that were read. -/
def racesOf (k : State → State) : List (VA × Hit) → State → State
  | [], s => k s
  | (va, h) :: t, s =>
    withPlain 0 h false va (withPlain 0 { h with pa := h.pa + 32 } false (va + 32) (racesOf k t)) s

/-! ### The window (R310, R320) -/

/-- The effect `k` while the window has room for a job of the context; `int` asks for an interrupt too. -/
def withWindow (int : Bool) (k : State → State) (s : State) : State :=
  let p := myPart s
  let jobs := (myCore s).jobs
  if int && decide (8 ≤ (myCtx s).intsOut) then parkBefore .parkedMessage .operand s
  else if 32 ≤ jobs.length ∨ limitOf s p 2 32 ≤ (jobs.filter fun j => j.part == p.part).length then
    throttle .throttled true s
  else k s

/-- A job of the issuing context, with what every job has. -/
def newJob (s : State) (kind : JobKind) : Job where
  id := s.ids
  kind := kind
  ctx := originOf s (me s)
  who := refOf s (me s)
  part := (myCtx s).part
  st := .queued
  arrived := true
  block := 0
  tid := 0
  tidA := 0
  tidB := 0
  pos := 0
  acc := 0
  pages := []
  reads := []
  writes := []
  card := false
  cnt := none
  tokenKey := none
  count := 0
  tiles := []
  rows := []
  timedAt := none
  regionAt := s.sOrder
  prv := (myCtx s).prv
  pkey := (myCtx s).pkey
  tx := (myCtx s).tx
  mute := false
  rest := none
  pinned := []
  got := []
  bad := none

/-- A job is accepted: the engines touch no byte before the earlier loads of its context are bound. -/
def addJob (s : State) (core : Nat) (j : Job) : State :=
  let (_, s) := fresh (bindLoads s core fun u => u.ctx == j.ctx)
  modCore s core fun k => { k with jobs := k.jobs ++ [j] }

/-! ### Timed dispatch (R332) -/

/-- The group of the context was launched with TIMED. -/
def inTimedGroup (s : State) : Bool :=
  match groupOf s (myPart s) (myCtx s).grp with
  | some g => g.timed
  | none => false

/-- When the cycle `%tstart` + o begins on the core; `none` where it has passed. -/
def timedStart (s : State) (o : BitVec 32) : Option Nat :=
  let k := myCore s
  let c := (myCtx s).tstart.toNat + o.toNat
  if c < k.cyc then none else some (k.nextAt + (c - k.cyc) * cyc s (me s).core)

def timingInfo (o : BitVec 32) (maj : Nat) : W64 := BitVec.ofNat 64 (o.toNat + maj * 2 ^ 32)

def jobMaj : JobKind → Nat
  | .mma => 0x78
  | .drain => 0x79
  | _ => 0x77

/-- A timed command is discarded: its obligations are discharged with poison, and an MDRN that waits for its
cycle goes on. -/
def discardTimed (s : State) (core : Nat) (j : Job) : State :=
  let s := removeJob (intGone (dischargeJob s core j true) core j) core j.id
  if j.kind = .drain then
    match findCtx s (jobPart core j) j.who with
    | some x => reply s x (.value .none 0)
    | none => s
  else s

/-- The timed commands of a context that have not started. -/
def timedOf (s : State) (core : Nat) (part : Nat) (who : CRef) : List Job :=
  (coreOf s core).jobs.filter fun j => j.who == who && j.part == part && j.timedAt.isSome && j.st == .queued

/-- A timed command and the later ones of its context that have not started. -/
def timedFrom (s : State) (core : Nat) (j : Job) : List Job :=
  (timedOf s core j.part j.who).filter fun q => decide (j.id ≤ q.id)

/-- TIMING: the command and every later timed command of the context are discarded, and the trap is taken
at the context's next issue. -/
def raiseTiming (s : State) (core : Nat) (p : PartId) (who : CRef) (info : W64) (later : List Job) : State :=
  let s := later.foldl (fun s j => discardTimed s core j) s
  postEvent s p who ⟨.timing, info, none⟩ id

/-- A job takes its place: untimed by `k`, timed at its cycle; a cycle that has passed raises TIMING. -/
def placeJob (j : Job) (o : Option (BitVec 32)) (prep k : State → State) (s : State) : State :=
  let core := (me s).core
  match o with
  | none => k (addJob (prep s) core j)
  | some o =>
    match timedStart s o with
    | none => advance (raiseTiming s core (myPart s) (refOf s (me s)) (timingInfo o (jobMaj j.kind)) [])
    | some t =>
      let s := addJob (prep s) core { j with timedAt := some (t, o) }
      k (at_ s t (.timedCommandStart core j.id))

/-! ### CPY and JOBC (R311, R313, R337) -/

/-- Code 3 of R314 at issue: the first and the last element of a stash walk. -/
def stashBad (k : Core) (b : Block) (w : List (Nat × Nat)) : Bool :=
  let past := fun (e : Option (Nat × Nat)) => match e with
    | some (_, d) => decide (stashBytes k < d + bytesOf b)
    | none => false
  bStash b && (k.stashWays == 0 || past w.head? || past w.getLast?)

/-- Code 10: an address of the block in the copse-word region or the flag window. -/
def outOfPlace (s : State) (b : Block) : Option Nat :=
  let vas := [bSrc b] ++ (if bStash b then [] else [bDst b]) ++ (if bFlag b 3 then [(bToken b).toNat] else [])
  firstWhere (fun a =>
    match walk s (myPart s) (BitVec.ofNat 57 a) with
    | .ok _ _ fr _ =>
      match spaceOf s (pkgOf (me s).core) (fr * 65536 + a % 65536) with
      | .copse _ => true
      | .hub _ => true
      | _ => false
    | _ => false) vas

/-- The ENGINE_FAULT code and address of a block (R313 step 2), the lowest code first. -/
def blockFault (s : State) (b : Block) (w : List (Nat × Nat)) : Option (Nat × Nat) :=
  let k := myCore s
  if blockBad b then some (1, 0)
  else
    match blockOdd b with
    | some va => some (2, va)
    | none =>
      if stashBad k b w then some (3, 0)
      else if (bFlag b 1 && !tV (tidOf k (bSrcTid b))) ||
          (bKind b == 1 && (!tV (tidOf k (bTidA b)) || !tV (tidOf k (bTidB b)))) then some (4, 0)
      else if bTimed b && !inTimedGroup s then some (9, 0)
      else (outOfPlace s b).map fun a => (10, a)

/-- The token word of a block, checked as a full/empty write and full (R313 step 3). -/
def withToken (b : Block) (k : Option (VA × Hit) → State → State) (s : State) : State :=
  if !bFlag b 3 then k none s
  else
    let va := bToken b
    access va (needFe false true) (fun h s =>
      if !(feOf s h.pa).full then fault .foreignFill (vaInfo va) s else k (some (va, h)) s) s

/-- The DONE handle that a job counts: a counter of the partition, or a token word. -/
def withCount (h : Option W64) (k : State → State) (s : State) : State :=
  match h with
  | none => k s
  | some h =>
    if h.getLsbD 63 then
      if badCounter s (myPart s) h then fault .protectionPart h s else k s
    else access (h.setWidth 57) (needFe false true) (fun _ s => k s) s

/-- The streamer's site is in reach: the home of SRC, where SRC translates (R311, R376). -/
def withStreamer (b : Block) (k : State → State) (s : State) : State :=
  let va : VA := BitVec.ofNat 57 (bSrc b)
  match walk s (myPart s) va with
  | .ok _ _ fr _ =>
    if reachesSpace s (me s) (spaceOf s (pkgOf (me s).core) (fr * 65536 + va.toNat % 65536)) then k s
    else dropped (vaInfo va) s
  | _ => k s

/-- The token is emptied; the job is its holder. -/
def emptyToken (core n : Nat) (t : Option (VA × Hit)) (s : State) : State :=
  match t with
  | none => s
  | some (_, h) =>
    let s := logUndo s (myPart s) (refOf s (me s)) (myCtx s).tx h.pte.disc h.pa
    setFe s h.pa ⟨false, false, .job core n⟩

/-- A checked block becomes a job; `card` gives the footprint where a job card does. -/
def copyIssue (b : Block) (lines : List (VA × Hit)) (card : Option (List Region × List Region)) (cnt : Option W64)
    (s : State) : State :=
  let w := walkOf b
  match blockFault s b w with
  | some (code, va) => engFault code va s
  | none =>
    withToken b (fun tok => withCount cnt (withStreamer b (withWindow (bFlag b 2) (racesOf (fun s =>
      let core := (me s).core
      let k := myCore s
      let part := (myCtx s).part
      let ta := tidOf k (bTidA b)
      let tb := tidOf k (bTidB b)
      let tid := tidOf k (bSrcTid b)
      let j : Job := { newJob s .copy with
        arrived := false
        block := b
        tid := tid
        tidA := ta
        tidB := tb
        pos := bPos b
        acc := bAcc b
        reads := (card.map (·.1)).getD (copyReads k part b ta tb)
        writes := (card.map (·.2)).getD (copyWrites k part b)
        card := card.isSome
        cnt := cnt
        tokenKey := tok.map (·.2.pa)
        count := sectorCount b tid w none false 0 }
      let prep := fun (s : State) =>
        let s := emptyToken core j.id tok s
        if bFlag b 2 then mod s fun c => { c with intsOut := c.intsOut + 1 } else s
      placeJob j (if bTimed b then some (bOffset b) else none) prep (fun s =>
        let (t, s) := nextLat s
        advance (if bTimed b then s else at_ s (s.now + t) (.streamerRequest core j.id))) s) lines)))) s

def execCpy (f : FE) (s : State) : Out :=
  issue f.fields f.srcs (fun s =>
    let cnt := if f.c = .z then none else some (src64 s f.c)
    readAligned ((src64 s f.a).setWidth 57) 2 (fun v ls => copyIssue (BitVec.ofNat 1024 v) ls none cnt) s) s

/-- Code 1 of a job card (R323, R314). -/
def cardBad (v : Nat) : Bool :=
  decide (1 < bitsOf v 0 8) || decide (4 < bitsOf v 8 8) || decide (4 < bitsOf v 16 8) ||
    bitsOf v 24 40 != 0 || bitsOf v 192 64 != 0 || bitsOf v 1280 256 != 0

/-- The regions of a card, `n` of them from byte `lo`. -/
def cardRegions (k : Core) (part v lo n : Nat) : List Region :=
  (upto n).flatMap fun i =>
    let len := bitsOf v (8 * (lo + 16 * i + 8)) 64
    if len = 0 then [] else regionsOf k part (bitsOf v (8 * (lo + 16 * i)) 64) len

def markerIssue (rs : List Region × List Region) (cnt : Option W64) (lines : List (VA × Hit)) (s : State) : State :=
  withCount cnt (withWindow false (racesOf (fun s =>
    let core := (me s).core
    let j : Job := { newJob s .marker with
      reads := rs.1
      writes := rs.2
      card := true
      cnt := cnt }
    advance (pump (addJob s core j) core)) lines)) s

def execJobc (f : FE) (s : State) : Out :=
  issue f.fields f.srcs (fun s =>
    readAligned ((src64 s f.a).setWidth 57) 3 (fun v ls s =>
      if cardBad v then engFault 1 0 s
      else
        let k := myCore s
        let part := (myCtx s).part
        let rs := (cardRegions k part v 32 (bitsOf v 8 8), cardRegions k part v 96 (bitsOf v 16 8))
        let h : W64 := BitVec.ofNat 64 (bitsOf v 128 64)
        let cnt := if h = 0 then none else some h
        if bitsOf v 0 8 = 1 then markerIssue rs cnt ls s
        else readAligned (BitVec.ofNat 57 (bitsOf v 64 64)) 2
          (fun b ls2 => copyIssue (BitVec.ofNat 1024 b) (ls ++ ls2) (some rs) cnt) s) s) s

/-! ### MMA, MDRN and MZRO (R329, R338 to R340) -/

/-- The accumulator that D names. -/
def accOf (f : FE) : Nat :=
  match f.d with
  | .g n => n
  | _ => 0

/-- Every page of a tile is translated for the issuing context (R329); `k` receives the pages. -/
def tilePages (write : Bool) (k : List (Nat × Nat) → State → State) : List Nat → List (Nat × Nat) → State → State
  | [], acc, s => k acc.reverse s
  | a :: t, acc, s =>
    let va : VA := BitVec.ofNat 57 a
    match checkAccess s (me s) va (needOther 1 (!write) write) with
    | .fault c i => fault c i s
    | .miss => parkWalk s va write
    | .copy _ pool => if pool then waitCopy va s else fault .cowPool (vaInfo va) s
    | .hit h =>
      if !reachesSpace s (me s) h.space then dropped (vaInfo va) s
      else tilePages write k t ((a / 65536, h.pa / 65536) :: acc) s

/-- The offset of a timed form. -/
def offsetOf (f : FE) (s : State) : Option (BitVec 32) :=
  if f.b = .z then none else some ((src64 s f.b).setWidth 32)

def mmaEffect (f : FE) (s : State) : State :=
  let k := myCore s
  let pos := src64 s f.a
  let a := accOf f
  let ta := tidOf k f.tida.toNat
  let tb := tidOf k f.tidb.toNat
  if posBad pos then engFault 1 0 s
  else if !tV ta || !tV tb then engFault 4 0 s
  else if !formatsOk (tFmt ta) (tFmt tb) (accType k a) then engFault 5 0 s
  else if f.b ≠ .z && !inTimedGroup s then engFault 9 0 s
  else
    let part := (myCtx s).part
    let j : Job := { newJob s .mma with
      tidA := ta
      tidB := tb
      pos := pos
      acc := a
      reads := rangeRegions k part (tileFoot ta (32 * posRow pos)) ++
        rangeRegions k part (tileFoot tb (32 * posCol pos)) }
    tilePages false (fun pages => withWindow false fun s =>
      let j := { j with
        id := s.ids
        pages := pages }
      let core := (me s).core
      placeJob j (offsetOf f s) id (fun s =>
        let s := if f.b = .z then modCore s core fun k => { k with mq := k.mq ++ [.mma j.id a none] } else s
        advance (pump s core)) s) (pagesOf (opA j ++ opB j)) [] s

def execMma (f : FE) (s : State) : Out := issue f.srcs [f.a, f.b] (mmaEffect f) s

/-- A TID entry without its scales: what a drain names. -/
def dataOnly (t : Reg) : Reg := BitVec.ofNat 256 (t.toNat % 2 ^ 192)

def mdrnEffect (f : FE) (s : State) : State :=
  let k := myCore s
  let pos := src64 s f.a
  let a := accOf f
  let t := tidOf k f.tidc.toNat
  if !tV t || !drainOk (accType k a) (tFmt t) then engFault 4 0 s
  else if f.b ≠ .z && !inTimedGroup s then engFault 9 0 s
  else
    let part := (myCtx s).part
    let ranges := tileRanges (dataOnly t) (32 * posRow pos) (32 * posCol pos) 32
    let j0 : Job := { newJob s .drain with
      tid := t
      pos := pos
      acc := a
      writes := if ranges.isEmpty then [] else rangeRegions k part (tileFoot t (32 * posRow pos)) }
    tilePages true (fun pages s =>
      let core := (me s).core
      let j := { j0 with
        id := s.ids
        pages := pages }
      match offsetOf f s with
      | some o =>
        withWindow false (placeJob j (some o) id (parkOn .parkedMemory (.array j.id) .none)) s
      | none =>
        if !(myCore s).mq.isEmpty then
          withWindow false (fun s =>
            let s := addJob s core { j with arrived := false }
            parkOn .parkedMemory (.array j.id) .none
              (pump (modCore s core fun k => { k with mq := k.mq ++ [.mdrn j.id a] }) core)) s
        else
          let c := Map.get (myCore s).accs a Acc.zero
          match c.poison with
          | some e => fault .machineCheck (errInfo e) s
          | none =>
            match checkAcc c (myCore s).abfttol.toNat with
            | .bad rows cols => fault .abftUncorrectable (abftInfo rows cols) s
            | .ok c' corrected =>
              withWindow false (fun s =>
                let s := keepCorrection s core (some (me s)) a c' corrected
                advance (pump (addJob s core { j with
                  pages := []
                  rows := drainRows j c' }) core)) s) (pagesOf ranges) [] s

def execMdrn (f : FE) (s : State) : Out := issue f.srcs [f.a, f.b] (mdrnEffect f) s

def execMzro (f : FE) (s : State) : Out :=
  issue f.srcs [] (fun s =>
    let core := (me s).core
    let ty : AccTy := if f.min = 0 then .fp32 else .i32
    advance (pump (modCore s core fun k => { k with mq := k.mq ++ [.mzro (accOf f) ty] }) core)) s

/-! ### TIDW, TIDR and TIDINV (R341, R342) -/

def putTid (s : State) (n : Nat) (t : Reg) : State :=
  modCore s (me s).core fun k => { k with tids := Map.put k.tids n t }

def execTidw (f : FE) (s : State) : Out :=
  issue f.fields f.srcs (fun s =>
    let t := src256 s 0 f.a
    if limitOf s (myPart s) 3 256 ≤ f.tida.toNat then fault .quota 0 s
    else if tV t && tidBad t then engFault 6 0 s
    else advance (putTid s f.tida.toNat t)) s

def execTidr (f : FE) (s : State) : Out :=
  issue f.fields f.srcs (fun s =>
    let (t, s) := nextLat s
    advance (openVar s (1 + t % 4) (destOf s f.d) (tidOf (myCore s) f.tida.toNat) none)) s

def execTidinv (f : FE) (s : State) : Out :=
  issue f.fields [] (fun s =>
    advance (putTid s f.tida.toNat (tidOf (myCore s) f.tida.toNat &&& ~~~(BitVec.ofNat 256 (2 ^ 72))))) s

/-! ### Events of jobs -/

/-- The request reaches its streamer (R311). -/
def execStreamerRequest (core job : Nat) (s : State) : Out :=
  .next (pump (modJob s core job fun j => { j with arrived := true }) core)

/-- A page of the walk is under move (R252), or its channel is gated (R455): the streamer waits. -/
def walkMoving (s : State) (core : Nat) (j : Job) : Bool :=
  let vas := (walkOf j.block).flatMap fun e => if bStash j.block then [e.1] else [e.1, e.2]
  (vas.map (· / 65536)).eraseDups.any fun v =>
    match walkHeld s (jobPart core j) (BitVec.ofNat 57 (v * 65536)) with
    | .moving => true
    | .ok _ _ fr _ => match spaceOf s (pkgOf core) (fr * 65536) with
      | .dram d => (siteOf s d).gated
      | _ => false
    | .fault _ => false

/-- What a job does once it starts: its accesses, and the acknowledgement of its last write later. -/
def runJob (s : State) (core : Nat) (j : Job) : State :=
  let s := modJob s core j.id fun j =>
    { j with
      st := .walking
      regionAt := s.sOrder }
  let j := { j with regionAt := s.sOrder }
  let done := fun (s : State) =>
    let (t, s) := nextLat s
    at_ s (s.now + t) (.jobCompletion core j.id)
  match (match j.kind with
    | .copy => copyWalk core j (walkOf j.block) s
    | .drain => drainWalk core j j.rows s
    | _ => .ok s) with
  | .ok s => done s
  | .error (w, va, s) => pump (stopFor s core j.id w va) core

/-- A job starts: no earlier job of the window conflicts with it (R322). -/
def execJobStart (core job : Nat) (s : State) : Out :=
  match findJob s core job with
  | none => .next s
  | some j =>
    if j.st ≠ .queued || !j.arrived || j.kind == .mma || j.timedAt.isSome || blocked s core j then .next s
    else if j.kind == .copy && walkMoving s core j then .next (at_ s (s.now + ns 1000) (.jobStart core job))
    else .next (runJob s core j)

/-- The job's writes are acknowledged: a follow-on command issues, or the job completes (R319, R331). -/
def execJobCompletion (core job : Nat) (s : State) : Out :=
  match findJob s core job with
  | none => .next s
  | some j =>
    if j.st ≠ .walking || j.kind == .mma then .next s
    else if j.kind == .copy && bKind j.block == 1 then
      .next (at_ (modJob s core job fun j => { j with st := .following }) s.now (.followOnCommand core job))
    else .next (pump (finishJob s core j) core)

/-- The pages of a follow-on's operands, or the address that fails (R331). -/
def followPages (s : State) (core : Nat) (j : Job) : List Nat → List (Nat × Nat) → Except Nat (List (Nat × Nat))
  | [], acc => .ok acc.reverse
  | a :: t, acc =>
    match walk s (jobPart core j) (BitVec.ofNat 57 a) with
    | .ok e _ fr _ =>
      let pa := fr * 65536 + a % 65536
      let sp := spaceOf s (pkgOf core) pa
      if denied (jobCtx j) e sp (needOther 1 true false) || !jobReaches s core j sp then .error a
      else followPages s core j t ((a / 65536, fr) :: acc)
    | _ => .error a

/-- The follow-on command: its checks, its zeroing, its place in the queue. -/
def execFollowOnCommand (core job : Nat) (s : State) : Out :=
  match findJob s core job with
  | none => .next s
  | some j =>
    if j.st ≠ .following then .next s
    else
      let op := bOp j.block
      let ty := if op = 1 then .fp32 else if op = 2 then .i32 else accType (coreOf s core) j.acc
      if !formatsOk (tFmt j.tidA) (tFmt j.tidB) ty then
        .next (pump (stopJob s core j .engineFault (engInfo 5 0) 3) core)
      else
        let vas := pagesOf (opA j ++ opB j)
        if vas.any fun a => walkHeld s (jobPart core j) (BitVec.ofNat 57 a) == .moving then
          .next (at_ s (s.now + ns 1000) (.followOnCommand core job))
        else
          match followPages s core j vas [] with
          | .error a => .next (pump (stopJob s core j .engineFault (engInfo 7 a) 3) core)
          | .ok pages =>
            let s := modJob s core job fun j => { j with pages := pages }
            let zero := if op = 0 then [] else [MCmd.mzro j.acc ty]
            .next (pump (modCore s core fun k => { k with mq := k.mq ++ zero ++ [.mma job j.acc none] }) core)

/-- The injection of `sys.abftinj` (R350). -/
def inject (s : State) (core a : Nat) : State :=
  let v := (coreOf s core).abftinj.toNat
  if bitAt v 17 && bitsOf v 15 2 == a then
    modCore s core fun k =>
      let c := Map.get k.accs a Acc.zero
      let i := 32 * bitsOf v 10 5 + bitsOf v 5 5
      let e := Map.put c.e i (Map.get c.e i 0 ^^^ BitVec.ofNat 32 (2 ^ bitsOf v 0 5))
      { k with
        accs := Map.put k.accs a { c with e := e }
        abftinj := k.abftinj &&& 0x1FFFF }
  else s

/-- The command at the head of the array's queue is complete: its operands are those that the tile fetcher has read,
the accumulator is updated, and its job completes. -/
def execMmaCompletion (core : Nat) (s : State) : Out :=
  match (coreOf s core).mq with
  | .mma n a (some due) :: t =>
    if s.now < due then .next s
    else
      match findJob s core n with
      | none => .next (pump (modCore s core fun k => { k with mq := t }) core)
      | some j =>
        let c := Map.get (coreOf s core).accs a Acc.zero
        let c := match j.bad with
          | some e => { c with poison := some (c.poison.getD e) }
          | none => product c j.tidA j.tidB (tileBytes j) j.pos
        let s := modCore s core fun k =>
          { k with
            accs := Map.put k.accs a c
            mq := t }
        let s := inject (releaseTiles s core j) core a
        let s := if j.kind == .mma then removeJob (endJobRegion s core n) core n else finishJob s core j
        .next (refetch (pump s core) core)
  | _ => .next s

/-! ### Timed commands (R332) -/

/-- An MDRN at its cycle: the check of R330, then its writes; its context goes on, or traps. -/
def timedDrain (s : State) (core : Nat) (j : Job) : State := drainCheck (fun j s => runJob s core j) s core j

/-- A timed command at its cycle. -/
def execTimedCommandStart (core job : Nat) (s : State) : Out :=
  match findJob s core job with
  | none => .next s
  | some j =>
    match j.timedAt with
    | none => .next s
    | some (_, o) =>
      if j.st ≠ .queued then .next s
      else
        let late := blocked s core j || (j.kind == .mma && !tilesPresent s core j) ||
          (j.kind == .drain && accBusy (coreOf s core) j.acc)
        if late then
          .next (pump (raiseTiming s core (jobPart core j) j.who (timingInfo o (jobMaj j.kind))
            (timedFrom s core j)) core)
        else
          match j.kind with
          | .mma =>
            let s := modJob s core job fun j => { j with st := .walking }
            .next (pump (modCore s core fun k => { k with mq := k.mq ++ [.mma job j.acc none] }) core)
          | .drain => .next (timedDrain s core j)
          | _ => .next (runJob s core j)

end Sys2Proof.Machine
end

