-- ==== Sys2Proof/Machine/Obligations.lean ====
section
/-! DEFINITION. OBL, XFER, POISON, OBQ and RKSPLIT (R79 to R84), and the delivery of an offer (R74). -/

namespace Sys2Proof.Machine

open Sys2Proof

/-! ### OBL (R80) -/

/-- The rank of the receiving port that a FEED handle names, in the plan of the issuer's group (R69). -/
def feedRank (s : State) (h : W64) : Option Nat :=
  if bitsOf h.toNat 15 49 != 0 then none
  else
    match neighbour (me s).core (feedDir h) with
    | some n => portRankAt s (myPart s) (myCtx s).grp n (feedPort h)
    | none => none

/-- A right of the issuing context's partition on a gate (R384). -/
def aclS (g : Gate) (part : Nat) : Bool := (g.aclFor part).any (·.s)
def aclW (g : Gate) (part : Nat) : Bool := (g.aclFor part).any (·.w)

/-- The effect `k` of the rank that a handle resolves to; else the fault of the object's chapter. -/
def resolveRank (kind : OblKind) (h : W64) (k : Nat → State → State) (s : State) : State :=
  match kind with
  | .feed =>
    match feedRank s h with
    | some r => k r s
    | none => fault .rankRange 0 s
  | .gate =>
    match getGate s (myPart s).pkg h with
    | none => fault .gateStale h s
    | some g => if aclS g (myCtx s).part then k g.rank s else fault .gateDenied h s
  | _ =>
    match doneCounter h with
    | some c =>
      if badCounter s (myPart s) h then fault .protectionPart h s
      else k (ctrRank (counterEntry s (myPart s) c)) s
    | none => access (h.setWidth 57) (needFe true false) (fun hit s => k hit.pte.rank s) s

def oblEffect (f : FR) (s : State) : State :=
  let kind := kindOf f.min.toNat
  let h := src64i s f.imm20 f.a
  let n := (src64i s f.imm20 f.b).toNat
  resolveRank kind h (fun r s =>
    match takeObl (myCtx s) kind h r n with
    | none => fault .oblOverflow 0 s
    | some c => advance (openTable (mod s fun _ => c) (destOf s f.d) (nat256 r))) s

def execObl (f : FR) (s : State) : Out := issue f.fields f.srcs (tableFree (oblEffect f)) s

/-! ### XFER (R81, R74) -/

/-- A reference word (R79); `none` where a bit that is to be zero is set. -/
def refOfWord (w : W64) : Option CRef :=
  if bitsOf w.toNat 22 10 != 0 || bitsOf w.toNat 6 2 != 0 then none
  else some ⟨BitVec.ofNat 32 (w.toNat / 2 ^ 32), bitsOf w.toNat 8 14, bitsOf w.toNat 0 6⟩

/-- The part of an entry that an instruction with count `n` acts on; `none` is OBL_MISSING. -/
def actCount (e : Obl) (n : Nat) : Option Nat :=
  let m := if n = 0 then availObl e else n
  if m = 0 || availObl e < m then none else some m

/-- The target of an XFER: the heir, or the reference that A holds. -/
def xferTarget (s : State) (f : FR) : Option CRef :=
  if f.a = .z then
    match heirOf s (me s) with
    | .ctx r => some r
    | _ => none
  else refOfWord (src64i s f.imm20 f.a)

/-- The core that a target reference names does not take the offer at ejection: it is tagged for another partition. -/
def xferDropped (s : State) (r : CRef) : Bool :=
  match findCtx s (myPart s) r, logicalCore s (myPart s) r.lcore with
  | some y, _ => !reachesCore s (me s) y.core
  | none, some core => !reachesCore s (me s) core
  | none, none => false

/-- The marks of an entry's part in transfer. -/
def markMoving (c : Ctx) (k : OblKind) (h : W64) (f : Nat → Nat) : Ctx :=
  match findObl c k h with
  | some (i, e) => { c with obls := Map.put c.obls i { e with moving := f e.moving } }
  | none => c

/-- An offer is sent. -/
def sendOffer (r : CRef) (kind : OblKind) (e : Obl) (n : Nat) (dst : Opnd) (s : State) : State :=
  let x := me s
  let d := destOf s dst
  let (id, s) := fresh s
  let s := mod s fun c =>
    { markMoving c kind e.handle (· + n) with
      tableBusy := c.tableBusy + 1 }
  let s := { s with xfers := s.xfers ++
    [⟨id, myPart s, refOf s x, x.core, r, { e with count := n, moving := 0 }, d⟩] }
  let (t, s) := nextLat s
  advance (at_ (clearPresence s d) (s.now + t) (.xferDelivery id))

def xferEffect (f : FR) (s : State) : State :=
  let kind := kindOf f.min.toNat
  let h := src64i s f.imm20 f.b
  match findObl (myCtx s) kind h with
  | none => fault .oblMissing h s
  | some (_, e) =>
    match actCount e (src64i s f.imm20 f.c).toNat with
    | none => fault .oblMissing h s
    | some n =>
      match xferTarget s f with
      | none => result f.d (nat256 1) s
      | some r =>
        if r = refOf s (me s) then result f.d 0 s
        else if xferDropped s r then dropped h s
        else if !refLive s (myPart s) r then result f.d (nat256 1) s
        else sendOffer r kind e n f.d s

def execXfer (f : FR) (s : State) : Out := issue f.fields f.srcs (tableFree (xferEffect f)) s

/-- The rank of the object of the rank-checked wait that a context is parked in. -/
def waitedRank (s : State) (x : CtxId) : Option Nat :=
  let sl := slotOf s x
  if !isParked (effSt sl) || sl.ctx.reply.isSome then none
  else
    match sl.ctx.wait with
    | .armed e => (entryMarks s x.core e).arm.bind (portRank s x)
    | _ => sl.ctx.waitRank

/-- Status of an offer at its target: 0, 2 or 3. -/
def offerStatus (s : State) (m : XferMsg) : Nat × Option Ctx :=
  let at_x := findCtx s m.part m.dst
  let c := match at_x with
    | some x => some (ctxOf s x)
    | none => (findFlight s m.part m.dst).map (·.ctx)
  match c with
  | none => (1, none)
  | some c =>
    let waits := match at_x.bind (waitedRank s) with
      | some w => decide (m.obl.rank ≤ w)
      | none => false
    if waits then (3, none)
    else
      match takeObl c m.obl.kind m.obl.handle m.obl.rank m.obl.count with
      | some c => (0, some c)
      | none => (2, none)

/-- A result lands in a register-file entry and the contexts parked on it look again. -/
def landNow (s : State) (core : Nat) (d : Dest) (v : Reg) : State :=
  wakeOperands (landVar (catchCore s core) core d v) core 0 (· == .operand)

/-- A context that waits for an unresolved table operation looks again. -/
def wakeTable (s : State) (p : PartId) (r : CRef) : State :=
  match findCtx s p r with
  | some x => if (ctxOf s x).wait == .table && isParked (slotOf s x).st then wake s x 0 else s
  | none => s

def execXferDelivery (n : Nat) (s : State) : Out :=
  match firstWhere (fun m => m.id == n) s.xfers with
  | none => .next s
  | some m =>
    let cores := m.core :: (findCtx s m.part m.dst).toList.map (·.core)
    match firstWhere (fun c => (coreOf s c).suspended) cores with
    | some c => .next (modCore s c fun k => { k with savedInbox := k.savedInbox ++ [.xferDelivery n] })
    | none =>
      let s := { s with xfers := listDel (fun q => q.id == n) s.xfers }
      let src := (findCtx s m.part m.src).map (ctxOf s)
      let held := match src.bind (findObl · m.obl.kind m.obl.handle) with
        | some (_, e) => decide (m.obl.count ≤ e.moving)
        | none => false
      let (st, c) := if held then offerStatus s m else (1, none)
      let s := match c with
        | some c => moveHolder (modRef s m.part m.dst fun _ => c) m.part m.src m.dst m.obl.kind m.obl.handle
        | none => s
      let s := modRef s m.part m.src fun c =>
        let c := markMoving c m.obl.kind m.obl.handle (· - m.obl.count)
        let c := if st = 0 then dischargeObl c m.obl.kind m.obl.handle m.obl.count else c
        { c with tableBusy := c.tableBusy - 1 }
      .next (wakeTable (landNow s m.core m.dest (nat256 st)) m.part m.src)

/-! ### POISON (R82) -/

/-- The word that a poisoned FILL or token fill acts on. -/
def poisonWord (s : State) (kind : OblKind) (h : W64) : Option Hit :=
  if kind = .fill || kind == .done then tokenHit s (me s) (if kind = .fill then h.setWidth 57 |>.setWidth 64 else h)
  else none

/-- The name of the object in the sync trail. -/
def objName (kind : OblKind) (h : W64) : Nat :=
  match kind with
  | .bar => 2 ^ 60 + h.toNat % 2 ^ 32
  | .gate => 2 ^ 61 + h.toNat % 2 ^ 32
  | _ => 2 ^ 59 + h.toNat % 2 ^ 32

/-- `n` acts with the poison mark in the act's own place in S. -/
def poisonNow (kind : OblKind) (h : W64) (n : Nat) (s : State) : State :=
  let x := me s
  let s := match poisonWord s kind h with
    | some hit => logUndo s (myPart s) (refOf s x) (myCtx s).tx hit.pte.disc hit.pa
    | none => s
  let s := if kind = .gate then markOutside s x else s
  let s := poisonActs s x (myPart s) (refOf s x) (originOf s x) kind h n
  advance (mod s fun c => dischargeObl c kind h n)

/-- The poisoned acts leave as order frames, which take their places in S at transmission (R279). -/
def poisonSent (s : State) (kind : OblKind) (h : W64) : Bool :=
  handleCps h && (kind == .bar || kind == .gate && (getGate s (myPart s).pkg h).any fun g => !g.frozen (myPart s).part)

def poisonEffect (f : FR) (s : State) : State :=
  let kind := kindOf f.min.toNat
  let h := src64i s f.imm20 f.a
  match findObl (myCtx s) kind h with
  | none => fault .oblMissing h s
  | some (_, e) =>
    match actCount e (src64i s f.imm20 f.b).toNat with
    | none => fault .oblMissing h s
    | some n =>
      if kind = .feed then poisonNow kind h n s
      else
        afterRelease false (fun s =>
          match poisonWord s kind h with
          | some hit => withSync hit false true true (h.setWidth 57) (poisonNow kind h n) s
          | none =>
            let k := fun (s : State) =>
              poisonNow kind h n (if poisonSent s kind h then s else syncObj s (me s) (objName kind h) false true)
            if kind = .bar then withBarrier h (fun _ s => k s) s else k s) s

def execPoison (f : FR) (s : State) : Out := issue f.fields f.srcs (tableFree (poisonEffect f)) s

/-! ### OBQ (R83) -/

/-- One entry as OBQ reads it. -/
def oblEntryWord (c : Ctx) (i : Nat) : Nat :=
  match Map.get? c.obls i with
  | none => 0
  | some e =>
    e.handle.toNat + e.rank * 2 ^ 64 + availObl e * 2 ^ 80 + kindNo e.kind * 2 ^ 96 + 2 ^ 99

/-- The summary that `obq.self` reads. -/
def oblSelfWord (s : State) (x : CtxId) : Nat :=
  let c := ctxOf s x
  let valid := (upto 16).foldl (fun m i => if (Map.get? c.obls i).isSome then m + 2 ^ i else m) 0
  (refWord (refOf s x)).toNat + valid * 2 ^ 64 + obminOf c * 2 ^ 80

def obqValue (f : FR) (s : State) : Reg :=
  if f.min = 0 then nat256 (oblEntryWord (myCtx s) (bitsOf (src64i s f.imm20 f.a).toNat 0 4))
  else nat256 (oblSelfWord s (me s))

/-- OBQ lands after at most 4 cycles. -/
def execObq (f : FR) (s : State) : Out :=
  issue f.fields f.srcs (tableFree fun s =>
    let v := obqValue f s
    let (t, s) := nextLat s
    advance (openVar s (1 + t % 4) (destOf s f.d) v none)) s

/-! ### RKSPLIT (R84) -/

def rksplitEffect (f : FR) (s : State) : State :=
  let lo := (src64i s f.imm20 f.a).toNat
  let hi := (src64i s f.imm20 f.b).toNat
  let c := myCtx s
  if !(decide (c.rklo ≤ lo) && decide (lo < hi) && decide (hi ≤ c.rkhi)) then fault .rankRange 0 s
  else if f.min = 0 then advance (openWindow s 2 (destOf s f.d) (nat256 (hi * 65536 + lo)))
  else
    advance (mod s fun c =>
      { c with
        rklo := lo
        rkhi := hi })

def execRksplit (f : FR) (s : State) : Out := issue f.fields f.srcs (rksplitEffect f) s

end Sys2Proof.Machine
end

