-- ==== Sys2Proof/Machine/Gates.lean ====
section
/-! DEFINITION. GSIG, GWAIT, GQRY and GMAKE (R381 to R394), the refill of tokens (R383), operations held for
frozen partitions (R389), and the frames of copse gates (R387, R396, R397). -/

namespace Sys2Proof.Machine

open Sys2Proof

def gateObj (h : W64) : Nat := 2 ^ 61 + h.toNat % 2 ^ 32

/-- The place of a gate in the refill event: its site and entry; for a copse gate its package and index. -/
def refillSite (pkg : Nat) (h : W64) : Nat := if handleCps h then 2 ^ 20 + pkg else handleSite h
def refillEntry (h : W64) : Nat := if handleCps h then gateIndex h else handleEntry h

/-- The handle of a gate at a place of the refill event. -/
def refillHandle (site entry : Nat) (gen : BitVec 32) : W64 :=
  if 2 ^ 20 ≤ site then BitVec.ofNat 64 (gen.toNat * 2 ^ 32 + 2 ^ 31 + entry * 64)
  else barHandle site entry gen

/-- One microsecond. -/
def oneUs : Nat := ns 1000

/-- The next refill tick of a gate, a multiple of INTERVAL µs after its creation. -/
def nextTick (g : Gate) (now : Nat) : Nat :=
  let step := g.interval * oneUs
  if step = 0 then now else g.born + ((now - g.born) / step + 1) * step

def scheduleRefill (s : State) (pkg : Nat) (h : W64) : State :=
  let g := rawGate s pkg h
  if g.interval = 0 then s else atOnce s (nextTick g s.now) (.gateRefillTick (refillSite pkg h) (refillEntry h))

/-! ### Signals (R385) -/

/-- Tokens of a partition on a gate. -/
def Gate.tokens (g : Gate) (part : Nat) : Nat := ((g.aclFor part).map (·.tokens)).getD 0

/-- Whether a plain signal of `n` is short of tokens. -/
def Gate.short (g : Gate) (part n : Nat) : Bool := g.rate != 0 && decide (g.tokens part < n)

/-- The tokens of a plain signal are taken. -/
def Gate.take (g : Gate) (part n : Nat) : Gate :=
  if g.rate = 0 then g else g.modAcl part fun a => { a with tokens := a.tokens - n }

/-- A signal of context `x` is performed at a home gate: a release. -/
def signalHome (s : State) (x : CtxId) (h : W64) (g : Gate) (n : Nat) : State :=
  let s := markOutside (syncObj s x (gateObj h) false true) x
  let s := modCtx s x fun c => dischargeObl c .gate h n
  wakeGate (putGate s (pkgOf x.core) h ((g.take (ctxOf s x).part n).count n false)) (pkgOf x.core) h

/-- A signal of context `x` leaves its package's order store for the order plane. -/
def signalCopse (s : State) (x : CtxId) (h : W64) (g : Gate) (n : Nat) : State :=
  let part := (ctxOf s x).part
  let s := markOutside s x
  sendFrame (putGate s (pkgOf x.core) h (g.take part n)) (pkgOf x.core)
    (.gate 0 h part n 0 0 (originOf s x) .none)

/-- A held signal is tried again. -/
def trySignal (s : State) (x : CtxId) (h : W64) (n : Nat) (since : Option Nat) : State :=
  let pkg := pkgOf x.core
  let part := (ctxOf s x).part
  match getGate s pkg h with
  | none => reply s x (.trap .gateStale h)
  | some g =>
    if !aclS g part then reply s x (.trap .gateDenied h)
    else if g.frozen part then s
    else if g.short part n then
      if g.strict then reply s x (.trap .gateRate h)
      else if since.isSome then s
      else
        let s := modCtx s x fun c => { c with wait := .gateHold h false n (some s.now) }
        at_ s (s.now + oneMs) (.throttleTimeout x)
    else if handleCps h then modCtx (signalCopse s x h g n) x fun c => { c with wait := .reply }
    else
      let s := signalHome s x h g n
      answer s x (nat256 (rawGate s pkg h).sig.toNat)

/-- A held wait is performed at the thaw; its rank is not checked a second time. -/
def tryWait (s : State) (x : CtxId) (h : W64) (t : BitVec 32) : State :=
  let pkg := pkgOf x.core
  let part := (ctxOf s x).part
  match getGate s pkg h with
  | none => reply s x (.trap .gateStale h)
  | some g =>
    if !aclW g part then reply s x (.trap .gateDenied h)
    else if g.frozen part then s
    else
      let s := putGate s pkg h { g with waiters := g.waiters + 1 }
      let s := modSlot s x fun sl => { sl with st := .parkedSync, ctx := { sl.ctx with wait := .gate h t } }
      wakeGate s pkg h

/-- The operations held at a gate are tried in the order in which they arrived. -/
def tryHeld (s : State) (pkg : Nat) (h : W64) : State :=
  let ws := (waiters s fun q => match q with
    | .gateHold g _ _ _ => g == h
    | _ => false).filter fun e => !handleCps h || pkgOf e.1.core == pkg
  ws.foldl (fun s e =>
    match e.2.ctx.wait with
    | .gateHold _ true n _ => tryWait s e.1 h (BitVec.ofNat 32 n)
    | .gateHold _ false n since => trySignal s e.1 h n since
    | _ => s) s

/-- Every INTERVAL µs every TOKENS becomes RATE. -/
def execGateRefillTick (site entry : Nat) (s : State) : Out :=
  let pkg := if 2 ^ 20 ≤ site then site - 2 ^ 20 else pkgOf site
  let g := rawGate s pkg (refillHandle site entry 0)
  if !g.opened then .next s
  else
    let h := refillHandle site entry g.gen
    let s := putGate s pkg h { g with acl := g.acl.map fun a => { a with tokens := g.rate } }
    .next (scheduleRefill (tryHeld s pkg h) pkg h)

/-! ### GSIG (R391) -/

def gsigEffect (f : FR) (s : State) : State :=
  let h := src64i s f.imm20 f.a
  let n := if f.b = .z then 1 else (src64i s f.imm20 f.b).toNat
  let pkg := (myPart s).pkg
  let part := (myCtx s).part
  let past := match getGate s pkg h with
    | some g => g.rate != 0 && decide (g.rate < n)
    | none => false
  if n = 0 || 65535 < n || past then fault .gateRate h s
  else
    afterRelease false (fun s =>
      match getGate s pkg h with
      | none => fault .gateStale h s
      | some g =>
        if !aclS g part then fault .gateDenied h s
        else if g.frozen part then parkOn .parkedMessage (.gateHold h false n none) (destOf s f.d) s
        else if g.short part n then
          if g.strict then fault .gateRate h s
          else
            let s := parkOn .parkedMessage (.gateHold h false n (some s.now)) (destOf s f.d) s
            at_ s (s.now + oneMs) (.throttleTimeout (me s))
        else if handleCps h then parkOn .parkedMessage .reply (destOf s f.d) (signalCopse s (me s) h g n)
        else
          let s := signalHome s (me s) h g n
          result f.d (nat256 (rawGate s pkg h).sig.toNat) s) s

def execGsig (f : FR) (s : State) : Out := issue f.fields f.srcs (tableFree (gsigEffect f)) s

/-! ### GWAIT and GQRY (R392, R393) -/

def gwaitEffect (f : FR) (s : State) : State :=
  let h := src64i s f.imm20 f.a
  let pkg := (myPart s).pkg
  let part := (myCtx s).part
  match getGate s pkg h with
  | none => fault .gateStale h s
  | some g =>
    if !aclW g part then fault .gateDenied h s
    else
      match waitCheck s (me s) g.rank with
      | some info => fault .rankOrder info s
      | none =>
        let t : BitVec 32 := if f.b = .z then g.sig + 1 else (src64i s f.imm20 f.b).setWidth 32
        let s := markOutside s (me s)
        if g.frozen part then
          ranked g.rank (parkOn .parkedMessage (.gateHold h true t.toNat none) (destOf s f.d) s)
        else if g.reached t then
          if g.poisoned t then fault .poisoned 0 s
          else result f.d (nat256 g.sig.toNat) (syncObj s (me s) (gateObj h) true false)
        else
          let s := putGate s pkg h { g with waiters := g.waiters + 1 }
          ranked g.rank (parkOn .parkedSync (.gate h t) (destOf s f.d) s)

def execGwait (f : FR) (s : State) : Out := issue f.fields f.srcs (tableFree (syncFree (gwaitEffect f))) s

/-- The word that GQRY writes. -/
def gqryWord (g : Gate) (a : Acl) (cps : Bool) : Nat :=
  g.sig.toNat + g.rank * 2 ^ 32 + a.s.toNat * 2 ^ 48 + a.w.toNat * 2 ^ 49 + a.frz.toNat * 2 ^ 50 +
    g.strict.toNat * 2 ^ 51 + cps.toNat * 2 ^ 52 + a.tokens * 2 ^ 64 + g.rate * 2 ^ 80 + g.interval * 2 ^ 96 +
    g.buflen * 2 ^ 112

def gqryEffect (f : FR) (s : State) : State :=
  let h := src64i s f.imm20 f.a
  match getGate s (myPart s).pkg h with
  | none => fault .gateStale h s
  | some g =>
    match (g.aclFor (myCtx s).part).filter fun a => a.s || a.w with
    | none => fault .gateDenied h s
    | some a => result f.d (nat256 (gqryWord g a (handleCps h))) (markOutside s (me s))

def execGqry (f : FR) (s : State) : Out := issue f.fields f.srcs (gqryEffect f) s

/-! ### The image of a gate (R382) -/

def aclOf (w : Nat) : Acl where
  v := bitAt w 31
  frz := bitAt w 30
  tokens := bitsOf w 18 12
  w := bitAt w 17
  s := bitAt w 16
  part := bitsOf w 0 16

def aclWord (a : Acl) : Nat :=
  a.part + a.s.toNat * 2 ^ 16 + a.w.toNat * 2 ^ 17 + a.tokens * 2 ^ 18 + a.frz.toNat * 2 ^ 30 + a.v.toNat * 2 ^ 31

/-- The ACL of an image of 128 bytes. -/
def imageAcl (img : Nat) : List Acl := (upto 16).map fun i => aclOf (bitsOf img (512 + 32 * i) 32)

/-- Whether two valid entries name one partition. -/
def aclClash : List Acl → Bool
  | [] => false
  | a :: t => (a.v && t.any fun b => b.v && b.part == a.part) || aclClash t

/-- Status 2 of R394; an INTERVAL of 0 lies outside its range (R382). -/
def imageBad (img : Nat) : Bool :=
  bitsOf img 0 2 != 1 || bitsOf img 4 4 != 0 || bitsOf img 8 120 != 0 || bitsOf img 384 128 != 0 ||
    decide (4095 < bitsOf img 192 16) || bitsOf img 208 16 == 0 || bitsOf img 320 64 % 65536 != 0 ||
    decide (4096 < bitsOf img 288 32) || aclClash (imageAcl img)

/-- The gate that an image creates (R383). -/
def gateFrom (img : Nat) (cps : Bool) (gen : BitVec 32) (now : Nat) : Gate :=
  let rate := bitsOf img 192 16
  { Gate.zero with
    opened := true
    strict := bitAt img 2
    cps := cps
    gen := gen
    rank := bitsOf img 176 16
    rate := rate
    interval := bitsOf img 208 16
    buflen := bitsOf img 288 32
    bufpa := BitVec.ofNat 64 (bitsOf img 320 64)
    acl := (imageAcl img).map fun a => { a with tokens := rate }
    born := now }

/-- Setacl: ACL, RATE, INTERVAL and STRICT from the image. -/
def Gate.setacl (g : Gate) (img : Nat) : Gate :=
  { g with
    strict := bitAt img 2
    rate := bitsOf img 192 16
    interval := bitsOf img 208 16
    acl := imageAcl img }

/-- The 128 bytes of a gate (R382). -/
def gateImage (g : Gate) : Nat :=
  g.opened.toNat + g.strict.toNat * 4 + g.cps.toNat * 8 + g.gen.toNat * 2 ^ 128 + g.waiters * 2 ^ 160 +
    g.rank * 2 ^ 176 + g.rate * 2 ^ 192 + g.interval * 2 ^ 208 + g.sig.toNat * 2 ^ 224 + g.phist.toNat * 2 ^ 256 +
    g.buflen * 2 ^ 288 + g.bufpa.toNat * 2 ^ 320 +
    ((upto 16).zip g.acl).foldl (fun n e => n + aclWord e.2 * 2 ^ (512 + 32 * e.1)) 0

/-! ### What revocation and a change of access do (R388) -/

/-- TYPE 9 entries for partitions of a package. -/
def gateEvents (s : State) (pkg code : Nat) (h : W64) (parts : List Nat) : State :=
  parts.foldl (fun s p => veqPush s ⟨pkg, p⟩ 9 code h 0 0) s

/-- Waits and held operations at a gate, seen from a package for a copse gate. -/
def atGate (s : State) (pkg : Nat) (h : W64) : List (CtxId × Slot) :=
  (waiters s fun q => match q with
    | .gate k _ => k == h
    | .gateHold k _ _ _ => k == h
    | _ => false).filter fun e => !handleCps h || pkgOf e.1.core == pkg

/-- A gate is freed: its GEN rises and everything parked at it traps GATE_STALE. -/
def revokeGate (s : State) (pkg : Nat) (h : W64) (events : Bool) : State :=
  let g := rawGate s pkg h
  let s := (atGate s pkg h).foldl (fun s e => reply s e.1 (.trap .gateStale h)) s
  let s := putGate s pkg h { Gate.zero with gen := genUp g.gen }
  if events then gateEvents s pkg 1 h ((g.acl.filter (·.v)).map (·.part)) else s

/-- The waiters of partitions without W trap GATE_DENIED. -/
def denyWaiters (s : State) (pkg : Nat) (h : W64) : State :=
  let g := rawGate s pkg h
  let ws := (atGate s pkg h).filter fun e =>
    (match e.2.ctx.wait with
     | .gate _ _ => true
     | .gateHold _ w _ _ => w
     | _ => false) && !aclW g e.2.ctx.part
  let n := (ws.filter fun e => match e.2.ctx.wait with
    | .gate _ _ => true
    | _ => false).length
  let s := ws.foldl (fun s e => reply s e.1 (.trap .gateDenied h)) s
  putGate s pkg h { g with waiters := g.waiters - n }

/-- The partitions whose right, S or W, an ACL takes away. -/
def losers (old new : Gate) : List Nat :=
  ((old.acl.filter fun a => a.v && ((a.s && !aclS new a.part) || (a.w && !aclW new a.part)))).map (·.part)

def setaclGate (s : State) (pkg : Nat) (h : W64) (img : Nat) (events : Bool) : State :=
  let g := rawGate s pkg h
  let g' := g.setacl img
  let s := denyWaiters (putGate s pkg h g') pkg h
  let s := scheduleRefill s pkg h
  let s := if events then gateEvents s pkg 2 h (losers g g') else s
  tryHeld s pkg h

/-- FRZ of a partition's entry; at the thaw what was held is performed (R389). -/
def freezeGate (s : State) (pkg : Nat) (h : W64) (part : Nat) (frz : Bool) : State :=
  let g := rawGate s pkg h
  let g := g.modAcl part fun a => { a with frz := frz }
  if frz then putGate s pkg h g
  else
    let n := (g.held.filter fun e => e.1 == part).foldl (fun n e => n + e.2) 0
    let s := putGate s pkg h { g with held := g.held.filter fun e => e.1 != part }
    let s := if n = 0 then s
      else if handleCps h then sendFrame s pkg (.gate 1 h part n 0 0 (noOne pkg) .none)
      else putGate s pkg h ((rawGate s pkg h).count n true)
    tryHeld (wakeGate s pkg h) pkg h

/-! ### GMAKE (R394) -/

/-- The memberships of a partition on a package (R378). -/
def memberships (s : State) (pkg part : Nat) : Nat :=
  let has := fun (g : Gate) => g.opened && (g.aclFor part).isSome
  ((s.sites.filter fun e => pkgOf e.1 == pkg).foldl (fun n e =>
    n + (e.2.gates.filter fun g => has g.2).length) 0) +
    ((pkgAt s pkg).gates.filter fun g => has g.2).length

/-- A partition would exceed its memberships. -/
def membersFull (s : State) (pkg : Nat) (img : Nat) (old : Option Gate) : Bool :=
  (imageAcl img).any fun a => a.v && !(old.any fun g => (g.aclFor a.part).isSome) &&
    decide (limitOf s ⟨pkg, a.part⟩ 5 0xFFFF ≤ memberships s pkg a.part)

def operandA (f : FS) (s : State) : W64 := src64 s f.a
def operandB (f : FS) (s : State) : W64 := src64 s f.b

/-- The 128-byte image at an address, as the context reads it. -/
def withImage (va : VA) (k : Nat → State → State) (s : State) : State :=
  access va (needOther 128 true false) (fun h s => k (readOwn s (me s) h.pa 128) s) s

/-- Earlier writes are acknowledged, and the previous sync operation is performed, before GMAKE performs. -/
def gmake (f : FS) (k : State → State) (s : State) : Out :=
  issueAt .hyp f.fields f.srcs (afterDrain (syncFree k)) s

/-- GMAKE is performed where it issues (R279), as a release: its earlier writes are acknowledged. -/
def gatePoint (h : W64) (s : State) : State := syncObj s (me s) (gateObj h) false true

/-- The four frames of an image (R387). -/
def sendImage (op : Nat) (h : W64) (img : Nat) (d : Opnd) (s : State) : State :=
  let x := me s
  let s := (upto 4).foldl (fun s i => sendFrame s (pkgOf x.core)
    (.gate op h (myCtx s).part 0 i (BitVec.ofNat 256 (img / 2 ^ (256 * i))) (originOf s x) .none)) s
  parkOn .parkedMessage .reply (destOf s d) s

/-- One frame of a change without an image. -/
def sendGate (op : Nat) (h : W64) (part : Nat) (d : Opnd) (s : State) : State :=
  let x := me s
  parkOn .parkedMessage .reply (destOf s d)
    (sendFrame s (pkgOf x.core) (.gate op h part 0 0 0 (originOf s x) .none))

def freeGate (m : Map Gate) (n : Nat) : Option Nat :=
  firstWhere (fun i => !(Map.get m i Gate.zero).opened) (upto n)

def createHome (f : FS) (site img : Nat) (s : State) : State :=
  match freeGate (siteOf s site).gates 16 with
  | none => result f.d (spawnFail 1) (gatePoint (barHandle site 0 0) s)
  | some i =>
    let s := gatePoint (barHandle site i 0) s
    if imageBad img then result f.d (spawnFail 2) s
    else if membersFull s (pkgOf site) img none then result f.d (spawnFail 3) s
    else
      let gen := (Map.get (siteOf s site).gates i Gate.zero).gen
      let h := barHandle site i gen
      let s := putGate s (pkgOf site) h (gateFrom img false gen s.now)
      result f.d (w64 h) (scheduleRefill s (pkgOf site) h)

def createCopse (f : FS) (img : Nat) (s : State) : State :=
  let pkg := (myPart s).pkg
  match freeGate (pkgAt s pkg).gates 1024 with
  | none => result f.d (spawnFail 1) (gatePoint (refillHandle (2 ^ 20 + pkg) 0 0) s)
  | some i =>
    if imageBad img then result f.d (spawnFail 2) (gatePoint (refillHandle (2 ^ 20 + pkg) i 0) s)
    else if membersFull s pkg img none then result f.d (spawnFail 3) (gatePoint (refillHandle (2 ^ 20 + pkg) i 0) s)
    else sendImage 2 (refillHandle (2 ^ 20 + pkg) i (Map.get (pkgAt s pkg).gates i Gate.zero).gen) img f.d s

def createEffect (f : FS) (s : State) : State :=
  withImage ((operandA f s).setWidth 57) (fun img s =>
    if f.imm.getLsbD 8 then createCopse f img s
    else if f.b = .z then onChannel (me s).core (createHome f (me s).core img) s
    else
      let va : VA := (operandB f s).setWidth 57
      access va (needOther 1 true false) (fun h s =>
        match h.space with
        | .dram site => createHome f site img s
        | _ => fault .protection (vaInfo va) s) s) s

def execGmakeCreate (f : FS) (s : State) : Out := gmake f (createEffect f) s

/-- The effect `k` on the gate that A names; status 1 where the handle is stale. -/
def onGate (f : FS) (k : W64 → Gate → State → State) (s : State) : State :=
  let h := operandA f s
  match getGate s (myPart s).pkg h with
  | none => result f.d (nat256 1) (gatePoint h s)
  | some g => k h g s

def execGmakeRevoke (f : FS) (s : State) : Out :=
  gmake f (onGate f fun h _ s =>
    if handleCps h then sendGate 6 h 0 f.d s else result f.d 0 (revokeGate (gatePoint h s) (myPart s).pkg h true)) s

def execGmakeSetacl (f : FS) (s : State) : Out :=
  gmake f (fun s => withImage ((operandB f s).setWidth 57) (fun img s => onGate f (fun h g s =>
    if imageBad img then result f.d (nat256 2) (gatePoint h s)
    else if membersFull s (myPart s).pkg img (some g) then result f.d (nat256 3) (gatePoint h s)
    else if handleCps h then sendImage 3 h img f.d s
    else result f.d 0 (setaclGate (gatePoint h s) (myPart s).pkg h img true)) s) s) s

def freezeEffect (f : FS) (frz : Bool) (s : State) : State :=
  onGate f (fun h g s =>
    let part := (operandB f s).toNat
    if (g.aclFor part).isNone then result f.d (nat256 2) (gatePoint h s)
    else if handleCps h then sendGate (if frz then 4 else 5) h part f.d s
    else result f.d 0 (freezeGate (gatePoint h s) (myPart s).pkg h part frz)) s

def execGmakeFreeze (f : FS) (s : State) : Out := gmake f (freezeEffect f true) s
def execGmakeThaw (f : FS) (s : State) : Out := gmake f (freezeEffect f false) s

/-- The descriptor written to B, 32 bytes at a time. -/
def execGmakeRead (f : FS) (s : State) : Out :=
  gmake f (fun s =>
    let va : VA := (operandB f s).setWidth 57
    access va (needOther 128 false true) (fun hit s => onGate f (fun h g s =>
      let s := gatePoint h s
      let img := gateImage g
      let s := (upto 4).foldl (fun s i =>
        postStore 0 (va + BitVec.ofNat 57 (32 * i)) { hit with pa := hit.pa + 32 * i } 32
          (BitVec.ofNat 256 (img / 2 ^ (256 * i))) false s) s
      result f.d 0 s) s) s) s

/-! ### Frames of copse gates, as a package applies them (R387) -/

/-- The whole image, once its last part has arrived. -/
def imageOf (parts : List (BitVec 256)) : Nat :=
  ((upto 4).zip parts).foldl (fun n e => n + e.2.toNat * 2 ^ (256 * e.1)) 0

/-- A copse gate's operation is applied to the replica of a package; `mine` says the package sent it. -/
def applyGate (s : State) (pkg : Nat) (mine : Bool) (op : Nat) (h : W64) (part n imgPart : Nat) (img : BitVec 256)
    (who : CtxId) : State :=
  let live := getGate s pkg h
  if op = 0 || op == 1 then
    let s := match live with
      | some g => wakeGate (putGate s pkg h (g.count n (op == 1))) pkg h
      | none => s
    let s := if op = 0 && live.isSome then modOrigin s pkg who fun c => dischargeObl c .gate h n else s
    if op = 0 then answerOrigin s pkg who (nat256 ((live.map fun _ => (rawGate s pkg h).sig.toNat).getD 0)) else s
  else if op = 2 || op == 3 then
    let parts := (if imgPart = 0 then [] else (pkgAt s pkg).imgParts) ++ [img]
    let s := modPkg s pkg fun k => { k with imgParts := parts }
    if imgPart ≠ 3 then s
    else
      let image := imageOf parts
      if op = 2 then
        let g := rawGate s pkg h
        if g.opened then answerOrigin s pkg who (spawnFail 1)
        else
          let s := putGate s pkg h (gateFrom image true g.gen s.now)
          answerOrigin (scheduleRefill s pkg h) pkg who (w64 (refillHandle (2 ^ 20 + pkg) (gateIndex h) g.gen))
      else
        match live with
        | none => answerOrigin s pkg who (nat256 1)
        | some _ => answerOrigin (setaclGate s pkg h image mine) pkg who 0
  else
    match live with
    | none => answerOrigin s pkg who (nat256 1)
    | some _ =>
      let s := if op = 6 then revokeGate s pkg h mine else freezeGate s pkg h part (op == 4)
      answerOrigin s pkg who 0

/-- A signal that its package is about to transmit is checked again (R396): a failed check sends no frame. -/
def gateFrameFails (s : State) (pkg : Nat) (b : OBody) : Option (CtxId × Cause × W64) :=
  match b with
  | .gate 0 h part _ _ _ who _ =>
    match getGate s pkg h with
    | none => some (who, .gateStale, h)
    | some g => if aclS g part then none else some (who, .gateDenied, h)
  | _ => none

/-! ### The reset of a sync unit (R239, R383) -/

def execSyncUnitReset (site : Nat) (s : State) : Out :=
  let s := (siteOf s site).bars.foldl (fun s e => breakBarrier s site e.1 e.2) s
  .next ((siteOf s site).gates.foldl (fun s e =>
    if e.2.opened then revokeGate s (pkgOf site) (barHandle site e.1 e.2.gen) true else s) s)

end Sys2Proof.Machine
end

