-- ==== Sys2Proof/Machine/Events.lean ====
section
/-! DEFINITION. The events of a core: results that land (R92, R93, R120, R139), replies and withdrawals (R94,
R181), deposits (R97, R98), a line fetched again (R22), trap entry (R355) and the delivery of asynchronous
events and interrupts (R357 to R359), and throttling (R379). -/

namespace Sys2Proof.Machine

open Sys2Proof

/-! ### Landings -/

def execVariableResultLanding (core n : Nat) (s : State) : Out :=
  let find := fun (s : State) => firstWhere (fun v => v.id == n) (coreOf s core).vpend
  let s := match (find s).bind (·.load) with
    | some u => bindThis s core u
    | none => s
  match find s with
  | none => .next s
  | some v =>
    let s := modCore s core fun k => { k with vpend := listDel (fun q => q.id == n) k.vpend }
    let s := landNow s core v.dst v.val
    let x : CtxId := ⟨core, v.slot⟩
    let s := if v.table && (ctxOf s x).wait == .table && isParked (slotOf s x).st then wake s x 0 else s
    .next (match v.load with
      | some u => wakeDrain s u.ctx
      | none => s)

def execFixedResultLanding (core n : Nat) (s : State) : Out :=
  match firstWhere (fun v => v.id == n) (coreOf s core).pend with
  | none => .next s
  | some v =>
    let s := modCore s core fun k => { k with pend := listDel (fun q => q.id == n) k.pend }
    .next (wakeOperands (landFixed s core v.dst v.val) core 0 fun w => match w with
      | .window e => v.dst == .reg e
      | _ => false)

/-- The divider lands its oldest request; the one behind it was dated when it was accepted. -/
def execDividerResult (core : Nat) (s : State) : Out :=
  match (coreOf s core).divq with
  | [] => .next s
  | q :: t => .next (landNow (modCore s core fun k => { k with divq := t }) core q.dst q.val)

def execSqrtUnitResult (core : Nat) (s : State) : Out :=
  match (coreOf s core).sqq with
  | [] => .next s
  | q :: t => .next (landNow (modCore s core fun k => { k with sqq := t }) core q.dst q.val)

/-! ### The end of a park (R94, R181) -/

/-- An event kept for a suspended core (R370). -/
def saveFor (s : State) (core : Nat) (i : Instr) : State :=
  modCore s core fun k => { k with savedInbox := k.savedInbox ++ [i] }

/-- The class-A member of a pair is not performed (R24): its result, its flags, its annulments and its draws are
taken back. -/
def undoPair (s : State) (x : CtxId) (u : PairUndo) : State :=
  let s := undoWrite s x.core u
  let drop := fun (q : UnitReq) => if q.slot = x.slot && q.dst == u.dest then { q with dst := .none } else q
  let s := modCore s x.core fun k =>
    { k with
      pend := k.pend.filter fun p => !(p.slot == x.slot && decide (u.first ≤ p.id))
      divq := k.divq.map drop
      sqq := k.sqq.map drop }
  modCtx (lfsrUndo s x.core u) x fun c =>
    { c with
      fpstat := u.fpstat
      status := putField c.status stSKN 2 0 }

/-- The D of an instruction that is not performed keeps the presence bit it had, and what its pair has done is
taken back. -/
def restoreD (s : State) (x : CtxId) : State :=
  let c := ctxOf s x
  let s := match c.waitDest with
    | .reg e => setMarks s x.core e fun m => { m with present := true }
    | _ => s
  let s := match c.waitUndo with
    | some u => undoPair s x u
    | none => s
  modCtx s x fun c =>
    { c with
      waitDest := .none
      waitUndo := none
      waitRank := none
      reply := none
      held := none
      badRead := none
      wait := .operand }

/-- A wait that a fill, a counter count or a gate signal ends (R226). -/
def arrivalWait : WaitOn → Bool
  | .word _ _ | .counter _ _ | .gate _ _ => true
  | _ => false

/-- A parked instruction completes with its value. -/
def completeWait (s : State) (x : CtxId) (d : Dest) (v : Reg) : State :=
  let s := catchCore s x.core
  let s := modSlot s x fun sl =>
    { sl with
      st := .ready
      ctx := { sl.ctx with
        pc := sl.ctx.waitNx
        entry := .flow
        source := sl.ctx.waitSrc
        wait := .operand
        waitDest := .none
        waitUndo := none
        waitRank := none
        reply := none
        throttle := none
        held := none
        nextIssue := Nat.max sl.ctx.nextIssue ((coreOf s x.core).cyc + 2) } }
  wakeOperands (landVar s x.core d v) x.core 0 (· == .operand)

/-- A reply completes the instruction parked for it, or makes it trap. -/
def execSyncWakeReply (x : CtxId) (s : State) : Out :=
  let sl := slotOf s x
  match sl.ctx.reply with
  | none => .next s
  | some r =>
    if (coreOf s x.core).suspended && sl.st == .suspended then .next (saveFor s x.core (.syncWakeReply x))
    else if sl.st = .stopped then .next s
    else if !isParked sl.st then .next (modCtx s x fun c => { c with reply := none })
    else
      let s := if arrivalWait sl.ctx.wait then arrivalAt s x else s
      match r with
      | .value d v => .next (completeWait s x d v)
      | .trap k info => .next (takeTrap (restoreD s x) x k info sl.ctx.pc false false)

/-- The home's record of a waiter is withdrawn. -/
def withdrawHome (s : State) (x : CtxId) : State :=
  let pkg := pkgOf x.core
  match (ctxOf s x).wait with
  | .barrier h _ =>
    if handleCps h then sendFrame s pkg (.barrier 7 h 0 (originOf s x) .none)
    else
      let b := rawBarrier s pkg h
      putBarrier s pkg h { b with waiters := b.waiters - 1 }
  | .gate h _ =>
    let g := rawGate s pkg h
    putGate s pkg h { g with waiters := g.waiters - 1 }
  | .array j => removeJob s x.core j
  | _ => s

/-- A parked context leaves its park, its instruction unissued. -/
def withdraw (s : State) (x : CtxId) : State :=
  let s := catchCore (restoreD (withdrawHome s x) x) x.core
  modSlot s x fun sl =>
    { sl with
      st := if sl.st = .stopped then .stopped else .ready
      prev := .ready
      ctx := { sl.ctx with nextIssue := Nat.max sl.ctx.nextIssue (coreOf s x.core).cyc } }

/-- The withdrawal of R181: a wait whose value the home has supplied completes instead. -/
def execWaitWithdrawal (x : CtxId) (s : State) : Out :=
  let sl := slotOf s x
  if isParked (effSt sl) && sl.ctx.reply.isNone then .next (withdraw s x) else .next s

/-! ### Deposits (R97, R98) -/

/-- The register-file entry that a deposit reaches; `none` where it is dropped. -/
def depositEntry (s : State) (d : Deposit) : Option Nat :=
  let sl := slotOf s ⟨d.core, d.slot⟩
  if !hasBody (effSt sl) || sl.ctx.winSize ≤ d.reg then none else some (sl.ctx.winBase + d.reg)

/-- A deposit is written: all 256 bits, or with poison nothing but the marks. -/
def writeDeposit (s : State) (d : Deposit) (e : Nat) : State :=
  modCore s d.core fun k =>
    { k with
      rf := if d.poison then k.rf else Map.put k.rf e d.val
      marks := Map.put k.marks e ⟨true, true, d.poison, none⟩ }

def execDepositArrival (n : Nat) (s : State) : Out :=
  match firstWhere (fun d => d.id == n) s.deposits with
  | none => .next s
  | some d =>
    if (coreOf s d.core).suspended then .next (saveFor s d.core (.depositArrival n))
    else
      let s := { s with deposits := listDel (fun q => q.id == n) s.deposits }
      match depositEntry s d with
      | none => .next (modRef s d.part d.sender fun c => { c with status := putBit c.status stLINKDROP true })
      | some e =>
        let unread := (entryMarks s d.core e).unread
        let s := arrivalAt (writeDeposit (catchCore s d.core) d e) ⟨d.core, d.slot⟩
        let s := if unread then pmCore (setStatus s ⟨d.core, d.slot⟩ stLINKOVR true) d.core 0x0B 1 else s
        .next (wakeOperands s d.core 1 fun w => w == .armed e || w == .operand)

/-! ### A line fetched again (R22) -/

def execLineRefetch (x : CtxId) (s : State) : Out :=
  let c := ctxOf s x
  match fetchLine s x c.pc with
  | .ok l => .next (modCtx (fetched s x c.pc) x fun c => { c with line := some l })
  | .miss => .next (parkWalkOf s x c.pc)
  | .fault k fm => .next (takeTrap (fetched s x c.pc) x k (lineInfo k fm c.source c.pc) c.pc false false)
  | .bad e pa => .next (parkBadLine (fetched s x c.pc) x e pa)

/-! ### Entry into handlers (R103, R355 to R359) -/

/-- A visitor can go home: its accesses are performed and its registers present, but for the D of an instruction on
which it is parked and which it will leave unissued. -/
def mayGoHome (s : State) (x : CtxId) : Bool :=
  drained s x && windowQuiet (if isParked (slotOf s x).st then restoreD s x else s) x

/-- A visitor goes home, as HOME does, once its accesses are performed and its registers present. -/
def goHome (s : State) (x : CtxId) : State :=
  if drained s x && windowQuiet s x then sendCtx s x (originOf s x).core .none true none else s

/-- The handler is entered once the write windows have closed; a visitor first returns to its origin. -/
def execTrapEntry (x : CtxId) (s : State) : Out :=
  let sl := slotOf s x
  match sl.ctx.trap with
  | none => .next s
  | some t =>
    if sl.st ≠ .trapped || windowOpen s x then .next s
    else if visiting s x then .next (goHome s x)
    else .next (enterTrap (catchCore s x.core) x t.cause t.info t.epc t.asy t.rsm)

/-- The order of R357. -/
def asyncRank : Cause → Nat
  | .cancelled => 0
  | .rollback => 1
  | .txAbort => 2
  | .orphan => 3
  | .engineFault => 4
  | .memoryRace => 5
  | .countMismatch => 6
  | _ => 7

/-- Whether an event's target level can take it; ORPHAN waits for every handler to end (R75). -/
def deliverable (c : Ctx) (e : AsyncEv) : Bool :=
  if e.cause = .timing then false
  else if e.cause = .orphan then !handlerRuns c else !levelRuns c (targetLevel c e.cause e.info)

/-- The pending event that is taken next: the first of the best rank. -/
def nextEvent (c : Ctx) : Option AsyncEv :=
  (c.events.filter (deliverable c)).foldl (fun m e =>
    match m with
    | none => some e
    | some b => if asyncRank e.cause < asyncRank b.cause then some e else some b) none

/-- The first member of a pair has been annulled and the second is to issue alone (R39). -/
def halfPair (c : Ctx) : Bool :=
  match c.line with
  | some l => c.entry == .flow && l.addr == lineAddr c.pc && l.second (cellNo c.pc)
  | none => false

/-- Instructions are still to be annulled (R125). The annulments of a pair whose other member has parked are
those of an unissued instruction (R24, R358). -/
def annulling (sl : Slot) : Bool := skn sl.ctx != 0 && !(isParked sl.st && sl.ctx.waitUndo.isSome)

/-- The conditions of R357 and R358 on a context at an instruction boundary. -/
def atBoundary (s : State) (x : CtxId) : Bool :=
  let sl := slotOf s x
  !halfPair sl.ctx &&
  (sl.st == .ready || (isParked sl.st && sl.ctx.wait != .reply)) && sl.ctx.reply.isNone && sl.ctx.trap.isNone &&
    !windowOpen s x && !annulling sl

/-- What pre-emption of the core waits for in a context (R125, R357, R370): annulments that it has still to make, the
second member of a pair whose first it has annulled, and, where it awaits a reply, its own write windows. -/
def preemptHeld (s : State) (x : CtxId) : Bool :=
  let sl := slotOf s x
  (sl.st == .ready || isParked sl.st) &&
    (annulling sl || (sl.st == .ready && halfPair sl.ctx) ||
      (isParked sl.st && (sl.ctx.wait == .reply || sl.ctx.reply.isSome) && windowOpen s x))

/-- The first cell from cell `k` of a line, or in the lines after it, that is not literal (R16); the walks that this
takes are made at once. Where a line cannot be read, its first cell. -/
def cellFrom (s : State) (x : CtxId) : Nat → VA → VA
  | 0, t => t
  | n + 1, t =>
    match (match (ctxOf s x).line with
      | some l => if l.addr = lineAddr t then LineRes.ok l else fetchNow s x t
      | none => fetchNow s x t) with
    | .ok l =>
      match firstCell l (cellNo t) with
      | some i => l.addr + BitVec.ofNat 57 i
      | none => cellFrom s x n (l.addr + 64)
    | _ => t

/-- The PC of the next instruction in sequential flow, literal cells passed over. -/
def nextInstrPc (s : State) (x : CtxId) : VA :=
  let c := ctxOf s x
  if c.entry ≠ .flow || badPc c.pc then c.pc else cellFrom s x allLines c.pc

/-- A context is taken out of its park for an event, or gives up the throttled request that it is to offer again. A
wait whose value its home has supplied completes instead (R181). -/
def leavePark (s : State) (x : CtxId) : State :=
  if isParked (slotOf s x).st then
    match (ctxOf s x).reply with
    | some (.value d v) => completeWait s x d v
    | _ => withdraw s x
  else if (ctxOf s x).held.isSome then withdraw s x
  else s

def execAsyncEventDelivery (x : CtxId) (s : State) : Out :=
  if !atBoundary s x then .next s
  else
    match nextEvent (wholeCtx s x) with
    | none => .next s
    | some e =>
      let s := leavePark s x
      let epc := nextInstrPc s x
      let rsm := e.cause == .rollback
      let s := modCtx s x fun c =>
        { c with
          events := if e.cause = .cancelled then [] else c.events.erase e
          ints := if e.cause = .cancelled then [] else c.ints
          intsOut := if e.cause = .cancelled then 0 else c.intsOut
          uintOwed := if e.cause = .cancelled then 0 else c.uintOwed
          xferid := e.xid.getD c.xferid }
      let s := dropYield s x
      if visiting s x then
        .next (modSlot s x fun sl => { sl with
          st := .trapped
          ctx := { sl.ctx with trap := some ⟨e.cause, e.info, epc, true, rsm⟩ } })
      else .next (enterTrap (catchCore s x.core) x e.cause e.info epc true rsm)

/-- Whether a user-level interrupt is deliverable. -/
def intDue (s : State) (x : CtxId) : Bool :=
  let c := ctxOf s x
  atBoundary s x && !c.ints.isEmpty && intsOpen c && (nextEvent (wholeCtx s x)).isNone

/-- A visitor leaves its park to go home for a user-level interrupt: WAITI completes, and the interrupt, delivered at
home, is the one that it awaited (R18, R103); any other park is left. -/
def leaveForInt (s : State) (x : CtxId) : State :=
  if isParked (slotOf s x).st && (ctxOf s x).wait == .waiti then
    modCtx (completeWait s x .none 0) x fun c => { c with uintOwed := c.uintOwed + 1 }
  else leavePark s x

/-- Delivery of the earliest completion: WAITI completes (R18), any other park is left, and the handler is
entered at user level (R359). The interrupt that ends a WAITI does not end the next one too (the model's choice:
notes/assumptions/120). -/
def execUserInterruptDelivery (x : CtxId) (s : State) : Out :=
  if !intDue s x then .next s
  else if visiting s x then .next (goHome (leaveForInt s x) x)
  else
    match (ctxOf s x).ints with
    | [] => .next s
    | k :: rest =>
      let waits := isParked (slotOf s x).st && (ctxOf s x).wait == .waiti
      let s := if waits then completeWait s x .none 0 else leavePark s x
      let s := dropYield (catchCore s x.core) x
      let epc := nextInstrPc s x
      let s := note (pmCore (newRegion s x) x.core 0x0E 1) x.core 5 x.slot 0 (epc.setWidth 64)
      .next (modSlot s x fun sl =>
        { sl with
          st := .ready
          ctx := { enterCtx sl.ctx .user .userInt (k.xid.setWidth 64) epc (k.handler.setWidth 57) false true false with
            ints := rest
            intsOut := sl.ctx.intsOut - 1
            xferid := k.xid
            uintTaken := sl.ctx.uintTaken || (!waits && sl.ctx.uintOwed == 0)
            uintOwed := sl.ctx.uintOwed - 1
            nextIssue := (coreOf s x.core).cyc + 2 } })

/-- Whether a visitor is to be returned (R104): the return is an asynchronous event (R96). -/
def overstayed (s : State) (x : CtxId) : Bool :=
  let k := coreOf s x.core
  56 ≤ x.slot && !k.inbox.isEmpty && decide ((ctxOf s x).arrivedAt + 4096 ≤ k.cyc) && atBoundary s x && mayGoHome s x

/-- A visitor travels to its origin as though HOME had issued, with `sys.status.vret` set; a wait in progress is
withdrawn and made again there. -/
def execVisitorReturn (x : CtxId) (s : State) : Out :=
  let s := setStatus (leavePark s x) x stVRET true
  .next (sendCtx s x (originOf s x).core .none true none)

/-! ### Throttling (R379) and dropped messages (R376) -/

/-- A throttled request is to be offered again: the context is ready with it. -/
def execThrottleRetry (x : CtxId) (s : State) : Out :=
  let sl := slotOf s x
  match sl.ctx.wait with
  | .throttled _ => .next (if isParked sl.st then wake (catchCore s x.core) x 0 else s)
  | _ => .next s

/-- Since when a context waits for its quota or its tokens. -/
def throttledSince : WaitOn → Option Nat
  | .throttled t => some t
  | .gateHold _ _ _ t => t
  | _ => none

def execThrottleTimeout (x : CtxId) (s : State) : Out :=
  let sl := slotOf s x
  match throttledSince sl.ctx.wait with
  | some t =>
    if isParked sl.st && sl.ctx.reply.isNone && t + oneMs ≤ s.now then
      let s := modCtx (withdraw s x) x fun c => { c with throttle := none }
      .next (takeTrap s x .quota 0 sl.ctx.pc false false)
    else .next s
  | none => .next s

def execDropReport (x : CtxId) (info : BitVec 64) (s : State) : Out :=
  let sl := slotOf s x
  if isParked sl.st && sl.ctx.wait == .reply && sl.ctx.reply.isNone then
    .next (takeTrap (restoreD (logDrop s x info) x) x .protectionPart info sl.ctx.pc false false)
  else .next s

end Sys2Proof.Machine
end

