-- ==== Sys2Proof/Machine/Floats.lean ====
section
/-! DEFINITION. FCMP, FADD to FDOT (R131 to R139). -/

namespace Sys2Proof.Machine

open Sys2Proof

/-- The condition of FCMP (R133). -/
def floatCond (cc : Nat) (a b : FVal) : Bool :=
  let un := a.isNan || b.isNan
  let o := cmpF a b
  if cc = 0 then !un && o == .eq else if cc = 1 then un || o != .eq
  else if cc = 2 then !un && o == .lt else if cc = 3 then !un && o != .gt
  else if cc = 4 then !un && o == .gt else if cc = 5 then !un && o != .lt
  else if cc = 6 then un else !un

def execFcmp (f : FR) (s : State) : Out :=
  issue f.fields (FR.reads f s) (fun s =>
    compareEffect f (fun i => floatCond (bitsOf f.min.toNat 1 4) (floatLane f s f.a f.negA i)
      (floatLane f s f.b f.negB i)) s) s

def execFadd (f : FR) (s : State) : Out := floatOp 4 (fun rm a b _ => addF rm a b) f s
def execFsub (f : FR) (s : State) : Out := floatOp 4 (fun rm a b _ => addF rm a b.negate) f s
def execFmul (f : FR) (s : State) : Out := floatOp 4 (fun _ a b _ => mulF a b) f s
def execFma (f : FR) (s : State) : Out := floatOp 4 (fun rm a b c => fmaF rm a b c) f s
def execFmin (f : FR) (s : State) : Out := floatOp 4 (fun _ a b _ => minmaxF false a b) f s
def execFmax (f : FR) (s : State) : Out := floatOp 4 (fun _ a b _ => minmaxF true a b) f s
def execFrcp (f : FR) (s : State) : Out := floatOp 8 (fun _ a _ _ => frcpF a) f s
def execFrsq (f : FR) (s : State) : Out := floatOp 8 (fun _ a _ _ => frsqF a) f s
def execFex2 (f : FR) (s : State) : Out := floatOp 8 (fun _ a _ _ => fex2F a) f s
def execFlg2 (f : FR) (s : State) : Out := floatOp 8 (fun _ a _ _ => flg2F a) f s

/-- FSQT (R139): the square-root unit keeps its requests in issue order; the flags are decided at
issue. -/
def execFsqt (f : FR) (s : State) : Out :=
  issue f.fields (FR.reads f s) (fun s =>
    let on := lanesOn f s
    let l := floatLanes f.t f.rm f.sat on (wideSrc s 1 f.d) (myCore s).lfsr fun i =>
      fsqtF (floatLane f s f.a f.negA i)
    withFlags (orFlags l) (fun s =>
      let d := destOf s f.d
      let s := clearPresence s d
      let L := if f.t = .f32 then 16 else 24
      stepLfsr f.rm (drawsBefore on f.t.lanes) (advance (modCore s (me s).core fun k =>
        { k with sqq := k.sqq ++ [⟨unitDue k.sqq k.cyc L, (me s).slot, d,
            nat256 (packLanes 32 (l.map (·.1)))⟩] }))) s) s

/-- The exact sum of FDOT (R138): the value, and nv for 0 × ∞ or infinite terms of both signs. -/
def fdotSum (f : FR) (s : State) : FVal × Flags :=
  let on := lanesOn f s
  let c := floatLaneAt .f32 f.imm20 s f.c 0
  let c := if f.negC then c.negate else c
  let prods := ((upto f.t.lanes).filter on.getLsbD).map fun i =>
    mulF (floatLane f s f.a f.negA i) (floatLane f s f.b f.negB i)
  let terms := c :: prods.map (·.1)
  let inval := prods.any (·.2 != 0)
  let both := terms.any (· == .inf true) && terms.any (· == .inf false)
  if inval || both then (.nan, fNV)
  else (prods.foldl (fun a p => (addF f.rm a p.1).1) c, 0)

def execFdot (f : FR) (s : State) : Out :=
  issue f.fields f.srcs (fun s =>
    let (x, fl) := fdotSum f s
    let r := roundSat fp32 f.rm f.sat (drawOf (myCore s).lfsr 1) x
    withFlags (fl ||| r.flags) (fun s =>
      stepLfsr f.rm 1 (advance (openWindow s 6 (destOf s f.d) (nat256 (encodeF fp32 r.val))))) s) s

end Sys2Proof.Machine
end

