-- ==== Sys2Proof/Machine/Queues.lean ====
section
/-! DEFINITION. Queues and their commands (R207 to R209), launch packets (R210, R211), the dispatcher and
placement (R212, R213, R398 to R401), KSWAP (R203 to R206), QSUB, LAUNCH, CNTW and CNCL (R214 to R217), and
counters (R221, R222). -/

namespace Sys2Proof.Machine

open Sys2Proof

/-! ### The dispatcher's turns (R212, R401) -/

def qrt (s : State) (p : PartId) (q : Nat) : QueueRt :=
  (firstWhere (fun r => r.part == p && r.q == q) s.queues).getD ⟨p, q, 0, 0, none, none⟩

def putQrt (s : State) (r : QueueRt) : State :=
  { s with queues := (s.queues.filter fun e => !(e.part == r.part && e.q == r.q)) ++ [r] }

def dropQrt (s : State) (p : PartId) (q : Nat) : State :=
  { s with queues := s.queues.filter fun e => !(e.part == p && e.q == q) }

def us100 : Nat := ns 100000

/-- A head becomes active: its time counts toward aging. -/
def headActive (s : State) (p : PartId) (q : Nat) : State :=
  let r := qrt s p q
  let s := putQrt s { r with since := some s.now }
  atOnce s (s.now + (us100 * (r.raised + 1) - r.waited)) (.queuePriorityAging p q)

/-- A head is blocked or suspended: its time stands still. -/
def headIdle (s : State) (p : PartId) (q : Nat) : State :=
  let r := qrt s p q
  match r.since with
  | some t =>
    putQrt s { r with
      waited := r.waited + (s.now - t)
      since := none }
  | none => s

/-- The effective priority of a queue. -/
def effPrio (s : State) (p : PartId) (q : Nat) : Nat := Nat.min 3 (qPrio s p q + (qrt s p q).raised)

/-- Whether the dispatcher can do something for a queue now. -/
def queueReady (s : State) (p : PartId) (q : Nat) : Bool :=
  match headLaunch s p q with
  | some l => !l.stuck && (qState s p q == 2 || qState s p q == 5)
  | none => qState s p q == 2

/-- The queues that a die's dispatcher serves, as partition and number, in order of number. -/
def queuesOf (s : State) (pkg die : Nat) : List (PartId × Nat) :=
  (s.parts.filter fun e => e.1 / 65536 == pkg && e.2.qtab != 0).flatMap fun e =>
    let p : PartId := ⟨pkg, e.1 % 65536⟩
    ((upto 256).filter fun q => qState s p q != 0 && qDie s p q == die).map fun q => (p, q)

def turnKey (e : PartId × Nat) : Nat := e.1.part * 256 + e.2

/-- What a dispatcher does next. -/
inductive Work where
  | launch (n : Nat)
  | queue (p : PartId) (q : Nat)
  deriving DecidableEq, Repr

/-- The turn of an effective priority at a die: its queue, and the packets taken in it. -/
def turnOf (s : State) (pkg die level : Nat) : Nat × Nat := Map.get (dieAt s (pkg * 4 + die)).turns level (0, 0)

/-- The queue that is served next: one whose head is taken and can go on, else, of the highest effective priority,
the one in its turn while it has packets left in it, then the next in round-robin order. -/
def pickQueue (s : State) (pkg die : Nat) : Option (PartId × Nat) :=
  let ready := (queuesOf s pkg die).filter fun e => queueReady s e.1 e.2
  let begun := ready.filter fun e => (headLaunch s e.1 e.2).isSome
  let pool := if begun.isEmpty then ready else begun
  let top := pool.foldl (fun m e => Nat.max m (effPrio s e.1 e.2)) 0
  let best := pool.filter fun e => effPrio s e.1 e.2 == top
  let t := turnOf s pkg die top
  match firstWhere (fun e => turnKey e == t.1 && decide (t.2 < qget s e.1 e.2 9 1)) best with
  | some e => some e
  | none =>
    match firstWhere (fun e => decide (t.1 < turnKey e)) best with
    | some e => some e
    | none => best.head?

def pickWork (s : State) (pkg die : Nat) : Option Work :=
  let req := firstWhere (fun l => l.pkg == pkg && l.die == die && l.queue.isNone && !l.stuck) s.launches
  let q := pickQueue s pkg die
  let yields := decide (64 ≤ (dieAt s (pkg * 4 + die)).consec) && q.isSome
  match req with
  | some l => if yields then q.map fun e => .queue e.1 e.2 else some (.launch l.id)
  | none => q.map fun e => .queue e.1 e.2

/-- A dispatcher is at work: an event of its own is under way. -/
def dispatching (s : State) (pkg die : Nat) : Bool :=
  s.agenda.any fun e => match e.2 with
    | .unitPlacement n => s.launches.any fun l => l.id == n && l.pkg == pkg && l.die == die
    | .packetValidation p q => p.pkg == pkg && qDie s p q == die
    | _ => false

/-- The queue of a turn, if its turn is still open: packets are left in it, and its head waits for room or its next
packet is there (R212). -/
def openTurn (s : State) (pkg die : Nat) (t : Nat × Nat) : Option (PartId × Nat) :=
  (queuesOf s pkg die).find? fun e => turnKey e == t.1 &&
    ((headLaunch s e.1 e.2).isSome || decide (t.2 < qget s e.1 e.2 9 1) && queueReady s e.1 e.2)

/-- The turn of a queue's effective priority is the queue's: its own where that is still open, else a new one. An open
turn of another queue is kept for it. -/
def takeTurn (s : State) (p : PartId) (q die : Nat) : State :=
  let level := effPrio s p q
  let t := turnOf s p.pkg die level
  if t.1 = turnKey (p, q) && ((headLaunch s p q).isSome || decide (t.2 < qget s p q 9 1)) then s
  else
    let s := match openTurn s p.pkg die t with
      | some e => if e = (p, q) then s else putQrt s { qrt s e.1 e.2 with turn := some t.2 }
      | none => s
    let taken := ((qrt s p q).turn.filter fun n => (headLaunch s p q).isSome || decide (n < qget s p q 9 1)).getD 0
    let s := if (qrt s p q).turn.isSome then putQrt s { qrt s p q with turn := none } else s
    modDie s (p.pkg * 4 + die) fun d => { d with turns := Map.put d.turns level (turnKey (p, q), taken) }

/-- A packet of a queue is taken in its turn. -/
def countTurn (s : State) (p : PartId) (q : Nat) : State :=
  let level := effPrio s p q
  let t := turnOf s p.pkg (qDie s p q) level
  if t.1 = turnKey (p, q) then
    modDie s (p.pkg * 4 + qDie s p q) fun d => { d with turns := Map.put d.turns level (t.1, t.2 + 1) }
  else s

/-- A queue turn is over, or waits: LAUNCH requests come first again (R401). -/
def endTurn (s : State) (pkg die : Nat) : State := modDie s (pkg * 4 + die) fun d => { d with consec := 0 }

/-- The dispatcher takes up its next work. -/
def kick (s : State) (pkg die : Nat) : State :=
  if dispatching s pkg die then s
  else
    match pickWork s pkg die with
    | none => s
    | some w =>
      let (t, s) := nextLat s
      match w with
      | .launch n => at_ s (s.now + t) (.unitPlacement n)
      | .queue p q =>
        match headLaunch s p q with
        | some l => at_ (takeTurn s p q die) (s.now + t) (.unitPlacement l.id)
        | none => at_ (takeTurn s p q die) (s.now + t) (.packetValidation p q)

def kickQueue (s : State) (p : PartId) (q : Nat) : State := kick s p.pkg (qDie s p q)

/-- A queue with packets and nothing taken becomes active; one without becomes idle. -/
def lookQueue (s : State) (p : PartId) (q : Nat) : State :=
  if qHead s p q = qTail s p q then setQState s p q 1
  else kickQueue (headActive (setQState s p q 2) p q) p q

/-! ### Launch packets (R210) -/

abbrev Packet := BitVec 512

def pk (b : Packet) (lo n : Nat) : Nat := bitsOf b.toNat (8 * lo) (8 * n)
def pkType (b : Packet) : Nat := pk b 0 1
def pkPolicy (b : Packet) : Nat := pk b 1 1 % 4
def pkTimed (b : Packet) : Bool := bitAt (pk b 1 1) 2
def pkSteward (b : Packet) : Nat := pk b 2 2
def pkUnits (b : Packet) : Nat := pk b 4 4
def pkKdesc (b : Packet) : Nat := pk b 8 8
def pkArgs (b : Packet) : Nat := pk b 16 8
def pkPlace (b : Packet) : Nat := pk b 24 8
def pkStride (b : Packet) : Int := signed 64 (pk b 32 8)
def pkWaitCnt (b : Packet) : Nat := pk b 40 2
def pkLcnt (b : Packet) : Nat := pk b 42 2
def pkWaitVal (b : Packet) : Nat := pk b 44 4
def pkRanks (b : Packet) : Nat := pk b 48 8
def pkLo (b : Packet) : Nat := bitsOf (pkRanks b) 0 16
def pkHi (b : Packet) : Nat := bitsOf (pkRanks b) 16 17
def pkNcore (b : Packet) : Nat := pk b 56 2

/-- Whether `n` bytes at a virtual address can be read by units of the device. -/
def vaReadable (s : State) (p : PartId) (va n : Nat) : Bool :=
  (pieces (n / 65536 + 2) va n).all fun e =>
    match walk s p (BitVec.ofNat 57 e.1) with
    | .ok t _ fr _ =>
      t.rd && (match spaceOf s p.pkg (fr * 65536) with
        | .dram _ => true
        | _ => false)
    | _ => false

/-- `n` bytes across pages. -/
def readRange (s : State) (p : PartId) (va n : Nat) : Nat :=
  ((pieces (n / 65536 + 2) va n).foldl (fun (m : Nat × Nat) e =>
    (m.1 + (readVa s p e.1 e.2).getD 0 * 256 ^ m.2, m.2 + e.2)) (0, 0)).1

def kRegs (s : State) (p : PartId) (k : Nat) : Nat := kfield s p k 18 2
def kStash (s : State) (p : PartId) (k : Nat) : Nat := kfield s p k 20 2
def kNeed (s : State) (p : PartId) (k : Nat) : Nat := kfield s p k 22 2

/-- The tables that a kernel names are readable (R198). -/
def tablesReadable (s : State) (p : PartId) (k : Nat) : Bool :=
  vaReadable s p (kfield s p k 64 8) (4 * kfield s p k 14 2) &&
    vaReadable s p (kfield s p k 72 8) (32 * kfield s p k 16 2) &&
    vaReadable s p (kfield s p k 56 8) (16 * kfield s p k 12 2)

/-- The home-follow core of unit i; `none` where the address does not translate. -/
def followCore (s : State) (p : PartId) (b : Packet) (i : Nat) : Option Nat :=
  let va : VA := BitVec.ofNat 57 (wrapNat 57 ((pkPlace b : Int) + (i : Int) * pkStride b))
  match walk s p va with
  | .ok _ _ fr _ =>
    match spaceOf s p.pkg (fr * 65536 + va.toNat % 65536) with
    | .dram site => some (homeCore s site)
    | _ => none
  | _ => none

/-- The listed core of unit i. -/
def listedCore (s : State) (p : PartId) (b : Packet) (i : Nat) : Option Nat :=
  logicalCore s p (readRange s p (pkPlace b + 2 * (i % pkNcore b)) 2)

/-- Whether a core is a logical core of a partition on its package. -/
def isLogical (s : State) (p : PartId) (core : Nat) : Bool :=
  pkgOf core == p.pkg && logicalNo s p core != 0x3FFF

/-- Code 7 of R210. -/
def placeBad (s : State) (p : PartId) (b : Packet) : Bool :=
  if pkPolicy b = 0 then
    pkNcore b == 0 || (upto (pkNcore b)).any fun i => (listedCore s p b i).isNone
  else if pkPolicy b = 1 then
    (upto (Nat.min (pkUnits b) (2 ^ 24))).any fun i =>
      match followCore s p b i with
      | some c => !isLogical s p c
      | none => true
  else false

/-- A kernel whose state no launch may name (R196, R197). -/
def kernelBarred (s : State) (p : PartId) (k : Nat) : Bool := kstate s p k < 2 || 5 < kstate s p k

/-- The code with which a packet is rejected before its dependence is looked at; `none` where it passes. -/
def packetCode (s : State) (p : PartId) (b : Packet) : Option Nat :=
  let marker := pkType b == 1
  let k := placedKernel s p (pkKdesc b)
  if decide (1 < pkType b) || !marker && pkPolicy b == 3 || bitsOf (pk b 1 1) 3 5 != 0 || pk b 58 6 != 0 ||
      bitsOf (pkRanks b) 33 31 != 0 ||
      (!marker && pkSteward b != 0xFFFF && decide (pkUnits b ≤ pkSteward b)) then some 1
  else if !marker && vaReadable s p (pkKdesc b) 128 && kernelBarred s p k then some 2
  else if !marker && !(vaReadable s p (pkKdesc b) 128 && vaReadable s p k 128 && tablesReadable s p k &&
      (pkPolicy b != 0 || vaReadable s p (pkPlace b) (2 * pkNcore b))) then some 3
  else if !marker && (kStash s p k % 16 != 0 || decide (288 < kStash s p k) || !legalSize (kRegs s p k)) then some 4
  else if !marker && (decide (pkHi b ≤ pkLo b) || decide (0x10000 < pkHi b) ||
      decide (pkHi b - pkLo b < kNeed s p k)) then some 5
  else if !ctrOk s p (pkLcnt b) || (pkWaitCnt b != 0xFFFF && !ctrOk s p (pkWaitCnt b)) then some 6
  else if !marker && placeBad s p b then some 7
  else if !marker && (pkUnits b == 0 || decide (2 ^ 24 < pkUnits b)) then some 8
  else none

/-- Whether the dependence of a packet is met (R211). -/
def dependMet (s : State) (p : PartId) (b : Packet) : Bool :=
  pkWaitCnt b == 0xFFFF || decide (pkWaitVal b ≤ ctrValue (counterEntry s p (pkWaitCnt b)))

def dependPoison (s : State) (p : PartId) (b : Packet) : Bool :=
  pkWaitCnt b != 0xFFFF && ctrPoison (counterEntry s p (pkWaitCnt b))

/-- The packet at a queue's head. -/
def headPacket (s : State) (p : PartId) (q : Nat) : Packet :=
  BitVec.ofNat 512 (readRange s p (slotVa s p q (qHead s p q)) 64)

/-- The head packet has gone: the queue goes on to its next, or settles. -/
def headDone (s : State) (p : PartId) (q : Nat) : State :=
  let t := turnOf s p.pkg (qDie s p q) (effPrio s p q)
  let s := dropQrt (qput s p q 20 4 ((qHead s p q + 1) % 2 ^ 32)) p q
  let more := t.1 == turnKey (p, q) && decide (t.2 < qget s p q 9 1) && qState s p q == 2 && qHead s p q != qTail s p q
  let s := if more then s else endTurn s p.pkg (qDie s p q)
  if qState s p q = 5 then settleQueue s p q
  else if qState s p q = 2 then lookQueue s p q
  else s

/-- The head is rejected (R209, R210). -/
def rejectHead (s : State) (p : PartId) (q code : Nat) : State :=
  endTurn (dropQrt (qput (setQState s p q 6) p q 12 1 code) p q) p.pkg (qDie s p q)

/-- A packet accepted for placement. -/
def acceptLaunch (s : State) (p : PartId) (die : Nat) (b : Packet) (queue : Option Nat) (issuer : Heir) : State :=
  let (n, s) := fresh s
  { s with launches := s.launches ++ [
    { id := n
      pkg := p.pkg
      die := die
      part := p.part
      gid := 0
      queue := queue
      packet := b
      kdesc := pkKdesc b
      next := 0
      lastCore := none
      issuer := issuer
      stuck := false }] }

/-- A head packet is validated, and taken when its dependence is met. -/
def validateHead (s : State) (p : PartId) (q : Nat) : State :=
  if qState s p q ≠ 2 || (headLaunch s p q).isSome then s
  else if !vaReadable s p (slotVa s p q (qHead s p q)) 64 then rejectHead s p q 3
  else
    let b := headPacket s p q
    match packetCode s p b with
    | some code => rejectHead s p q code
    | none =>
      if !dependMet s p b then endTurn (headIdle (setQState s p q 3) p q) p.pkg (qDie s p q)
      else if dependPoison s p b then rejectHead s p q 9
      else
        let s := countTurn s p q
        if pkType b = 1 then headDone (countOn s p (pkLcnt b) false) p q
        else acceptLaunch s p (qDie s p q) b (some q) .none

def execPacketValidation (p : PartId) (q : Nat) (s : State) : Out :=
  let die := qDie s p q
  .next (kick (validateHead s p q) p.pkg die)

/-- A blocked head's dependence is met (R209, R211). -/
def execHeadDependenceMet (p : PartId) (q : Nat) (s : State) : Out :=
  if qState s p q = 3 && dependMet s p (headPacket s p q) then
    .next (kickQueue (headActive (setQState s p q 2) p q) p q)
  else .next s

/-- A head that has waited 100 µs more rises one level (R212). -/
def execQueuePriorityAging (p : PartId) (q : Nat) (s : State) : Out :=
  let r := qrt s p q
  match r.since with
  | none => .next s
  | some t =>
    if us100 * (r.raised + 1) ≤ r.waited + (s.now - t) && effPrio s p q < 3 then
      let s := putQrt s { r with raised := r.raised + 1 }
      .next (kickQueue (atOnce s (s.now + us100) (.queuePriorityAging p q)) p q)
    else .next s

/-! ### Commands (R209) -/

def putCmd (s : State) (p : PartId) (q v : Nat) : State := qput s p q 4 1 v

/-- A command is carried out where the state is one of `froms`, else refused. -/
def command (froms : List Nat) (p : PartId) (q : Nat) (k : State → State) (s : State) : Out :=
  if froms.contains (qState s p q) then .next (k (putCmd s p q 0)) else .next (putCmd s p q 0xFF)

def execCmdConfigure (p : PartId) (q : Nat) (s : State) : Out :=
  let legal := decide (4 ≤ qLogn s p q) && decide (qLogn s p q ≤ 16) && decide (qDie s p q < 4) &&
    decide (1 ≤ qget s p q 9 1) && decide (qget s p q 9 1 ≤ 16) && qRing s p q % 64 == 0 &&
    decide (qRing s p q < 2 ^ 57) && bitsOf (qget s p q 8 1) 2 5 == 0 && decide (q < limitOf s p 8 256)
  if legal then
    command [0] p q (fun s => setQState (qput (qput s p q 20 4 0) p q 24 4 0) p q 1) s
  else .next (putCmd s p q 0xFF)

def execCmdSuspend (p : PartId) (q : Nat) (s : State) : Out :=
  command [1, 2, 3] p q (fun s => headIdle (setQState s p q 4) p q) s

/-- The head packet is one that waits for its dependence. -/
def headWaits (s : State) (p : PartId) (q : Nat) : Bool :=
  qHead s p q != qTail s p q && vaReadable s p (slotVa s p q (qHead s p q)) 64 &&
    (packetCode s p (headPacket s p q)).isNone && !dependMet s p (headPacket s p q)

/-- Resumption: idle, active or blocked as the head dictates. -/
def resumeQueue (p : PartId) (q : Nat) (s : State) : State :=
  if (headLaunch s p q).isSome then kickQueue (headActive (setQState s p q 2) p q) p q
  else if headWaits s p q then setQState s p q 3
  else lookQueue s p q

def execCmdResume (p : PartId) (q : Nat) (s : State) : Out := command [4] p q (resumeQueue p q) s

/-- A head that has been taken, and none of whose units is placed, stays in the ring as a packet that has not been
taken. -/
def untakeHead (s : State) (p : PartId) (q : Nat) : State :=
  match headLaunch s p q with
  | some l => if l.next = 0 then { s with launches := listDel (fun e => e.id == l.id) s.launches } else s
  | none => s

def execCmdDrain (p : PartId) (q : Nat) (s : State) : Out :=
  command [1, 2, 3, 4] p q (fun s => kickQueue (settleQueue (setQState (untakeHead s p q) p q 5) p q) p q) s

/-- Units of a launch that will not be placed each count once with poison, and its placement stops. -/
def dropLaunch (s : State) (l : Launch) : State :=
  let p : PartId := ⟨l.pkg, l.part⟩
  let s := { s with launches := listDel (fun e => e.id == l.id) s.launches }
  let s := (upto (pkUnits l.packet - l.next)).foldl (fun s _ => countOn s p (pkLcnt l.packet) true) s
  settleGroup (if l.next = 0 then s else stewardLost s p l.gid) p l.gid

/-- The units of a head none of which is placed each count once with poison: a head that is active, blocked, suspended
or behind a drain and that R210 does not reject (R209). -/
def dropHead (s : State) (p : PartId) (q : Nat) : State :=
  let b := headPacket s p q
  if [2, 3, 4, 5].contains (qState s p q) && qHead s p q != qTail s p q &&
      vaReadable s p (slotVa s p q (qHead s p q)) 64 && pkType b == 0 && (packetCode s p b).isNone then
    (upto (pkUnits b)).foldl (fun s _ => countOn s p (pkLcnt b) true) s
  else s

def execCmdReset (p : PartId) (q : Nat) (s : State) : Out :=
  command [1, 2, 3, 4, 5, 6, 7] p q (fun s =>
    let die := qDie s p q
    let s := match headLaunch s p q with
      | some l => dropLaunch s l
      | none => dropHead s p q
    kick (dropQrt (qput (setQState s p q 0) p q 12 1 0) p q) p.pkg die) s

def execCmdRefused (p : PartId) (q : Nat) (s : State) : Out := .next (putCmd s p q 0xFF)

/-! ### Placement (R155, R213, R374, R398 to R400) -/

/-- A core that takes no placement request: it is pre-empted, suspended or gated. -/
def unplaceable (s : State) (core : Nat) : Bool := (coreOf s core).suspended || (coreOf s core).gated

/-- What a core answers to a placement request: a slot and a window. -/
def roomOn (s : State) (p : PartId) (l : Launch) (k core : Nat) : Option (Nat × Nat) :=
  let c := coreOf s core
  match freeSlot s p core with
  | none => none
  | some slot =>
    match freeWindow c (kRegs s p k) with
    | none => none
    | some w =>
      if kStash s p k ≠ 0 && c.resident.isSome && !(l.next != 0 && c.resident == some (launchKey l.part l.gid)) then none
      else some (slot, w)

/-- The logical cores of the partition in the order in which the spread policy searches them. -/
def spreadOrder (s : State) (p : PartId) (after : Option Nat) : List Nat :=
  let n := Nat.min 16384 (partOf s p).l2plen.toNat
  let first := match after with
    | some a => a + 1
    | none => 0
  ((upto n).map fun i => (first + i) % n)

/-- The core of a launch's next unit, with the room found on it. -/
def chooseCore (s : State) (p : PartId) (l : Launch) (k : Nat) : Option (Nat × Nat × Nat) :=
  let here := fun (c : Option Nat) => c.bind fun core =>
    if unplaceable s core || !isLogical s p core then none
    else (roomOn s p l k core).map fun r => (core, r)
  if pkPolicy l.packet = 0 then here (listedCore s p l.packet l.next)
  else if pkPolicy l.packet = 1 then here (followCore s p l.packet l.next)
  else (spreadOrder s p l.lastCore).findSome? fun n => here (logicalCore s p n)

/-- Ways leave or join the L1D: dirty lines are written back, bytes that join the stash read as zero, every tile is
invalid (R155). -/
def resizeStash (s : State) (core ways : Nat) : State :=
  let k := coreOf s core
  let s := recallRange s core 0 (k.stashWays * 16384)
  let gone := k.l1.filter fun e => decide (20 ≤ e.1 % 32 + Nat.max ways k.stashWays)
  let s := gone.foldl (fun s e => if e.2.dirty = 0 then s else llcTouch s (e.2.key * 64) true) s
  modCore s core fun k => { k with
    l1 := k.l1.filter fun e => decide (e.1 % 32 + Nat.max ways k.stashWays < 20)
    stash := k.stash.filter fun e => decide (e.1 < k.stashWays * 16384)
    stashWays := ways
    tags := [] }

/-- The next identifier of the partition that no live group holds (R219). -/
def nextGid (s : State) (p : PartId) : Nat → BitVec 32 → BitVec 32
  | 0, g => g
  | n + 1, g => if g = 0 ∨ (groupOf s p g.toNat).isSome then nextGid s p n (g + 1) else g

/-- A group comes into being (R218, R227). -/
def newGroup (s : State) (p : PartId) (l : Launch) : Nat × State :=
  let g := nextGid s p (s.groups.length + 2) (partOf s p).nextGid
  let b := l.packet
  let s := modPart s p fun q => { q with nextGid := g + 1 }
  let grp : Group :=
    { part := p
      gid := g.toNat
      st := .placing
      rklo := pkLo b
      rkhi := pkHi b
      rebuilds := 0
      wfired := false
      wact := false
      wdog := 0
      wcount := 0
      steward := pkSteward b
      stewardCtx := none
      stewardGone := false
      issuer := l.issuer
      lcnt := pkLcnt b
      nunits := pkUnits b
      plan := BitVec.ofNat 256 (0xFFFF * (1 + 2 ^ 32 + 2 ^ 64 + 2 ^ 96))
      ranges := [⟨true, false, p.pkg, g.toNat, Nat.min (pkUnits b) 4096, 0⟩]
      trees := []
      timed := pkTimed b
      t0 := none
      heldObls := []
      noticed := []
      queue := l.queue }
  let s := { s with groups := s.groups ++ [grp] }
  (g.toNat, { s with launches := listMod (fun e => e.id == l.id) (fun e => { e with gid := g.toNat }) s.launches })

/-- What STMAP finds on the pages of a range for a unit, at user level: whether one has FE or CPS set; `none` where one
does not translate or may not be read (R182). -/
def mapPages (s : State) (p : PartId) (va kib : Nat) : Option Bool :=
  let last := (va + kib * 1024 - 1) / 65536
  (upto (last + 1 - va / 65536)).foldl (fun bad i =>
    match bad, walk s p (BitVec.ofNat 57 (va + 65536 * i)) with
    | some b, .ok e _ _ _ => if Pte.rd e && Pte.usr e then some (b || Pte.fe e || Pte.cps e) else none
    | _, _ => none) (some false)

/-- The TID entries and stash map entries of a kernel are loaded at a placement: a stash map entry that STMAP would
refuse binds nothing (R198). -/
def loadTables (s : State) (p : PartId) (core k : Nat) : State :=
  let nt := Nat.min 256 (kfield s p k 16 2)
  let tt := kfield s p k 72 8
  let s := modCore s core fun c => { c with
    tids := (upto nt).foldl (fun m i => Map.put m i (BitVec.ofNat 256 (readRange s p (tt + 32 * i) 32))) c.tids }
  let ns := Nat.min 64 (kfield s p k 12 2)
  let st := kfield s p k 56 8
  let s := (upto ns).foldl (fun s i =>
    let va := readRange s p (st + 16 * i) 8
    let desc := BitVec.ofNat 64 (readRange s p (st + 16 * i + 8) 8)
    match mapPages s p va (bitsOf desc.toNat 32 9) with
    | some bad =>
      if va % 1024 = 0 && (stmapCheck (coreOf s core) p.part va desc bad).isNone then bindStash s core p.part va desc
      else s
    | none => s) s
  if tablesReadable s p k then s else veqPush s p 3 3 (BitVec.ofNat 64 k) 0 0

/-- What a placed unit starts with (R213, R374). -/
def unitCtx (s : State) (p : PartId) (l : Launch) (gid k base : Nat) : Ctx :=
  let q := partOf s p
  let b := l.packet
  let h : W64 := BitVec.ofNat 64 (2 ^ 63 + pkLcnt b)
  let entry := codeAt s p k (kfield s p k 32 4)
  { Ctx.zero with
    part := p.part
    isUnit := true
    winBase := base
    winSize := kRegs s p k
    pc := entry
    rstpc := entry
    entry := .event
    source := entry
    rklo := pkLo b
    rkhi := pkLo b + kNeed s p k
    uvec := q.tuvec
    gvec := q.tgvec
    hvec := q.thvec
    udeleg := q.tudeleg
    hdeleg := q.thdeleg
    obls := [(0, ⟨.done, h, ctrRank (counterEntry s p (pkLcnt b)), 1, 0⟩)]
    ownDone := some h
    grp := gid
    unit := BitVec.ofNat 32 l.next
    nunits := BitVec.ofNat 32 (pkUnits b)
    kern := k }

/-- A placed context that may not issue yet. -/
def holdUnit (s : State) (x : CtxId) : State :=
  modSlot s x fun sl => { sl with
    st := .parkedMemory
    ctx := { sl.ctx with wait := .placement } }

/-- The steward is placed: entries held for it merge, and it takes ORPHAN (R223). -/
def placeSteward (s : State) (p : PartId) (gid : Nat) (x : CtxId) : State :=
  let r := refOf s x
  let held := match groupOf s p gid with
    | some g => g.heldObls
    | none => []
  let s := modGroup s p gid fun g =>
    { g with
      stewardCtx := some r
      heldObls := [] }
  let s := resolveVia s p gid (.ctx r)
  if held.isEmpty then s else mergeInto s p r held

/-- The last unit of a launch is placed. -/
def launchDone (s : State) (p : PartId) (l : Launch) (gid : Nat) : State :=
  let s := { s with launches := listDel (fun e => e.id == l.id) s.launches }
  let s := settleGroup s p gid
  let s := if pkTimed l.packet then at_ s s.now (.timeZeroFix p gid) else s
  match l.queue with
  | some q => headDone s p q
  | none => s

/-- A unit is placed on a core, in a slot and a window. -/
def placeUnit (s : State) (l : Launch) (k core slot base : Nat) : State :=
  let p : PartId := ⟨l.pkg, l.part⟩
  let b := l.packet
  let (gid, s) := if l.next = 0 then newGroup s p l else (l.gid, s)
  let x : CtxId := ⟨core, slot⟩
  let ways := kStash s p k / 16
  let fresh_ := ways ≠ 0 && (coreOf s core).resident != some (launchKey p.part gid)
  let resize := fresh_ && (coreOf s core).stashWays != ways
  let s := if resize then resizeStash s core ways
    else if fresh_ then modCore s core fun c => { c with tags := [] } else s
  let s := if ways = 0 then s else modCore s core fun c => { c with resident := some (launchKey p.part gid) }
  let s := setKlive s p k (klive s p k + 1)
  let s := createCtx s x (unitCtx s p l gid k base)
  let s := writeEntry s core base (BitVec.ofNat 256 (pkArgs b))
  let s := loadTables s p core k
  let s := if resize then
      let (t, s) := nextLat s
      at_ (modCore s core fun c => { c with placing := some slot }) (s.now + t) (.placementCompletion core)
    else s
  let s := if pkTimed b || (coreOf s core).placing.isSome then holdUnit s x else s
  let s := if pkSteward b = l.next && pkSteward b ≠ 0xFFFF then placeSteward s p gid x else s
  let s := match l.queue with
    | some q => modDie (qput s p q 28 4 (qLive s p q + 1)) (l.pkg * 4 + l.die) fun d =>
        { d with consec := if d.consec < 64 then 0 else d.consec }
    | none =>
      let active := (queuesOf s l.pkg l.die).any fun e => qState s e.1 e.2 == 2
      modDie s (l.pkg * 4 + l.die) fun d => { d with consec := if active then d.consec + 1 else 0 }
  let ls := listMod (fun (e : Launch) => e.id == l.id)
    (fun e => { e with
      next := l.next + 1
      lastCore := some (logicalNo s p core) }) s.launches
  let s := { s with launches := ls }
  if l.next + 1 = pkUnits b then launchDone s p l gid else s

/-- A placement finds its kernel loading, relocating or illegal: a queue's head is rejected, and its units that are
placed stay; the units of a LAUNCH that are not placed count with poison (R196, R197). -/
def rejectLaunch (s : State) (l : Launch) : State :=
  let p : PartId := ⟨l.pkg, l.part⟩
  match l.queue with
  | some q => rejectHead (untakeHead s p q) p q 2
  | none => dropLaunch s l

/-- The dispatcher places the next unit of a launch, or finds no room and leaves its turn open. -/
def execUnitPlacement (n : Nat) (s : State) : Out :=
  match firstWhere (fun l => l.id == n) s.launches with
  | none => .next s
  | some l =>
    let p : PartId := ⟨l.pkg, l.part⟩
    let paused := match l.queue with
      | some q => !(qState s p q == 2 || qState s p q == 5)
      | none => false
    if paused then .next (kick s l.pkg l.die)
    else
      let k := placedKernel s p l.kdesc
      if kernelBarred s p k then .next (kick (rejectLaunch s l) l.pkg l.die)
      else
      match chooseCore s p l k with
      | some (core, slot, base) => .next (kick (placeUnit s l k core slot base) l.pkg l.die)
      | none =>
        let s := { s with launches := listMod (fun e => e.id == n) (fun e => { e with stuck := true }) s.launches }
        let s := if l.queue.isSome then endTurn s l.pkg l.die else s
        .next (kick (atOnce s (s.now + ns 1000) (.placementReconsider l.pkg l.die)) l.pkg l.die)

/-- Held units of a core become ready: those whose stash is in place and whose group has begun. -/
def releaseUnits (s : State) (core : Nat) : State :=
  let s := catchCore s core
  if (coreOf s core).placing.isSome then s
  else
    ((coreOf s core).slots.filter fun e => isParked e.2.st && e.2.ctx.wait == .placement).foldl
      (fun s e =>
        let x : CtxId := ⟨core, e.1⟩
        let due := match groupOf s (partId s x) e.2.ctx.grp with
          | some g => !g.timed || (match g.t0 with
            | some t => decide (t ≤ s.now)
            | none => false)
          | none => true
        if due then wake s x 0 else s) s

def execPlacementCompletion (core : Nat) (s : State) : Out :=
  .next (releaseUnits (modCore s core fun c => { c with placing := none }) core)

/-- Waiting units of a die are looked at again (R400). -/
def execPlacementReconsider (pkg die : Nat) (s : State) : Out :=
  let s := { s with launches := s.launches.map fun l =>
    if l.pkg = pkg && l.die == die then { l with stuck := false } else l }
  .next (kick s pkg die)

/-! ### Time zero (R333) -/

/-- T0: the first whole microsecond at least 4 µs away. -/
def execTimeZeroFix (p : PartId) (gid : Nat) (s : State) : Out :=
  match groupOf s p gid with
  | none => .next s
  | some g =>
    if !g.timed || g.t0.isSome then .next s
    else
      let t := (timeOf s p.pkg + 4000 + 999) / 1000 * 1000
      let at0 := s.now + (ns (t - timeOf s p.pkg) - s.now % 2574)
      let cores := (((slotsOf s p.pkg).filter fun e => isLive (effSt e.2) && e.2.ctx.part == p.part &&
        e.2.ctx.grp == gid).map (·.1.core)).eraseDups
      .next (cores.foldl (fun s c => at_ s at0 (.timeZeroReached c p gid))
        (modGroup s p gid fun g => { g with t0 := some at0 }))

/-- `%time` reaches T0 on a core. -/
def execTimeZeroReached (core : Nat) (p : PartId) (gid : Nat) (s : State) : Out :=
  let s := catchCore s core
  let k := coreOf s core
  let clk := if k.nextAt = s.now then k.cyc else k.cyc - 1
  let start (e : Nat × Slot) : Nat × Slot :=
    if hasBody (effSt e.2) && e.2.ctx.part == p.part && e.2.ctx.grp == gid then
      (e.1, { e.2 with ctx := { e.2.ctx with tstart := BitVec.ofNat 64 clk } })
    else e
  let s := modCore s core fun k => { k with slots := k.slots.map start }
  .next (releaseUnits s core)

/-! ### Counters (R216, R221) -/

def putCounter (s : State) (p : PartId) (c v : Nat) : State :=
  match counterKey s p c with
  | some k => writeN s k 16 v
  | none => s

/-- The waits that a counter's new value ends, and the queues whose heads depend on it. -/
def counterChanged (s : State) (p : PartId) (c : Nat) : State :=
  let e := counterEntry s p c
  let ws := (waiters s fun q => match q with
    | .counter d v => d == c && decide (v.toNat ≤ ctrValue e)
    | _ => false).filter fun w => partId s w.1 == p
  let s := ws.foldl (fun s w =>
    if ctrPoison e then reply s w.1 (.trap .poisoned 0)
    else answer (syncObj s w.1 (2 ^ 59 + c) true false) w.1 (nat256 (ctrValue e))) s
  if (partOf s p).qtab = 0 then s
  else ((upto 256).filter fun q => qState s p q == 3 && pkWaitCnt (headPacket s p q) == c &&
      dependMet s p (headPacket s p q)).foldl (fun s q => at_ s s.now (.headDependenceMet p q)) s

def execCounterCount (p : PartId) (c : Nat) (poisoned : Bool) (s : State) : Out :=
  if !ctrOk s p c then .next (veqPush s p 7 1 (BitVec.ofNat 64 c) 0 0)
  else
    let e := counterEntry s p c
    let v := (ctrValue e + 1) % 2 ^ 32
    let e' := e - ctrValue e * 2 ^ 32 + v * 2 ^ 32
    let e' := if poisoned && !ctrPoison e then e' + 2 else e'
    let s := counterChanged (putCounter s p c e') p c
    match ctrParent e with
    | some q =>
      if ctrTarget e ≠ 0 && v == ctrTarget e then
        if !ctrOk s p q then .next (countOn s p q (ctrPoison e'))
        else if ctrLevel e < ctrLevel (counterEntry s p q) then .next (countOn s p q (ctrPoison e'))
        else .next (veqPush s p 7 2 (BitVec.ofNat 64 c) 0 0)
      else .next s
    | none => .next s

/-- A counter named by an operand, configured and in reach; otherwise PROTECTION (0x20). A request whose home the
context does not reach is dropped (R376). -/
def withCounter (a : W64) (k : Nat → State → State) (s : State) : State :=
  if 4095 < a.toNat then fault .protectionPart a s
  else if (counterKey s (myPart s) a.toNat).any (fun key => !reachesHome s (me s) (homeOf key)) then dropped a s
  else if !ctrOk s (myPart s) a.toNat then fault .protectionPart a s
  else k a.toNat s

def cntwEffect (f : FR) (s : State) : State :=
  withCounter (src64i s f.imm20 f.a) (fun c s =>
    let v := (src64i s f.imm20 f.b).setWidth 32
    let e := counterEntry s (myPart s) c
    if v.toNat ≤ ctrValue e then
      if ctrPoison e then fault .poisoned 0 s
      else result f.d (nat256 (ctrValue e)) (syncObj s (me s) (2 ^ 59 + c) true false)
    else
      match waitCheck s (me s) (ctrRank e) with
      | some info => fault .rankOrder info s
      | none => ranked (ctrRank e) (parkOn .parkedSync (.counter c v) (destOf s f.d) s)) s

def execCntw (f : FR) (s : State) : Out := issue f.fields f.srcs (tableFree (syncFree (cntwEffect f))) s

/-! ### QSUB and LAUNCH (R214, R215) -/

/-- A packet is added and the queue looked at. -/
def queueAdded (s : State) (p : PartId) (q : Nat) : State :=
  if qState s p q = 1 then lookQueue s p q else s

def isDram : Space → Bool
  | .dram _ => true
  | _ => false

def qsubPlace (f : FR) (q : Nat) (v : Nat) (s : State) : State :=
  let p := myPart s
  let status := fun n => result f.d (nat256 n)
  let st := qState s p q
  if 255 < q || (partOf s p).qtab = 0 then status 1 s
  else
    match qdKey s p q with
    | none => fault .translation (trInfo (BitVec.ofNat 57 (qdVa s p q)) false) s
    | some key =>
      if !reachesHome s (me s) (homeOf key) then dropped (BitVec.ofNat 64 (qdVa s p q)) s
      else
      let home := syncObj s (me s) (key / 8) true true
      if st = 0 || st == 5 || st == 6 || st == 7 then status 1 home
      else if qHostFed s p q then status 3 home
      else if (qTail s p q + 2 ^ 32 - qHead s p q) % 2 ^ 32 = 2 ^ qLogn s p q then status 2 home
      else
        let va : VA := BitVec.ofNat 57 (slotVa s p q (qTail s p q))
        let s := cowNow s (me s).core p va
        match walkMark s (me s).core p va true with
        | (.ok e _ fr _, s) =>
          let pa := fr * 65536 + va.toNat % 65536
          if !e.wr || e.cps || !isDram (spaceOf s p.pkg pa) then fault .protection (vaInfo va) s
          else if e.cow then fault .cowPool (vaInfo va) s
          else
            let s := syncObj s (me s) (key / 8) true true
            let s := ctxWrite s p (refOf s (me s)) (myCtx s).tx e.disc (memKey p.pkg pa) 64 v
            let s := logUndo s p (refOf s (me s)) (myCtx s).tx false key
            let s := qput s p q 24 4 ((qTail s p q + 1) % 2 ^ 32)
            status 0 (queueAdded s p q)
        | (.fault fm, s) => fault .translation (trInfo va fm) s
        | (_, s) => parkWalk s va true

def execQsub (f : FR) (s : State) : Out :=
  issue f.fields f.srcs (fun s =>
    access ((src64i s f.imm20 f.b).setWidth 57) (needOther 64 true false) (fun h s =>
      afterRelease false (fun s =>
        qsubPlace f (src64i s f.imm20 f.a).toNat (readOwn s (me s) h.pa 64) s) s) s) s

/-- R66 for the interval of a LAUNCH. -/
def ranksInside (c : Ctx) (b : Packet) : Bool :=
  decide (c.rklo ≤ pkLo b) && decide (pkLo b ≤ c.rkhi) && decide (c.rklo ≤ pkHi b) && decide (pkHi b ≤ c.rkhi) &&
    decide (pkHi b ≤ obminOf c)

def launchEffect (f : FR) (b : Packet) (s : State) : State :=
  let p := myPart s
  let die := dieOf (me s).core
  let status := fun n => result f.d (nat256 n)
  if !ranksInside (myCtx s) b then fault .rankRange 0 s
  else
    match packetCode s p b with
    | some code => status code s
    | none =>
      if !dependMet s p b then status 10 s
      else if dependPoison s p b then status 9 s
      else
        let s := syncObj s (me s) (2 ^ 58) false true
        if pkType b = 1 then status 0 (countOn (logDone s p (refOf s (me s)) (myCtx s).tx
          (BitVec.ofNat 64 (2 ^ 63 + pkLcnt b))) p (pkLcnt b) false)
        else status 0 (kick (acceptLaunch s p die b none (.ctx (refOf s (me s)))) p.pkg die)

def execLaunch (f : FR) (s : State) : Out :=
  issue f.fields f.srcs (fun s =>
    access ((src64i s f.imm20 f.a).setWidth 57) (needOther 64 true false) (fun h s =>
      afterRelease false (fun s =>
        launchEffect f (BitVec.ofNat 512 (readOwn s (me s) h.pa 64)) s) s) s) s

/-! ### CNCL and the cancel of contexts (R77, R217, R222) -/

/-- Whether counter `c` is `root` or has it on its parent chain; at most three steps up. -/
def belowCounter (s : State) (p : PartId) (root : Nat) : Nat → Nat → Bool
  | 0, c => c == root
  | n + 1, c => c == root || (ctrCfg (counterEntry s p c) &&
      match ctrParent (counterEntry s p c) with
      | some q => belowCounter s p root n q
      | none => false)

/-- The origins of the live contexts of a group on its package. -/
def groupMembers (s : State) (p : PartId) (gid : Nat) : List CtxId :=
  ((slotsOf s p.pkg).filter fun e => isLive (effSt e.2) && e.2.ctx.part == p.part && e.2.ctx.grp == gid).map
      (·.2.ctx.origin) ++
    (s.flights.filter fun f => pkgOf f.target == p.pkg && f.ctx.part == p.part && f.ctx.grp == gid).map
      (·.ctx.origin)

/-- The live contexts of groups in save records, by their records and origins. -/
def savedMembers (s : State) (p : PartId) (groups : List Nat) : List (Nat × CtxId) :=
  (savedCores s p.pkg).flatMap fun e =>
    (e.2.slots.filter fun t => isLive (effSt t.2) && t.2.ctx.part == p.part && groups.contains t.2.ctx.grp).map
      fun t => (e.1, t.2.ctx.origin)

/-- A cancel goes to contexts, by their origins; it is complete when all have acknowledged. For a context of a device
that is not resident it waits in the device's saved inbox. -/
def startCancel (s : State) (p : PartId) (groups : List Nat) (xs : List CtxId) (issuer : Option CtxId) (d : Dest)
    (any : Bool) : State :=
  let (n, s) := fresh s
  let saved := savedMembers s p groups
  let vd := (issuer.map fun x => (coreOf s x.core).vd).getD 0
  let left := xs ++ saved.map (·.2)
  let s := { s with cancels := s.cancels ++ [⟨n, p, left, groups, issuer, vd, d, any || !saved.isEmpty⟩] }
  let s := saved.foldl (fun s e => saveInto s e.1 (.cancelArrival e.2)) s
  let s := groups.foldl (fun s g => modGroup s p g fun g => { g with st := .cancelling }) s
  let s := xs.foldl (fun s x =>
    let (t, s) := nextLat s
    at_ s (s.now + t) (.cancelArrival x)) s
  let (t, s) := nextLat s
  if left.isEmpty then at_ s (s.now + t) (.cancelAcknowledge n) else s

/-- The cancel of a counter and of every level linked below it. -/
def cancelCounter (s : State) (p : PartId) (c : Nat) (issuer : Option CtxId) (d : Dest) : State :=
  let below := s.groups.filter fun g => g.part == p && belowCounter s p c 3 g.lcnt
  let gs := below.filter fun g => g.st != .cancelling
  let ls := s.launches.filter fun l => l.pkg == p.pkg && l.part == p.part && l.next != 0 &&
    belowCounter s p c 3 (pkLcnt l.packet)
  let xs := gs.flatMap fun g => groupMembers s p g.gid
  let any := !ls.isEmpty || below.any fun g => groupLive s p g.gid
  let s := startCancel s p (gs.map (·.gid)) xs issuer d any
  ls.foldl (fun s l =>
    let s := dropLaunch s l
    let s := match l.queue with
      | some q => headDone s p q
      | none => s
    kick s l.pkg l.die) s

def execCncl (f : FR) (s : State) : Out :=
  issue f.fields f.srcs (fun s =>
    withCounter (src64i s f.imm20 f.a) (fun c s =>
      let d := destOf s f.d
      let s := clearPresence s d
      advance (cancelCounter (syncObj s (me s) (2 ^ 59 + c) false false) (myPart s) c (some (originOf s (me s))) d)) s) s

/-- Where the context whose origin is `o` is: in a slot, or `none` while it travels. -/
def bodyOf (s : State) (o : CtxId) : Option CtxId :=
  (firstWhere (fun e => isLive (effSt e.2) && e.2.ctx.origin == o) (slotsOf s (pkgOf o.core))).map (·.1)

/-- A cancel reaches a context (R77): its entries are discharged with poison, its table is empty, its jobs
report nothing more. -/
def cancelBody (s : State) (x : CtxId) : State :=
  let p := partId s x
  let who := refOf s x
  let obls := (ctxOf s x).obls.map (·.2)
  let s := modCtx s x fun c =>
    { c with
      obls := []
      ownDone := none }
  let s := poisonEntries s p x who obls false
  let s := { s with cores := s.cores.map fun e => (e.1, { e.2 with
    jobs := e.2.jobs.map fun (j : Job) => if j.who = who && jobPart e.1 j == p then { j with mute := true } else j }) }
  memberFails s x

/-- CANCELLED is raised in a context. -/
def postCancel (s : State) (x : CtxId) : State :=
  modCtx s x fun c => { c with events := c.events ++ [⟨.cancelled, 0, none⟩] }

/-- Every core that holds a reached context has acknowledged: then CNCL's D lands, and an issuer that was
reached takes CANCELLED. -/
def ackCancel (s : State) (o : CtxId) : State :=
  let s := { s with cancels := s.cancels.map fun (k : CancelRec) => { k with left := k.left.erase o } }
  (s.cancels.filter fun k => k.left.isEmpty).foldl (fun s k => atOnce s s.now (.cancelAcknowledge k.id)) s

/-- A cancel reaches a context; one that travels takes it at its placement (R86). -/
def execCancelArrival (x : CtxId) (s : State) : Out :=
  if !s.cancels.any fun k => k.left.contains x then .next s
  else
    match bodyOf s x with
    | none =>
      if s.flights.any fun f => f.ctx.origin == x then .next s else .next (ackCancel s x)
    | some b =>
      if (coreOf s b.core).suspended then .next (saveFor s b.core (.cancelArrival x))
      else
        let s := cancelBody s b
        let own := s.cancels.any fun k => k.issuer == some x && k.left.contains x
        .next (ackCancel (if own then s else postCancel s b) x)

def execCancelAcknowledge (n : Nat) (s : State) : Out :=
  match firstWhere (fun k => k.id == n) s.cancels with
  | none => .next s
  | some k =>
    if !k.left.isEmpty then .next s
    else
      let body := (k.issuer.bind (bodyOf s)).filter fun b => (coreOf s b.core).vd == k.vd
      let away := k.issuer.bind fun o => (savedCores s k.part.pkg).find? fun e => e.2.vd == k.vd &&
        e.2.slots.any fun t => isLive (effSt t.2) && t.2.ctx.origin == o && t.2.ctx.part == k.part.part
      match body, away with
      | none, some e => .next (saveInto s e.1 (.cancelAcknowledge n))
      | _, _ =>
      let s := { s with cancels := listDel (fun e => e.id == n) s.cancels }
      let s := match body with
        | some b =>
          let s := landNow (catchCore s b.core) b.core k.dest (nat256 (!k.any).toNat)
          let hit := match groupOf s k.part (ctxOf s b).grp with
            | some g => k.groups.contains g.gid
            | none => false
          if hit then postCancel s b else s
        | none => s
      .next (k.groups.foldl (fun s g => settleGroup s k.part g) s)

/-! ### KSWAP (R204, R205) -/

def kswapSame (s : State) (p : PartId) (a b : Nat) : Bool :=
  kRegs s p a == kRegs s p b && kStash s p a == kStash s p b && kfield s p a 28 4 == kfield s p b 28 4 &&
    kfield s p a 16 2 == kfield s p b 16 2 && kfield s p a 12 2 == kfield s p b 12 2

def kswapAct (f : FR) (a b : VA) (key : Nat) (s : State) : State :=
  let p := myPart s
  let status := fun n => result f.d (nat256 n)
  let old := a.toNat
  let new := b.toNat
  let s := syncObj s (me s) (key / 8) true true
  if !(kstate s p old == 2 || kstate s p old == 3) then status 1 s
  else if !(kstate s p new == 2 || kstate s p new == 3) then status 2 s
  else if readRange s p (new + 96) 32 ≠ readRange s p (old + 96) 32 then status 3 s
  else if !kswapSame s p old new then status 4 s
  else
    let s := logUndo s p (refOf s (me s)) (myCtx s).tx false key
    let s := logUndo s p (refOf s (me s)) (myCtx s).tx false (key + 64)
    let s := writeVa s p (old + 88) 8 new
    let s := setKstate s p old (if klive s p old = 0 then 5 else 4)
    status 0 (modPart s p fun q => { q with swapped := q.swapped ++ [old] })

/-- A descriptor address: 64-byte aligned, readable and writable. -/
def withDesc (va : VA) (k : Hit → State → State) (s : State) : State :=
  if va.toNat % 64 ≠ 0 then fault .alignment (vaInfo va) s else access va (needOther 8 true true) k s

def execKswap (f : FR) (s : State) : Out :=
  issueAt .guest f.fields f.srcs (fun s =>
    let a : VA := (src64i s f.imm20 f.a).setWidth 57
    let b : VA := (src64i s f.imm20 f.b).setWidth 57
    withDesc a (fun h => withDesc b fun _ s =>
      afterRelease false (kswapAct f a b h.pa) s) s) s

end Sys2Proof.Machine
end

