-- ==== Sys2Proof/Machine/Frames.lean ====
section
/-! DEFINITION. The state of links (R288, R289), frames handed to a point-to-point link and accepted from it
(R293), frames for the bulk plane (R298). -/

namespace Sys2Proof.Machine

open Sys2Proof

/-- The package at whose end a link stands. -/
def linkPkg : LinkId → Nat
  | .mesh p _ _ => p
  | .port p _ _ => p
  | .peer p _ => p
  | .orderPlane p => p
  | .bulkPlane p => p

/-- The ends of a link: a point-to-point link has one at each of its two packages. -/
def linkEnds : LinkId → List LinkId
  | .peer a b => [.peer a b, .peer b a]
  | l => [l]

/-- A link that no event has befallen: the boot sequence has trained every mesh link and die-to-die port (R453). -/
def freshLink (k : Pkg) : LinkId → Link
  | .mesh _ _ _ | .port _ _ _ =>
    if k.boot < 5 then Link.zero
    else { Link.zero with
      st := if k.viral then .viral else .up
      lanes := 1 }
  | _ => Link.zero

def linkOf (s : State) (l : LinkId) : Link :=
  let k := pkgAt s (linkPkg l)
  match firstWhere (fun e => e.1 == l) k.links with
  | some e => e.2
  | none => freshLink k l

def putLink (s : State) (l : LinkId) (k : Link) : State :=
  modPkg s (linkPkg l) fun p => { p with
    links := if p.links.any (fun e => e.1 == l) then listMod (fun e => e.1 == l) (fun _ => (l, k)) p.links
      else p.links ++ [(l, k)] }

def modLink (s : State) (l : LinkId) (f : Link → Link) : State := putLink s l (f (linkOf s l))

def modEnds (s : State) (l : LinkId) (f : Link → Link) : State := (linkEnds l).foldl (fun s e => modLink s e f) s

/-- A link that carries traffic. -/
def Link.live (k : Link) : Bool := k.st == .up || k.st == .degraded

def linkLive (s : State) (l : LinkId) : Bool := (linkOf s l).live

/-- A new data frame cannot go out on a channel yet: the link does not carry traffic, the channel is paused, 2048 frames
are outstanding, or an earlier frame of the channel waits (R289, R293). -/
def Link.blocks (k : Link) (vc : Nat) : Bool :=
  !k.live || k.paused.getLsbD vc || decide (2048 ≤ k.out.length) || k.held.any fun h => h.1 == vc

/-- A data frame goes out: it is kept until it is acknowledged, and resent after 4 µs (R293). -/
def linkOut (s : State) (a b vc body : Nat) : State :=
  let s := modLink s (.peer a b) fun k =>
    { k with
      sendSeq := k.sendSeq + 1
      out := k.out ++ [⟨k.sendSeq, vc, body⟩]
      progress := if k.out.isEmpty then s.now else k.progress }
  if s.agenda.any (fun e => e.2 == .resendTimeout a b) then s else at_ s (s.now + ns 4000) (.resendTimeout a b)

/-- The arrival of the chunk frame that is a link frame's body (R420). -/
def arrivalOf (s : State) (body : Nat) : Instr :=
  if (firstWhere (fun m => m.id == body) s.chunkMsgs).any (·.completion) then .collectiveCompletion body
  else .chunkFrameArrival body

/-- A frame is handed to a link, and arrives after an open time. Over a fenced link it travels by the relay, and is lost
where there is none (R299); a viral end carries nothing; otherwise it may have to wait at the sender. -/
def linkSend (s : State) (a b vc body : Nat) : State :=
  let k := linkOf s (.peer a b)
  let (t, s) := nextLat s
  let arrives := fun (s : State) => at_ s (s.now + t) (arrivalOf s body)
  if a = b then arrives s
  else if k.st = .viral then s
  else if k.st = .fenced then (if k.relay.isSome then arrives s else s)
  else if k.blocks vc then modLink s (.peer a b) fun k => { k with held := k.held ++ [(vc, body)] }
  else arrives (linkOut s a b vc body)

/-- The frames that wait at a sender go out, as far as they can, in order. -/
def linkRelease (s : State) (a b : Nat) : State :=
  let hs := (linkOf s (.peer a b)).held
  hs.foldl (fun s h => linkSend s a b h.1 h.2) (modLink s (.peer a b) fun k => { k with held := [] })

/-- The acknowledgement that the peer's frames carry: what it has accepted leaves the sender's store. -/
def acked (a b : Nat) (s : State) : State :=
  let want := (linkOf s (.peer b a)).recvSeq
  modLink s (.peer a b) fun k =>
    { k with
      ackSeq := want
      progress := if k.ackSeq = want then k.progress else s.now
      out := if k.out.any (fun f => f.seq == want) then k.out.dropWhile (fun f => f.seq != want)
        else if k.sendSeq = want then [] else k.out }

/-- A go-back-N round of a sender: the sixteenth within a millisecond has the link retrain (R290). -/
def goBack (s : State) (a b : Nat) : State :=
  let l : LinkId := .peer a b
  let s := modLink s l fun k =>
    { k with
      replays := k.replays + 1
      rounds := (k.rounds.filter fun t => decide (s.now < t + ns 1000000)) ++ [s.now] }
  if 16 ≤ (linkOf s l).rounds.length then atOnce s s.now (.replayThreshold l) else s

/-- A frame that its link still holds is accepted in sequence at the other end. -/
def linkTake (s : State) (a b body : Nat) : State :=
  if a = b ∨ !(linkOf s (.peer a b)).out.any (fun f => f.body == body) then s
  else
    let s := modLink s (.peer b a) fun k =>
      { k with
        recvSeq := k.recvSeq + 1
        accepted := (body :: k.accepted).take 4096 }
    linkRelease (modLink s (.peer a b) fun k =>
      { k with
        ackSeq := k.ackSeq + 1
        progress := s.now
        out := listDel (fun f => f.body == body) k.out }) a b

/-- The next slot of a package: slots of 250 ns, 32 in turn. -/
def nextSlot (s : State) (pkg : Nat) : Nat :=
  let t := timeOf s pkg
  let k := t / 250
  let ahead := (pkg + 32 - k % 32) % 32
  (k + (if ahead = 0 ∧ t % 250 ≠ 0 then 32 else ahead)) * 250

/-- A frame for the bulk plane waits for its package's slot. -/
def bulkSend (s : State) (pkg body : Nat) : State :=
  let s := modPkg s pkg fun k => { k with bulkOut := k.bulkOut ++ [body] }
  if s.agenda.any (fun e => e.2 == .bulkSlot pkg) then s
  else at_ s (s.now + (ns (nextSlot s pkg - timeOf s pkg) - s.now % 2574)) (.bulkSlot pkg)

end Sys2Proof.Machine
end

