-- ==== Sys2Proof/Machine/Groups.lean ====
section
/-! DEFINITION. Groups (R226 to R232, R419, R420): members and tree layouts, collectives and their chunks,
group-tree rebuilds, GTBL, and the watchdog. -/

namespace Sys2Proof.Machine

open Sys2Proof

/-! ### Members and layouts (R228)

A member is numbered here over the valid ranges, the lost ones included, so that a number keeps its meaning
when a range is lost; its number by R228 is its place among the survivors. -/

def MRange.counts (r : MRange) : Bool := r.v && !r.lost

/-- NMEM. -/
def nmem (l : List MRange) : Nat := l.foldl (fun n r => if r.counts then n + r.ucount else n) 0

/-- The members that are not lost, in numbering order. -/
def survivorsFrom : Nat → List MRange → List Nat
  | _, [] => []
  | n, r :: l =>
    if !r.v then survivorsFrom n l
    else (if r.lost then [] else (upto r.ucount).map (· + n)) ++ survivorsFrom (n + r.ucount) l

def survivors (g : Group) : List Nat := survivorsFrom 0 g.ranges

/-- The member that a unit of a group of a package is. -/
def memberFrom (pkg gid unit : Nat) : Nat → List MRange → Option Nat
  | _, [] => none
  | n, r :: l =>
    if !r.v then memberFrom pkg gid unit n l
    else if !r.lost && r.pkg == pkg && r.gid == gid && decide (r.ufirst ≤ unit) && decide (unit < r.ufirst + r.ucount) then
      some (n + (unit - r.ufirst))
    else memberFrom pkg gid unit (n + r.ucount) l

/-- The range that a member is in. -/
def rangeFrom (m : Nat) : Nat → List MRange → Option MRange
  | _, [] => none
  | n, r :: l =>
    if !r.v then rangeFrom m n l
    else if m < n + r.ucount then some r
    else rangeFrom m (n + r.ucount) l

/-- The place of a member among the survivors: its number by R228. -/
def placeIn (l : List Nat) (m : Nat) : Nat := (firstWhere (fun i => l[i]? == some m) (upto l.length)).getD 0

/-- The members of every valid range, the lost ones among them. -/
def nall (l : List MRange) : Nat := l.foldl (fun n r => if r.v then n + r.ucount else n) 0

/-- The root: member ROOT modulo the number of members, the one whose position is 0 (R228), or the next surviving
member in numbering order (R231). -/
def rootOf (g : Group) (t : Tree) : Option Nat :=
  let l := survivors g
  match firstWhere (fun m => decide (t.root % nall g.ranges ≤ m)) l with
  | some m => some m
  | none => l.head?

/-- Bit `i` of a mask of ranges. -/
def setLost (mask : Nat) : Nat → List MRange → List MRange
  | _, [] => []
  | i, r :: l => (if bitAt mask i && r.v then { r with lost := true } else r) :: setLost mask (i + 1) l

/-! ### The collective descriptor (R229) -/

def cdTree (d : Reg) : Nat := bitsOf d.toNat 0 4
def cdOp (d : Reg) : Nat := bitsOf d.toNat 4 4
def cdType (d : Reg) : Nat := bitsOf d.toNat 8 4
def cdUns (d : Reg) : Bool := bitAt d.toNat 12
def cdLen (d : Reg) : Nat := bitsOf d.toNat 32 32
def cdSeq (d : Reg) : Nat := bitsOf d.toNat 64 16

/-- The bytes of an element. -/
def cdElem (d : Reg) : Nat := if cdType d = 0 then 8 else 4

/-- Status 4 (R230); `kind` is 5 for GRED, 6 for GBC, 7 for GAG. -/
def cdBad (kind : Nat) (d : Reg) : Bool :=
  bitsOf d.toNat 13 19 != 0 || bitsOf d.toNat 80 176 != 0 ||
    !(cdType d == 0 || cdType d == 1 || cdType d == 6) ||
    (if kind = 5 then decide (4 < cdOp d) || (cdOp d == 4) != (cdType d == 6) else cdOp d != 0) ||
    cdLen d % cdElem d != 0 || decide (2 ^ 24 < cdLen d) || decide (7 < cdTree d)

/-- One combine of two elements (R230). -/
def combineElem (d : Reg) (a b : Nat) : Nat :=
  let w := 8 * cdElem d
  let less := if cdUns d then decide (a < b) else decide (signed w a < signed w b)
  match cdOp d with
  | 0 => (a + b) % 2 ^ w
  | 1 => if less then a else b
  | 2 => if less then b else a
  | 3 => a ||| b
  | _ => fadd32 a b

/-- The combine of two parts, element by element. -/
def combine (d : Reg) (a b : Nat) : Nat :=
  let w := 8 * cdElem d
  packLanes w ((upto (cdLen d / cdElem d)).map fun i =>
    combineElem d (bitsOf a (w * i) w) (bitsOf b (w * i) w))

/-- `partial(q)` over `n` positions with fan-out `k` (R230); `own` gives a position's own elements. -/
def treeSum (d : Reg) (own : Nat → Nat) (n k : Nat) : Nat → Nat → Nat
  | 0, q => own q
  | fuel + 1, q =>
    ((upto k).filter fun i => k * q + 1 + i < n).foldl
      (fun a i => combine d a (treeSum d own n k fuel (k * q + 1 + i))) (own q)

/-! ### Chunks -/

/-- The group of a partition on a package in whose table range 0 names a package and an identifier. -/
def groupBy (s : State) (pkg part pkg0 gid0 : Nat) : Option Group :=
  firstWhere (fun g => g.part == ⟨pkg, part⟩ && match g.ranges.head? with
    | some r => r.pkg == pkg0 && r.gid == gid0
    | none => false) s.groups

def treeOf (g : Group) (t : Nat) : Option Tree :=
  match g.trees[t]? with
  | some t => if t.v && t.fan != 0 then some t else none
  | none => none

def findChunk (s : State) (n : Nat) : Option Chunk := firstWhere (fun c => c.id == n) s.chunks

def modChunk (s : State) (n : Nat) (f : Chunk → Chunk) : State :=
  { s with chunks := listMod (fun c => c.id == n) f s.chunks }

def partFor (c : Chunk) (m : Nat) : Option Contrib := firstWhere (fun e => e.member == m) c.parts

def modContrib (s : State) (n m : Nat) (f : Contrib → Contrib) : State :=
  modChunk s n fun c => { c with parts := listMod (fun e => e.member == m) f c.parts }

/-- The parts of `n` bytes from an address that lie in one sector each. -/
def sectorParts : Nat → Nat → Nat → List (Nat × Nat)
  | 0, _, _ => []
  | fuel + 1, a, n =>
    if n = 0 then []
    else
      let m := Nat.min n (32 - a % 32)
      (a, m) :: sectorParts fuel (a + m) (n - m)

/-- A write of a collective: a plain write of the member's context to its virtual addresses. -/
def landRange (s : State) (p : PartId) (who : CRef) (va n v : Nat) : State :=
  ((pieces (n / 65536 + 2) va n).foldl (fun (m : State × Nat) e =>
    let a : VA := BitVec.ofNat 57 e.1
    match walkMark (cowNow m.1 (p.pkg * 4096) p a) (p.pkg * 4096) p a true with
    | (.ok pte _ fr _, s) =>
      (sectorParts (e.2 / 32 + 2) e.1 e.2).foldl (fun (m : State × Nat) q =>
        let key := memKey p.pkg (fr * 65536 + q.1 % 65536)
        (clearLost (ctxWrite m.1 p who none pte.disc key q.2 (m.2 % 256 ^ q.2)) key q.2, m.2 / 256 ^ q.2)) (s, m.2)
    | (_, s) => (s, m.2 / 256 ^ e.2)) (s, v)).1

/-- The group as the package of a chunk's root sees it, with the tree and the root. -/
def rootView (s : State) (c : Chunk) : Option (Group × Tree × Nat) :=
  c.parts.findSome? fun e =>
    match groupBy s e.pkg c.part c.pkg0 c.gid0 with
    | some g =>
      match treeOf g c.tree with
      | some t =>
        match rootOf g t with
        | some m => if m = e.member then some (g, t, m) else none
        | none => none
      | none => none
    | none => none

/-- The package of a chunk's root, as the group table of a package gives it. -/
def rootPkg (s : State) (c : Chunk) (pkg : Nat) : Option Nat :=
  (groupBy s pkg c.part c.pkg0 c.gid0).bind fun g =>
    (treeOf g c.tree).bind fun t => (rootOf g t).bind fun m => (rangeFrom m 0 g.ranges).map (·.pkg)

/-- The packages between which a chunk frame of a member travels: from the member to the root, or back. -/
def chunkHop (s : State) (chunk member : Nat) (completion : Bool) : Nat × Nat :=
  match findChunk s chunk with
  | none => (0, 0)
  | some c =>
    let m := ((partFor c member).map (·.pkg)).getD c.pkg0
    let r := (rootPkg s c m).getD m
    if completion then (r, m) else (m, r)

/-- A chunk frame of a member sets out: its contribution to the root, or its completion. A viral package
transmits nothing (R300). -/
def sendChunk (s : State) (chunk member treb : Nat) (completion : Bool) (status : Nat) : State :=
  let (a, b) := chunkHop s chunk member completion
  if a ≠ b && (pkgAt s a).viral then s
  else
    let (n, s) := fresh s
    linkSend { s with chunkMsgs := s.chunkMsgs ++ [⟨n, chunk, member, treb, completion, status⟩] } a b 2 n

/-- Members disagree on instruction, LEN or type. -/
def disagree (c : Chunk) (l : List Nat) : Bool :=
  let ps := c.parts.filter fun e => l.contains e.member
  match ps with
  | [] => false
  | e :: t => t.any fun d => d.kind != e.kind || cdLen d.desc != cdLen e.desc || cdType d.desc != cdType e.desc

/-- The data that a collective writes at a member, with its length: at its root the result of GRED, at every member the
root's bytes for GBC and every member's in order for GAG (R230). -/
def memberData (s : State) (c : Chunk) (e : Contrib) : Nat × Nat :=
  match rootView s c with
  | none => (0, 0)
  | some (g, t, root) =>
    let n := cdLen e.desc
    let l := survivors g
    if e.kind = 5 then
      if e.member ≠ root then (0, 0)
      else
        let r := placeIn l root
        let own := fun q => ((l[(q + r) % l.length]?).bind (partFor c)).elim 0 (·.data)
        (n, treeSum e.desc own l.length t.fan l.length 0)
    else if e.kind = 6 then (n, ((partFor c root).map (·.data)).getD 0)
    else if e.kind = 7 then
      (l.length * n, packLanes (8 * n) (l.map fun m => ((partFor c m).map (·.data)).getD 0))
    else (0, 0)

/-- Every write of a collective, at each of its members. -/
def landAll (s : State) (c : Chunk) (l : List Nat) : State :=
  l.foldl (fun s m =>
    match partFor c m with
    | some e =>
      let d := memberData s c e
      landRange s ⟨e.pkg, e.part⟩ e.who e.dst.toNat d.1 d.2
    | none => s) s

/-- The last contribution is in: every write of the collective is made, so that each is visible to whichever member a
completion reaches, and the completions set out (R230). -/
def finishChunk (s : State) (c : Chunk) : State :=
  match rootView s c with
  | none => s
  | some (g, t, _) =>
    let l := survivors g
    if c.complete || !l.all (fun m => (partFor c m).any (·.landed)) then s
    else
      let status := if disagree c l then 2 else if g.ranges.any (fun r => r.v && r.lost) then 1 else 0
      let s := if status = 2 then s else landAll s c l
      let s := modChunk s c.id fun c =>
        { c with
          complete := true
          status := status }
      l.foldl (fun s m => sendChunk s c.id m t.treb true status) s

/-- The TREB of a chunk's tree at a package. -/
def trebAt (s : State) (pkg : Nat) (c : Chunk) : Option Nat :=
  match groupBy s pkg c.part c.pkg0 c.gid0 with
  | some g => (g.trees[c.tree]?).map (·.treb)
  | none => none

def dropChunkMsg (s : State) (n : Nat) : State :=
  { s with chunkMsgs := listDel (fun m => m.id == n) s.chunkMsgs }

/-- A contribution reaches the root's package: an old frame is discarded, a newer one held until the notice
is applied (R420). -/
def execChunkFrameArrival (n : Nat) (s : State) : Out :=
  match firstWhere (fun m => m.id == n) s.chunkMsgs with
  | none => .next s
  | some m =>
    let (a, b) := chunkHop s m.chunk m.member false
    let s := linkTake s a b n
    match findChunk s m.chunk with
    | none => .next (dropChunkMsg s n)
    | some c =>
      match rootView s c with
      | none =>
        let s := modContrib s c.id m.member fun e => { e with landed := true }
        .next (dropChunkMsg s n)
      | some (_, t, _) =>
        if m.treb < t.treb then .next (dropChunkMsg s n)
        else if t.treb < m.treb then .next s
        else
          let s := dropChunkMsg (modContrib s c.id m.member fun e => { e with landed := true }) n
          match findChunk s c.id with
          | some c => .next (finishChunk s c)
          | none => .next s

/-- The core that holds a member's context, if the device that issued is resident there. -/
def memberCore (s : State) (e : Contrib) : Option Nat :=
  ((findCtx s ⟨e.pkg, e.part⟩ e.who).filter fun x => (coreOf s x.core).vd == e.vd).map (·.core)

/-- The save record that holds a member's context. -/
def memberSaved (s : State) (e : Contrib) : Option Nat :=
  ((savedCores s e.pkg).find? fun r => r.2.vd == e.vd && (findSaved s ⟨e.pkg, e.part⟩ e.who).isSome &&
    r.2.slots.any fun t => isLive (effSt t.2) && t.2.ctx.part == e.part && t.2.ctx.lcore == e.who.lcore &&
      t.2.ctx.origin.slot == e.who.slot).map (·.1)

/-- D lands with the status (R230). -/
def landStatus (s : State) (p : PartId) (e : Contrib) (chunk status : Nat) : State :=
  match findCtx s p e.who with
  | some x =>
    let s := syncObj (landNow (catchCore s x.core) e.core e.dest (nat256 status)) x (2 ^ 62 + chunk) true false
    let s := modCtx (arrivalAt s x) x fun c => { c with collOut := c.collOut.filter (· != chunk) }
    wakeOperands s x.core 0 (· == .collective)
  | none =>
    match findFlight s p e.who with
    | some _ => modRef s p e.who fun c => { c with collOut := c.collOut.filter (· != chunk) }
    | none => s

/-- A completion reaches a member. -/
def execCollectiveCompletion (n : Nat) (s : State) : Out :=
  match firstWhere (fun m => m.id == n) s.chunkMsgs with
  | none => .next s
  | some m =>
    let (a, b) := chunkHop s m.chunk m.member true
    let s := linkTake s a b n
    match findChunk s m.chunk with
    | none => .next (dropChunkMsg s n)
    | some c =>
      match partFor c m.member with
      | none => .next (dropChunkMsg s n)
      | some e =>
        let mine := (trebAt s e.pkg c).getD m.treb
        if e.told || m.treb < mine then .next (dropChunkMsg s n)
        else if mine < m.treb then .next s
        else
        match (memberCore s e).filter fun k => (coreOf s k).suspended, memberSaved s e with
        | some k, _ => .next (saveFor s k (.collectiveCompletion n))
        | none, some r => .next (saveInto s r (.collectiveCompletion n))
        | none, none =>
          let p : PartId := ⟨e.pkg, e.part⟩
          let s := landStatus s p e c.id m.status
          let s := dropChunkMsg (modContrib s c.id m.member fun e => { e with told := true }) n
          match findChunk s c.id with
          | some c =>
            let alive := match rootView s c with
              | some (g, _, _) => survivors g
              | none => []
            if c.parts.all fun e => e.told || !alive.contains e.member then
              .next { s with chunks := listDel (fun k => k.id == c.id) s.chunks }
            else .next s
          | none => .next s

/-! ### GRED, GBC and GAG (R229, R230) -/

/-- The checks of R171 on a range that a collective reads or writes. -/
def collAccess (write : Bool) (k : State → State) : List (Nat × Nat) → State → State
  | [], s => k s
  | (a, n) :: l, s =>
    let va : VA := BitVec.ofNat 57 a
    access va ⟨0, !write, write, false, false, false⟩ (fun h s =>
      if write then
        if guarded s (myPart s) (myCtx s).prv va h.pa n then fault .protection (vaInfo va) s else collAccess write k l s
      else if lostAt s h.pa n then
        if h.pte.disc then collAccess write k l (healLost s h.pa n) else fault .pageLost (vaInfo va) s
      else
        match badAt s h.pa n with
        | some e => consumes e h.pa s
        | none => collAccess write k l s) s

/-- A range of a collective: aligned to its elements, then page by page. -/
def collRange (d : Reg) (va : VA) (n : Nat) (write : Bool) (k : State → State) (s : State) : State :=
  if n = 0 then k s
  else if va.toNat % cdElem d ≠ 0 then fault .alignment (vaInfo va) s
  else collAccess write k (pieces (n / 65536 + 2) va.toNat n) s

/-- The contribution of a member sets out (R230). -/
def contribute (kind : Nat) (f : FR) (g : Group) (t : Tree) (m : Nat) (s : State) : State :=
  let d := src256 s f.imm20 f.c
  let src : VA := (src64i s f.imm20 f.a).setWidth 57
  let dst : VA := (src64i s f.imm20 f.b).setWidth 57
  let p := myPart s
  let r0 := (g.ranges.head?).getD ⟨false, false, 0, 0, 0, 0⟩
  let old := firstWhere (fun c => c.part == p.part && c.pkg0 == r0.pkg && c.gid0 == r0.gid && c.tree == cdTree d &&
    c.seq == cdSeq d && (partFor c m).isNone) s.chunks
  let (id, s) := match old with
    | some c => (c.id, s)
    | none =>
      let (n, s) := fresh s
      (n, { s with chunks := s.chunks ++ [⟨n, p.part, r0.pkg, r0.gid, cdTree d, cdSeq d, [], false, 0⟩] })
  let root := rootOf g t == some m
  let data := if kind = 6 && !root then 0 else readRange s p src.toNat (cdLen d)
  let dest := destOf s f.d
  let s := markOutside (syncObj s (me s) (2 ^ 62 + id) false true) (me s)
  let part : Contrib :=
    { member := m
      pkg := p.pkg
      who := refOf s (me s)
      part := p.part
      kind := kind
      src := src
      dst := dst
      desc := d
      core := (me s).core
      vd := (myCore s).vd
      dest := dest
      data := data
      landed := false
      told := false }
  let s := modChunk s id fun c => { c with parts := c.parts ++ [part] }
  let s := mod s fun c => { c with collOut := c.collOut ++ [id] }
  let s := if kind = 6 && root then bulkSend s p.pkg id else s
  advance (clearPresence (sendChunk s id m t.treb false 0) dest)

/-- SEQ is already outstanding at a member. -/
def seqOut (s : State) (g : Group) (m : Nat) (d : Reg) : Bool :=
  let r0 := (g.ranges.head?).getD ⟨false, false, 0, 0, 0, 0⟩
  s.chunks.any fun c => c.part == g.part.part && c.pkg0 == r0.pkg && c.gid0 == r0.gid && c.tree == cdTree d && c.seq == cdSeq d &&
    (partFor c m).any fun e => !e.told

def collEffect (kind : Nat) (f : FR) (s : State) : State :=
  let d := src256 s f.imm20 f.c
  let status := fun n => result f.d (nat256 n)
  if cdBad kind d then status 4 s
  else
    let p := myPart s
    let c := myCtx s
    match groupOf s p c.grp with
    | none => status 3 s
    | some g =>
      match treeOf g (cdTree d), memberFrom p.pkg c.grp c.unit.toNat 0 g.ranges with
      | some t, some m =>
        if !c.isUnit || seqOut s g m d then status 3 s
        else if 4 ≤ c.collOut.length then parkBefore .parkedMessage .collective s
        else
          let root := rootOf g t == some m
          let n := cdLen d
          let src : VA := (src64i s f.imm20 f.a).setWidth 57
          let dst : VA := (src64i s f.imm20 f.b).setWidth 57
          collRange d src (if kind = 6 && !root then 0 else n) false
            (collRange d dst (if kind = 5 && !root then 0 else if kind = 7 then nmem g.ranges * n else n) true
              (contribute kind f g t m)) s
      | _, _ => status 3 s

def execGred (f : FR) (s : State) : Out :=
  issue f.fields f.srcs (afterRelease false (collEffect 5 f)) s

def execGbc (f : FR) (s : State) : Out :=
  issue f.fields f.srcs (afterRelease false (collEffect 6 f)) s

def execGag (f : FR) (s : State) : Out :=
  issue f.fields f.srcs (afterRelease false (collEffect 7 f)) s

/-! ### Rebuilds (R231, R419, R420) -/

/-- A frame waits at its sender. -/
def atSender (s : State) (n : Nat) : Bool :=
  s.pkgs.any fun e => e.2.links.any fun l => l.2.held.any fun h => h.2 == n

/-- The frames that wait at a package for a notice look again. -/
def heldChunks (s : State) (c : Chunk) : State :=
  (s.chunkMsgs.filter fun m => m.chunk == c.id && !atSender s m.id).foldl (fun s m =>
    let i : Instr := if m.completion then .collectiveCompletion m.id else .chunkFrameArrival m.id
    if s.agenda.any (fun e => e.2 == i) then s else at_ s s.now i) s

/-- A package applies a rebuild notice (R231, R420). -/
def applyRebuild (s : State) (pkg part pkg0 gid0 tree lost treb : Nat) : State :=
  match groupBy s pkg part pkg0 gid0 with
  | none => s
  | some g =>
    let trees := (upto 8).map fun i =>
      let t := (g.trees[i]?).getD ⟨false, 0, 0, 0⟩
      if i = tree then { t with treb := treb } else t
    let s := modGroup s g.part g.gid fun g =>
      { g with
        ranges := setLost lost 0 g.ranges
        trees := trees
        rebuilds := (g.rebuilds + 1) % 65536 }
    let cs := s.chunks.filter fun c => c.part == part && c.pkg0 == pkg0 && c.gid0 == gid0 && c.tree == tree
    cs.foldl (fun s c =>
      let rootHere := match rootView s c with
        | some (g, _, _) => g.part.pkg == pkg
        | none => false
      let mine := c.parts.filter fun e => e.pkg == pkg
      if c.complete then
        let s := if rootHere then
            (c.parts.filter fun e => !e.told).foldl (fun s e => sendChunk s c.id e.member treb true c.status) s
          else s
        heldChunks s c
      else
        let s := if rootHere then modChunk s c.id fun c => { c with parts := c.parts.map fun (e : Contrib) => { e with landed := false } }
          else s
        let s := mine.foldl (fun s e =>
          let v := if e.kind = 6 && !rootHere then 0 else readRange s ⟨e.pkg, e.part⟩ e.src.toNat (cdLen e.desc)
          let s := modContrib s c.id e.member fun e => { e with data := v }
          sendChunk s c.id e.member treb false 0) s
        heldChunks s c) s

/-- A rebuild notice goes onto the order plane. Where its package is in no copse there is no plane: every package that
has the group applies it at once. -/
def placeNotice (s : State) (at0 part pkg0 gid0 tree mask treb : Nat) : State :=
  if (pkgAt s at0).member then sendFrame s at0 (.rebuild part pkg0 gid0 tree mask treb)
  else ((s.groups.map (·.part.pkg)).eraseDups).foldl (fun s q => applyRebuild s q part pkg0 gid0 tree mask treb) s

/-- The notices of a group's rebuild: one for each valid tree of the group, placed by the package that holds
the lowest-numbered surviving member. `mask` names the ranges newly lost, `only` a single tree. -/
def placeRebuild (s : State) (g : Group) (mask : Nat) (only : Option Nat) : State :=
  let after := { g with ranges := setLost mask 0 g.ranges }
  let r0 := (g.ranges.head?).getD ⟨false, false, 0, 0, 0, 0⟩
  let at0 := match (survivors after).head?.bind fun m => rangeFrom m 0 g.ranges with
    | some r => r.pkg
    | none => g.part.pkg
  (upto 8).foldl (fun s i =>
    match g.trees[i]? with
    | some t =>
      if t.v && (only.isNone || only == some i) then
        let same := fun (b : OBody) => match b with
          | .rebuild q a b' c _ _ => q == g.part.part && a == r0.pkg && b' == r0.gid && c == i
          | _ => false
        let waiting := ((pkgAt s at0).toSend.filter same).length +
          ((unapplied s at0).filter fun f => same f.body).length
        placeNotice s at0 g.part.part r0.pkg r0.gid i mask ((t.treb + 1 + waiting) % 65536)
      else s
    | none => s) s

/-- The ranges of a group that name a package, as a mask. -/
def maskOfPkg (pkg : Nat) : Nat → List MRange → Nat
  | _, [] => 0
  | i, r :: l => (if r.v && !r.lost && r.pkg == pkg then 2 ^ i else 0) + maskOfPkg pkg (i + 1) l

/-- Package `at0` learns that package `lost` is lost: each of its groups whose ranges name it loses those
ranges, by notices if it holds the lowest-numbered surviving member. A group without a valid tree has no
notice to wait for. -/
def losePackage (s : State) (at0 lost : Nat) : State :=
  (s.groups.filter fun g => g.part.pkg == at0).foldl (fun s g =>
    let mask := maskOfPkg lost 0 g.ranges
    if mask = 0 then s
    else
      let after := { g with ranges := setLost mask 0 g.ranges }
      let holder := (survivors after).head?.bind fun m => rangeFrom m 0 g.ranges
      if !g.trees.any (·.v) then modGroup s g.part g.gid fun g => { g with ranges := setLost mask 0 g.ranges }
      else if (holder.map (·.pkg)) == some at0 then placeRebuild s g mask none
      else s) s

/-- The relay between two packages whose link is fenced (R299). -/
def relayOf (s : State) (a b : Nat) : Option Nat := (linkOf s (.peer a b)).relay

/-- The holder of a group's lowest-numbered surviving member notices that a link is fenced or down (R231, R419). -/
def noticeFence (s : State) (g : Group) (a b : Nat) : State :=
  if g.noticed.contains (a, b) then s
  else
    let s := modGroup s g.part g.gid fun g => { g with noticed := g.noticed ++ [(a, b)] }
    let far := if (linkOf s (.peer a b)).st != .fenced || (relayOf s a b).isSome || (relayOf s b a).isSome then 0
      else maskOfPkg (if g.part.pkg = a then b else if g.part.pkg = b then a else Nat.max a b) 0 g.ranges
    placeRebuild s g far none

/-- A package learns that the link between `a` and `b` is fenced or down. -/
def learnFence (s : State) (pkg a b : Nat) : State :=
  (s.groups.filter fun g => g.part.pkg == pkg && g.ranges.any (fun r => r.counts && r.pkg == a) &&
      g.ranges.any (fun r => r.counts && r.pkg == b)).foldl (fun s g =>
    match (survivors g).head?.bind fun m => rangeFrom m 0 g.ranges with
    | some r =>
      if r.pkg = pkg then noticeFence s g a b
      else
        let (t, s) := nextLat s
        at_ s (s.now + t) (.fenceReport a b ⟨r.pkg, g.part.part⟩ r.gid)
    | none => s) s

/-- A link between two packages is fenced or goes down: the two and their relay learn of it. -/
def fenced (s : State) (a b : Nat) : State :=
  let (a, b) := (Nat.min a b, Nat.max a b)
  let s := learnFence (learnFence s a a b) b a b
  match relayOf s a b with
  | some c => learnFence s c a b
  | none => s

/-- A link that is no longer fenced may be noticed again. -/
def forgetFence (s : State) (a b : Nat) : State :=
  { s with groups := s.groups.map fun (g : Group) =>
      { g with noticed := g.noticed.filter (· != (Nat.min a b, Nat.max a b)) } }

/-- A fence report reaches the package that holds the lowest-numbered surviving member. -/
def execFenceReport (a b : Nat) (p : PartId) (gid : Nat) (s : State) : Out :=
  match groupOf s p gid with
  | some g => .next (noticeFence s g a b)
  | none => .next s

/-! ### GTBL (R227, R232) -/

def MRange.word (r : MRange) : Nat :=
  r.v.toNat * 2 ^ 127 + r.lost.toNat * 2 ^ 126 + r.pkg * 2 ^ 96 + r.gid * 2 ^ 64 + r.ucount * 2 ^ 24 + r.ufirst

def Tree.word (t : Tree) : Nat := t.treb * 2 ^ 32 + t.root * 2 ^ 8 + t.fan * 16 + t.v.toNat

def groupStNo : GroupSt → Nat
  | .placing => 0 | .running => 1 | .cancelling => 2 | .ended => 3

def rangeAt (g : Group) (i : Nat) : MRange := (g.ranges[i]?).getD ⟨false, false, 0, 0, 0, 0⟩
def treeAt (g : Group) (i : Nat) : Tree := (g.trees[i]?).getD ⟨false, 0, 0, 0⟩

/-- The words of the group table (R227). -/
def groupWord (g : Group) (w : Nat) : Nat :=
  if w = 0 then
    g.gid + g.nunits * 2 ^ 32 + g.lcnt % 4096 * 2 ^ 64 + g.steward * 2 ^ 80 + g.wdog * 2 ^ 96 + g.wact.toNat * 2 ^ 112 +
      g.wfired.toNat * 2 ^ 113 + nmem g.ranges * 2 ^ 128 + g.rebuilds * 2 ^ 144 + groupStNo g.st * 2 ^ 160 +
      g.rklo * 2 ^ 192 + g.rkhi * 2 ^ 208
  else if w = 1 then g.plan.toNat
  else if w < 6 then (rangeAt g (2 * w - 4)).word + (rangeAt g (2 * w - 3)).word * 2 ^ 128
  else if w < 8 then 0
  else (treeAt g (w - 8)).word

/-- The target of a selector: a word of the group table, or a counter; `none` for a bad selector. -/
inductive GSel where
  | word (w : Nat)
  | counter (c : Nat)
  deriving DecidableEq, Repr

def gselOf (a : W64) : Option GSel :=
  if a.toNat < 16 then some (.word a.toNat)
  else if a.toNat / 4096 = 1 then some (.counter (a.toNat % 4096))
  else none

/-- The group that C names: the issuer's own where C is z. -/
def gtblGroup (f : FR) (s : State) : Option Group :=
  let n := if f.c = .z then (myCtx s).grp else (src64i s f.imm20 f.c).toNat
  groupOf s (myPart s) n

/-- At user level C is z or names the issuer's own group (R232). -/
def gtblDenied (f : FR) (s : State) : Bool :=
  (myCtx s).prv == .user && f.c != .z && (src64i s f.imm20 f.c).toNat != (myCtx s).grp

def gtblRead (f : FR) (s : State) : Nat :=
  if f.c != .z && (gtblGroup f s).isNone then 0
  else
    match gselOf (src64i s f.imm20 f.a) with
    | none => 0
    | some (.word w) => ((gtblGroup f s).map fun g => groupWord g w).getD 0
    | some (.counter c) => counterEntry s (myPart s) c

def execGtbl (f : FR) (s : State) : Out :=
  issue f.fields f.srcs (fun s =>
    if gtblDenied f s then fault .protectionPart (src64i s f.imm20 f.c) s
    else result f.d (nat256 (gtblRead f s)) s) s

/-- A reserved bit of a group-table word is set. -/
def groupReserved (w v : Nat) : Bool :=
  if w = 0 then bitsOf v 225 31 != 0 || bitsOf v 163 29 != 0 || bitsOf v 114 14 != 0 || bitsOf v 76 4 != 0
  else if w = 1 then bitsOf v 128 128 != 0
  else if w < 6 then bitsOf v 101 25 != 0 || bitsOf v 48 16 != 0 || bitsOf v 229 25 != 0 || bitsOf v 176 16 != 0
  else if w < 8 then v != 0
  else bitsOf v 48 208 != 0 || bitsOf v 20 12 != 0 || bitsOf v 1 3 != 0

/-- A range as written; LOST is read-only and stays with its package. -/
def rangeFromWord (s : State) (old : MRange) (v : Nat) : MRange :=
  let pkg := bitsOf v 96 5
  ⟨bitAt v 127, if old.v && old.pkg = pkg then old.lost else (pkgAt s pkg).viral, pkg, bitsOf v 64 32,
    bitsOf v 24 24, bitsOf v 0 24⟩

/-- Two valid ranges overlap. -/
def rangesClash : List MRange → Bool
  | [] => false
  | r :: l => (r.v && l.any fun q => q.v && q.pkg == r.pkg && q.gid == r.gid &&
      decide (q.ufirst < r.ufirst + r.ucount) && decide (r.ufirst < q.ufirst + q.ucount)) || rangesClash l

/-- A rank plan gives some port, at some corner, a rank outside the group's interval (R232). -/
def planOutside (g : Group) (plan : BitVec 256) : Bool :=
  (upto 4).any fun d =>
    bitsOf plan.toNat (32 * d) 16 != 0xFFFF && [(0, 0), (31, 0), (0, 31), (31, 31)].any fun (c : Nat × Nat) =>
      let r : Int := (bitsOf plan.toNat (32 * d) 16 : Int) + signed 8 (bitsOf plan.toNat (32 * d + 16) 8) * (c.1 : Int) +
        signed 8 (bitsOf plan.toNat (32 * d + 24) 8) * (c.2 : Int)
      decide (r < (g.rklo : Int)) || decide ((g.rkhi : Int) ≤ r)

/-- An incomplete chunk of a tree of the group. -/
def chunkOut (s : State) (g : Group) (tree : Nat) : Bool :=
  let r0 := rangeAt g 0
  s.chunks.any fun c => c.part == g.part.part && c.pkg0 == r0.pkg && c.gid0 == r0.gid && c.tree == tree && !c.complete

/-- Chunks follow their group when its range 0 is rewritten. -/
def rekeyChunks (s : State) (part : Nat) (old new : MRange) : State :=
  { s with chunks := s.chunks.map fun (c : Chunk) =>
      if c.part = part && c.pkg0 = old.pkg && c.gid0 = old.gid then
        { c with
          pkg0 := new.pkg
          gid0 := new.gid }
      else c }

/-- The write of a group-table word that passed its checks. -/
def writeGroup (s : State) (g : Group) (w v : Nat) : State :=
  if w = 0 then
    let s := modGroup s g.part g.gid fun g =>
      { g with
        wdog := bitsOf v 96 16
        wact := bitAt v 112
        wcount := 0 }
    if bitsOf v 96 16 ≠ 0 && !s.agenda.any (fun e => e.2 == .watchdogExpiry g.part g.gid) then
      at_ s (s.now + ns 1000) (.watchdogExpiry g.part g.gid)
    else s
  else if w = 1 then modGroup s g.part g.gid fun g => { g with plan := BitVec.ofNat 256 v }
  else if w < 6 then
    let ranges := (upto 8).map fun i =>
      if i / 2 + 2 = w then rangeFromWord s (rangeAt g i) (bitsOf v (128 * (i % 2)) 128) else rangeAt g i
    let out := (upto 8).filter fun t => (treeAt g t).v && chunkOut s g t
    let s := modGroup s g.part g.gid fun g => { g with ranges := ranges }
    let s := if w = 2 then rekeyChunks s g.part.part (rangeAt g 0) ((ranges[0]?).getD (rangeAt g 0)) else s
    match groupOf s g.part g.gid with
    | some g => out.foldl (fun s t => placeRebuild s g 0 (some t)) s
    | none => s
  else if w < 8 then s
  else
    let i := w - 8
    let new : Tree := ⟨bitAt v 0, bitsOf v 8 12, bitsOf v 4 4, (treeAt g i).treb⟩
    let out := chunkOut s g i
    let trees := (upto 8).map fun j => if j = i then new else treeAt g j
    let s := modGroup s g.part g.gid fun g => { g with trees := trees }
    match groupOf s g.part g.gid with
    | some g => if out then placeRebuild s g 0 (some i) else s
    | none => s

def gtblWord (f : FR) (w v : Nat) (s : State) : State :=
  let status := fun n => result f.d (nat256 n)
  match gtblGroup f s with
  | none => status 1 s
  | some g =>
    if groupReserved w v then status 1 s
    else if 2 ≤ w ∧ w < 6 then
      let ranges := (upto 8).map fun i =>
        if i / 2 + 2 = w then rangeFromWord s (rangeAt g i) (bitsOf v (128 * (i % 2)) 128) else rangeAt g i
      if 4096 < nmem ranges || rangesClash ranges then status 2 s else status 0 (writeGroup s g w v)
    else if w = 1 && planOutside g (BitVec.ofNat 256 v) then fault .rankRange 0 s
    else status 0 (writeGroup s g w v)

def gtblCounter (f : FR) (c v : Nat) (s : State) : State :=
  let status := fun n => result f.d (nat256 n)
  let p := myPart s
  if bitsOf v 4 28 != 0 || bitsOf v 92 3 != 0 || bitsOf v 128 128 != 0 then status 1 s
  else if bitsOf v 64 16 < (myCtx s).rklo || (myCtx s).rkhi ≤ bitsOf v 64 16 then fault .rankRange 0 s
  else
    match counterKey s p c with
    | none => fault .translation (trInfo (counterVa s p c) false) s
    | some _ =>
      if limitOf s p 9 4096 ≤ c then status 1 s
      else status 0 (counterChanged (putCounter (syncObj s (me s) (2 ^ 59 + c) false false) p c v) p c)

def gtblWEffect (f : FR) (s : State) : State :=
  let v := (src256 s f.imm20 f.b).toNat
  if f.c != .z && (gtblGroup f s).isNone then result f.d (nat256 1) s
  else
    match gselOf (src64i s f.imm20 f.a) with
    | none => result f.d (nat256 1) s
    | some (.word w) => gtblWord f w v s
    | some (.counter c) => syncFree (gtblCounter f c v) s

def execGtblW (f : FR) (s : State) : Out := issueAt .guest f.fields f.srcs (gtblWEffect f) s

/-! ### The watchdog (R226) -/

def trapService (sl : Slot) : Bool := handlerRuns sl.ctx || sl.st == .trapped || sl.st == .stopped

def parkNo : SlotSt → Nat
  | .parkedMemory => 2 | .parkedMessage => 3 | .parkedSync => 4 | _ => 0

/-- The object that a unit waits for, as the watchdog's entry names it. -/
def awaited : WaitOn → Nat
  | .word key _ => key
  | .barrier h _ => h.toNat
  | .gate h _ => h.toNat
  | .gateHold h _ _ _ => h.toNat
  | .counter c _ => c
  | .armed e => e
  | .copy va => va.toNat
  | .array j => j
  | .ownFrame w => w
  | _ => 0

def watchFires (s : State) (p : PartId) (g : Group) (us : List (CtxId × Slot)) : State :=
  let s := modGroup s p g.gid fun g =>
    { g with
      wfired := true
      wcount := 0 }
  let unitWord := fun (e : CtxId × Slot) => e.2.ctx.unit.toNat + e.2.ctx.pc.toNat * 2 ^ 64 + parkNo e.2.st * 2 ^ 128 +
    awaited e.2.ctx.wait % 2 ^ 64 * 2 ^ 192
  let s := us.foldl (fun s e => logPhys s p.pkg 0x102 e.2.ctx.unit.toNat (e.2.ctx.pc.setWidth 64)
    (BitVec.ofNat 64 (awaited e.2.ctx.wait))) s
  let s := veqPush s p 2 us.length (BitVec.ofNat 64 g.gid) ((us.head?).elim 0 fun e => refWord (refOf s e.1))
    ((us.head?).elim 0 unitWord)
  if g.wact then cancelCounter s p g.lcnt none .none else s

/-- Every live unit of a group is parked, on a core that runs, and none is in trap service, in a migration message or in a
save record. -/
def allParked (s : State) (p : PartId) (gid : Nat) (us : List (CtxId × Slot)) : Bool :=
  !us.isEmpty && (us.all fun e => isParked e.2.st && !trapService e.2 && !(coreOf s e.1.core).suspended) &&
    !(s.flights.any fun f => pkgOf f.target == p.pkg && f.ctx.part == p.part && f.ctx.grp == gid) &&
    (savedMembers s p [gid]).isEmpty

/-- One microsecond of a watchdog that is on: it counts where every live unit is parked, and otherwise the count stands
still. -/
def execWatchdogExpiry (p : PartId) (gid : Nat) (s : State) : Out :=
  match groupOf s p gid with
  | none => .next s
  | some g =>
    if g.wdog = 0 then .next s
    else
      let us := (slotsOf s p.pkg).filter fun e => isLive (effSt e.2) && e.2.ctx.part == p.part && e.2.ctx.grp == gid
      let s := at_ s (s.now + ns 1000) (.watchdogExpiry p gid)
      if !allParked s p gid us then .next s
      else if g.wdog ≤ g.wcount + 1 then .next (watchFires s p g us)
      else .next (modGroup s p gid fun g => { g with wcount := g.wcount + 1 })

end Sys2Proof.Machine
end

