-- ==== Sys2Proof/Machine/Reliability.lean ====
section
/-! DEFINITION. Reliability (R406 to R418): error banks, the consumption of bad data, checkpoint intervals
and rollback, L2 sweeps and tag errors, bank rebuilds, transactions across packages, and CKPT, TBEG, TCOM
and TABT. -/

namespace Sys2Proof.Machine

open Sys2Proof

/-! ### Error banks (R406, R407) -/

/-- The bank of a site. -/
def siteBank (core : Nat) : Nat := core % 4096

def ebankOf (s : State) (pkg n : Nat) : EBank := Map.get (pkgAt s pkg).ebanks n EBank.zero

def putEbank (s : State) (pkg n : Nat) (b : EBank) : State :=
  modPkg s pkg fun k => { k with ebanks := Map.put k.ebanks n b }

/-- A corrected error arrives at a bank. -/
def captureCe (s : State) (pkg n unit code misc : Nat) : State :=
  let b := ebankOf s pkg n
  let b := if b.val then b else
    { b with
      val := true
      uc := false
      ovf := false
      addrv := false
      unit := unit
      code := code
      part := 0
      addr := 0
      misc := BitVec.ofNat 64 misc }
  putEbank (pmDie s (pkg * 4096 + (if n < 4096 then n / 1024 else 0) * 1024) 0 0x24) pkg n
    { b with cecnt := Nat.min 0xFFFF (b.cecnt + 1) }

/-- An uncorrected error arrives at a bank. -/
def captureUc (s : State) (pkg n unit code part : Nat) (addr : Option Nat) (misc : Nat) (who : W64) : State :=
  let b := ebankOf s pkg n
  if b.val && b.uc then
    putEbank s pkg n { b with
      ovf := true
      uccnt := Nat.min 0xFF (b.uccnt + 1) }
  else
    let s := putEbank s pkg n { b with
      val := true
      uc := true
      ovf := false
      addrv := addr.isSome
      unit := unit
      code := code
      part := part
      addr := BitVec.ofNat 64 (addr.getD 0)
      misc := BitVec.ofNat 64 misc
      uccnt := Nat.min 0xFF (b.uccnt + 1) }
    let s := logPhys s pkg 0x200 code (BitVec.ofNat 64 (addr.getD 0)) who
    if part = 0 then s else veqPush s ⟨pkg, part⟩ 11 code 0 who 0

/-- `sys.ebstat` (R406). -/
def ebstatWord (b : EBank) : W64 :=
  BitVec.ofNat 64 (b.val.toNat * 2 ^ 63 + b.uc.toNat * 2 ^ 62 + b.ovf.toNat * 2 ^ 61 + b.addrv.toNat * 2 ^ 60 +
    b.unit * 2 ^ 56 + b.code * 2 ^ 48 + b.part * 2 ^ 32 + b.cecnt * 2 ^ 16 + b.uccnt * 2 ^ 8)

/-- A write with bit 63 set clears the record only if it names the current UCCNT. -/
def execEbstatClearRecord (pkg : Nat) (v : BitVec 64) (s : State) : Out :=
  let n := (pkgAt s pkg).ebsel.toNat
  let b := ebankOf s pkg n
  if v.getLsbD 63 && bitsOf v.toNat 8 8 == b.uccnt then
    .next (putEbank s pkg n { b with
      val := false
      uc := false
      ovf := false
      addrv := false
      uccnt := 0 })
  else .next s

/-- CLRCE. -/
def execEbstatClearCe (pkg : Nat) (s : State) : Out :=
  let n := (pkgAt s pkg).ebsel.toNat
  .next (putEbank s pkg n { ebankOf s pkg n with cecnt := 0 })

/-! ### Contexts are put back to a snapshot (R411, R415) -/

/-- Whether the instruction that a context waits for is to trap. -/
def trapsNext (c : Ctx) : Bool :=
  match c.reply with
  | some (.trap _ _) => true
  | _ => false

/-- MACHINE_CHECK in a context, at its next instruction; `reg` is the window register that would have received the
erroneous data (R171). -/
def machineCheckIn (s : State) (x : CtxId) (code : Nat) (reg : Option Nat) : State :=
  let s := memberFails s x
  let st := (slotOf s x).st
  if st == .ready || (isParked st && !trapsNext (ctxOf s x)) then
    let s := modCtx (leavePark s x) x fun c => { c with badRead := reg }
    takeTrap s x .machineCheck (BitVec.ofNat 64 code) (nextInstrPc s x) false false
  else modCtx s x fun c => { c with events := c.events ++ [⟨.machineCheck, BitVec.ofNat 64 code, none⟩] }

def machineCheck (s : State) (x : CtxId) (code : Nat) : State := machineCheckIn s x code none

/-- The registers of a snapshot; one that waited for a result keeps what has landed since. -/
def putSnapRegs (s : State) (core base : Nat) (rs : List (Reg × Marks)) : State :=
  (upto rs.length).foldl (fun s i =>
    match rs[i]? with
    | some (v, m) =>
      if !m.present && m.arm.isNone then s
      else modCore s core fun k => { k with
        rf := Map.put k.rf (base + i) v
        marks := Map.put k.marks (base + i) m }
    | none => s) s

/-- A context takes the state of a snapshot where it is now, with an event to take there. -/
def restoreSnap (s : State) (x : CtxId) (n : Snapshot) (e : AsyncEv) : State :=
  let s := landOwn s x
  let s := leavePark s x
  let now := ctxOf s x
  let old := n.slot.ctx
  let s := putSnapRegs s x.core now.winBase n.regs
  let st := (slotOf s x).st
  let s := modExt s x fun c => withExt c old
  let now := withExt now (ctxOf s x)
  modSlot s x fun sl =>
    { sl with
      st := if st == .trapped then .ready else st
      ctx := { now with
        pc := n.pc
        entry := .resume
        source := n.pc
        line := none
        rstpc := old.rstpc
        prv := old.prv
        status := old.status
        fpstat := old.fpstat
        pkey := old.pkey
        rklo := old.rklo
        rkhi := old.rkhi
        masks := old.masks
        obls := old.obls
        ownDone := old.ownDone
        xferid := old.xferid
        tx := none
        trap := none
        wait := .operand
        waitDest := .none
        waitUndo := none
        waitRank := none
        reply := none
        throttle := none
        held := none
        statusWr := none
        tableBusy := 0
        events := now.events ++ [e] } }

/-- A line and its marks as an undo entry has them. -/
def restoreLine (s : State) (u : UndoRec) : State :=
  let s := u.bytes.foldl (fun s c => writeN s c.1 1 c.2.toNat) s
  u.fe.foldl (fun s e => wakeWord (setFe s (8 * e.1) e.2) (8 * e.1)) s

/-- Each line takes the value it held before the earliest of the entries. -/
def restoreLines (s : State) (us : List UndoRec) : State := us.reverse.foldl restoreLine s

/-- The engine jobs of contexts are stopped; their obligations come back with the tables. -/
def stopJobsOf (s : State) (ok : CRef → Bool) (pkg : Nat) : State :=
  s.cores.foldl (fun s e =>
    if pkgOf e.1 = pkg then
      (e.2.jobs.filter fun j => ok j.who).foldl (fun s j =>
        refetch (pump (removeJob (releaseTiles (endJobRegion s e.1 j.id) e.1 j) e.1 j.id) e.1) e.1) s
    else s) s

/-- The state that a meaning answers; a meaning of these events always answers one. -/
def nextOf (s : State) : Out → State
  | .next t => t
  | _ => s

/-- The error of R165 is captured at the bank of the line's home; the data is owned by the partition of the home's tag
(R375). -/
def captureData (s : State) (pa : Nat) (err : DataErr) (who : W64) : State :=
  let h := homeOf pa
  captureUc s (pkgOf h) (siteBank h) 3 (if err = .media then 16 else 17) (siteOf s h).tag (some pa)
    (who.toNat % 2 ^ 48 * 65536) who

/-- A home performs a seed and acknowledges it: on an error, or where it is second in a race, the word is
unchanged and its count is discharged with poison (R192). -/
def execSeedPerform (n : Nat) (s : State) : Out :=
  match firstWhere (fun e => e.id == n) s.seeds with
  | none => .next s
  | some e0 =>
    let e := firstSeed s e0
    let s := if e.id = e0.id then s else at_ s s.now (.seedPerform e0.id)
    let s := { s with seeds := listDel (fun q => q.id == e.id) s.seeds }
    let s := bindLoads s ((findCtx s e.part e.who).getD e.ctx).core fun u => u.ctx == e.ctx && decide (u.seq < e.id)
    let bytes := atomBytes e.dbl
    match (if e.checked then firstWhere (clashSync e.part e.who true (e.key / 32)) s.recs else none) with
    | some r =>
      let s := reportRace s e.part r
      let s := postEvent s e.part e.who ⟨.memoryRace, raceInfo e.va r, none⟩ fun s =>
        veqPush s e.part 4 0x15 (vaInfo e.va) (refWord e.who) 0
      .next (retryThrottled (wakeDrain (dischargeCarried s e.part e.who e.carried true) e.ctx) onQuota)
    | none =>
      match badAt s e.key bytes with
      | some err =>
        let s := veqPush s e.part 3 (if err = .media then 16 else 17) (vaInfo e.va) (refWord e.who) 0
        let s := captureData s e.key err (refWord e.who)
        .next (retryThrottled (wakeDrain (dischargeCarried s e.part e.who e.carried true) e.ctx) onQuota)
      | none =>
        let s := syncLate s (findCtx s e.part e.who) (e.key / 8) false false
        let s := if e.checked then { s with recs := s.recs ++
            [⟨e.key / 32, e.who, e.part, none, true, s.sOrder, some s.sOrder, true, e.pc, e.va⟩] } else s
        let m := readN s e.key bytes
        let v := atomNew e.op (8 * bytes) m (e.val.toNat % 2 ^ (8 * bytes)) 0
        let s := ctxWrite s e.part e.who e.tx e.disc e.key bytes v
        .next (retryThrottled (wakeDrain (dischargeCarried s e.part e.who e.carried false) e.ctx) onQuota)

/-- The stores and seeds of contexts that are under way are performed and acknowledged. -/
def settleWrites (s : State) (p : PartId) (ok : CRef → Bool) : State :=
  let s := (s.stores.filter fun q => q.part == p && ok q.who && !q.performed).foldl
    (fun s q => nextOf s (execStorePerformed q.id s)) s
  let s := (s.stores.filter fun q => q.part == p && ok q.who).foldl
    (fun s q => nextOf s (execStoreAcknowledged q.id s)) s
  (s.seeds.filter fun q => q.part == p && ok q.who).foldl (fun s q => nextOf s (execSeedPerform q.id s)) s

/-! ### Checkpoint intervals and rollback (R408 to R411) -/

/-- The snapshot of a context in an interval's log. -/
def snapOf (l : CkLog) (who : CRef) (tx : Option TxId) : Option Snapshot :=
  firstWhere (fun n => n.who == who && n.tx == tx) l.snaps

/-- The log's entries of open transactions, which the next interval keeps. -/
def txEntries (l : CkLog) (open_ : TxId → Bool) : CkLog :=
  { CkLog.zero with
    snaps := l.snaps.filter fun n => n.tx.any open_
    undo := l.undo.filter fun u => u.tx.any open_ }

/-- One round of steps 2 and 3 of R410: whoever performed a sync operation on an object after a member. -/
def spread (l : List Trail) (set : List CRef) : List CRef :=
  (l.foldl (fun (m : List Nat × List CRef) t =>
    let (objs, set) := m
    if set.contains t.who then (if objs.contains t.obj then objs else t.obj :: objs, set)
    else if objs.contains t.obj then (objs, set ++ [t.who])
    else (objs, set)) ([], set)).2

def spreadAll (l : List Trail) : Nat → List CRef → List CRef
  | 0, set => set
  | n + 1, set => spreadAll l n (spread l set)

/-- The rollback set of a consumer and a line (R410). -/
def rollbackSet (l : CkLog) (who : CRef) (line : Nat) : List CRef :=
  let last := (l.writers.reverse.find? fun e => e.1 == line).map (·.2)
  let start := match last with
    | some w => if w = who then [who] else [who, w]
    | none => [who]
  spreadAll l.trail (l.trail.length + 1) start

/-- R410's conditions on every member. -/
def feasible (s : State) (p : PartId) (set : List CRef) : Bool :=
  let l := (partOf s p).log
  set.all fun r => !l.exited.contains r && !l.outside.contains r &&
    match findCtx s p r with
    | some x => (match (ctxOf s x).tx with
      | some t => !((txFind s p.pkg t).any fun e => e.st == .opened)
      | none => true)
    | none => false

/-- The rollback of a set of contexts as one step of the partition; `whole` makes the restore from the whole
log (R413). -/
def rollbackNow (s : State) (p : PartId) (set : List CRef) (whole : Bool) : State :=
  let ok := fun r => set.contains r
  let s := settleWrites s p ok
  let q := partOf s p
  let cur := q.log
  let old := q.oldLog.getD CkLog.zero
  let late := set.filter fun r => (snapOf cur r none).isNone
  let us := cur.undo.filter fun u => u.tx.isNone && (whole || ok u.who)
  let us0 := old.undo.filter fun u => u.tx.isNone && late.contains u.who
  let s := restoreLines (restoreLines s us) us0
  let s := (set.filterMap (findCtx s p)).foldl memberFails s
  let s := modLog s p fun l => { l with
    undo := l.undo.filter fun u => u.tx.isNone || !ok u.who
    snaps := l.snaps.filter fun n => n.tx.isNone || !ok n.who }
  let bars := (cur.bars.filter fun b => whole || ok b.who).reverse
  let s := bars.foldl (fun s b => modSite s b.site fun k => { k with bars := Map.put k.bars b.entry b.old }) s
  let s := stopJobsOf s ok p.pkg
  let n := (q.interval).toNat
  let s := set.foldl (fun s r =>
    match findCtx s p r with
    | some x =>
      let snap := match snapOf cur r none with
        | some n => some n
        | none => snapOf old r none
      let ev : AsyncEv := ⟨.rollback, BitVec.ofNat 64 n, none⟩
      match snap with
      | some m => restoreSnap s x m ev
      | none => modCtx (leavePark s x) x fun c => { c with events := c.events ++ [ev] }
    | none => s) s
  modPart s p fun q => { q with rollbacks := q.rollbacks + 1 }

/-- The rollback that a consumption set going; the members are named by where they are. -/
def execRollback (p : PartId) (members : List CtxId) (s : State) : Out :=
  .next (rollbackNow s p (members.map (refOf s)) false)

/-- A context consumes uncorrected data: it is rolled back with all that could have read its writes, or
traps MACHINE_CHECK (R410). -/
def execDataErrorConsumption (x : CtxId) (err : DataErr) (pa : Nat) (s : State) : Out :=
  let sl := slotOf s x
  if !isParked sl.st || sl.ctx.wait != .reply then .next s
  else
    let reg := sl.ctx.badRead
    let s := restoreD s x
    let p := partId s x
    let who := refOf s x
    let s := captureData s pa err (refWord who)
    let l := (partOf s p).log
    let code := if err = .media then 1 else 2
    if !ckEnabled s p || !l.undo.any (fun u => u.line == pa / 64) then .next (machineCheckIn s x code reg)
    else
      let set := rollbackSet l who (pa / 64)
      if feasible s p set then
        let xs := set.filterMap (findCtx s p)
        .next (at_ (modSlot s x fun sl => { sl with ctx := { sl.ctx with wait := .reply } }) s.now (.rollback p xs))
      else
        let s := (set.filter (· != who)).foldl (fun s r =>
          match findCtx s p r with
          | some y => machineCheck s y 3
          | none => s) s
        .next (machineCheckIn s x 3 reg)

/-- The previous interval's log is freed once every live context has written a new snapshot. -/
def execCheckpointLogRelease (p : PartId) (s : State) : Out :=
  let n := (partOf s p).interval.toNat
  if (liveCtxs s p).all fun x => (ctxOf s x).snapAt == n then .next (modPart s p fun q => { q with oldLog := none })
  else .next s

/-- EN = 1 opens interval 1. -/
def execCklogEnable (p : PartId) (v : BitVec 64) (s : State) : Out :=
  let s := modPart s p fun q => { q with
    cklog := v
    interval := 1
    log := { CkLog.zero with interval := 1 }
    oldLog := none }
  .next ((liveCtxs s p).foldl (fun s x => modCtx s x fun c => { c with snapAt := 0 }) s)

/-- EN = 0 discards the log. -/
def execCklogDisable (p : PartId) (v : BitVec 64) (s : State) : Out :=
  .next (modPart s p fun q => { q with
    cklog := v
    log := CkLog.zero
    oldLog := none })

/-- `sys.ckstat` (R408). -/
def ckstatWord (q : Part) : W64 :=
  BitVec.ofNat 64 (q.interval.toNat + q.closes.toNat * 2 ^ 32 + q.rollbacks.toNat * 2 ^ 48)

/-- An interval closes and the next opens (R418). -/
def closeInterval (s : State) (p : PartId) : State :=
  let n := (partOf s p).interval + 1
  let open_ := fun t => (txFind s p.pkg t).any fun e => e.st == .opened
  modPart s p fun q => { q with
    interval := n
    oldLog := some q.log
    log := { txEntries q.log open_ with interval := n.toNat } }

/-- The lines of the partition that are dirty in a cache of the package. -/
def dirtyLines (s : State) (p : PartId) : List Nat :=
  (s.sites.flatMap fun e => if pkgOf e.1 = p.pkg then
      (e.2.l2.filter fun l => l.2.owner == p.part && l.2.dirty != 0).map (·.2.key) else []) ++
  (s.cores.flatMap fun e => if pkgOf e.1 = p.pkg && (siteOf s e.1).tag == p.part then
      (e.2.l1.filter fun l => l.2.dirty != 0).map (·.2.key) else [])

/-- The package closes an interval (R418): dirty lines go home, the next interval opens, and the old log is
released when its time has come. -/
def closeNow (s : State) (p : PartId) : State :=
  let s := (dirtyLines s p).foldl (fun s l => writeBackLine s (64 * l)) s
  at_ (closeInterval s p) s.now (.checkpointLogRelease p)

def ckptEffect (f : FS) (s : State) : State :=
  let p := myPart s
  if !ckEnabled s p then result f.d 0 s
  else
    afterRelease false (fun s =>
      let s := closeNow s p
      result f.d (nat256 (partOf s p).interval.toNat) s) s

/-- The region of a partition's log is full (R409). -/
def logFull (q : Part) : Bool :=
  q.cklog.getLsbD 63 &&
    decide (Config.logCapacity (bitsOf q.cklog.toNat 0 6) <
      q.log.snaps.length + q.log.undo.length + q.log.bars.length + q.log.trail.length)

/-- The package closes the interval of a log that a step has filled, and counts the close (R409). -/
def closeFull (s : State) : State :=
  s.parts.foldl (fun s e =>
    if logFull e.2 then
      let p : PartId := ⟨e.1 / 65536, e.1 % 65536⟩
      modPart (closeNow s p) p fun q => { q with closes := q.closes + 1 }
    else s) s

def execCkpt (f : FS) (s : State) : Out := issueAt .guest f.fields [] (ckptEffect f) s

/-! ### The L2 sweep and tag errors (R412, R413) -/

/-- The partitions of a package whose fill masks on a die include a way. -/
def fillers (s : State) (pkg die way : Nat) : List Nat :=
  (s.parts.filter fun e => e.1 / 65536 == pkg && (maskOf s ⟨pkg, e.1 % 65536⟩ die).getLsbD way).map (·.1 % 65536)

/-- A way's history; before its first sweep, every partition has filled under the mask of reset. -/
def historyOf (s : State) (site way : Nat) : List Nat :=
  match Map.get? (siteOf s site).history way with
  | some l => l
  | none => (s.parts.filter fun e => e.1 / 65536 == pkgOf site).map (·.1 % 65536)

/-- One way is swept: its dirty lines are written back and its history is set. -/
def execL2WaySweep (site : Nat) (s : State) : Out :=
  let k := siteOf s site
  let w := k.sweepWay
  let lines := (k.l2.filter fun l => l.1 % 24 == w && l.2.dirty != 0).map (·.2.key)
  let s := lines.foldl (fun s l => writeBackLine s (64 * l)) s
  let h := fillers s (pkgOf site) (dieOf site) w
  let s := modSite s site fun k => { k with
    history := Map.put k.history w h
    sweepWay := (w + 1) % 24 }
  .next (if (siteOf s site).l2.isEmpty then s else inCycles s site 65536 (.l2WaySweep site))

/-- The bytes of a line whose dirty copy is lost are open. -/
def staleLine (s : State) (line : Nat) : State :=
  let n := s.free
  let s := (upto 64).foldl (fun s i => writeN s (64 * line + i) 1 (Config.staleByte (n + i)).toNat) s
  { s with free := s.free + 64 }

/-- A parity error in an L2 tag entry. -/
def execL2TagParityError (site set way : Nat) (dirtyClean : Bool) (s : State) : Out :=
  let pkg := pkgOf site
  match Map.get? (siteOf s site).l2 (set * 24 + way) with
  | none => .next s
  | some l =>
    let s := modSite s site fun k => { k with l2 := Map.del k.l2 (set * 24 + way) }
    if dirtyClean then .next (captureCe s pkg (siteBank site) 1 4 way)
    else
      let s := if l.dirty = 0 then s else staleLine s l.key
      let s := captureUc s pkg (siteBank site) 1 18 l.owner (some (64 * l.key)) way 0
      .next ((historyOf s site way).foldl (fun s part =>
        let p : PartId := ⟨pkg, part⟩
        let xs := (liveCtxs s p).filter fun x => dieOf x.core == dieOf site
        if ckEnabled s p then rollbackNow s p (xs.map (refOf s)) true
        else veqPush (xs.foldl (fun s x => machineCheck s x 4) s) p 5 18 0 0 0) s)

/-! ### Banks (R163) -/

/-- A bank is declared failed: it is read as an erasure and rebuilt into a spare; beyond two at a time the
array's dirty lines are beyond correction. -/
def execBankFailure (site : Nat) (arr : ArrayKind) (bank : Nat) (s : State) : Out :=
  let pkg := pkgOf site
  let unit := if arr = .l2 then 1 else 2
  let k := siteOf s site
  if 18 ≤ bank || k.badBanks.contains (arr, bank) then .next s
  else
    let others := (k.badBanks.filter fun b => b.1 == arr).length
    let s := modSite s site fun k => { k with badBanks := k.badBanks ++ [(arr, bank)] }
    let s := captureCe s pkg (siteBank site) unit 2 bank
    let (t, s) := nextLat s
    let s := at_ s (s.now + 1 + t) (.bankRebuildComplete site arr bank)
    if others < 2 then .next s
    else
      let lost := if arr = .l2 then (k.l2.filter fun l => l.2.dirty != 0).map (·.2.key)
        else (k.llc.filter fun l => l.2.dirty).map (·.2.key)
      let s := captureUc s pkg (siteBank site) unit 19 0 none bank 0
      .next (lost.foldl (fun s l => { s with bad := Map.put s.bad l .media }) s)

def execBankRebuildComplete (site : Nat) (arr : ArrayKind) (bank : Nat) (s : State) : Out :=
  .next (modSite s site fun k =>
    if k.badBanks.contains (arr, bank) then
      { k with
        badBanks := k.badBanks.filter (· != (arr, bank))
        retiredBanks := k.retiredBanks ++ [(arr, bank)] }
    else k)

/-! ### Transactions (R414, R415, R418) -/

/-- The packages that hold members of a group. -/
def memberPkgs (g : Group) : List Nat := ((g.ranges.filter (·.counts)).map (·.pkg)).eraseDups

/-- The members of a group on a package. -/
def membersOn (g : Group) (pkg : Nat) : Nat := nmem (g.ranges.filter fun r => r.pkg == pkg)

def txName (g : Group) (txid : Nat) : TxId :=
  let r := rangeAt g 0
  ⟨g.part.part, r.pkg, r.gid, txid⟩

/-- The record of a transaction at a package, made if there is none. -/
def txOpen (s : State) (pkg : Nat) (t : TxId) : State :=
  match txFind s pkg t with
  | some _ => s
  | none => modPkg s pkg fun k => { k with txs := k.txs ++ [⟨t, .opened, [], [], [], false⟩] }

/-- A member joins; a transaction of the same name that is over begins anew. -/
def txJoin (s : State) (pkg : Nat) (t : TxId) (o : CtxId) : State :=
  let s := txOpen s pkg t
  modTx s pkg t fun e =>
    if e.st = .opened then { e with members := e.members ++ [o] }
    else ⟨t, .opened, [o], [], [], false⟩

/-- The log entries of a transaction are freed. -/
def txFree (s : State) (p : PartId) (t : TxId) : State :=
  let drop := fun (l : CkLog) => { l with
    snaps := l.snaps.filter (·.tx != some t)
    undo := l.undo.filter (·.tx != some t) }
  modPart s p fun q => { q with
    log := drop q.log
    oldLog := q.oldLog.map drop }

def tbegEffect (f : FS) (s : State) : State :=
  let p := myPart s
  let status := fun n => result f.d (nat256 n)
  match groupOf s p (myCtx s).grp with
  | none => status 1 s
  | some g =>
    if g.st ≠ .running then status 1 s
    else if (myCtx s).tx.isSome then status 2 s
    else if !ckEnabled s p then status 3 s
    else
      let t := txName g (bitsOf f.imm.toNat 0 16)
      let s := txJoin s p.pkg t (originOf s (me s))
      let dest := destOf s f.d
      let landed := takeSnap (landVar s (me s).core dest 0) (me s) s.cur.nx (some t)
      let s := { s with parts := landed.parts }
      let s := mod s fun c => { c with tx := some t }
      status 0 s

def execTbeg (f : FS) (s : State) : Out :=
  if !s.cur.rstNext then .next (faultHere .illegalEncoding s) else issue f.fields [] (tbegEffect f) s

/-- The ready frame is sent when every member of the package has issued TCOM. -/
def txReadyCheck (s : State) (p : PartId) (g : Group) (t : TxId) : State :=
  match txFind s p.pkg t with
  | some e =>
    if e.st = .opened && !e.sentReady && decide (membersOn g p.pkg ≤ e.ready.length) then
      sendFrame (modTx s p.pkg t fun e => { e with sentReady := true }) p.pkg (.txReady t (memberPkgs g).length)
    else s
  | none => s

def tcomEffect (f : FS) (s : State) : State :=
  let c := myCtx s
  match c.tx with
  | none => result f.d (nat256 1) s
  | some t =>
    if c.obls.any fun e => e.2.kind != .done then
      fault .rankOrder (BitVec.ofNat 64 (obminOf c * 65536)) s
    else
      afterRelease false (fun s =>
        let p := myPart s
        let o := originOf s (me s)
        let s := newRegion s (me s)
        let s := parkOn .parkedMessage .txEnd (destOf s f.d) s
        let s := if c.isUnit then
            modTx s p.pkg t fun e => { e with ready := if e.ready.contains o then e.ready else e.ready ++ [o] }
          else s
        match groupOf s p c.grp with
        | some g => txReadyCheck s p g t
        | none => s) s

def execTcom (f : FS) (s : State) : Out := issue f.fields [] (tcomEffect f) s

def tabtEffect (f : FS) (s : State) : State :=
  match (myCtx s).tx with
  | none => advance s
  | some t =>
    let s := parkOn .parkedMessage .txEnd .none s
    requestAbort s (pkgOf (me s).core) t 1 (bitsOf f.imm.toNat 0 8)

def execTabt (f : FS) (s : State) : Out := issue f.fields [] (tabtEffect f) s

/-- The contexts of a package that are in a transaction. -/
def txBodies (s : State) (pkg : Nat) (t : TxId) : List CtxId :=
  ((slotsOf s pkg).filter fun e => isLive (effSt e.2) && e.2.ctx.tx == some t).map (·.1)

/-- A ready frame is applied. -/
def applyReady (s : State) (pkg src : Nat) (t : TxId) : State :=
  let s := txOpen s pkg t
  modTx s pkg t fun e =>
    if e.st = .opened then { e with readyPkgs := if e.readyPkgs.contains src then e.readyPkgs else e.readyPkgs ++ [src] }
    else e

/-- A holder's ready frame completes the packages that hold members: a commit frame follows it (R414). -/
def readyCompletes (s : State) (pkg : Nat) (t : TxId) (npkgs : Nat) : Bool :=
  match txFind s pkg t with
  | some e => e.st == .opened && decide (npkgs ≤ ((pkg :: e.readyPkgs).eraseDups).length)
  | none => false

/-- A commit frame is applied: the members' TCOM completes with 0. -/
def applyCommit (s : State) (pkg : Nat) (t : TxId) : State :=
  match txFind s pkg t with
  | none => s
  | some e =>
    if e.st ≠ .opened then s
    else
      let xs := txBodies s pkg t
      let parts := (xs.map fun x => (partId s x).part).eraseDups
      let s := xs.foldl (fun s x =>
        let s := modCtx s x fun c => { c with tx := none }
        if isParked (slotOf s x).st && (ctxOf s x).wait == .txEnd then answer s x 0 else s) s
      let s := parts.foldl (fun s q => txFree s ⟨pkg, q⟩ t) s
      modTx s pkg t fun e => { e with st := .committed }

/-- An abort frame is applied: lines and snapshots since TBEG come back, and every member takes TX_ABORT. -/
def applyAbort (s : State) (pkg : Nat) (t : TxId) (cause code : Nat) : State :=
  match txFind s pkg t with
  | none => s
  | some e =>
    if e.st ≠ .opened then s
    else
      let xs := txBodies s pkg t
      let parts := (xs.map fun x => (partId s x).part).eraseDups
      let ev : AsyncEv := ⟨.txAbort, BitVec.ofNat 64 (cause + code * 256), none⟩
      let s := parts.foldl (fun s q =>
        let p : PartId := ⟨pkg, q⟩
        let mine := (xs.filter fun x => (partId s x).part == q).map (refOf s)
        let s := settleWrites s p (mine.contains ·)
        let s := restoreLines s ((partOf s p).log.undo.filter fun u => u.tx == some t)
        stopJobsOf s (mine.contains ·) pkg) s
      let s := xs.foldl (fun s x =>
        match snapOf (partOf s (partId s x)).log (refOf s x) (some t) with
        | some n => restoreSnap s x n ev
        | none => modCtx s x fun c => { c with tx := none, events := c.events ++ [ev] }) s
      let s := parts.foldl (fun s q => txFree s ⟨pkg, q⟩ t) s
      modTx s pkg t fun e => { e with st := .aborted }

/-- A transaction with members on two packages whose link leaves service is aborted (R415, cause 3). -/
def linkAborts (s : State) (a b : Nat) : State :=
  [a, b].foldl (fun s pkg =>
    (pkgAt s pkg).txs.foldl (fun s e =>
      match groupBy s pkg e.id.part e.id.pkg e.id.gid with
      | some g => if (memberPkgs g).contains a && (memberPkgs g).contains b then requestAbort s pkg e.id 3 0 else s
      | none => s) s) s

/-- Package `at0` aborts the transactions of groups that lost a member with package `lost` (cause 4). -/
def lossAborts (s : State) (at0 lost : Nat) : State :=
  (pkgAt s at0).txs.foldl (fun s e =>
    match groupBy s at0 e.id.part e.id.pkg e.id.gid with
    | some g => if g.ranges.any (fun r => r.v && r.pkg == lost) then requestAbort s at0 e.id 4 0 else s
    | none => s) s

end Sys2Proof.Machine
end

