-- ==== Sys2Proof/Machine/System.lean ====
section
/-! DEFINITION. System registers (R440 to R444, R351, R365): who may read and write each, its value and its
write; SYSR and SYSW; BKPT, TRMK and debug stops (R430, R438, R439); trace rings (R431 to R433). -/

namespace Sys2Proof.Machine

open Sys2Proof

/-! ### Levels (R351, R365, R373, R374, R380, R406, R408, R430 to R436, R441) -/

/-- The least privilege of an event that a counter counts (R435). -/
def eventLevel (ev : Nat) : Nat := if ev = 0x23 ∨ ev = 0x24 then 2 else if 0x20 ≤ ev ∧ ev ≤ 0x22 then 1 else 0

def myDie (s : State) : Die := dieAt s (dieKey (me s).core)

/-- The select register that belongs to a count register. -/
def selectOf (s : State) (n : Nat) : W64 :=
  if n < 0x1E0 then Map.get (myCore s).pmsel (n - 0x1D8) 0 else Map.get (myDie s).dmsel (n - 0x1F0) 0

/-- The least privilege to read a register; `none` where it has no readable view. -/
def readLevel (s : State) (n : Nat) : Option Nat :=
  if n ≤ 0x0006 then some 0
  else if n = 0x0007 then some 1
  else if 0x0010 ≤ n ∧ n ≤ 0x0012 then some 0
  else if n = 0x0013 then some 2
  else if n = 0x0020 ∨ (0x0022 ≤ n ∧ n ≤ 0x0025) then some 1
  else if n = 0x0030 ∨ n = 0x0031 ∨ (0x0034 ≤ n ∧ n ≤ 0x0036) then some 2
  else if 0x0100 ≤ n ∧ n ≤ 0x0105 then some 0
  else if n = 0x0108 ∨ n = 0x010B then some 0
  else if n = 0x0109 then some 1
  else if n = 0x010A ∨ n = 0x010C ∨ (0x0110 ≤ n ∧ n ≤ 0x0112) then some 2
  else if n = 0x0118 ∨ n = 0x0119 ∨ n = 0x011B then some 1
  else if n = 0x011A ∨ n = 0x011C then some 2
  else if 0x0120 ≤ n ∧ n ≤ 0x0123 then some 1
  else if 0x0128 ≤ n ∧ n ≤ 0x012A then some 2
  else if 0x0130 ≤ n ∧ n ≤ 0x0133 then some 2
  else if n = 0x0138 ∨ n = 0x0139 then some 1
  else if 0x0140 ≤ n ∧ n ≤ 0x0145 then some 2
  else if 0x0180 ≤ n ∧ n ≤ 0x0185 then some 1
  else if n = 0x01B0 ∨ n = 0x01B1 ∨ n = 0x01B9 then some 2
  else if n = 0x01C0 ∨ n = 0x01C1 then some 1
  else if 0x01C2 ≤ n ∧ n ≤ 0x01C4 then some 0
  else if 0x01D0 ≤ n ∧ n ≤ 0x01D7 then some 0
  else if 0x01D8 ≤ n ∧ n ≤ 0x01DF then some (eventLevel (bitsOf (selectOf s n).toNat 0 6))
  else if 0x01E0 ≤ n ∧ n ≤ 0x01EF then some 0
  else if 0x01F0 ≤ n ∧ n ≤ 0x01FF then some (eventLevel (bitsOf (selectOf s n).toNat 0 6))
  else none

/-- The least privilege to write a register; `none` where it has no writable view. -/
def writeLevel (n : Nat) : Option Nat :=
  if n = 0x0000 ∨ n = 0x0001 then some 0
  else if 0x0002 ≤ n ∧ n ≤ 0x0004 then none
  else if 0x0005 ≤ n ∧ n ≤ 0x0007 then some 1
  else if n = 0x0011 then some 0
  else if n = 0x0010 ∨ n = 0x0012 then some 1
  else if n = 0x0013 then some 2
  else if n = 0x0020 ∨ (0x0022 ≤ n ∧ n ≤ 0x0025) then some 1
  else if n = 0x0030 ∨ n = 0x0031 ∨ n = 0x0034 ∨ n = 0x0035 then some 2
  else if 0x0100 ≤ n ∧ n ≤ 0x0105 then some 0
  else if n = 0x0108 then some 0
  else if n = 0x0109 ∨ n = 0x010B then some 1
  else if n = 0x010A ∨ n = 0x010C ∨ (0x0110 ≤ n ∧ n ≤ 0x0112) then some 2
  else if n = 0x0118 ∨ n = 0x0119 ∨ n = 0x011B then some 1
  else if n = 0x011A ∨ n = 0x011C then some 2
  else if n = 0x0120 ∨ n = 0x0121 ∨ n = 0x0123 then some 1
  else if 0x0128 ≤ n ∧ n ≤ 0x012B then some 2
  else if n = 0x0130 ∨ n = 0x0131 then some 2
  else if n = 0x0138 then some 1
  else if 0x0140 ≤ n ∧ n ≤ 0x0145 then some 2
  else if 0x0180 ≤ n ∧ n ≤ 0x0185 then some 1
  else if n = 0x01B0 ∨ n = 0x01B1 ∨ n = 0x01B8 ∨ n = 0x01B9 then some 2
  else if n = 0x01C0 ∨ n = 0x01C1 then some 1
  else if n = 0x01C3 ∨ n = 0x01C4 then some 0
  else if 0x01D0 ≤ n ∧ n ≤ 0x01FF then some 0
  else none

/-! ### Values -/

/-- A field of a trap bank (R351). -/
def bankField (b : Bank) (i : Nat) : W64 :=
  match i with
  | 0 => b.ecause | 1 => b.epc | 2 => b.einfo | 3 => b.estat | 4 => b.erst | _ => b.escr

/-- The bits of a 64-bit value that a mask keeps. -/
def keep (v : W64) (mask : Nat) : W64 := v &&& BitVec.ofNat 64 mask

def putBankField (b : Bank) (i : Nat) (v : W64) : Bank :=
  match i with
  | 0 => { b with ecause := keep v 0xFF }
  | 1 => { b with epc := keep v (2 ^ 57 - 1) }
  | 2 => { b with einfo := v }
  | 3 => { b with estat := keep v 0x3B3 }
  | 4 => { b with erst := keep v (2 ^ 57 - 1) }
  | _ => { b with escr := v }

/-- The partition and the die that `sys.wmsel` names, and the site of its slice (R441). -/
def wmPart (k : Pkg) : Nat := bitsOf k.wmsel.toNat 0 16
def wmDie (k : Pkg) : Nat := bitsOf k.wmsel.toNat 16 2
def wmSlice (k : Pkg) : Nat := bitsOf k.wmsel.toNat 18 10

/-- The occupancy counter that `sys.wmsel` names (R160). -/
def occupancy (s : State) (pkg : Nat) : Nat :=
  let k := pkgAt s pkg
  ((siteOf s (coreId pkg (wmDie k) (wmSlice k))).l2.filter fun l => l.2.owner == wmPart k).length

/-- The value of a system register that the issuing context reads. -/
def sysValue (s : State) (n : Nat) : W64 :=
  let c := wholeCtx s (me s)
  let k := myCore s
  let p := partOf s (myPart s)
  let pkg := pkgOf (me s).core
  let g := pkgAt s pkg
  let d := myDie s
  match n with
  | 0x0000 => c.status
  | 0x0001 => c.fpstat
  | 0x0002 => BitVec.ofNat 64 (obminOf c)
  | 0x0003 => BitVec.ofNat 64 c.rklo
  | 0x0004 => BitVec.ofNat 64 c.rkhi
  | 0x0005 => c.rstpc.setWidth 64
  | 0x0006 => c.clampcnt
  | 0x0007 => c.pkey
  | 0x0010 => BitVec.ofNat 64 k.schk.toNat
  | 0x0011 => k.lfsr.setWidth 64
  | 0x0012 => k.abfttol.setWidth 64
  | 0x0013 => k.abftinj.setWidth 64
  | 0x0020 => p.ptroot
  | 0x0022 => p.cowpool
  | 0x0023 => p.qtab
  | 0x0024 => p.ctab
  | 0x0025 => p.rlog
  | 0x0030 => p.fmap
  | 0x0031 => p.fmlen
  | 0x0034 => g.wmsel
  | 0x0035 => (maskOf s ⟨pkg, wmPart g⟩ (wmDie g)).setWidth 64
  | 0x0036 => BitVec.ofNat 64 (occupancy s pkg)
  | 0x0108 => c.uvec
  | 0x0109 => c.gvec
  | 0x010A => c.hvec
  | 0x010B => c.udeleg
  | 0x010C => c.hdeleg
  | 0x0110 => p.savebase
  | 0x0111 => p.slottab
  | 0x0112 => p.slotcfg
  | 0x0118 => p.tuvec
  | 0x0119 => p.tgvec
  | 0x011A => p.thvec
  | 0x011B => p.tudeleg
  | 0x011C => p.thdeleg
  | 0x0120 => p.veqbase
  | 0x0121 => p.veqhead
  | 0x0122 => p.veqtail
  | 0x0123 => p.veqlost
  | 0x0128 => p.l2ptab
  | 0x0129 => p.l2plen
  | 0x012A => p.quota
  | 0x0130 => g.ebsel.setWidth 64
  | 0x0131 => ebstatWord (ebankOf s pkg g.ebsel.toNat)
  | 0x0132 => (ebankOf s pkg g.ebsel.toNat).addr
  | 0x0133 => (ebankOf s pkg g.ebsel.toNat).misc
  | 0x0138 => p.cklog
  | 0x0139 => ckstatWord p
  | 0x01B0 => p.pmsess
  | 0x01B1 => g.pmavail
  | 0x01B9 => BitVec.ofNat 64 k.bkstop.toNat
  | 0x01C0 => k.trbase
  | 0x01C1 => k.trctl
  | 0x01C2 => k.trtail
  | 0x01C3 => k.trhead
  | 0x01C4 => k.trlost
  | _ =>
    if 0x0100 ≤ n ∧ n ≤ 0x0105 then bankField (bankOf c c.prv) (n - 0x0100)
    else if 0x0140 ≤ n ∧ n ≤ 0x0145 then bankField c.guestBank (n - 0x0140)
    else if 0x0180 ≤ n ∧ n ≤ 0x0185 then bankField c.userBank (n - 0x0180)
    else if 0x01D0 ≤ n ∧ n ≤ 0x01D7 then Map.get k.pmsel (n - 0x01D0) 0
    else if 0x01D8 ≤ n ∧ n ≤ 0x01DF then Map.get k.pmcnt (n - 0x01D8) 0
    else if 0x01E0 ≤ n ∧ n ≤ 0x01EF then Map.get d.dmsel (n - 0x01E0) 0
    else if 0x01F0 ≤ n ∧ n ≤ 0x01FF then Map.get d.dmcnt (n - 0x01F0) 0
    else 0

/-- Registers of a context's extended state, which a visitor reaches at its origin (R103). -/
def extended (n : Nat) : Bool :=
  n = 6 || (0x0100 ≤ n && n ≤ 0x010C) || (0x0140 ≤ n && n ≤ 0x0145) || (0x0180 ≤ n && n ≤ 0x0185)

/-! ### SYSR (R365) -/

/-- A visitor's request waits at its suspended origin core (R103, R371): the context awaits the reply. -/
def awaitOrigin (d : Dest) (v : W64) (s : State) : State :=
  let x := me s
  let s := modCtx (parkOn .parkedMemory .reply d s) x fun c => { c with reply := some (.value d (w64 v)) }
  modCore s (originOf s x).core fun k => { k with savedInbox := k.savedInbox ++ [.syncWakeReply x] }

def sysrEffect (f : FS) (s : State) : State :=
  let n := f.imm.toNat
  let v := sysValue s n
  let far := extended n && visiting s (me s)
  if far && (coreOf s (originOf s (me s)).core).suspended then awaitOrigin (destOf s f.d) v s
  else
  let (t, s) := nextLat s
  let t := if far then t else t % 4
  advance (openVar s (1 + t) (destOf s f.d) (w64 v) none)

def execSysr (f : FS) (s : State) : Out :=
  match readLevel s f.imm.toNat with
  | none => .next (faultHere .illegalEncoding s)
  | some l => issueFrom (decide (prvNo (myCtx s).prv < l)) f.fields [] (sysrEffect f) s

/-! ### Stops (R430) -/

/-- A record of a stop or a release: in the ring, or in the physical log where the core has none. -/
def noteStop (s : State) (x : CtxId) (sub : Nat) : State :=
  if (coreOf s x.core).trctl.getLsbD 0 then note s x.core 6 x.slot sub ((ctxOf s x).pc.setWidth 64)
  else logPhys s (pkgOf x.core) 0x103 sub ((ctxOf s x).pc.setWidth 64) (refWord (refOf s x))

/-- A context stops at its boundary: it leaves its park, and no bank changes. -/
def stopNow (s : State) (x : CtxId) : State :=
  let s := dropYield (leavePark s x) x
  let st := (slotOf s x).st
  noteStop (modSlot s x fun sl =>
    { sl with
      st := .stopped
      prev := st
      ctx := { sl.ctx with stopReq := false } }) x 0

/-- A write to `sys.dbgstop` with bit 6 clear: the context stops at its next boundary. -/
def execDebugStop (x : CtxId) (gen : BitVec 32) (s : State) : Out :=
  let sl := slotOf s x
  if sl.gen ≠ gen || !isLive (effSt sl) then .next s
  else .next (modCtx s x fun c => { c with stopReq := true })

/-- A write with bit 6 set: the context returns to the state it held before the stop. -/
def execDebugRelease (x : CtxId) (gen : BitVec 32) (s : State) : Out :=
  let sl := slotOf s x
  if sl.gen ≠ gen then .next s
  else
    let s := modCtx s x fun c => { c with stopReq := false }
    if sl.st = .suspended && sl.saved == .stopped then .next (modSlot s x fun sl => { sl with saved := sl.prev })
    else if sl.st ≠ .stopped then .next s
    else
      let s := noteStop (catchCore s x.core) x 1
      let s := modSlot s x fun sl =>
        { sl with
          st := sl.prev
          ctx := { sl.ctx with nextIssue := Nat.max sl.ctx.nextIssue ((coreOf s x.core).cyc + 1) } }
      .next (if sl.ctx.reply.isSome then at_ s s.now (.syncWakeReply x) else s)

/-- The context that a reference word names, in the writer's partition: the slot it is in. -/
def dbgTarget (s : State) (v : W64) : Option (CtxId × BitVec 32) :=
  ((refOfWord (putBit v 6 false)).bind (findCtx s (myPart s))).map fun x => (x, (slotOf s x).gen)

/-! ### Partition tags (R375) -/

/-- Lines that have been written keep their ciphertext when the key they are read under changes: at the sites `mine`
they read as what the new key makes of it (R164). -/
def recryptLines (s : State) (mine : Nat → Bool) (old new : Option (BitVec 512)) : State :=
  if old = new then s
  else
    let lines := ((s.mem.filter fun c => decide (c.1 < 2 ^ 43) && mine (homeOf c.1)).map (·.1 / 64)).eraseDups
    { s with mem := lines.foldl (fun m ln =>
        memWrite m (64 * ln) 64 (Config.recrypt old new ln (BitVec.ofNat 512 (memRead m (64 * ln) 64))).toNat) s.mem }

/-- The key of the lines whose home carries a tag: the partition's, or for tag 0 the hypervisor's. -/
def keyOf (s : State) (pkg tag : Nat) : Option (BitVec 512) := (partOf s ⟨pkg, tag⟩).key

/-- A site's tag is written when its core holds nothing, or refused. -/
def execPartitionTagWrite (x : CtxId) (v : BitVec 64) (s : State) : Out :=
  let site := pkgOf x.core * 4096 + bitsOf v.toNat 16 12
  let k := coreOf s site
  if k.slots.all (fun e => e.2.st == .free) && k.jobs.isEmpty && k.inbox.isEmpty then
    let pkg := pkgOf site
    let tag := bitsOf v.toNat 0 16
    let s := recryptLines s (· == site) (keyOf s pkg (siteOf s site).tag) (keyOf s pkg tag)
    .next (modSite s site fun t => { t with tag := tag })
  else .next (setStatus s x stPTAGR true)

/-! ### SYSW (R365, R441 to R444) -/

/-- The next boundary of the slot table (R373): floor(T / SLOTNS) changes. -/
def scheduleSlots (s : State) (p : PartId) : State :=
  let cfg := (partOf s p).slotcfg.toNat
  let len := bitsOf cfg 0 32
  let s := { s with agenda := s.agenda.filter fun e => e.2 != .slotTableChange p }
  if !bitAt cfg 63 || len = 0 then s
  else
    let t := timeOf s p.pkg
    at_ s (s.now + (ns ((t / len + 1) * len - t) - s.now % 2574)) (.slotTableChange p)

/-- A sample period that begins (R431). -/
def scheduleSamples (s : State) (core : Nat) : State :=
  let c := (coreOf s core).trctl
  let s := { s with agenda := s.agenda.filter fun e => e.2 != .traceSampleTick core }
  let us := bitsOf c.toNat 32 16
  if c.getLsbD 0 && us != 0 then at_ s (s.now + ns (1000 * us)) (.traceSampleTick core) else s

/-- The codes that `sys.hdeleg` can name: every cause but 0x00 and 0x2D (R351). -/
def hdelegMask : Nat := 0x00001FFFFFFF7FFE

/-- A 63-bit count written; UNAV stays as it is. -/
def putCount (old v : W64) : W64 := BitVec.ofNat 64 (bitsOf old.toNat 63 1 * 2 ^ 63 + v.toNat % 2 ^ 63)

/-- The write of a system register by the issuing context; reserved bits are dropped. -/
def sysWrite (n : Nat) (v : W64) (s : State) : State :=
  let x := me s
  let p := myPart s
  let pkg := pkgOf x.core
  let core := x.core
  let ctx := fun (g : Ctx → Ctx) => modCtx s x g
  let ext := fun (g : Ctx → Ctx) => modExt s x g
  let part := fun (g : Part → Part) => modPart s p g
  let kore := fun (g : Core → Core) => modCore s core g
  let pk := fun (g : Pkg → Pkg) => modPkg s pkg g
  match n with
  | 0x0001 => ctx fun c => { c with fpstat := keep v 0x3F3F }
  | 0x0005 => ctx fun c => { c with rstpc := v.setWidth 57 }
  | 0x0006 => ext fun c => { c with clampcnt := v }
  | 0x0007 => ctx fun c => { c with pkey := keep v 0xFFFFFFFF }
  | 0x0010 => kore fun k => { k with schk := v.getLsbD 0 }
  | 0x0012 => kore fun k => { k with abfttol := v.setWidth 6 }
  | 0x0013 => kore fun k => { k with abftinj := v.setWidth 18 }
  | 0x0020 => part fun q => { q with ptroot := keep v 0xFFFFFFFFFFFC0 }
  | 0x0022 => part fun q => { q with cowpool := keep v 0x1FFFFFFFFFFFFF8 }
  | 0x0023 => part fun q => { q with qtab := keep v 0x1FFFFFFFFFFFFC0 }
  | 0x0024 => part fun q => { q with ctab := keep v 0x1FFFFFFFFFFFFF0 }
  | 0x0025 => part fun q => { q with rlog := keep v 0x1FFFFFFFFFF003F }
  | 0x0030 => part fun q => { q with fmap := keep v 0xFFFFFFFFFFFF8 }
  | 0x0031 => part fun q => { q with fmlen := keep v 0xFFFFFFFFF }
  | 0x0034 => pk fun k => { k with wmsel := keep v 0xFFFFFFF }
  | 0x0108 => ext fun c => { c with uvec := keep v (2 ^ 57 - 1) }
  | 0x0109 => ext fun c => { c with gvec := keep v (2 ^ 57 - 1) }
  | 0x010A => ext fun c => { c with hvec := keep v (2 ^ 57 - 1) }
  | 0x010B => ext fun c => { c with udeleg := v &&& udelegMask }
  | 0x010C => ext fun c => { c with hdeleg := keep v hdelegMask }
  | 0x0110 => part fun q => { q with savebase := keep v 0xFFFFFFFF00000 }
  | 0x0111 => part fun q => { q with slottab := keep v (2 ^ 52 - 1) }
  | 0x0112 => scheduleSlots (part fun q => { q with slotcfg := keep v 0x80000000FFFFFFFF }) p
  | 0x0118 => part fun q => { q with tuvec := keep v (2 ^ 57 - 1) }
  | 0x0119 => part fun q => { q with tgvec := keep v (2 ^ 57 - 1) }
  | 0x011A => part fun q => { q with thvec := keep v (2 ^ 57 - 1) }
  | 0x011B => part fun q => { q with tudeleg := v &&& udelegMask }
  | 0x011C => part fun q => { q with thdeleg := keep v hdelegMask }
  | 0x0120 => part fun q => { q with veqbase := keep v 0x1FFFFFFFFFFFFCF }
  | 0x0121 => part fun q => { q with veqhead := v }
  | 0x0123 => part fun q => { q with veqlost := v }
  | 0x0128 => part fun q => { q with l2ptab := keep v (2 ^ 52 - 1) }
  | 0x0129 => part fun q => { q with l2plen := v }
  | 0x012A => part fun q => { q with quota := keep v (2 ^ 52 - 1) }
  | 0x012B => nextOf s (execPartitionTagWrite x v s)
  | 0x0130 => pk fun k => { k with ebsel := v.setWidth 13 }
  | 0x0131 =>
    let s := if v.getLsbD 63 then nextOf s (execEbstatClearRecord pkg v s) else s
    if v.getLsbD 0 then nextOf s (execEbstatClearCe pkg s) else s
  | 0x0138 =>
    let v := keep v 0x81FFFFFFFFFF003F
    if v.getLsbD 63 then nextOf s (execCklogEnable p v s) else nextOf s (execCklogDisable p v s)
  | 0x01B0 => part fun q => { q with pmsess := keep v 0xFFFFFFFFFFFC0 }
  | 0x01B1 => pk fun k => { k with pmavail := v }
  | 0x01B8 =>
    match dbgTarget s v with
    | some (y, g) => nextOf s (if v.getLsbD 6 then execDebugRelease y g s else execDebugStop y g s)
    | none => s
  | 0x01B9 => kore fun k => { k with bkstop := v.getLsbD 0 }
  | 0x01C0 => kore fun k => { k with trbase := keep v 0x1FFFFFFFFFFF01F }
  | 0x01C1 => scheduleSamples (kore fun k => { k with trctl := keep v 0xFFFF000003FF }) core
  | 0x01C3 => kore fun k => { k with trhead := v }
  | 0x01C4 => kore fun k => { k with trlost := 0 }
  | _ =>
    if 0x0100 ≤ n ∧ n ≤ 0x0105 then
      ext fun c => putBank c (myCtx s).prv (putBankField (bankOf c (myCtx s).prv) (n - 0x0100) v)
    else if 0x0140 ≤ n ∧ n ≤ 0x0145 then
      ext fun c => { c with guestBank := putBankField c.guestBank (n - 0x0140) v }
    else if 0x0180 ≤ n ∧ n ≤ 0x0185 then
      ext fun c => { c with userBank := putBankField c.userBank (n - 0x0180) v }
    else if 0x01D0 ≤ n ∧ n ≤ 0x01D7 then
      kore fun k => { k with pmsel := Map.put k.pmsel (n - 0x01D0) (keep v 0x13F) }
    else if 0x01D8 ≤ n ∧ n ≤ 0x01DF then
      kore fun k => { k with pmcnt := Map.put k.pmcnt (n - 0x01D8) (putCount (Map.get k.pmcnt (n - 0x01D8) 0) v) }
    else if 0x01E0 ≤ n ∧ n ≤ 0x01EF then
      modDie s (dieKey core) fun d => { d with
        dmsel := Map.put d.dmsel (n - 0x01E0) (keep v 0x13F)
        dmpart := Map.put d.dmpart (n - 0x01E0) p.part }
    else if 0x01F0 ≤ n ∧ n ≤ 0x01FF then
      modDie s (dieKey core) fun d => { d with
        dmcnt := Map.put d.dmcnt (n - 0x01F0) (putCount (Map.get d.dmcnt (n - 0x01F0) 0) v) }
    else s

/-- A SYSW passes the checks of its register, reads A zero-extended and takes its effect. -/
def syswWith (f : FS) (k : W64 → State → State) (s : State) : Out :=
  match writeLevel f.imm.toNat with
  | none => .next (faultHere .illegalEncoding s)
  | some l =>
    issueFrom (decide (prvNo (myCtx s).prv < l)) f.fields [f.a] (fun s => k (src64u s f.a) s) s

/-- Selecting an event above the writer's privilege faults PRIVILEGE (R435). -/
def selectDenied (n : Nat) (v : W64) (s : State) : Bool :=
  ((0x01D0 ≤ n && n ≤ 0x01D7) || (0x01E0 ≤ n && n ≤ 0x01EF)) &&
    decide (prvNo (myCtx s).prv < eventLevel (bitsOf v.toNat 0 6))

def execSysw (f : FS) (s : State) : Out :=
  syswWith f (fun v s =>
    if selectDenied f.imm.toNat v s then faultHere .privilege s
    else advance (sysWrite f.imm.toNat v s)) s

/-- `sys.status` after a SYSW of `v` at privilege `prv` (R442). -/
def statusWritten (old v : W64) (prv : Nat) : W64 :=
  let sticky : W64 := 0x3F00
  let w := old &&& ~~~(v &&& sticky)
  let w := putBit w stUIM (v.getLsbD stUIM)
  let w := if v.getLsbD stUH then w else putBit w stUH false
  let w := if v.getLsbD stGH || prv < 1 then w else putBit w stGH false
  if v.getLsbD stHH || prv < 2 then w else putBit w stHH false

/-- A write to `sys.status` takes effect at the context's next issue (R443). -/
def execSyswStatus (f : FS) (s : State) : Out :=
  syswWith f (fun v s => advance (mod s fun c => { c with statusWr := some v })) s

/-- The pending write of `sys.status`, as the context issues again. -/
def applyStatus (s : State) (x : CtxId) : State :=
  match (ctxOf s x).statusWr with
  | some v => modCtx s x fun c =>
      { c with
        status := statusWritten c.status v (prvNo c.prv)
        statusWr := none }
  | none => s

/-- A write of zero stores 1 (R55). -/
def execSyswLfsr (f : FS) (s : State) : Out :=
  syswWith f (fun v s =>
    let w : W32 := v.setWidth 32
    advance (modCore s (me s).core fun k => { k with
      lfsr := if w = 0 then 1 else w
      lfsrWrites := k.lfsrWrites + 1 })) s

/-- A fill mask is changed, and the partition joins the history of each way it gains (R159, R412). -/
def writeMaskOf (s : State) (pkg part die : Nat) (m : BitVec 24) : State :=
  let p : PartId := ⟨pkg, part⟩
  let old := maskOf s p die
  let gained := (upto 24).filter fun w => m.getLsbD w && !old.getLsbD w
  let s := modPart s p fun q => { q with wmask := Map.put q.wmask die m }
  let add := fun (h : Map (List Nat)) => gained.foldl (fun h w =>
    match Map.get? h w with
    | some l => if l.contains part then h else Map.put h w (l ++ [part])
    | none => h) h
  { s with sites := s.sites.map fun e =>
      if pkgOf e.1 = pkg && dieOf e.1 = die then (e.1, { e.2 with history := add e.2.history }) else e }

def execSyswWmask (f : FS) (s : State) : Out :=
  syswWith f (fun v s =>
    let pkg := pkgOf (me s).core
    let k := pkgAt s pkg
    advance (writeMaskOf s pkg (wmPart k) (wmDie k) (v.setWidth 24))) s

/-! ### BKPT and TRMK (R437 to R439) -/

def bkptEffect (f : FS) (s : State) : State :=
  if (myCore s).bkstop then stopNow s (me s)
  else undoTrap (takeTrap s (me s) .bkpt (f.imm.setWidth 64) s.cur.pc false true)

def execBkpt (f : FS) (s : State) : Out := issue f.fields [] (holdWindows (bkptEffect f)) s

def execTrmk (f : FS) (s : State) : Out :=
  issue f.fields [f.a] (fun s =>
    let v := if f.a = .z then 0 else src64u s f.a
    advance (note s (me s).core 4 (me s).slot (bitsOf f.imm.toNat 0 12) v)) s

/-! ### Trace rings (R431 to R433) -/

/-- The number of records of a ring; `none` where the core has no ring. -/
def ringSize (k : Core) : Option Nat :=
  let n := bitsOf k.trbase.toNat 0 5
  if 8 ≤ n ∧ n ≤ 20 then some (2 ^ n) else none

/-- A record of 16 bytes (R432); the ring lies in a partition's memory, so DIE and SITE are 0. -/
def traceWord (r : TraceRec) (kind sub delta payload : Nat) : Nat :=
  payload % 2 ^ 64 * 2 ^ 64 + kind * 2 ^ 60 + delta % 2 ^ 16 * 2 ^ 44 + r.slot % 64 * 2 ^ 38 + r.lcore % 2 ^ 14 * 2 ^ 24 +
    sub % 2 ^ 12

/-- The words that a record needs in the ring: an absolute stamp, the number lost, the record itself. -/
def traceWords (k : Core) (r : TraceRec) : List Nat :=
  let stamp := r.stamp
  let gap := r.kind == 3
  let far := match k.trStamp with
    | some p => decide (p + 0xFFFF ≤ stamp) && !gap
    | none => !gap
  let delta := match k.trStamp with
    | some p => if far || gap then 0 else stamp - p
    | none => 0
  let abs := if far then [traceWord r 1 0 0 stamp] else []
  let lost := if k.trDropped = 0 then [] else [traceWord r 8 0 delta k.trDropped]
  abs ++ lost ++ [traceWord r r.kind r.sub (if lost.isEmpty then delta else 0) r.payload.toNat]

/-- One word goes into the ring at its tail; `false` where its page cannot be written. -/
def ringPut (s : State) (core : Nat) (size w : Nat) : State × Bool :=
  let k := coreOf s core
  let p : PartId := ⟨pkgOf core, (siteOf s core).tag⟩
  let va : VA := BitVec.ofNat 57 (bitsOf k.trbase.toNat 12 45 * 4096 + 16 * (k.trtail.toNat % size))
  match walkMark s core p va true with
  | (.ok _ _ fr _, s) =>
    (modCore (writePA s p.pkg (fr * 65536 + va.toNat % 65536) 16 w) core fun k => { k with trtail := k.trtail + 1 }, true)
  | (_, s) => (s, false)

/-- The oldest record that a core has still to write is written, or dropped where the ring is full. -/
def flushOne (s : State) (core : Nat) (r : TraceRec) : State :=
  let k := coreOf s core
  match ringSize k with
  | none => s
  | some size =>
    let ws := traceWords k r
    let drop := fun (s : State) => modCore s core fun k => { k with
      trlost := k.trlost + 1
      trDropped := k.trDropped + 1 }
    if size < (k.trtail - k.trhead).toNat + ws.length then drop s
    else
      let out := ws.foldl (fun (m : State × Bool) w => if m.2 then ringPut m.1 core size w else m) (s, true)
      if out.2 then
        modCore out.1 core fun k => { k with
          trStamp := some r.stamp
          trDropped := 0 }
      else drop s

/-- The records of a core that wait are written into its ring. -/
def flushTrace (s : State) (core : Nat) : State :=
  let q := (coreOf s core).trq
  if q.isEmpty then s
  else q.foldl (fun s r => flushOne s core r) (modCore s core fun k => { k with trq := [] })

/-- A PC sample each period: the slot that issued in the last cycle (R431, R432). -/
def execTraceSampleTick (core : Nat) (s : State) : Out :=
  let k := coreOf s core
  let us := bitsOf k.trctl.toNat 32 16
  if !k.trctl.getLsbD 0 || us = 0 then .next s
  else
    let s := if k.gated then s
      else match k.issued with
        | some (sl, pc) => note s core 0 sl 0 (pc.setWidth 64)
        | none => note s core 0 0 0xFFF 0
    .next (at_ s (s.now + ns (1000 * us)) (.traceSampleTick core))

end Sys2Proof.Machine
end

