-- ==== Sys2Proof/Machine/Links.lean ====
section
/-! DEFINITION. Links (R288 to R293, R298 to R300): their states, frames of a point-to-point link, fencing,
the viral state, the bulk plane. -/

namespace Sys2Proof.Machine

open Sys2Proof

/-- The lanes of a kind of link (R288). -/
def lanesOf : LinkId → Nat
  | .peer _ _ => 256
  | .orderPlane _ => 128
  | .bulkPlane _ => 128
  | _ => 1

/-- The bank and the unit that report a link's errors (R406). -/
def linkBank : LinkId → Nat × Nat
  | .mesh _ d n => (4096 + d * 32 + n % 32, 6)
  | .port _ d n => (4096 + d * 32 + n % 32, 6)
  | _ => (4225, 6)

/-- A package enters the viral state (R300): that is an event of its own. -/
def goViral (s : State) (pkg : Nat) : State :=
  if (pkgAt s pkg).viral then s else atOnce s s.now (.packageViral pkg)

/-- The relay of two packages (R299): the lowest package with both links in service. -/
def findRelay (s : State) (a b : Nat) : Option Nat :=
  firstWhere (fun c => c != a && c != b && linkLive s (.peer a c) && linkLive s (.peer c b) && !(pkgAt s c).viral)
    (upto 32)

/-- A package whose every point-to-point link is out of service is lost to the others (R231). -/
def isolated (s : State) (pkg : Nat) : State :=
  if (upto 32).any fun c => c != pkg && linkLive s (.peer pkg c) then s
  else (s.pkgs.map (·.1)).foldl (fun s q =>
    if q = pkg then s else lossAborts (losePackage s q pkg) q pkg) s

/-- What follows when a link has become fenced: relay and handshake, notices, aborts; a mesh link or a plane's
fibre is a fatal error of the package (R290, R299, R415, R419). -/
def afterFence (s : State) (l : LinkId) : State :=
  let (bank, unit) := linkBank l
  let s := captureUc s (linkPkg l) bank unit 20 0 none 0 0
  match l with
  | .peer a b =>
    let r := findRelay s a b
    let s := modEnds s l fun k => { k with relay := r }
    let (t, s) := nextLat s
    let s := if r.isSome then at_ s (s.now + t) (.fenceHandshake a b) else s
    isolated (isolated (linkAborts (fenced s a b) a b) a) b
  | .port _ _ _ => s
  | _ => goViral s (linkPkg l)

/-- Both ends of a link become fenced, but for one that is viral. -/
def fenceLink (s : State) (l : LinkId) : State :=
  if (linkOf s l).st = .fenced then s
  else afterFence (modEnds s l fun k => if k.st = .viral then k else { k with st := .fenced }) l

/-- A link begins training: its sequence numbers start again at 0 (R289), and transactions over it are aborted (R415). -/
def trainLink (s : State) (l : LinkId) : State :=
  let s := match l with
    | .peer a b => acked b a (acked a b s)
    | _ => s
  let s := modEnds s l fun k =>
    if k.st = .viral then k
    else { k with
      st := .training
      attempts := 0
      sendSeq := BitVec.ofNat 12 k.out.length
      ackSeq := 0
      recvSeq := 0
      rounds := []
      out := (upto k.out.length).zipWith (fun i f => { f with seq := BitVec.ofNat 12 i }) k.out }
  match l with
  | .peer a b => linkAborts s a b
  | _ => s

/-- A change to the ends of a link that are not viral: a viral end stays viral (R289, R300). -/
def modAlive (s : State) (l : LinkId) (f : Link → Link) : State := modEnds s l fun k => if k.st = .viral then k else f k

/-- What waits at the ends of a point-to-point link goes out. -/
def releaseEnds (s : State) (l : LinkId) : State :=
  match l with
  | .peer a b => linkRelease (linkRelease s a b) b a
  | _ => s

/-! ### The events of R290 -/

/-- The status of a power command (R455). -/
def putStatus (s : State) (pkg n : Nat) : State := modPkg s pkg fun k => { k with pstatus := n }

/-- Power command 6 (R455). -/
def execLinkOn (l : LinkId) (s : State) : Out :=
  let s := putStatus s (linkPkg l) 0
  if (linkOf s l).st ≠ .down then .next s
  else
    match l with
    | .peer a b => .next (trainLink (forgetFence s a b) l)
    | _ => .next (trainLink s l)

/-- Power command 7 (R455). -/
def execLinkOff (l : LinkId) (s : State) : Out :=
  let was := (linkOf s l).st
  let s := modAlive (putStatus s (linkPkg l) 0) l fun k => { k with st := .down }
  match l with
  | .peer a b => .next (if was = .down || was = .fenced then s else fenced s a b)
  | _ => .next s

def execTrainingComplete (l : LinkId) (lanes total : Nat) (s : State) : Out :=
  let k := linkOf s l
  if k.st ≠ .training then .next s
  else if total ≤ lanes && lanes != 0 then
    .next (releaseEnds (modAlive s l fun k =>
      { k with
        st := .up
        lanes := lanes
        relay := none }) l)
  else if total ≤ 2 * lanes && lanes != 0 then
    .next (releaseEnds (modAlive s l fun k =>
      { k with
        st := .degraded
        lanes := lanes
        relay := none }) l)
  else if 2 ≤ k.attempts then .next (fenceLink s l)
  else .next (modAlive s l fun k => { k with attempts := k.attempts + 1 })

def execRetrainTimeout (l : LinkId) (s : State) : Out :=
  if (linkOf s l).st = .training then .next (fenceLink s l) else .next s

def execLaneLoss (l : LinkId) (lanes : Nat) (s : State) : Out :=
  if !linkLive s l then .next s
  else if lanesOf l ≤ 2 * lanes then
    .next (modAlive s l fun k =>
      { k with
        st := .degraded
        lanes := lanes })
  else .next (fenceLink s l)

def execReplayThreshold (l : LinkId) (s : State) : Out :=
  if !linkLive s l then .next s
  else
    .next (at_ (trainLink s l) (s.now + ns 20000) (.retrainTimeout l))

def execLinkFenceCommand (l : LinkId) (s : State) : Out :=
  if (linkOf s l).st = .viral then .next s else .next (fenceLink s l)

def execLinkUnfenceCommand (l : LinkId) (s : State) : Out :=
  if (linkOf s l).st ≠ .fenced then .next s
  else
    match l with
    | .peer a b => .next (trainLink (forgetFence s a b) l)
    | _ => .next (trainLink s l)

/-- A viral notice reaches `pkg` from `dst`: it fences its own link, and the members there are lost to it. -/
def execViralNoticeArrival (pkg dst : Nat) (s : State) : Out :=
  let l : LinkId := .peer pkg dst
  if (linkOf s l).st = .viral then .next s
  else
    let was := (linkOf s l).st
    let s := modLink s l fun k => { k with st := .fenced }
    let s := if was = .fenced then s else linkAborts (captureUc s pkg 4225 6 20 0 none 0 0) pkg dst
    .next (lossAborts (losePackage s pkg dst) pkg dst)

/-- A package turns viral: a notice on each of its links, then nothing more (R300); the REDs that it has not sent are
lost, and their counts are discharged with poison (R72). -/
def execPackageViral (pkg : Nat) (s : State) : Out :=
  if (pkgAt s pkg).viral then .next s
  else
    let peers := (upto 32).filter fun c => c != pkg && (linkLive s (.peer pkg c) || (linkOf s (.peer pkg c)).st == .training)
    let s := peers.foldl (fun s c =>
      let (t, s) := nextLat s
      at_ s (s.now + t) (.viralNoticeArrival c pkg)) s
    let reds := (pkgAt s pkg).toSend.filter isRed
    let s := reds.foldl (fun s b => match b with
      | .red _ _ part _ w carried => dischargeCarried s ⟨pkg, part⟩ (refAtOrigin s w) carried true
      | _ => s) s
    .next (modPkg s pkg fun k =>
      { k with
        viral := true
        holds := false
        toSend := k.toSend.filter fun b => !isRed b
        links := k.links.map fun e => (e.1, { e.2 with st := LinkSt.viral }) })

/-! ### Frames of a point-to-point link (R292, R293) -/

/-- A data frame is accepted in sequence; any other is dropped and a nak names the one expected. -/
def execNakReceive (pkg dst : Nat) (ack : BitVec 12) (s : State) : Out :=
  let l : LinkId := .peer pkg dst
  .next (goBack (modLink s l fun k =>
    { k with
      ackSeq := ack
      progress := if k.ackSeq = ack then k.progress else s.now
      out := k.out.dropWhile fun f => f.seq != ack }) pkg dst)

def execDataFrameReceive (pkg dst : Nat) (seq : BitVec 12) (good : Bool) (body : Nat) (s : State) : Out :=
  let l : LinkId := .peer pkg dst
  if !linkLive s l then .next s
  else if !good then .next (captureCe (modLink s l fun k => { k with errors := k.errors + 1 }) pkg 4225 6 5 0)
  else if seq = (linkOf s l).recvSeq then
    .next (modLink s l fun k =>
      { k with
        recvSeq := k.recvSeq + 1
        accepted := k.accepted ++ [body] })
  else .next (nextOf s (execNakReceive dst pkg (linkOf s l).recvSeq s))

def execResendTimeout (pkg dst : Nat) (s : State) : Out :=
  let before := (linkOf s (.peer pkg dst)).ackSeq
  let s := acked pkg dst s
  let k := linkOf s (.peer pkg dst)
  if k.out.isEmpty || !k.live then .next s
  else
    let s := if k.ackSeq = before then goBack s pkg dst else s
    if k.progress + ns 10000 ≤ s.now then .next (atOnce s s.now (.replayThreshold (.peer pkg dst)))
    else .next (at_ s (Nat.min (s.now + ns 4000) (k.progress + ns 10000)) (.resendTimeout pkg dst))

/-- A pause of virtual channels for a duration in units of 64 ns; 0 ends it. -/
def execPauseFrame (pkg dst : Nat) (vcs : BitVec 4) (dur : BitVec 16) (s : State) : Out :=
  let l : LinkId := .peer pkg dst
  if dur = 0 then .next (linkRelease (modLink s l fun k => { k with paused := k.paused &&& ~~~vcs }) pkg dst)
  else
    let s := modLink s l fun k => { k with paused := k.paused ||| vcs }
    .next (((upto 4).filter fun i => vcs.getLsbD i).foldl
      (fun s i => at_ s (s.now + ns (64 * dur.toNat)) (.pauseExpiry pkg dst i)) s)

def execPauseExpiry (pkg dst : Nat) (vc : Nat) (s : State) : Out :=
  .next (linkRelease (modLink s (.peer pkg dst) fun k => { k with paused := k.paused &&& ~~~(BitVec.ofNat 4 (2 ^ vc)) }) pkg dst)

/-- The two ends of a fenced link exchange what they accepted, through the relay, and resend the rest over
two hops, in order (R299). -/
def execFenceHandshake (a b : Nat) (s : State) : Out :=
  match (linkOf s (.peer a b)).relay with
  | none => .next s
  | some c =>
    let took := fun (s : State) (a b : Nat) =>
      let s := acked a b s
      let rest := (linkOf s (.peer a b)).out
      let s := modLink s (.peer a b) fun k => { k with out := [] }
      modLink s (.peer b a) fun k =>
        { k with
          accepted := k.accepted ++ rest.map (·.body)
          recvSeq := k.recvSeq + BitVec.ofNat 12 rest.length }
    let s := releaseEnds (took (took s a b) b a) (.peer a b)
    let pair := (Nat.min a b, Nat.max a b)
    .next (modPkg s c fun k => { k with detours := if k.detours.contains pair then k.detours else k.detours ++ [pair] })

/-- A die-to-die port replays the flits that its peer has not acknowledged (R291). -/
def execDieToDieReplay (l : LinkId) (s : State) : Out :=
  let (bank, unit) := linkBank l
  .next (captureCe (modLink s l fun k =>
    { k with
      errors := k.errors + 1
      replays := k.replays + 1 }) (linkPkg l) bank unit 5 0)

/-- A flit that has waited 256 cy moves to the escape channel: it is ejected all the same, and the model keeps
no flit (R291). -/
def execFlitEscapeTimeout (_pkg _n : Nat) (s : State) : Out := .next s

/-! ### The bulk plane (R298) -/

/-- In its slot a package transmits; every other member receives in the order sent. -/
def execBulkSlot (pkg : Nat) (s : State) : Out :=
  let k := pkgAt s pkg
  if k.viral || k.bulkOut.isEmpty then .next s
  else
    let s := modPkg s pkg fun k => { k with bulkOut := [] }
    .next ((s.pkgs.map (·.1)).foldl (fun s q =>
      if q = pkg || !k.members.getLsbD q || (pkgAt s q).viral then s
      else modPkg s q fun r => { r with
        bulkIn := r.bulkIn ++ k.bulkOut.map fun b => (pkg, b)
        bulkSeq := Map.put r.bulkSeq pkg (Map.get r.bulkSeq pkg 0 + BitVec.ofNat 12 k.bulkOut.length) }) s)

/-- A bulk frame comes in, or is requested from its sender and comes over the point-to-point link. -/
def execBulkFrameReceive (pkg src : Nat) (good : Bool) (s : State) : Out :=
  let s := if good then s else captureCe s pkg 4225 6 5 0
  .next (modPkg s pkg fun k => { k with
    bulkIn := k.bulkIn ++ [(src, 0)]
    bulkSeq := Map.put k.bulkSeq src (Map.get k.bulkSeq src 0 + 1) })

end Sys2Proof.Machine
end

