-- ==== Sys2Proof/Machine/Plane.lean ====
section
/-! DEFINITION. The order plane (R13, R294 to R297): holds of the Thorn, the application of each kind of order
frame, lost frames, and the regeneration of the Thorn. -/

namespace Sys2Proof.Machine

open Sys2Proof

/-- The event that applies a frame at a package. -/
def frameEvent (pkg : Nat) : OBody → Option Instr
  | .token _ _ => some (.tokenPass pkg)
  | .store _ _ _ _ => some (.copseStore pkg)
  | .atomic _ _ _ _ _ _ _ _ => some (.copseAtomic pkg)
  | .red _ _ _ _ _ _ => some (.copseAtomic pkg)
  | .gate _ _ _ _ _ _ _ _ => some (.gateOperation pkg)
  | .barrier _ _ _ _ _ => some (.copseBarrierOperation pkg)
  | .txReady _ _ => some (.transactionReady pkg)
  | .txCommit _ _ => some (.transactionCommit pkg)
  | .txAbort _ _ _ => some (.transactionAbort pkg)
  | .rebuild _ _ _ _ _ _ => some (.groupTreeRebuildNotice pkg)
  | .reserved _ => none

/-- The object of an operation that a frame carries, and whether it acquires and releases; of an image the last part
stands for it. -/
def frameObj : OBody → Option (Nat × Bool × Bool)
  | .store w _ _ _ => some (2 ^ 62 + w, false, true)
  | .atomic _ w _ _ _ _ _ _ => some (2 ^ 62 + w, true, true)
  | .red _ w _ _ _ _ => some (2 ^ 62 + w, false, false)
  | .gate op h _ _ imgPart _ _ _ => if (op == 2 || op == 3) && imgPart != 3 then none else some (gateObj h, false, true)
  | .barrier op h _ _ _ => if op = 7 then none else some (barObj h, op == 3, op == 2 || op == 4 || op == 6)
  | _ => none

/-- The PSEQ after `n` (R294). -/
def nextPseq (n : Nat) : Nat := (n + 1) % 2 ^ 32

/-- A frame goes out: the next PSEQ, and 100 ns to every member, the sender included. -/
def transmitOne (s : State) (pkg nth : Nat) (b : OBody) : State :=
  let s := modPkg s pkg fun k => { k with pseq := nextPseq k.pseq }
  let f : OFrame := ⟨(pkgAt s pkg).pseq, pkg, nth, b⟩
  let mask := (pkgAt s pkg).members
  (s.pkgs.map (·.1)).foldl (fun s q =>
    if !mask.getLsbD q then s
    else
      let s := modPkg s q fun k => { k with arrived := k.arrived ++ [f] }
      match frameEvent q b with
      | some i => at_ s (s.now + ns 100) i
      | none => s) s

/-- What transmission does for the issuer (R301): the operation takes its place in S (R279), so waits of later sync
operations and releases end, and the act that a RED carries is done. -/
def performed (s : State) (pkg : Nat) (b : OBody) : State :=
  let s := match frameWho b, frameObj b with
    | some w, some (obj, acq, rel) => syncLate s (atOrigin s w) obj acq rel
    | _, _ => s
  let s := match b with
    | .red _ _ part _ w carried =>
      retryThrottled (dischargeCarried s ⟨pkg, part⟩ (refAtOrigin s w) carried false) onQuota
    | _ => s
  match frameWho b with
  | some w => wakeDrain s w
  | none => s

def popSend (s : State) (pkg : Nat) : State := modPkg s pkg fun k => { k with toSend := k.toSend.drop 1 }

/-- A signal that fails when it is about to be sent sends no frame: its sender faults (R396). -/
def failSignal (s : State) (pkg : Nat) (e : CtxId × Cause × W64) : State :=
  match atOrigin s e.1 with
  | some x => if (ctxOf s x).wait = .reply then reply s x (.trap e.2.1 e.2.2) else s
  | none => logPhys s pkg 0x104 e.2.1.code e.2.2 0

/-- The order frames of one hold: at most 16, an image's four frames together, a commit directly after the
ready frame that completes its transaction (R296, R387, R414). Answers how many were sent. -/
def sendHold (pkg : Nat) : Nat → Nat → State → Nat × State
  | 0, n, s => (n, s)
  | fuel + 1, n, s =>
    match (pkgAt s pkg).toSend with
    | [] => (n, s)
    | b :: _ =>
      let go := fun (s : State) => sendHold pkg fuel (n + 1) (performed (transmitOne (popSend s pkg) pkg n b) pkg b)
      if 16 ≤ n then (n, s)
      else
        match b with
        | .gate op _ _ _ imgPart _ _ _ =>
          match gateFrameFails s pkg b with
          | some e => sendHold pkg fuel n (failSignal (popSend s pkg) pkg e)
          | none => if (op == 2 || op == 3) && imgPart == 0 && decide (12 < n) then (n, s) else go s
        | .txReady t np =>
          if !((txFind s pkg t).any fun e => e.st == .opened) then sendHold pkg fuel n (popSend s pkg)
          else if readyCompletes s pkg t np then
            if 14 < n then (n, s)
            else
              let s := transmitOne (popSend s pkg) pkg n b
              sendHold pkg fuel (n + 2) (transmitOne s pkg (n + 1) (.txCommit t np))
          else go s
        | .txAbort t _ _ =>
          if !((txFind s pkg t).any fun e => e.st == .opened) then sendHold pkg fuel n (popSend s pkg) else go s
        | _ => go s

/-- The next member after a package, in ascending order with wrap (R296). -/
def nextMember (mask : BitVec 32) (pkg : Nat) : Nat :=
  ((firstWhere (fun i => mask.getLsbD ((pkg + i) % 32)) ((upto 32).map (· + 1))).map fun i => (pkg + i) % 32).getD pkg

/-- A hold of the Thorn: order frames, then one token pass. A viral package sends nothing. -/
def hold (s : State) (pkg : Nat) : State :=
  if (pkgAt s pkg).viral then s
  else
    let s := modPkg s pkg fun k => { k with pseq := k.lastApplied }
    let (n, s) := sendHold pkg (17 + (pkgAt s pkg).toSend.length) 0 s
    let k := pkgAt s pkg
    modPkg (transmitOne s pkg n (.token k.members (nextMember k.members pkg))) pkg fun k => { k with holds := false }

/-- The turn of a package in R297, from the last application on. -/
def thornTimer (s : State) (pkg : Nat) : State :=
  let k := pkgAt s pkg
  let s := { s with agenda := s.agenda.filter fun e => e.2 != .thornRegeneration pkg }
  if pkg = k.lastHolder || k.viral || !k.member then s
  else
    let before := ((upto 32).filter fun q => k.members.getLsbD q && q != k.lastHolder && decide (q < pkg)).length
    at_ s (s.now + ns (8000 * (before + 1))) (.thornRegeneration pkg)

/-- The next frame in PSEQ order, of a kind, is applied at a package: not while an earlier one is missing. -/
def applyNext (s : State) (pkg : Nat) (kind : OBody → Bool) (k : OFrame → State → State) : Out :=
  let p := pkgAt s pkg
  match p.arrived with
  | [] => .next s
  | f :: rest =>
    if p.viral || p.gapAt.isSome || f.pseq ≠ nextPseq p.lastApplied || !kind f.body then .next s
    else
      let s := modPkg s pkg fun p => { p with
        arrived := rest
        lastApplied := f.pseq
        kept := (p.kept ++ [f]).drop (p.kept.length - 4095) }
      let s := (upto 4).foldl (fun s d => pmDie s (pkg * 4096 + d * 1024) 0 0x22) s
      let s := thornTimer (k f s) pkg
      match frameWho f.body with
      | some w =>
        if pkgOf w.core = pkg then
          .next ((allSlots s).foldl (fun s e =>
            if e.2.ctx.origin == w && isParked e.2.st then
              match e.2.ctx.wait with
              | .ownFrame _ => wake s e.1 0
              | .drain => wake s e.1 0
              | _ => s
            else s) s)
        else .next s
      | none => .next s

/-- A token pass: MEMBERS is taken over, the package named holds the Thorn, and one whose bit is cleared
turns viral (R296, R297). -/
def execTokenPass (pkg : Nat) (s : State) : Out :=
  applyNext s pkg (fun b => match b with
    | .token _ _ => true
    | _ => false) fun f s =>
    match f.body with
    | .token members next =>
      let s := modPkg s pkg fun k => { k with
        members := members
        lastHolder := next
        holds := next == pkg && members.getLsbD pkg }
      if !members.getLsbD pkg then goViral s pkg
      else if next = pkg then hold s pkg
      else s
    | _ => s

/-- The address of a copse word in a package's replica (R152). -/
def copseWordPA (w : Nat) : Nat := 2 * 2 ^ 43 + 8 * w

def execCopseStore (pkg : Nat) (s : State) : Out :=
  applyNext s pkg (fun b => match b with
    | .store _ _ _ _ => true
    | _ => false) fun f s =>
    match f.body with
    | .store w _ v _ => writePA s pkg (copseWordPA w) 8 v.toNat
    | _ => s

/-- A copse atomic: the replica is changed, and D lands with the old value at the issuing package. -/
def execCopseAtomic (pkg : Nat) (s : State) : Out :=
  applyNext s pkg (fun b => match b with
    | .atomic _ _ _ _ _ _ _ _ => true
    | .red _ _ _ _ _ _ => true
    | _ => false) fun f s =>
    match f.body with
    | .atomic op w _ v e who _ _ =>
      let m := readPA s pkg (copseWordPA w) 8
      let s := writePA s pkg (copseWordPA w) 8 (atomNew op 64 m v.toNat e.toNat)
      answerOrigin s pkg who (nat256 m)
    | .red op w _ v _ _ =>
      let m := readPA s pkg (copseWordPA w) 8
      writePA s pkg (copseWordPA w) 8 (atomNew op 64 m v.toNat 0)
    | _ => s

def execGateOperation (pkg : Nat) (s : State) : Out :=
  applyNext s pkg (fun b => match b with
    | .gate _ _ _ _ _ _ _ _ => true
    | _ => false) fun f s =>
    match f.body with
    | .gate op h part n imgPart img who _ => applyGate s pkg (f.src == pkg) op h part n imgPart img who
    | _ => s

def execCopseBarrierOperation (pkg : Nat) (s : State) : Out :=
  applyNext s pkg (fun b => match b with
    | .barrier _ _ _ _ _ => true
    | _ => false) fun f s =>
    match f.body with
    | .barrier op h arg who _ => applyBarrier s pkg op h arg who
    | _ => s

def execTransactionReady (pkg : Nat) (s : State) : Out :=
  applyNext s pkg (fun b => match b with
    | .txReady _ _ => true
    | _ => false) fun f s =>
    match f.body with
    | .txReady t _ => applyReady s pkg f.src t
    | _ => s

def execTransactionCommit (pkg : Nat) (s : State) : Out :=
  applyNext s pkg (fun b => match b with
    | .txCommit _ _ => true
    | _ => false) fun f s =>
    match f.body with
    | .txCommit t _ => applyCommit s pkg t
    | _ => s

def execTransactionAbort (pkg : Nat) (s : State) : Out :=
  applyNext s pkg (fun b => match b with
    | .txAbort _ _ _ => true
    | _ => false) fun f s =>
    match f.body with
    | .txAbort t cause code => applyAbort s pkg t cause code
    | _ => s

def execGroupTreeRebuildNotice (pkg : Nat) (s : State) : Out :=
  applyNext s pkg (fun b => match b with
    | .rebuild _ _ _ _ _ _ => true
    | _ => false) fun f s =>
    match f.body with
    | .rebuild part pkg0 gid0 tree lost treb => applyRebuild s pkg part pkg0 gid0 tree lost treb
    | _ => s

/-- A frame of a reserved OKIND is counted and discarded; it keeps its place. -/
def execReservedOkindFrame (pkg : Nat) (s : State) : Out :=
  let s := if (pkgAt s pkg).arrived.isEmpty && !(pkgAt s pkg).viral then
      modPkg s pkg fun k => { k with arrived := [⟨nextPseq k.lastApplied, 0, 0, .reserved 9⟩] }
    else s
  applyNext s pkg (fun b => match b with
    | .reserved _ => true
    | _ => false) fun _ s => modPkg s pkg fun k => { k with discarded := k.discarded + 1 }

/-! ### Lost frames (R295) -/

/-- Whether an event applies an order frame at a package. -/
def isFrameEvent (pkg : Nat) (i : Instr) : Bool :=
  [Instr.tokenPass pkg, .copseStore pkg, .copseAtomic pkg, .gateOperation pkg, .copseBarrierOperation pkg,
    .transactionReady pkg, .transactionCommit pkg, .transactionAbort pkg, .groupTreeRebuildNotice pkg].contains i

/-- The frames that were held are applied in order. -/
def redeliver (s : State) (pkg : Nat) : State :=
  let k := pkgAt s pkg
  let waiting := (s.agenda.filter fun e => isFrameEvent pkg e.2).length
  (k.arrived.take (k.arrived.length - waiting)).foldl (fun s f =>
    match frameEvent pkg f.body with
    | some i => at_ s s.now i
    | none => s) s

/-- The next frame is bad or missing: later frames are held and it is requested from every member in reach. -/
def execOrderFrameGap (pkg : Nat) (s : State) : Out :=
  let k := pkgAt s pkg
  match k.arrived with
  | [] => .next s
  | f :: rest =>
    if k.gapAt.isSome || k.viral then .next s
    else
      let s := captureCe (modPkg s pkg fun k => { k with
        arrived := rest
        gapAt := some f.pseq }) pkg 4225 8 5 0
      let s := ((upto 32).filter fun q => q != pkg && k.members.getLsbD q && linkLive s (.peer pkg q)).foldl (fun s q =>
        let (t, s) := nextLat s
        at_ s (s.now + t) (.orderFrameRecovery pkg q)) s
      .next (at_ s (s.now + ns 100000) (.orderRecoveryTimeout pkg))

/-- An answer from `src`: the first correct one is applied, then the held frames. -/
def execOrderFrameRecovery (pkg src : Nat) (s : State) : Out :=
  match (pkgAt s pkg).gapAt with
  | none => .next s
  | some n =>
    if (pkgAt s src).viral then .next s
    else
      match firstWhere (fun f => f.pseq == n) ((pkgAt s src).kept ++ (pkgAt s src).arrived) with
      | none => .next s
      | some f =>
        let s := modPkg s pkg fun k => { k with
          arrived := f :: k.arrived
          gapAt := none }
        .next (redeliver s pkg)

def execOrderRecoveryTimeout (pkg : Nat) (s : State) : Out :=
  if (pkgAt s pkg).gapAt.isSome then .next (goViral (captureUc s pkg 4225 8 20 0 none 0 0) pkg) else .next s

/-- A candidate whose turn has come regenerates the Thorn (R297). -/
def execThornRegeneration (pkg : Nat) (s : State) : Out :=
  let k := pkgAt s pkg
  if k.viral || !k.member || !k.arrived.isEmpty then .next s
  else
    let out := fun q => q == k.lastHolder || (k.members.getLsbD q && decide (q < pkg))
    let mask := (upto 32).foldl (fun (m : BitVec 32) q => if out q then m &&& ~~~(BitVec.ofNat 32 (2 ^ q)) else m) k.members
    let s := modPkg s pkg fun k => { k with pseq := k.lastApplied }
    .next (transmitOne s pkg 0 (.token mask (nextMember mask k.lastHolder)))

/-- The optical links of packages are trained and the copse is formed with its first MEMBERS (R453). -/
def execCopseFormation (pkgs : List Nat) (s : State) : Out :=
  let mask := pkgs.foldl (fun (m : BitVec 32) q => m ||| BitVec.ofNat 32 (2 ^ q)) 0
  let s := pkgs.foldl (fun s a =>
    let up : Nat → Link → Link := fun n k => { k with
      st := .up
      lanes := n
      sendSeq := 0
      ackSeq := 0
      recvSeq := 0 }
    let s := modLink (modLink s (.orderPlane a) (up 128)) (.bulkPlane a) (up 128)
    (pkgs.filter (· != a)).foldl (fun s b => modLink s (.peer a b) (up 256)) s) s
  let s := pkgs.foldl (fun s a => modPkg s a fun k => { k with
    member := true
    members := mask
    lastHolder := pkgs.foldl Nat.min 31 }) s
  match firstWhere (fun q => pkgs.contains q) (upto 32) with
  | some q => .next (hold (pkgs.foldl thornTimer s) q)
  | none => .next s

end Sys2Proof.Machine
end

