-- ==== Sys2Proof/Machine/Host.lean ====
section
/-! DEFINITION. The host (R306 to R309, R421 to R429): the flag window, BAR 2, FLUSH, doorbells, binding,
keys, time and SPDM. -/

namespace Sys2Proof.Machine

open Sys2Proof

/-- The physical address of a byte of the flag window (R152). -/
def windowPA (off : Nat) : Nat := 2 ^ 43 + off

/-- The partition bound to a virtual function. -/
def vfPart (s : State) (pkg vf : Nat) : Option Nat := Map.get? (pkgAt s pkg).vfs vf

/-- A request completed with Unsupported Request. -/
def unsupported (s : State) (pkg : Nat) : State := modPkg s pkg fun k => { k with hostUr := k.hostUr + 1 }

/-- A read is completed with its data. -/
def hostData (s : State) (pkg v : Nat) : State :=
  modPkg s pkg fun k => { k with hostOut := k.hostOut ++ [BitVec.ofNat 64 v] }

/-- The offset in the whole window of an access through a function's BAR 0; `none` is UR (R422, R423). -/
def barZero (s : State) (pkg : Nat) (vf : Option Nat) (off size : Nat) : Option Nat :=
  match vf with
  | none => if off + size ≤ flagWindowSize then some off else none
  | some v =>
    if v < 64 && (vfPart s pkg v).isSome && off + size ≤ 0x4000 then some (v * 0x4000 + off) else none

/-- A host write to a doorbell is performed at the queue descriptor's home (R427). -/
def execDoorbell (p : PartId) (q : Nat) (v : BitVec 32) (s : State) : Out :=
  let st := qState s p q
  let head := qHead s p q
  let refuse := veqPush s p 12 0 (BitVec.ofNat 64 q) 0 v.toNat
  if (partOf s p).qtab = 0 then .next refuse
  else if !qHostFed s p q || st == 0 || st == 5 || st == 6 || st == 7 ||
      decide (2 ^ qLogn s p q < (v.toNat + 2 ^ 32 - head) % 2 ^ 32) ||
      decide (2 ^ 31 ≤ (v.toNat + 2 ^ 32 - qTail s p q) % 2 ^ 32) then .next refuse
  else .next (queueAdded (qput { s with sOrder := s.sOrder + 1 } p q 24 4 v.toNat) p q)

/-- The queue that a write in the window rings (R427). -/
def bellAt (s : State) (pkg off size : Nat) : Option (PartId × Nat) :=
  if size = 4 && off % 4 == 0 && decide (0x3C00 ≤ off % 0x4000) then
    (vfPart s pkg (off / 0x4000)).map fun p => (⟨pkg, p⟩, (off % 0x4000 - 0x3C00) / 4)
  else none

/-- A host read or write of the flag window, performed at the hub (R306). -/
def execHostFlagWindowAccess (pkg _link : Nat) (vf : Option Nat) (off size : Nat) (write : Option (BitVec 64))
    (s : State) : Out :=
  match barZero s pkg vf off size with
  | none => .next (unsupported s pkg)
  | some o =>
    if 8 < size then .next (unsupported s pkg)
    else
      let s := { s with sOrder := s.sOrder + 1 }
      match write with
      | none => .next (hostData s pkg (readPA s pkg (windowPA o) size))
      | some v =>
        let s := writePA s pkg (windowPA o) size v.toNat
        match bellAt s pkg o size with
        | some (p, q) => execDoorbell p q (v.setWidth 32) s
        | none => .next s

/-- The physical address of a BAR 2 access: a PF names it, a VF's offset goes through the frame map of its
partition (R423). -/
def barTwo (s : State) (pkg : Nat) (vf : Option Nat) (off : Nat) : Option Nat :=
  let pa := match vf with
    | none => some off
    | some v =>
      match vfPart s pkg v with
      | some p =>
        match frameFor s ⟨pkg, p⟩ false (off / 65536) with
        | .ok f => some (f * 65536 + off % 65536)
        | _ => none
      | none => none
  match pa with
  | some a => match spaceOf s pkg a with
    | .dram h => if pkgOf h = pkg then some a else none
    | _ => none
  | none => none

/-- A service core carries a BAR 2 access to its home as a plain access that no race check sees (R307, R424). -/
def execHostBarAccess (pkg _link : Nat) (vf : Option Nat) (off size : Nat) (write : Option (BitVec 64)) (s : State) : Out :=
  match barTwo s pkg vf off with
  | none => .next (unsupported s pkg)
  | some a =>
    if 8 < size then .next (unsupported s pkg)
    else
      match write with
      | some v => .next (clearLost (cmdHook (writeN s a size v.toNat) a size) a size)
      | none =>
        match badAt s a size with
        | some e =>
          let s := captureData s a e 0
          .next (modPkg s pkg fun k => { k with hostAbort := k.hostAbort + 1 })
        | none => .next (hostData s pkg (readN s a size))

/-- FLUSH (R308, R425): the host writes that the service core received are performed; the completion word is
written as a release at the hub. `off` is the number in bytes 15 to 8 of the write: a reserved bit makes it lie outside
every BAR 0, and 2^64 stands for a write that is shorter than 16 bytes. One that names no word of the function's BAR 0 is
dropped and logged. -/
def execFlush (pkg link : Nat) (vf : Option Nat) (svc off : Nat) (val : BitVec 64) (s : State) : Out :=
  match barZero s pkg vf off 8 with
  | some o =>
    if off % 8 = 0 && svc < 16 then .next (writePA { s with sOrder := s.sOrder + 1 } pkg (windowPA o) 8 val.toNat)
    else .next (modPkg s pkg fun k => { k with flushLog := k.flushLog ++ [(link, off)] })
  | none => .next (modPkg s pkg fun k => { k with flushLog := k.flushLog ++ [(link, off)] })

def execVfBind (pkg vf part : Nat) (s : State) : Out :=
  if vf < 64 then .next (modPkg s pkg fun k => { k with vfs := Map.put k.vfs vf part }) else .next s

/-- The key of a partition's lines is loaded: encryption is transparent to every access under one key, and lines
written under another are read under the new one (R164). -/
def execKeyLoad (p : PartId) (key : BitVec 512) (s : State) : Out :=
  let mine := fun (site : Nat) => pkgOf site == p.pkg && (siteOf s site).tag == p.part
  .next (modPart (recryptLines s mine (keyOf s p.pkg p.part) (some key)) p fun q => { q with key := some key })

/-- A PTM exchange: the difference from the host's time is slewed in at up to 100 ppm (R428). -/
def execPtmExchange (pkg : Nat) (hostTime : Nat) (s : State) : Out :=
  let t := timeOf s pkg
  let n := s.now / 2574
  .next (modPkg s pkg fun k =>
    { k with
      timeSlew := k.timeSlew + slewBy k n
      slewCorr := (hostTime : Int) - (t : Int)
      slewAt := n })

/-- A measurement block is answered with a signature, whose value is open (R429). -/
def execSpdmRequest (pkg blk : Nat) (s : State) : Out :=
  if 1 ≤ blk && blk ≤ 4 then
    .next (modPkg s pkg fun k => { k with spdmOut := k.spdmOut ++ [Config.spdmSignature (k.spdmOut.length * 8 + blk)] })
  else .next s

end Sys2Proof.Machine
end

