-- ==== Sys2Proof/Machine/Preempt.lean ====
section
/-! DEFINITION. Pre-emption, resumption and the slot table (R370 to R373), profiling sessions (R436), the
removal of a core and the reset of a partition (R416). -/

namespace Sys2Proof.Machine

open Sys2Proof

/-- The partition that a core runs: that of its site's tag. -/
def corePart (s : State) (core : Nat) : PartId := ⟨pkgOf core, (siteOf s core).tag⟩

/-- The address of a save record: that of its MiB from `sys.savebase` (R371). -/
def saveKey (s : State) (p : PartId) (vd lcore : Nat) : Nat :=
  memKey p.pkg ((partOf s p).savebase.toNat + (vd * 4096 + lcore) * 2 ^ 20)

/-- A slot is taken by pre-emption: a context leaves its park, and with a window open it resumes at its restart PC
with RSM set (R96, R370). The state of an away slot is saved too (R86). -/
def suspendCtx (s : State) (x : CtxId) : State :=
  let sl := slotOf s x
  if sl.st == .free || sl.st == .suspended || preemptHeld s x then s
  else
    let s := if sl.ctx.wait != .reply && sl.ctx.wait != .placement && sl.ctx.reply.isNone then leavePark s x else s
    let st := (slotOf s x).st
    let rsm := windowOpen s x && st == .ready
    modSlot s x fun sl =>
      { sl with
        st := .suspended
        saved := st
        ctx := if rsm then
            { sl.ctx with
              pc := sl.ctx.rstpc
              entry := .resume
              source := sl.ctx.rstpc
              line := none
              status := putBit (putField sl.ctx.status stSKN 2 0) stRSM true }
          else sl.ctx }

/-- Timed commands that have not started are discarded: TIMING at resumption (R334). -/
def dropTimed (s : State) (core : Nat) : State :=
  let js := (coreOf s core).jobs.filter fun j => j.timedAt.isSome && j.st == .queued
  js.foldl (fun s j =>
    match findJob s core j.id, j.timedAt with
    | some j, some (_, o) =>
      raiseTiming s core (jobPart core j) j.who (timingInfo o (jobMaj j.kind)) (timedOf s core j.part j.who)
    | _, _ => s) s

/-- The core has local work under way that pre-emption waits for (R370, step 3). -/
def coreBusy (k : Core) : Bool :=
  !(k.pend.isEmpty && k.vpend.isEmpty && k.divq.isEmpty && k.sqq.isEmpty && k.jobs.isEmpty && k.mq.isEmpty)

/-- The leaf and the physical address of the byte that a stash offset is bound to. -/
def boundAt (s : State) (core off : Nat) : Option (Pte × Nat) :=
  match firstWhere (fun (m : Nat × StMap) => decide (m.2.off ≤ off) && decide (off < m.2.off + m.2.len * 1024))
      (coreOf s core).maps with
  | some m =>
    let va := m.2.va + (off - m.2.off)
    match walk s ⟨pkgOf core, m.2.part⟩ (BitVec.ofNat 57 va) with
    | .ok e _ fr _ => some (e, fr * 65536 + va % 65536)
    | _ => none
  | none => none

/-- Whether the page that a stash offset is bound to has DISC set. -/
def discBound (s : State) (core off : Nat) : Bool := (boundAt s core off).any fun e => Pte.disc e.1

/-- Bound sectors: written back, or dropped where their page has DISC set (R370, step 4). -/
def saveStash (s : State) (core : Nat) : State :=
  (s.dir.filter fun e => e.2.core == core).foldl (fun s e =>
    if discBound s core e.2.off then { s with dir := Map.del s.dir e.1 } else recallSector s e.1) s

/-- 64-bit words at consecutive physical addresses. -/
def putWords (s : State) (pkg : Nat) : Nat → List W64 → State
  | _, [] => s
  | a, w :: l => putWords (writePA s pkg a 8 w.toNat) pkg (a + 8) l

/-- A core's counters go into its record of the session, and the die's with the last core (R436). -/
def saveCounters (s : State) (core : Nat) : State :=
  let p := corePart s core
  let base := (partOf s p).pmsess.toNat
  if base = 0 then s
  else
    let k := coreOf s core
    let s := putWords s p.pkg (base + 0x800 + 128 * logicalNo s p core)
      ((upto 8).map (fun i => Map.get k.pmsel i 0) ++ (upto 8).map fun i => Map.get k.pmcnt i 0)
    let others := s.cores.any fun e => e.1 != core && dieKey e.1 == dieKey core && corePart s e.1 == p && !e.2.suspended
    if others then s
    else
      let d := dieAt s (dieKey core)
      putWords s p.pkg (base + 512 * dieOf core)
        ((upto 16).map (fun i => Map.get d.dmsel i 0) ++ (upto 16).map fun i => Map.get d.dmcnt i 0)

/-- A counter comes back: counting, or frozen with UNAV where its event is not counted here (R436). -/
def loadCount (s : State) (p : PartId) (sel cnt : W64) (reg : Nat) : W64 × State :=
  if sel.getLsbD 8 && !(pkgAt s p.pkg).pmavail.getLsbD (bitsOf sel.toNat 0 6) then
    (putBit cnt 63 true, veqPush s p 10 reg 0 0 0)
  else (putBit cnt 63 false, s)

def readWord64 (s : State) (pkg a : Nat) : W64 := BitVec.ofNat 64 (readPA s pkg a 8)

def loadCounters (s : State) (core : Nat) : State :=
  let p := corePart s core
  let base := (partOf s p).pmsess.toNat
  if base = 0 then s
  else
    let a := base + 0x800 + 128 * logicalNo s p core
    let s := (upto 8).foldl (fun s i =>
      let sel := readWord64 s p.pkg (a + 8 * i) &&& 0x13F
      let (c, s) := loadCount s p sel (readWord64 s p.pkg (a + 64 + 8 * i)) (0x1D8 + i)
      modCore s core fun k => { k with
        pmsel := Map.put k.pmsel i sel
        pmcnt := Map.put k.pmcnt i c }) s
    let others := s.cores.any fun e => e.1 != core && dieKey e.1 == dieKey core && corePart s e.1 == p && !e.2.suspended &&
      e.2.slots.any fun t => t.2.st != .free
    if others then s
    else
      let b := base + 512 * dieOf core
      (upto 16).foldl (fun s i =>
        let sel := readWord64 s p.pkg (b + 8 * i) &&& 0x13F
        let (c, s) := loadCount s p sel (readWord64 s p.pkg (b + 128 + 8 * i)) (0x1F0 + i)
        modDie s (dieKey core) fun d => { d with
          dmsel := Map.put d.dmsel i sel
          dmcnt := Map.put d.dmcnt i c }) s

/-- The core still runs something that pre-emption waits for. -/
def preempting (s : State) (core : Nat) : Bool :=
  let k := coreOf s core
  coreBusy k || k.slots.any fun e => e.2.st != .free && e.2.st != .suspended

/-- Pre-emption of a core (R370): it stops issuing, each context is taken at its boundary, the core waits for its local
work, then its record is written. -/
def execPreemption (core : Nat) (s : State) : Out :=
  let s := catchCore s core
  let s := if (coreOf s core).suspended then s else modCore (dropTimed s core) core fun k => { k with suspended := true }
  let s := (coreOf s core).slots.foldl (fun s e => suspendCtx s ⟨core, e.1⟩) s
  if preempting s core then .next (inCycles s core 1 (.preemption core))
  else .next (saveCounters (saveStash s core) core)

/-- A bound sector of a page with DISC set after a resumption: it reads as zero and is clean, and its tile is invalid
(R261, R372). -/
def zeroSector (s : State) (core off key : Nat) : State :=
  let s := stashPut s core off 32 0
  let s := modCore s core fun k => { k with tags := Map.del k.tags (off / 1024) }
  if (Map.get? s.dir (key / 32)).any fun e => e.dirty then s
  else { s with dir := Map.put s.dir (key / 32) ⟨core, off, false⟩ }

/-- Stash sectors after a resumption: bound ones of DISC pages read as zero, the others are unfilled (R372). -/
def restoreStash (s : State) (core : Nat) : State :=
  (coreOf s core).maps.foldl (fun s m =>
    (upto (m.2.len * 32)).foldl (fun s i =>
      let off := m.2.off + 32 * i
      match boundAt s core off with
      | some (e, key) => if Pte.disc e then zeroSector s core off key else s
      | none => s) s) s

/-- A core takes up the record it holds: the inbox is applied in order, then slots may issue (R372). -/
def wakeCore (s : State) (core : Nat) : State :=
  let s := restoreStash (catchCore s core) core
  let k := coreOf s core
  let s := modCore s core fun k => { k with
    suspended := false
    kbanks := []
    savedInbox := []
    trStamp := none
    slots := k.slots.map fun e =>
      if e.2.st = .suspended then
        (e.1, { e.2 with
          st := e.2.saved
          ctx := { e.2.ctx with
            nextIssue := k.cyc + 1
            yielded := none } })
      else e }
  let s := loadCounters s core
  let s := (k.slots.filter fun e => hasBody (effSt e.2)).foldl
    (fun s e => loadBank s core e.2.ctx.part e.2.ctx.kern) s
  k.savedInbox.foldl (fun s i => at_ s s.now i) s

/-- The part of a core that a change of virtual device leaves alone. -/
def emptyCore (k : Core) : Core :=
  { Core.zero with
    cyc := k.cyc
    nextAt := k.nextAt
    ids := k.ids
    suspended := true }

/-- A record written by another core of the same logical number: its contexts are this core's from now on. -/
def rehome (s : State) (core : Nat) (r : Core) : Core × State :=
  let old := (r.slots.filter fun e => decide (e.1 < 56)).map fun e => e.2.ctx.origin
  let here : CtxId → CtxId := fun o => if old.contains o then ⟨core, o.slot⟩ else o
  let slots := r.slots.map fun e => (e.1, { e.2 with ctx := { e.2.ctx with origin := here e.2.ctx.origin } })
  let inbox := r.savedInbox.map fun (i : Instr) => match i with
    | .cancelArrival o => .cancelArrival (here o)
    | i => i
  let moved := r.savedInbox.filterMap fun (i : Instr) => match i with
    | .cancelArrival o => if old.contains o then some o else none
    | _ => none
  let cancels := s.cancels.map fun (k : CancelRec) =>
    { k with left := k.left.map fun o => if moved.contains o then here o else o }
  ({ r with
      slots := slots
      savedInbox := inbox }, { s with cancels := cancels })

/-- Resumption of a virtual device on a core: late while the save is not complete (R372, R373). -/
def execResumption (core vd : Nat) (s : State) : Out :=
  let k := coreOf s core
  if !k.suspended then .next s
  else if preempting s core || s.agenda.any (fun e => e.2 == .preemption core) then
    .next (inCycles s core 1 (.resumption core vd))
  else if k.vd = vd then .next (wakeCore s core)
  else
    let p := corePart s core
    let n := logicalNo s p core
    let (next, s) := match Map.get? s.saves (saveKey s p vd n) with
      | some r => rehome s core { r with
          cyc := k.cyc
          nextAt := k.nextAt }
      | none => (emptyCore k, s)
    let s := { s with saves := Map.put (Map.del s.saves (saveKey s p vd n)) (saveKey s p k.vd n) k }
    .next (wakeCore (setCore s core { next with vd := vd }) core)

/-- A boundary of the slot table: each core of the partition changes to the new entry's device (R373). -/
def execSlotTableChange (p : PartId) (s : State) : Out :=
  let cfg := (partOf s p).slotcfg.toNat
  let len := bitsOf cfg 0 32
  if !bitAt cfg 63 || len = 0 then .next s
  else
    let k := timeOf s p.pkg / len % 64
    let e := readPA s p.pkg ((partOf s p).slottab.toNat + 2 * k) 2
    let vd := bitsOf e 0 8
    let s := scheduleSlots s p
    if !bitAt e 15 then .next s
    else
      let cores := (s.cores.filter fun c => corePart s c.1 == p && c.2.vd != vd).map (·.1)
      .next (cores.foldl (fun s c => at_ (at_ s s.now (.preemption c)) s.now (.resumption c vd)) s)

/-- A core leaves the logical map; it is pre-empted, and its record is discarded once no slot is occupied. -/
def execCoreRemoval (p : PartId) (lcore : Nat) (s : State) : Out :=
  match logicalCore s p lcore with
  | none => .next s
  | some core =>
    let a := (partOf s p).l2ptab.toNat + 2 * lcore
    let s := writePA s p.pkg a 2 (readPA s p.pkg a 2 % 2 ^ 15)
    if (coreOf s core).slots.all fun e => e.2.st == .free then
      .next (setCore { s with saves := Map.del s.saves (saveKey s p (coreOf s core).vd lcore) } core (emptyCore (coreOf s core)))
    else execPreemption core s

/-- The reset of a partition on a package: its contexts are cancelled, its sync units reset, its queues reset
and its log discarded (R416). -/
def execPerPartitionReset (p : PartId) (s : State) : Out :=
  let gs := (s.groups.filter fun g => g.part == p).map (·.gid)
  let xs := (((slotsOf s p.pkg).filter fun e => isLive (effSt e.2) && e.2.ctx.part == p.part).map (·.2.ctx.origin)) ++
    (s.flights.filter fun f => pkgOf f.target == p.pkg && f.ctx.part == p.part).map (·.ctx.origin)
  let s := startCancel s p gs xs none .none true
  let sites := (s.sites.filter fun e => pkgOf e.1 == p.pkg && e.2.tag == p.part).map (·.1)
  let s := sites.foldl (fun s c => nextOf s (execSyncUnitReset c s)) s
  let s := if (partOf s p).qtab = 0 then s
    else (upto 256).foldl (fun s q => if qState s p q = 0 then s else nextOf s (execCmdReset p q s)) s
  execCklogDisable p ((partOf s p).cklog &&& BitVec.ofNat 64 (2 ^ 63 - 1)) s

end Sys2Proof.Machine
end

