-- ==== Sys2Proof/Machine/Power.lean ====
section
/-! DEFINITION. Bring-up, reset and power (R452 to R457): package and die reset, the boot sequence and the
boot command, power commands, the thermal trip. -/

namespace Sys2Proof.Machine

open Sys2Proof

/-! ### Reset (R452) -/

/-- The package that an event of the agenda befalls, where it names one. -/
def eventPkg : Instr → Option Nat
  | .variableResultLanding c _ | .fixedResultLanding c _ | .dividerResult c | .sqrtUnitResult c => some (pkgOf c)
  | .syncWakeReply x | .lineRefetch x | .visitorReturn x | .cancelArrival x | .waitWithdrawal x | .trapEntry x
  | .asyncEventDelivery x | .userInterruptDelivery x | .throttleRetry x | .throttleTimeout x | .dropReport x _
  | .dataErrorConsumption x _ _ => some (pkgOf x.core)
  | .pageWalk c _ _ _ | .l2WaySweep c | .bankRebuildComplete c _ _ | .streamerRequest c _ | .jobStart c _
  | .jobCompletion c _ | .followOnCommand c _ | .mmaCompletion c | .timedCommandStart c _ | .placementCompletion c
  | .syncUnitReset c | .lazyWriteback c _ | .preemption c | .resumption c _ | .traceSampleTick c => some (pkgOf c)
  | .cowCopy p _ | .rollback p _ | .checkpointLogRelease p | .timeZeroFix p _ | .timeZeroReached _ p _ | .cmdConfigure p _
  | .cmdSuspend p _ | .cmdResume p _ | .cmdDrain p _ | .cmdReset p _ | .cmdRefused p _ | .packetValidation p _
  | .headDependenceMet p _ | .queuePriorityAging p _ | .counterCount p _ _ | .watchdogExpiry p _
  | .slotTableChange p => some p.pkg
  | .placementReconsider k _ | .tokenPass k | .copseStore k | .copseAtomic k | .gateOperation k
  | .copseBarrierOperation k | .transactionReady k | .transactionCommit k | .transactionAbort k
  | .groupTreeRebuildNotice k | .orderFrameRecovery k _ | .orderRecoveryTimeout k | .thornRegeneration k | .bulkSlot k
  | .viralNoticeArrival k _ | .packageViral k | .resendTimeout k _ | .pauseExpiry k _ _ | .bootSequence k _ => some k
  | .retrainTimeout l | .replayThreshold l => some (linkPkg l)
  | _ => none

/-- Everything of a package goes back to its reset state; what its DRAM holds stays until step 4 of the boot. -/
def execPackageReset (pkg : Nat) (s : State) : Out :=
  .next (wakeChannels { s with
    agenda := s.agenda.filter fun e => eventPkg e.2 != some pkg
    turn := s.turn.filter fun c => pkgOf c != pkg
    dir := s.dir.filter fun e => pkgOf e.2.core != pkg
    stores := s.stores.filter fun q => q.part.pkg != pkg
    seeds := s.seeds.filter fun q => q.part.pkg != pkg
    prefetches := s.prefetches.filter fun q => q.part.pkg != pkg
    deposits := s.deposits.filter fun q => pkgOf q.core != pkg
    flights := s.flights.filter fun q => pkgOf q.target != pkg
    moves := s.moves.filter fun m => m.pkg != pkg
    xfers := s.xfers.filter fun q => q.part.pkg != pkg
    merges := s.merges.filter fun q => q.part.pkg != pkg
    cancels := s.cancels.filter fun q => q.part.pkg != pkg
    groups := s.groups.filter fun g => g.part.pkg != pkg
    launches := s.launches.filter fun l => l.pkg != pkg
    chunks := (s.chunks.map fun (c : Chunk) => { c with parts := c.parts.filter fun e => e.pkg != pkg }).filter
      fun c => !c.parts.isEmpty
    queues := s.queues.filter fun q => q.part.pkg != pkg
    cores := s.cores.filter fun e => pkgOf e.1 != pkg
    sites := s.sites.filter fun e => pkgOf e.1 != pkg
    dies := s.dies.filter fun e => e.1 / 4 != pkg
    parts := s.parts.filter fun e => e.1 / 65536 != pkg
    saves := s.saves.filter fun e => e.1 / 2 ^ 38 != pkg
    pkgs := Map.put s.pkgs pkg Pkg.zero })

/-- The ranges of a group that name one of some units of a group of a package, as a mask. -/
def maskOfUnits (pkg gid : Nat) (units : List Nat) : Nat → List MRange → Nat
  | _, [] => 0
  | i, r :: l =>
    let named := r.counts && r.pkg == pkg && r.gid == gid &&
      units.any fun u => decide (r.ufirst ≤ u) && decide (u < r.ufirst + r.ucount)
    (if named then 2 ^ i else 0) + maskOfUnits pkg gid units (i + 1) l

/-- The units of a group that are on a die are lost with it, and the ranges that name them: every package that holds the
lowest-numbered survivor places the notices (R231), and open transactions are aborted with cause 4 (R415). -/
def loseGroup (s : State) (pkg part gid : Nat) (units : List Nat) : State :=
  (s.groups.filter fun g => g.part.part == part).foldl (fun s g =>
    let mask := maskOfUnits pkg gid units 0 g.ranges
    if mask = 0 then s
    else
      let after := { g with ranges := setLost mask 0 g.ranges }
      let holder := (survivors after).head?.bind fun m => rangeFrom m 0 g.ranges
      let s := (pkgAt s g.part.pkg).txs.foldl (fun s e =>
        match groupBy s g.part.pkg e.id.part e.id.pkg e.id.gid with
        | some h => if h.gid == g.gid && h.part == g.part then requestAbort s g.part.pkg e.id 4 0 else s
        | none => s) s
      if !g.trees.any (·.v) then modGroup s g.part g.gid fun g => { g with ranges := setLost mask 0 g.ranges }
      else if (holder.map (·.pkg)).getD g.part.pkg == g.part.pkg then placeRebuild s g mask none
      else s) s

/-- The engine jobs and prefetches of a die are lost: their obligations are discharged with poison (R72). -/
def loseEngines (s : State) (key : Nat) : State :=
  let s := (s.cores.filter fun e => dieKey e.1 == key).foldl (fun s e =>
    e.2.jobs.foldl (fun s j => dischargeJob (endJobRegion s e.1 j.id) e.1 j true) s) s
  let gone := s.prefetches.filter fun q => dieKey q.core == key
  gone.foldl (fun s q => fillWord s q.token none true)
    { s with prefetches := s.prefetches.filter fun q => dieKey q.core != key }

/-- A die is reset: its cores hold nothing more, its sync units break what they held, and the group members
on it are lost (R231). -/
def execDieReset (pkg die : Nat) (s : State) : Out :=
  let key := pkg * 4 + die
  let mine := (slotsOf s pkg).filter fun e => dieKey e.1.core == key && isLive (effSt e.2) && e.2.ctx.isUnit
  let gs := (mine.map fun e => (e.2.ctx.part, e.2.ctx.grp)).eraseDups
  let sites := (s.sites.filter fun e => dieKey e.1 == key).map (·.1)
  let s := sites.foldl (fun s c => nextOf s (execSyncUnitReset c s)) s
  let s := loseEngines s key
  let s := { s with
    agenda := s.agenda.filter fun e => match e.2 with
      | .variableResultLanding c _ | .fixedResultLanding c _ | .dividerResult c | .sqrtUnitResult c
      | .streamerRequest c _ | .jobStart c _ | .jobCompletion c _ | .followOnCommand c _ | .mmaCompletion c
      | .timedCommandStart c _ | .placementCompletion c | .preemption c | .resumption c _ | .lazyWriteback c _
      | .l2WaySweep c => dieKey c != key
      | _ => true
    turn := s.turn.filter fun c => dieKey c != key
    dir := s.dir.filter fun e => dieKey e.2.core != key
    cores := s.cores.map fun e =>
      if dieKey e.1 = key then
        (e.1, { Core.zero with
          cyc := e.2.cyc
          nextAt := e.2.nextAt
          ids := e.2.ids
          slots := e.2.slots.map fun t => (t.1, { Slot.zero with gen := nextGen t.2.gen }) })
      else e
    sites := s.sites.map fun e => if dieKey e.1 = key then (e.1, { Site.zero with tag := e.2.tag }) else e
    dies := Map.put s.dies key Die.zero }
  let s := gs.foldl (fun s g =>
    let units := (mine.filter fun e => e.2.ctx.part == g.1 && e.2.ctx.grp == g.2).map (·.2.ctx.unit.toNat)
    loseGroup s pkg g.1 g.2 units) s
  .next (wakeChannels (gs.foldl (fun s g => settleGroup s ⟨pkg, g.1⟩ g.2) s))

/-! ### Boot (R453, R454, R457) -/

/-- The fuse map of a die: bit k is 1 when the core at site k is enabled. -/
def fuseMap (s : State) (pkg die : Nat) : Nat :=
  (upto 1024).foldl (fun n k => if fusedOff s (coreId pkg die k) then n else n + 2 ^ k) 0

/-- Every byte of the package's DRAM is zero again, every word full, every sector good. -/
def zeroDram (s : State) (pkg : Nat) : State :=
  let mine := fun (a : Nat) => decide (a < 2 ^ 43) && a / 2 ^ 38 == pkg
  { s with
    mem := s.mem.filter fun c => !mine c.1
    fe := s.fe.filter fun e => !mine (8 * e.1)
    lost := s.lost.filter fun e => !mine (32 * e.1)
    bad := s.bad.filter fun e => !mine (64 * e.1)
    recs := s.recs.filter fun r => !mine (32 * r.sector) }

/-- Steps 1 to 5 of R453, or the step that fails, whose number the hub's bank records. -/
def execBootSequence (pkg : Nat) (failAt : Option Nat) (s : State) : Out :=
  match failAt with
  | some n =>
    let s := captureUc s pkg 4224 7 20 0 none n 0
    .next (modPkg s pkg fun k => { k with bootFail := some n })
  | none =>
    let s := zeroDram s pkg
    let s := (upto 4).foldl (fun s d => writePA s pkg (windowPA (128 * d)) 128 (fuseMap s pkg d)) s
    .next (modPkg s pkg fun k => { k with boot := 5 })

/-- A boot context (R457). -/
def bootCtx (s : State) (p : PartId) (k : Nat) : Ctx :=
  let entry := codeAt s p k (kfield s p k 32 4)
  { Ctx.zero with
    part := p.part
    isUnit := true
    winSize := kRegs s p k
    pc := entry
    rstpc := entry
    entry := .event
    source := entry
    prv := .hyp
    rkhi := 0x10000
    grp := 1
    nunits := 1
    kern := k }

/-- The boot group of a package: GID 1, the whole interval, no launch counter. -/
def bootGroup (p : PartId) : Group :=
  { part := p
    gid := 1
    st := .running
    rklo := 0
    rkhi := 0x10000
    rebuilds := 0
    wfired := false
    wact := false
    wdog := 0
    wcount := 0
    steward := 0
    stewardCtx := none
    stewardGone := false
    issuer := .none
    lcnt := 4096
    nunits := 1
    plan := BitVec.ofNat 256 (0xFFFF * (1 + 2 ^ 32 + 2 ^ 64 + 2 ^ 96))
    ranges := [⟨true, false, p.pkg, 1, 1, 0⟩]
    trees := []
    timed := false
    t0 := none
    heldObls := []
    noticed := []
    queue := none }

/-- The boot context of a die is placed in slot 0 of the core at site (0, 0) or of its foster. -/
def placeBoot (s : State) (p : PartId) (die k : Nat) : State :=
  let core := homeCore s (coreId p.pkg die 0)
  let x : CtxId := ⟨core, 0⟩
  let ways := kStash s p k / 16
  let s := if ways = 0 then s
    else modCore (resizeStash s core ways) core fun c => { c with resident := some (launchKey p.part 1) }
  let s := createCtx s x (bootCtx s p k)
  let s := loadTables s p core k
  let r := refOf s x
  modGroup s p 1 fun g => { g with stewardCtx := some (g.stewardCtx.getD r) }

/-- The host's boot command. -/
def execBootCommand (pkg : Nat) (kdesc : List VA) (ptroot fmap fmlen : BitVec 64) (s : State) : Out :=
  let p : PartId := ⟨pkg, 0⟩
  if (pkgAt s pkg).boot < 5 || (pkgAt s pkg).viral then .next s
  else
    let s := modPart s p fun q => { q with
      ptroot := keep ptroot 0xFFFFFFFFFFFC0
      fmap := keep fmap 0xFFFFFFFFFFFF8
      fmlen := keep fmlen 0xFFFFFFFFF
      nextGid := 2 }
    let s := { s with groups := s.groups.filter (fun g => !(g.part == p && g.gid == 1)) ++ [bootGroup p] }
    let s := (upto 4).foldl (fun s d =>
      match kdesc[d]? with
      | some k => placeBoot s p d k.toNat
      | none => s) s
    .next (modPkg s pkg fun k => { k with boot := 6 })

/-! ### Power commands (R455, R456) -/

/-- The cores of a die that hold state. -/
def dieCores (s : State) (pkg die : Nat) : List Nat := (s.cores.filter fun e => dieKey e.1 == pkg * 4 + die).map (·.1)

/-- A timed group has a unit on the die. -/
def timedOnDie (s : State) (pkg die : Nat) : Bool :=
  (slotsOf s pkg).any fun e => dieOf e.1.core == die && isLive (effSt e.2) &&
    ((groupOf s ⟨pkg, e.2.ctx.part⟩ e.2.ctx.grp).any fun g => g.timed)

/-- A gap record at the resumption of a core's clock (R433). -/
def noteGap (s : State) (core sub : Nat) : State :=
  note s core 3 0 sub (BitVec.ofNat 64 (timeOf s (pkgOf core)))

/-- Command 1: the die's clock. Issue stops for at most 2 µs; a die stopped by a trip runs again. -/
def execSetDieClock (pkg die setting : Nat) (s : State) : Out :=
  if 2 < setting || 3 < die then .next (putStatus s pkg 2)
  else if timedOnDie s pkg die then .next (putStatus s pkg 1)
  else
    let cs := dieCores s pkg die
    let was := (dieAt s (pkg * 4 + die)).stopped
    let old := (dieAt s (pkg * 4 + die)).clock
    let s := if was then cs.foldl (fun s c => modCore s c fun k => { k with nextAt := s.now }) s
      else cs.foldl catchCore s
    let (t, s) := nextLat s
    let s := modDie s (pkg * 4 + die) fun d => { d with
      clock := setting
      stopped := false }
    let s := cs.foldl (fun s c =>
      let s := if was then noteGap s c 1 else s
      let s := if old = setting then s else note s c 2 0 setting 0
      modCore s c fun k => { k with nextAt := s.now + t % ns 2000 }) s
    .next (putStatus s pkg 0)

/-- Commands 2 and 3. -/
def execGateCore (pkg die site : Nat) (s : State) : Out :=
  if 3 < die || 1023 < site then .next (putStatus s pkg 2)
  else
    let c := coreId pkg die site
    if (coreOf s c).slots.any fun e => e.2.st != .free then .next (putStatus s pkg 1)
    else .next (putStatus (modCore (catchCore s c) c fun k => { k with gated := true }) pkg 0)

def execUngateCore (pkg die site : Nat) (s : State) : Out :=
  if 3 < die || 1023 < site then .next (putStatus s pkg 2)
  else
    let c := coreId pkg die site
    if !(coreOf s c).gated then .next (putStatus s pkg 0)
    else
      let s := modCore s c fun k => { k with
        gated := false
        nextAt := s.now }
      .next (putStatus (lookAgain (noteGap s c 0) c) pkg 0)

/-- Command 4: the channel is out of service, and requests to it wait (`onChannel`). -/
def execGateChannel (pkg die site : Nat) (s : State) : Out :=
  if 3 < die || 1023 < site then .next (putStatus s pkg 2)
  else
    let k := siteOf s (coreId pkg die site)
    if k.bars.any (fun b => b.2.st != 0) || k.gates.any (fun g => g.2.opened) then .next (putStatus s pkg 1)
    else .next (putStatus (modSite s (coreId pkg die site) fun k => { k with gated := true }) pkg 0)

/-- Command 5: the channel serves again. -/
def execUngateChannel (pkg die site : Nat) (s : State) : Out :=
  if 3 < die || 1023 < site then .next (putStatus s pkg 2)
  else .next (putStatus (wakeChannels (modSite s (coreId pkg die site) fun k => { k with gated := false })) pkg 0)

/-- A die past its trip limit stops at once (R456). -/
def execThermalTrip (pkg die : Nat) (s : State) : Out :=
  let s := (dieCores s pkg die).foldl catchCore s
  let s := modDie s (pkg * 4 + die) fun d => { d with stopped := true }
  let s := captureUc s pkg 4224 7 20 0 none die 0
  .next (modPkg s pkg fun k => { k with msix := k.msix ++ [(0, 64)] })

end Sys2Proof.Machine
end

