-- ==== Sys2Proof/Machine/Dispatch.lean ====
section
/-! DEFINITION. What each instruction and each event does: one arm for each. -/

namespace Sys2Proof.Machine

open Sys2Proof

def exec (i : Instr) (s : State) : Host.Outcome State Fault Refusal :=
  match i with
  | .nop f => Sys2Proof.Machine.execNop f s
  | .add f => Sys2Proof.Machine.execAdd f s
  | .sub f => Sys2Proof.Machine.execSub f s
  | .mul f => Sys2Proof.Machine.execMul f s
  | .mulh f => Sys2Proof.Machine.execMulh f s
  | .div f => Sys2Proof.Machine.execDiv f s
  | .rem f => Sys2Proof.Machine.execRem f s
  | .min f => Sys2Proof.Machine.execMin f s
  | .max f => Sys2Proof.Machine.execMax f s
  | .and f => Sys2Proof.Machine.execAnd f s
  | .or f => Sys2Proof.Machine.execOr f s
  | .xor f => Sys2Proof.Machine.execXor f s
  | .andn f => Sys2Proof.Machine.execAndn f s
  | .shl f => Sys2Proof.Machine.execShl f s
  | .shrl f => Sys2Proof.Machine.execShrl f s
  | .shra f => Sys2Proof.Machine.execShra f s
  | .rot f => Sys2Proof.Machine.execRot f s
  | .clz f => Sys2Proof.Machine.execClz f s
  | .popc f => Sys2Proof.Machine.execPopc f s
  | .bfx f => Sys2Proof.Machine.execBfx f s
  | .bfi f => Sys2Proof.Machine.execBfi f s
  | .sel f => Sys2Proof.Machine.execSel f s
  | .mov f => Sys2Proof.Machine.execMov f s
  | .li f => Sys2Proof.Machine.execLi f s
  | .lih f => Sys2Proof.Machine.execLih f s
  | .abs f => Sys2Proof.Machine.execAbs f s
  | .mad f => Sys2Proof.Machine.execMad f s
  | .cmp f => Sys2Proof.Machine.execCmp f s
  | .fcmp f => Sys2Proof.Machine.execFcmp f s
  | .tstb f => Sys2Proof.Machine.execTstb f s
  | .br f => Sys2Proof.Machine.execBr f s
  | .bri f => Sys2Proof.Machine.execBri f s
  | .call f => Sys2Proof.Machine.execCall f s
  | .calli f => Sys2Proof.Machine.execCalli f s
  | .ret f => Sys2Proof.Machine.execRet f s
  | .loop f => Sys2Proof.Machine.execLoop f s
  | .exit f => Sys2Proof.Machine.execExit f s
  | .exitCompletion x => Sys2Proof.Machine.execExitCompletion x s
  | .yield f => Sys2Proof.Machine.execYield f s
  | .trap f => Sys2Proof.Machine.execTrap f s
  | .fadd f => Sys2Proof.Machine.execFadd f s
  | .fsub f => Sys2Proof.Machine.execFsub f s
  | .fmul f => Sys2Proof.Machine.execFmul f s
  | .fma f => Sys2Proof.Machine.execFma f s
  | .fmin f => Sys2Proof.Machine.execFmin f s
  | .fmax f => Sys2Proof.Machine.execFmax f s
  | .frcp f => Sys2Proof.Machine.execFrcp f s
  | .frsq f => Sys2Proof.Machine.execFrsq f s
  | .fex2 f => Sys2Proof.Machine.execFex2 f s
  | .flg2 f => Sys2Proof.Machine.execFlg2 f s
  | .fsqt f => Sys2Proof.Machine.execFsqt f s
  | .fdot f => Sys2Proof.Machine.execFdot f s
  | .shuf f => Sys2Proof.Machine.execShuf f s
  | .bcst f => Sys2Proof.Machine.execBcst f s
  | .redl f => Sys2Proof.Machine.execRedl f s
  | .extl f => Sys2Proof.Machine.execExtl f s
  | .insl f => Sys2Proof.Machine.execInsl f s
  | .mlog f => Sys2Proof.Machine.execMlog f s
  | .mpop f => Sys2Proof.Machine.execMpop f s
  | .mmov f => Sys2Proof.Machine.execMmov f s
  | .cvt f => Sys2Proof.Machine.execCvt f s
  | .pack f => Sys2Proof.Machine.execPack f s
  | .unpk f => Sys2Proof.Machine.execUnpk f s
  | .qnt f => Sys2Proof.Machine.execQnt f s
  | .dqnt f => Sys2Proof.Machine.execDqnt f s
  | .sclx f => Sys2Proof.Machine.execSclx f s
  | .ld f => Sys2Proof.Machine.execLd f s
  | .st f => Sys2Proof.Machine.execSt f s
  | .gth f => Sys2Proof.Machine.execGth f s
  | .sct f => Sys2Proof.Machine.execSct f s
  | .ldfe f => Sys2Proof.Machine.execLdfe f s
  | .ldfc f => Sys2Proof.Machine.execLdfc f s
  | .stfl f => Sys2Proof.Machine.execStfl f s
  | .empt f => Sys2Proof.Machine.execEmpt f s
  | .stmap f => Sys2Proof.Machine.execStmap f s
  | .stunmap f => Sys2Proof.Machine.execStunmap f s
  | .stag f => Sys2Proof.Machine.execStag f s
  | .ldt f => Sys2Proof.Machine.execLdt f s
  | .pfr f => Sys2Proof.Machine.execPfr f s
  | .prefetchCompletion n => Sys2Proof.Machine.execPrefetchCompletion n s
  | .wbk f => Sys2Proof.Machine.execWbk f s
  | .inv f => Sys2Proof.Machine.execInv f s
  | .fence f => Sys2Proof.Machine.execFence f s
  | .fenceCode f => Sys2Proof.Machine.execFenceCode f s
  | .fenceEng f => Sys2Proof.Machine.execFenceEng f s
  | .atom f => Sys2Proof.Machine.execAtom f s
  | .red f => Sys2Proof.Machine.execRed f s
  | .seedPerform n => Sys2Proof.Machine.execSeedPerform n s
  | .migr f => Sys2Proof.Machine.execMigr f s
  | .home f => Sys2Proof.Machine.execHome f s
  | .spawn f => Sys2Proof.Machine.execSpawn f s
  | .spawnat f => Sys2Proof.Machine.execSpawnat f s
  | .join f => Sys2Proof.Machine.execJoin f s
  | .nwr f => Sys2Proof.Machine.execNwr f s
  | .arm f => Sys2Proof.Machine.execArm f s
  | .obl f => Sys2Proof.Machine.execObl f s
  | .xfer f => Sys2Proof.Machine.execXfer f s
  | .poison f => Sys2Proof.Machine.execPoison f s
  | .obq f => Sys2Proof.Machine.execObq f s
  | .rksplit f => Sys2Proof.Machine.execRksplit f s
  | .bnew f => Sys2Proof.Machine.execBnew f s
  | .bjoin f => Sys2Proof.Machine.execBjoin f s
  | .barv f => Sys2Proof.Machine.execBarv f s
  | .bwait f => Sys2Proof.Machine.execBwait f s
  | .bleave f => Sys2Proof.Machine.execBleave f s
  | .bdel f => Sys2Proof.Machine.execBdel f s
  | .gsig f => Sys2Proof.Machine.execGsig f s
  | .gwait f => Sys2Proof.Machine.execGwait f s
  | .gqry f => Sys2Proof.Machine.execGqry f s
  | .gmakeCreate f => Sys2Proof.Machine.execGmakeCreate f s
  | .gmakeRevoke f => Sys2Proof.Machine.execGmakeRevoke f s
  | .gmakeSetacl f => Sys2Proof.Machine.execGmakeSetacl f s
  | .gmakeFreeze f => Sys2Proof.Machine.execGmakeFreeze f s
  | .gmakeThaw f => Sys2Proof.Machine.execGmakeThaw f s
  | .gmakeRead f => Sys2Proof.Machine.execGmakeRead f s
  | .cpy f => Sys2Proof.Machine.execCpy f s
  | .mma f => Sys2Proof.Machine.execMma f s
  | .mdrn f => Sys2Proof.Machine.execMdrn f s
  | .mzro f => Sys2Proof.Machine.execMzro f s
  | .jobc f => Sys2Proof.Machine.execJobc f s
  | .tidw f => Sys2Proof.Machine.execTidw f s
  | .tidr f => Sys2Proof.Machine.execTidr f s
  | .tidinv f => Sys2Proof.Machine.execTidinv f s
  | .qsub f => Sys2Proof.Machine.execQsub f s
  | .launch f => Sys2Proof.Machine.execLaunch f s
  | .cntw f => Sys2Proof.Machine.execCntw f s
  | .cncl f => Sys2Proof.Machine.execCncl f s
  | .kswap f => Sys2Proof.Machine.execKswap f s
  | .gred f => Sys2Proof.Machine.execGred f s
  | .gbc f => Sys2Proof.Machine.execGbc f s
  | .gag f => Sys2Proof.Machine.execGag f s
  | .gtbl f => Sys2Proof.Machine.execGtbl f s
  | .gtblW f => Sys2Proof.Machine.execGtblW f s
  | .svc f => Sys2Proof.Machine.execSvc f s
  | .hvc f => Sys2Proof.Machine.execHvc f s
  | .eret f => Sys2Proof.Machine.execEret f s
  | .sysr f => Sys2Proof.Machine.execSysr f s
  | .sysw f => Sys2Proof.Machine.execSysw f s
  | .syswStatus f => Sys2Proof.Machine.execSyswStatus f s
  | .syswLfsr f => Sys2Proof.Machine.execSyswLfsr f s
  | .syswWmask f => Sys2Proof.Machine.execSyswWmask f s
  | .bkpt f => Sys2Proof.Machine.execBkpt f s
  | .trmk f => Sys2Proof.Machine.execTrmk f s
  | .waiti f => Sys2Proof.Machine.execWaiti f s
  | .tlbiPage f => Sys2Proof.Machine.execTlbiPage f s
  | .tlbiAll f => Sys2Proof.Machine.execTlbiAll f s
  | .tlbiPart f => Sys2Proof.Machine.execTlbiPart f s
  | .ckpt f => Sys2Proof.Machine.execCkpt f s
  | .tbeg f => Sys2Proof.Machine.execTbeg f s
  | .tcom f => Sys2Proof.Machine.execTcom f s
  | .tabt f => Sys2Proof.Machine.execTabt f s
  | .uiret f => Sys2Proof.Machine.execUiret f s
  | .uimask f => Sys2Proof.Machine.execUimask f s
  | .pgsnap f => Sys2Proof.Machine.execPgsnap f s
  | .pgret f => Sys2Proof.Machine.execPgret f s
  | .variableResultLanding core n => Sys2Proof.Machine.execVariableResultLanding core n s
  | .fixedResultLanding core n => Sys2Proof.Machine.execFixedResultLanding core n s
  | .dividerResult core => Sys2Proof.Machine.execDividerResult core s
  | .sqrtUnitResult core => Sys2Proof.Machine.execSqrtUnitResult core s
  | .syncWakeReply x => Sys2Proof.Machine.execSyncWakeReply x s
  | .lineRefetch x => Sys2Proof.Machine.execLineRefetch x s
  | .depositArrival n => Sys2Proof.Machine.execDepositArrival n s
  | .migrationArrival n => Sys2Proof.Machine.execMigrationArrival n s
  | .migrationRefusal n => Sys2Proof.Machine.execMigrationRefusal n s
  | .visitorReturn x => Sys2Proof.Machine.execVisitorReturn x s
  | .xferDelivery n => Sys2Proof.Machine.execXferDelivery n s
  | .heirMerge n => Sys2Proof.Machine.execHeirMerge n s
  | .cancelArrival x => Sys2Proof.Machine.execCancelArrival x s
  | .cancelAcknowledge n => Sys2Proof.Machine.execCancelAcknowledge n s
  | .waitWithdrawal x => Sys2Proof.Machine.execWaitWithdrawal x s
  | .trapEntry x => Sys2Proof.Machine.execTrapEntry x s
  | .asyncEventDelivery x => Sys2Proof.Machine.execAsyncEventDelivery x s
  | .userInterruptDelivery x => Sys2Proof.Machine.execUserInterruptDelivery x s
  | .pageWalk core p va write => Sys2Proof.Machine.execPageWalk core p va write s
  | .cowCopy p va => Sys2Proof.Machine.execCowCopy p va s
  | .l2WaySweep site => Sys2Proof.Machine.execL2WaySweep site s
  | .dataErrorConsumption x err pa => Sys2Proof.Machine.execDataErrorConsumption x err pa s
  | .rollback p members => Sys2Proof.Machine.execRollback p members s
  | .checkpointLogRelease p => Sys2Proof.Machine.execCheckpointLogRelease p s
  | .bankRebuildComplete site arr bank => Sys2Proof.Machine.execBankRebuildComplete site arr bank s
  | .streamerRequest core job => Sys2Proof.Machine.execStreamerRequest core job s
  | .jobStart core job => Sys2Proof.Machine.execJobStart core job s
  | .jobCompletion core job => Sys2Proof.Machine.execJobCompletion core job s
  | .followOnCommand core job => Sys2Proof.Machine.execFollowOnCommand core job s
  | .mmaCompletion core => Sys2Proof.Machine.execMmaCompletion core s
  | .timedCommandStart core job => Sys2Proof.Machine.execTimedCommandStart core job s
  | .timeZeroFix p gid => Sys2Proof.Machine.execTimeZeroFix p gid s
  | .timeZeroReached core p gid => Sys2Proof.Machine.execTimeZeroReached core p gid s
  | .cmdConfigure p q => Sys2Proof.Machine.execCmdConfigure p q s
  | .cmdSuspend p q => Sys2Proof.Machine.execCmdSuspend p q s
  | .cmdResume p q => Sys2Proof.Machine.execCmdResume p q s
  | .cmdDrain p q => Sys2Proof.Machine.execCmdDrain p q s
  | .cmdReset p q => Sys2Proof.Machine.execCmdReset p q s
  | .cmdRefused p q => Sys2Proof.Machine.execCmdRefused p q s
  | .packetValidation p q => Sys2Proof.Machine.execPacketValidation p q s
  | .headDependenceMet p q => Sys2Proof.Machine.execHeadDependenceMet p q s
  | .queuePriorityAging p q => Sys2Proof.Machine.execQueuePriorityAging p q s
  | .unitPlacement n => Sys2Proof.Machine.execUnitPlacement n s
  | .placementCompletion core => Sys2Proof.Machine.execPlacementCompletion core s
  | .placementReconsider pkg die => Sys2Proof.Machine.execPlacementReconsider pkg die s
  | .counterCount p c poisoned => Sys2Proof.Machine.execCounterCount p c poisoned s
  | .watchdogExpiry p gid => Sys2Proof.Machine.execWatchdogExpiry p gid s
  | .chunkFrameArrival n => Sys2Proof.Machine.execChunkFrameArrival n s
  | .collectiveCompletion n => Sys2Proof.Machine.execCollectiveCompletion n s
  | .fenceReport a b p gid => Sys2Proof.Machine.execFenceReport a b p gid s
  | .syncUnitReset site => Sys2Proof.Machine.execSyncUnitReset site s
  | .gateRefillTick site entry => Sys2Proof.Machine.execGateRefillTick site entry s
  | .throttleRetry x => Sys2Proof.Machine.execThrottleRetry x s
  | .throttleTimeout x => Sys2Proof.Machine.execThrottleTimeout x s
  | .retrainTimeout l => Sys2Proof.Machine.execRetrainTimeout l s
  | .viralNoticeArrival pkg dst => Sys2Proof.Machine.execViralNoticeArrival pkg dst s
  | .packageViral pkg => Sys2Proof.Machine.execPackageViral pkg s
  | .resendTimeout pkg dst => Sys2Proof.Machine.execResendTimeout pkg dst s
  | .pauseExpiry pkg dst vc => Sys2Proof.Machine.execPauseExpiry pkg dst vc s
  | .fenceHandshake a b => Sys2Proof.Machine.execFenceHandshake a b s
  | .tokenPass pkg => Sys2Proof.Machine.execTokenPass pkg s
  | .copseStore pkg => Sys2Proof.Machine.execCopseStore pkg s
  | .copseAtomic pkg => Sys2Proof.Machine.execCopseAtomic pkg s
  | .gateOperation pkg => Sys2Proof.Machine.execGateOperation pkg s
  | .copseBarrierOperation pkg => Sys2Proof.Machine.execCopseBarrierOperation pkg s
  | .transactionReady pkg => Sys2Proof.Machine.execTransactionReady pkg s
  | .transactionCommit pkg => Sys2Proof.Machine.execTransactionCommit pkg s
  | .transactionAbort pkg => Sys2Proof.Machine.execTransactionAbort pkg s
  | .groupTreeRebuildNotice pkg => Sys2Proof.Machine.execGroupTreeRebuildNotice pkg s
  | .orderFrameRecovery pkg src => Sys2Proof.Machine.execOrderFrameRecovery pkg src s
  | .orderRecoveryTimeout pkg => Sys2Proof.Machine.execOrderRecoveryTimeout pkg s
  | .thornRegeneration pkg => Sys2Proof.Machine.execThornRegeneration pkg s
  | .bulkSlot pkg => Sys2Proof.Machine.execBulkSlot pkg s
  | .bootSequence pkg failAt => Sys2Proof.Machine.execBootSequence pkg failAt s
  | .preemption core => Sys2Proof.Machine.execPreemption core s
  | .resumption core vd => Sys2Proof.Machine.execResumption core vd s
  | .slotTableChange p => Sys2Proof.Machine.execSlotTableChange p s
  | .traceSampleTick core => Sys2Proof.Machine.execTraceSampleTick core s
  | .illegalOpcodeCell w => Sys2Proof.Machine.execIllegalOpcodeCell w s
  | .storePerformed n => Sys2Proof.Machine.execStorePerformed n s
  | .storeAcknowledged n => Sys2Proof.Machine.execStoreAcknowledged n s
  | .lazyWriteback core off => Sys2Proof.Machine.execLazyWriteback core off s
  | .dropReport x info => Sys2Proof.Machine.execDropReport x info s
  | .l2TagParityError site set way dirtyClean => Sys2Proof.Machine.execL2TagParityError site set way dirtyClean s
  | .bankFailure site arr bank => Sys2Proof.Machine.execBankFailure site arr bank s
  | .linkOn l => Sys2Proof.Machine.execLinkOn l s
  | .linkOff l => Sys2Proof.Machine.execLinkOff l s
  | .trainingComplete l lanes total => Sys2Proof.Machine.execTrainingComplete l lanes total s
  | .laneLoss l lanes => Sys2Proof.Machine.execLaneLoss l lanes s
  | .replayThreshold l => Sys2Proof.Machine.execReplayThreshold l s
  | .linkFenceCommand l => Sys2Proof.Machine.execLinkFenceCommand l s
  | .linkUnfenceCommand l => Sys2Proof.Machine.execLinkUnfenceCommand l s
  | .dataFrameReceive pkg dst seq good body => Sys2Proof.Machine.execDataFrameReceive pkg dst seq good body s
  | .nakReceive pkg dst ack => Sys2Proof.Machine.execNakReceive pkg dst ack s
  | .pauseFrame pkg dst vcs dur => Sys2Proof.Machine.execPauseFrame pkg dst vcs dur s
  | .flitEscapeTimeout pkg n => Sys2Proof.Machine.execFlitEscapeTimeout pkg n s
  | .orderFrameGap pkg => Sys2Proof.Machine.execOrderFrameGap pkg s
  | .reservedOkindFrame pkg => Sys2Proof.Machine.execReservedOkindFrame pkg s
  | .bulkFrameReceive pkg src good => Sys2Proof.Machine.execBulkFrameReceive pkg src good s
  | .hostFlagWindowAccess pkg link vf off size write => Sys2Proof.Machine.execHostFlagWindowAccess pkg link vf off size write s
  | .hostBarAccess pkg link vf off size write => Sys2Proof.Machine.execHostBarAccess pkg link vf off size write s
  | .flush pkg link vf svc off val => Sys2Proof.Machine.execFlush pkg link vf svc off val s
  | .doorbell p q v => Sys2Proof.Machine.execDoorbell p q v s
  | .vfBind pkg vf part => Sys2Proof.Machine.execVfBind pkg vf part s
  | .keyLoad p key => Sys2Proof.Machine.execKeyLoad p key s
  | .ptmExchange pkg hostTime => Sys2Proof.Machine.execPtmExchange pkg hostTime s
  | .spdmRequest pkg blk => Sys2Proof.Machine.execSpdmRequest pkg blk s
  | .setDieClock pkg die setting => Sys2Proof.Machine.execSetDieClock pkg die setting s
  | .gateCore pkg die site => Sys2Proof.Machine.execGateCore pkg die site s
  | .ungateCore pkg die site => Sys2Proof.Machine.execUngateCore pkg die site s
  | .gateChannel pkg die site => Sys2Proof.Machine.execGateChannel pkg die site s
  | .ungateChannel pkg die site => Sys2Proof.Machine.execUngateChannel pkg die site s
  | .thermalTrip pkg die => Sys2Proof.Machine.execThermalTrip pkg die s
  | .packageReset pkg => Sys2Proof.Machine.execPackageReset pkg s
  | .bootCommand pkg kdesc ptroot fmap fmlen => Sys2Proof.Machine.execBootCommand pkg kdesc ptroot fmap fmlen s
  | .copseFormation pkgs => Sys2Proof.Machine.execCopseFormation pkgs s
  | .coreRemoval p lcore => Sys2Proof.Machine.execCoreRemoval p lcore s
  | .perPartitionReset p => Sys2Proof.Machine.execPerPartitionReset p s
  | .partitionTagWrite x v => Sys2Proof.Machine.execPartitionTagWrite x v s
  | .ebstatClearRecord pkg v => Sys2Proof.Machine.execEbstatClearRecord pkg v s
  | .ebstatClearCe pkg => Sys2Proof.Machine.execEbstatClearCe pkg s
  | .cklogEnable p v => Sys2Proof.Machine.execCklogEnable p v s
  | .cklogDisable p v => Sys2Proof.Machine.execCklogDisable p v s
  | .debugStop x gen => Sys2Proof.Machine.execDebugStop x gen s
  | .debugRelease x gen => Sys2Proof.Machine.execDebugRelease x gen s
  | .dieToDieReplay l => Sys2Proof.Machine.execDieToDieReplay l s
  | .dieReset pkg die => Sys2Proof.Machine.execDieReset pkg die s

end Sys2Proof.Machine
end

