-- ==== Sys2Proof/Machine/Issue.lean ====
section
/-! DEFINITION. The issue stage: entering a line (R19 to R26, R44 to R46), annulment (R39), the switch to a
successor kernel (R202), the checks of each issue in their order (R45), pairs (R24), and what an issue
records (R90, R95, R409). -/

namespace Sys2Proof.Machine

open Sys2Proof

/-! ### What every issue records -/

/-- The cells of a line that issue together: 2 for a pair. -/
def issueWidth (l : Line) (k : Nat) : Nat := if l.pair k then 2 else 1

/-- An instruction or pair issues from cell `k`: the restart PC and the snapshot of a restart point, the
next-issue cycle, the pointer and the counts; other slots' YIELDs lose this slot. -/
def commit (l : Line) (k stall : Nat) (s : State) : State :=
  let x := me s
  let c := myCore s
  let passed := (slotOrder c).takeWhile (· != x.slot)
  let s := pmCore (pmCore (countCycles s x.core 1 passed) x.core 1 1) x.core 2 1
  let s := dropYield s x
  let s := if l.rst k then snapshot s x s.cur.pc0 else s
  let s := modCore s x.core fun m =>
    { m with
      ptr := (x.slot + 1) % 64
      issued := some (x.slot, s.cur.pc0) }
  modCtx s x fun t =>
    { t with
      yielded := none
      throttle := none
      held := none
      nextIssue := c.cyc + 2 + stall
      rstpc := if l.rst k then s.cur.pc0 else t.rstpc }

/-- A core's cycle ends. -/
def endCycle (core : Nat) (s : State) : State :=
  let s := modCore s core fun k =>
    { k with
      cyc := k.cyc + 1
      nextAt := k.nextAt + cyc s core }
  { s with turn := s.turn.filter (· != core) }

/-- A cycle in which no slot issues. -/
def idleCycle (core : Nat) (s : State) : State :=
  endCycle core (modCore (countCycles s core 1 (upto 64)) core fun k => { k with issued := none })

/-- The cycle ends with the issue, where a next state is answered. -/
def endIssue (core : Nat) : Out → Out
  | .next t => .next (endCycle core t)
  | r => r

/-! ### One instruction -/

/-- Whether the next cell in sequential flow has RST set, for TBEG (R417); otherwise the state in which the
context waits or has trapped, because the line of that cell cannot be read yet. -/
def rstAfter (l : Line) (k : Nat) (s : State) : Except State Bool :=
  match firstCell l (k + 1) with
  | some i => .ok (l.rst i)
  | none =>
    match successor s (me s) allLines s.cur.nx with
    | .ok t =>
      match fetchLine s (me s) t with
      | .ok m => .ok (m.rst (cellNo t))
      | _ => .ok false
    | .error _ => .error (withSuccessor (fun _ s => s) s)

/-- `cur` made ready for an instruction. -/
def prepare (l : Line) (k : Nat) (i : Instr) (s : State) : Except State State :=
  match i with
  | .tbeg _ =>
    match rstAfter l k s with
    | .ok b => .ok { s with cur := { s.cur with rstNext := b } }
    | .error t => .error t
  | _ => .ok s

/-- Whether the slot does not issue after all: its instruction parks or waits (R90). One that traps issues. -/
def unissued (s : State) : Bool := s.cur.undone && !s.cur.trapped

/-- An instruction that issues alone. It is first tried: one that parks or waits leaves its cycle to another
slot. -/
def runOne (l : Line) (k : Nat) (i : Instr) (s : State) : Out :=
  match prepare l k i s with
  | .error t => .next t
  | .ok s =>
    match exec i s with
    | .next t => if unissued t then .next t else endIssue (me s).core (exec i (commit l k (stallOf i) s))
    | r => r

/-! ### A pair (R24) -/

/-- An encoding fault or PRIVILEGE of a member, in the order of R45. -/
def memberFault (i : Instr) (s : State) : Option Cause :=
  let p := prvNo (myCtx s).prv
  let level := match i with
    | .sysr f => readLevel s f.imm.toNat
    | .sysw f | .syswStatus f | .syswLfsr f | .syswWmask f => writeLevel f.imm.toNat
    | i => some (prvNo (leastPrv i))
  if (fieldsOf i).any (badLiteral s) then some .illegalEncoding
  else
    match level with
    | none => some .illegalEncoding
    | some n => if p < n then some .privilege else none

/-- A member decoded and checked: the instruction, or its fault. -/
def member (l : Line) (k : Nat) (s : State) : Except (State → Out) Instr :=
  match decode (l.cell k) with
  | .error .opcode => .error (exec (.illegalOpcodeCell (l.cell k)))
  | .error .encoding => .error fun s => .next (faultHere .illegalEncoding s)
  | .ok i =>
    match memberFault i s with
    | some c => .error fun s => .next (faultHere c s)
    | none => .ok i

/-- `cur` at the second member. -/
def atSecond (s : State) : State := { s with cur := { s.cur with pc := s.cur.pc + 1 } }

/-- Where the result of a pair's class-A member lands. -/
def destA (s : State) (i : Instr) : Dest :=
  match writtenReg i with
  | some n => .reg (entryOf s (me s) n)
  | none =>
    match (fieldsOf i).head? with
    | some d => destOf s d
    | none => .none

def destVal (s : State) (core : Nat) : Dest → Reg
  | .none => 0
  | .reg e => entryVal s core e
  | .mask sl n => (maskVal s ⟨core, sl⟩ n).setWidth 256

def destMarks (s : State) (core : Nat) : Dest → Marks
  | .reg e => entryMarks s core e
  | _ => Marks.fresh

/-- The number of draws that lead from one value of `sys.lfsr` to another (R55). -/
def drawsMade (a b : W32) : Nat := (firstWhere (fun n => lfsrSteps n a == b) (upto 65)).getD 0

/-- What would be taken back of the class-A member `i`, which leads from `s` to `t` (R24). -/
def pairUndo (i : Instr) (s t : State) : PairUndo :=
  let core := (me s).core
  let d := destA s i
  { dest := d
    old := destVal s core d
    marks := destMarks s core d
    fpstat := (myCtx s).fpstat
    draws := drawsMade (coreOf s core).lfsr (coreOf t core).lfsr
    lfsrWrites := (coreOf t core).lfsrWrites
    first := (coreOf s core).ids }

/-- What the class-A member has done is kept while the other is not performed: with its context where it is parked,
with its ATOM where it travels (there the entry is one of the window). -/
def keepUndo (x : CtxId) (u : PairUndo) (s : State) : State :=
  let sl := slotOf s x
  if isParked sl.st then modCtx s x fun c => { c with waitUndo := some u }
  else if sl.st == .away then
    let d : Dest := match u.dest with
      | .reg e => .reg (e - sl.ctx.winBase)
      | d => d
    let kept : TravelAtom → TravelAtom := fun a => { a with undo := some { u with dest := d } }
    { s with flights := listMod (fun f => f.sender == x) (fun f => { f with atom := f.atom.map kept }) s.flights }
  else s

/-- Both members are performed: the class-A member, then the class-M member, whose sequential successor is
where the class-A member has sent control. What the class-A member has done is kept while the other waits for a
reply that may still make it trap. A draw of the class-A member comes before a read or write of `sys.lfsr` by the
other (the model's choice: notes/assumptions/113). -/
def perform (ia im : Instr) (pa pm : VA) (s : State) : Out :=
  let x := me s
  match exec ia { s with cur := { s.cur with pc := pa, pair := true } } with
  | .next t =>
    let c := ctxOf t x
    match exec im { t with cur := { t.cur with pc := pm, nx := c.pc, src := c.source } } with
    | .next u =>
      .next (keepUndo x (pairUndo ia s t) u)
    | r => r
  | r => r

/-- A member tried by itself, in the state `c` that records the issue where it traps. -/
def tried (i : Instr) (s c : State) : Option Out :=
  match exec i s with
  | .next t => if unissued t then some (.next t) else if t.cur.undone then some (endIssue (me s).core (exec i c)) else none
  | r => some r

/-- The first of two answers. -/
def orElse (a : Option Out) (b : Out) : Out :=
  match a with
  | some r => r
  | none => b

/-- A pair whose members have passed their own checks. -/
def runPair (l : Line) (k : Nat) (i j : Instr) (s : State) : Out :=
  let s2 := atSecond s
  let c := myCtx s
  let w := commit l k (Nat.max (stallOf i) (stallOf j)) s
  let stop := fun (t : State) => endIssue (me s).core (.next t)
  if !pairOk i j then stop (fault .illegalLine (s.cur.pc.setWidth 64) w)
  else if (fieldsOf i).any (outsideWindow c) then stop (faultHere .window w)
  else if (fieldsOf j).any (outsideWindow c) then stop (faultHere .window (atSecond w))
  else if (absent s (fieldsOf i)).isSome then exec i s
  else if (absent s (fieldsOf j)).isSome then exec j s2
  else
    match prepare l (k + 1) i s, prepare l (k + 1) j s2 with
    | .error t, _ => .next t
    | _, .error t => .next t
    | .ok s1, .ok s2 =>
      let both := { w with cur := { s1.cur with rstNext := s1.cur.rstNext || s2.cur.rstNext } }
      let done := if classM i then perform j i s2.cur.pc s1.cur.pc both else perform i j s1.cur.pc s2.cur.pc both
      orElse (tried i s1 { w with cur := s1.cur }) (orElse (tried j s2 { w with cur := s2.cur })
        (endIssue (me s).core done))

/-! ### A throttled request (R94, R379) -/

/-- The registers that a throttled request read stand as it read them. -/
def withHeld (s : State) (core : Nat) (rs : List (Nat × Reg)) : State :=
  modCore s core fun k => { k with rf := rs.foldl (fun m e => Map.put m e.1 e.2) k.rf }

/-- They stand again as they were when the request was offered again: a request of this kind lands its result
later. -/
def withoutHeld (s t : State) (core : Nat) (rs : List (Nat × Reg)) : State :=
  rs.foldl (fun t e => setMarks
    (modCore t core fun k => { k with rf := Map.put k.rf e.1 (entryVal s core e.1) }) core e.1
    fun m => { m with unread := (entryMarks s core e.1).unread, poison := (entryMarks s core e.1).poison }) t

/-- A throttled request is offered again. It completes and its context issues no earlier than 2 cy later; or it is
throttled or waits again; or it traps, and then nothing of its pair has been performed. -/
def offerAgain (x : CtxId) (h : Held) (s : State) : Out :=
  match decode (BitVec.ofNat 96 (h.cur.lits.toNat / 2 ^ (96 * cellNo h.cur.pc))) with
  | .error _ => .next (withdraw s x)
  | .ok i =>
    let offered := fun (s : State) => withHeld { s with cur := { h.cur with id := x, pair := true } } x.core h.regs
    match exec i (offered (modCtx s x fun c => { c with held := none })) with
    | .next t =>
      if t.cur.trapped then exec i (offered (restoreD s x))
      else
        let t := withoutHeld s t x.core h.regs
        if unissued t then .next (modCtx t x fun c => { c with throttle := none, held := some h })
        else if isParked (slotOf t x).st then .next t
        else .next (modCtx t x fun c =>
          { c with
            throttle := none
            waitUndo := none
            nextIssue := Nat.max c.nextIssue ((coreOf t x.core).cyc + 2) })
    | r => r

/-- The slots whose throttled request is to be offered again. -/
def offerDue (s : State) (x : CtxId) : Option (CtxId × Held) :=
  if (slotOf s x).st == .ready then (ctxOf s x).held.map fun h => (x, h) else none

/-! ### The cell at the PC -/

/-- One annulled cell: it uses no issue cycle (R39). -/
def annul (x : CtxId) (l : Line) (k : Nat) (s : State) : State :=
  modCtx (pmCore s x.core 7 1) x fun c =>
    { c with
      status := putField c.status stSKN 2 (skn c - 1)
      pc := nextPc l (k + 1)
      entry := .flow
      source := BitVec.allOnes 57 }

/-- The restart point of a superseded kernel that a context is about to issue (R202). -/
def graftAt (s : State) (x : CtxId) (l : Line) (k : Nat) : Option Nat :=
  let c := ctxOf s x
  if l.rst k && c.kern != 0 then oldRestart s (partId s x) c.kern c.pc else none

/-- The cell or pair at the PC of a context, in a line that has passed its checks. -/
def runCell (x : CtxId) (l : Line) (k : Nat) (s : State) : Out :=
  let s := { s with cur := curFor x l k (issueWidth l k) }
  match member l k s with
  | .error f => endIssue x.core (f (commit l k 0 s))
  | .ok i =>
    if l.pair k then
      match member l (k + 1) (atSecond s) with
      | .error f => endIssue x.core (f (commit l k 0 (atSecond s)))
      | .ok j => runPair l k i j s
    else runOne l k i s

/-- A context is at cell `k` of line `l`: the checks of the entry, then what the cell is. -/
def runLine (x : CtxId) (l : Line) (s : State) : Out :=
  let c := ctxOf s x
  let k := cellNo c.pc
  let notCode := l.lit k || l.second k
  if (c.entry == .event && (notCode || !l.tgt k)) || (c.entry == .resume && notCode) then
    .next (takeTrap s x .badTarget (c.source.setWidth 64) c.pc false false)
  else if l.lit k then .next (modCtx s x fun c => { c with pc := nextPc l k })
  else if skn c ≠ 0 then .next (annul x l k s)
  else
    match graftAt s x l k with
    | some i => .next (modCtx (switchKernel s x i) x fun c => { c with entry := .flow })
    | none => runCell x l k s

/-! ### A slot's turn -/

/-- The TIMING trap that waits for a context's next issue (R332). -/
def dueTiming (c : Ctx) : Option AsyncEv :=
  if skn c != 0 || halfPair c then none else firstWhere (fun e => e.cause == .timing) c.events

/-- A BAD_PC that an event or a return has supplied (R46). -/
def enterBadPc (x : CtxId) (s : State) : State :=
  let c := ctxOf s x
  if c.entry = .event then takeTrap s x .badPc (c.pc.setWidth 64) c.source false false
  else takeTrap s x .badPc (lineInfo .badPc false c.source c.pc) c.pc false false

/-- TIMING: the context resumes at its restart PC. -/
def takeTiming (x : CtxId) (e : AsyncEv) (s : State) : State :=
  let s := dropYield s x
  modSlot s x fun sl =>
    { sl with
      st := .trapped
      ctx := { sl.ctx with
        events := sl.ctx.events.erase e
        trap := some ⟨.timing, e.info, sl.ctx.rstpc, false, true⟩ } }

/-- The slot that the pointer has taken: it issues, or finds why it cannot. -/
def runSlot (x : CtxId) (s : State) : Out :=
  let s := applyStatus s x
  let c := ctxOf s x
  match dueTiming c with
  | some e => .next (takeTiming x e s)
  | none =>
    if c.entry != .flow && badPc c.pc then .next (enterBadPc x s)
    else
      match heldLine s x c.pc with
      | .miss => .next (parkWalkOf s x c.pc)
      | .fault .instrParity _ => exec (.lineRefetch x) (fetched s x c.pc)
      | .fault k fm => .next (takeTrap (fetched s x c.pc) x k (lineInfo k fm c.source c.pc) c.pc false false)
      | .bad e pa => .next (parkBadLine (fetched s x c.pc) x e pa)
      | .ok l =>
        let s := if c.line = some l then s else fetched s x c.pc
        runLine x l (modCtx s x fun c => { c with line := some l })

end Sys2Proof.Machine
end

