-- ==== Sys2Proof/Machine/Turns.lean ====
section
/-! DEFINITION. How the machine goes forward: dated events, the cycles of the cores that have something to
do (R90 to R98), the passing of time, and how an instruction word is placed where the next step fetches. -/

namespace Sys2Proof.Machine

open Sys2Proof

/-! ### Dated events -/

/-- A deposit is applied after the cycles of its moment (R98). -/
def isDeposit : Instr → Bool
  | .depositArrival _ => true
  | _ => false

/-- The first event due by `now` that is no deposit, and the agenda without it. -/
def takeDue (now : Nat) : List (Nat × Instr) → Option (Instr × List (Nat × Instr))
  | [] => none
  | (t, i) :: rest =>
    if now < t then none
    else if isDeposit i then (takeDue now rest).map fun r => (r.1, (t, i) :: r.2)
    else some (i, rest)

/-- The port by which a deposit arrives. -/
def depositPort (s : State) (i : Instr) : Nat :=
  match i with
  | .depositArrival n => ((firstWhere (fun d => d.id == n) s.deposits).map (·.port)).getD 0
  | _ => 0

/-- The deposit due by `now` that has the lowest port, the earliest of them. -/
def nextDeposit (s : State) : Option (Nat × Instr) :=
  (s.agenda.filter fun e => isDeposit e.2 && decide (e.1 ≤ s.now)).foldl (fun m e =>
    match m with
    | none => some e
    | some b => if depositPort s e.2 < depositPort s b.2 then some e else some b) none

/-! ### A core's cycle -/

/-- Whether a core's clock runs. -/
def clockRuns (s : State) (core : Nat) : Bool := !(coreOf s core).gated && !(dieAt s (dieKey core)).stopped

/-- A result of fixed latency, then one of variable latency, the divider's and the square-root unit's, due
in this cycle. -/
def dueLanding (core : Nat) (k : Core) : Option Instr :=
  match firstWhere (fun (p : Pend) => decide (p.due ≤ k.cyc)) k.pend with
  | some p => some (.fixedResultLanding core p.id)
  | none =>
    match firstWhere (fun (p : VPend) => decide (p.due ≤ k.cyc)) k.vpend with
    | some p => some (.variableResultLanding core p.id)
    | none =>
      if k.divq.head?.any fun q => decide (q.due ≤ k.cyc) then some (.dividerResult core)
      else if k.sqq.head?.any fun q => decide (q.due ≤ k.cyc) then some (.sqrtUnitResult core)
      else none

/-- What the core does to a slot before any slot issues: trap entry, an event or interrupt that is
deliverable, the return of a visitor. -/
def slotEvent (s : State) (x : CtxId) : Option Instr :=
  let sl := slotOf s x
  if sl.st == .free then none
  else if sl.st == .trapped && sl.ctx.trap.isSome && !windowOpen s x && (!visiting s x || mayGoHome s x) then
    some (.trapEntry x)
  else if atBoundary s x && (nextEvent (wholeCtx s x)).isSome then some (.asyncEventDelivery x)
  else if intDue s x && (!visiting s x || mayGoHome s x) then some (.userInterruptDelivery x)
  else if overstayed s x then some (.visitorReturn x)
  else none

/-- The debug stop of a context that has reached its boundary (R430). -/
def stopDue (s : State) (x : CtxId) : Bool := (ctxOf s x).stopReq && atBoundary s x

/-- The slots of a core that are listed. -/
def slotIds (s : State) (core : Nat) : List CtxId := (coreOf s core).slots.map fun e => ⟨core, e.1⟩

/-- The first slot with something to do before issue. -/
def firstEvent (s : State) : List CtxId → Option Instr
  | [] => none
  | x :: rest =>
    match slotEvent s x with
    | some i => some i
    | none => firstEvent s rest

/-- One thing that a core does in its cycle: a landing, a stop, an event of a slot, an issue, or nothing. -/
def coreStep (core : Nat) (s : State) : Out :=
  let k := coreOf s core
  if !clockRuns s core then .next { s with turn := s.turn.filter (· != core) }
  else
    match dueLanding core k with
    | some i => exec i s
    | none =>
      if k.suspended then
        match firstWhere (fun n => slotReady s ⟨core, n⟩ && preemptHeld s ⟨core, n⟩) (slotOrder k) with
        | some n => runSlot ⟨core, n⟩ s
        | none => .next (idleCycle core s)
      else
        match (slotIds s core).findSome? (offerDue s) with
        | some (x, h) => offerAgain x h s
        | none =>
          match firstWhere (stopDue s) (slotIds s core) with
          | some x => .next (stopNow s x)
          | none =>
            match firstEvent s (slotIds s core) with
            | some i => exec i s
            | none =>
              match pickSlot s core with
              | some n => runSlot ⟨core, n⟩ s
              | none => .next (idleCycle core s)

/-! ### Time -/

/-- Whether a core has anything to do in its next cycle or must wait for one that is coming. -/
def coreActive (s : State) (core : Nat) : Bool :=
  let k := coreOf s core
  clockRuns s core &&
    (!(k.pend.isEmpty && k.vpend.isEmpty && k.divq.isEmpty && k.sqq.isEmpty) ||
      ((slotIds s core).any fun x =>
        let st := (slotOf s x).st
        if k.suspended then st == .ready && preemptHeld s x
        else st == .ready || st == .trapped || stopDue s x || (slotEvent s x).isSome))

/-- The least of a list of times. -/
def leastOf : List Nat → Option Nat
  | [] => none
  | t :: rest =>
    match leastOf rest with
    | some u => some (Nat.min t u)
    | none => some t

/-- Nothing is left to do at this moment: the trace records of the moment are written, and time goes on to
the next event or the next cycle of an active core; where there is neither, the device waits for the
outside world. -/
def advanceTime (s : State) : Out :=
  let s := (s.cores.filter fun e => !e.2.trq.isEmpty).foldl (fun s e => flushTrace s e.1) s
  let active := (s.cores.map (·.1)).filter (coreActive s)
  let s := active.foldl catchCore s
  let times := active.map fun c => (coreOf s c).nextAt
  match leastOf ((s.agenda.head?.map (·.1)).toList ++ times) with
  | none => .fault .quiescent
  | some t =>
    let now := Nat.max s.now t
    .next { s with
      now := now
      turn := active.filter fun c => decide ((coreOf s c).nextAt ≤ now) }

/-- A package whose Orotik has not begun to boot it. -/
def unbooted (s : State) : Option Nat :=
  (firstWhere (fun (e : Nat × Pkg) => e.2.boot == 0 && e.2.bootFail.isNone) s.pkgs).map (·.1)

/-- What the machine does next. -/
def nextAct (s : State) : Out :=
  match unbooted s with
  | some pkg => exec (.bootSequence pkg none) s
  | none =>
    match takeDue s.now s.agenda with
    | some (i, rest) => exec i { s with agenda := rest }
    | none =>
      match s.turn with
      | core :: _ => coreStep core s
      | [] =>
        match nextDeposit s with
        | some e => exec e.2 { s with agenda := s.agenda.erase e }
        | none => advanceTime s

/-- What follows from an act at once: waits for accesses that are over by now end (R264 to R266), and a log that is full
is closed (R409). -/
def afterAct (s : State) : State := closeFull (settleAccesses s)

/-- An event in which the dispatcher acts on a CMD store. -/
def isCommand : Instr → Bool
  | .cmdConfigure _ _ | .cmdSuspend _ _ | .cmdResume _ _ | .cmdDrain _ _ | .cmdReset _ _ | .cmdRefused _ _ => true
  | _ => false

/-- The CMD stores that an act has performed are acted on in the same step, in the order in which they were performed
(R209). -/
def runCommands (s : State) : Out :=
  (s.agenda.filter fun e => isCommand e.2 && decide (e.1 ≤ s.now)).foldl (fun o e =>
    match o with
    | .next s => exec e.2 { s with agenda := s.agenda.erase e }
    | o => o) (.next s)

/-- What follows from an outcome within the same step. -/
def follow (o : Out) : Out :=
  match o with
  | .next t =>
    match runCommands t with
    | .next t => .next (afterAct t)
    | o => o
  | o => o

/-- The machine's next step: what it does next, and what follows from that. -/
def machineStep (s : State) : Out := follow (nextAct s)

/-! ### A word placed where the next step fetches -/

/-- A line with `w` in cell 0 and zero in the others, cell 0 a target, cell 1 a restart point, its parity
good (R21, R22). -/
def lineWith (w : Cell96) : Nat :=
  let low := 2 ^ 0 + 2 ^ 6
  w.toNat + 2 ^ 480 * (low + 2 ^ 24 * (parityOf 96 w.toNat).toNat + 2 ^ 29 * (parityOf 24 low).toNat)

/-- The page of the placed line: virtual 0x1_0000 in frame 1 of package 0. -/
def placedPc : VA := 0x10000
def placedPte : W64 := BitVec.ofNat 64 (0x1F + 2 ^ 9 + 2 ^ 16)

/-- The context that runs the placed line: a hypervisor context with the widest window. -/
def placedCtx : Ctx :=
  { Ctx.zero with
    winSize := 128
    prv := .hyp
    pc := placedPc
    rstpc := placedPc
    source := BitVec.allOnes 57
    rkhi := 0x10000 }

/-- Core 0 with that context alone, which has seen the line as it is placed, its results landed and a translation for the line in its TLB. -/
def placedCore (now seen : Nat) (k : Core) : Core :=
  { k with
    slots := [(0, ⟨.ready, .ready, .ready, 0, { placedCtx with nextIssue := k.cyc, codeSeen := seen }⟩)]
    ptr := 0
    nextAt := now
    pend := []
    vpend := []
    divq := []
    sqq := []
    suspended := false
    gated := false
    tlb := [⟨0, 1, placedPte, 1, 0, false, false⟩] }

/-- `s` with a cell placed so that the very next step fetches and runs it: the package is past its boot,
nothing else is due, and core 0's turn has come. -/
def placeCell (s : State) (w : Cell96) : State :=
  let s := { s with
    agenda := s.agenda.filter fun e => decide (s.now < e.1)
    turn := [0]
    cores := Map.put s.cores 0 (placedCore s.now (s.lineOld.length + 1) (coreOf s 0))
    pkgs := s.pkgs.map fun e => (e.1, { e.2 with boot := if e.2.boot = 0 then 6 else e.2.boot })
    dies := Map.put s.dies 0 { dieAt s 0 with stopped := false } }
  writePA s 0 0x10000 64 (lineWith w)

end Sys2Proof.Machine
end

