-- ==== Sys2Proof/Machine/Step.lean ====
section
/-! DEFINITION. The step of the machine, and an instruction word stored where the step fetches next. -/

namespace Sys2Proof.Machine

open Sys2Proof

/-- One step: an event of the device, or what one core does in one of its cycles. -/
def step (s : State) : Host.Outcome State Fault Refusal := machineStep s

/-- `s` with the instruction whose bits are `w` stored where `step` fetches its next instruction: core 0's
context fetches it and no other event is due. -/
def State.withFetchWord (s : State) (nbits w : Nat) : State := placeCell s (BitVec.ofNat 96 (w % 2 ^ nbits))

end Sys2Proof.Machine
end

