-- ==== Sys2Proof/WellFormed.lean ====
section
/-! DEFINITION. Which instructions are well-formed: those whose MIN and fields pass the decoder's checks.
Events have no encoding and no check. -/

namespace Sys2Proof

/-- A well-formed instruction passes both checks (R45, steps 5.1 and 5.2). -/
def WellFormed (i : Instr) : Bool := minOk i && fieldsOk i

end Sys2Proof
end

