-- ==== Sys2Proof/Laws/Encoding.lean ====
section
/-! SUPPORT. The decoder reads back every field that the encoder writes (R27 to R37), format by format. -/

namespace Sys2Proof

set_option exponentiation.threshold 300

theorem splitCell_joinCell (r : Raw) : splitCell (joinCell r) = r := by
  obtain ⟨maj, mn, stall, flg, d, a, b, c, tail⟩ := r
  have := maj.isLt; have := mn.isLt; have := stall.isLt; have := flg.isLt
  have := d.isLt; have := a.isLt; have := b.isLt; have := c.isLt; have := tail.isLt
  simp only [splitCell, joinCell, lay, cut, Raw.mk.injEq, BitVec.toNat_ofNat]
  refine ⟨?_, ?_, ?_, ?_, ?_, ?_, ?_, ?_, ?_⟩ <;> apply BitVec.eq_of_toNat_eq <;>
    simp only [BitVec.toNat_ofNat] <;> omega

set_option maxRecDepth 10000 in
@[simp] theorem opOf_opCode (o : Opnd) : opOf (opCode o) = some o := by
  cases o with
  | sp r => cases r <;> decide
  | g n => revert n; decide
  | k n => revert n; decide
  | lit c w => revert c w; decide
  | i20 => decide
  | m n => revert n; decide
  | z => decide

@[simp] theorem tyOfCode_tyCode (t : Ty) : tyOfCode (tyCode t) = some t := by cases t <;> rfl
@[simp] theorem rmOfCode_rmCode (r : RM) : rmOfCode (rmCode r) = some r := by cases r <;> rfl
@[simp] theorem scopeOf_scopeCode (x : Scope) : scopeOf (scopeCode x) = some x := by cases x <;> rfl
@[simp] theorem szOf_szCode (x : Sz) : szOf (szCode x) = some x := by cases x <;> rfl

@[simp] theorem parseCm_rawOf (maj : BitVec 7) (c : Cm) (tail : BitVec 36) : parseCm (rawOf maj c tail) = some c := by
  simp [parseCm, rawOf]

/-- A field of a laid-out number. -/
theorem cut_eq {n : Nat} (x lo : Nat) (v : BitVec n) (h : x / 2 ^ lo % 2 ^ n = v.toNat) : cut x lo n = v := by
  apply BitVec.eq_of_toNat_eq
  simpa [cut, BitVec.toNat_ofNat] using h

theorem toNat_lt_two (b : Bool) : b.toNat < 2 := by cases b <;> decide

theorem bit_eq (x i : Nat) (b : Bool) (h : x / 2 ^ i % 2 = b.toNat) : bit x i = b := by
  cases b <;> simp_all [bit]

theorem fin_ofNat_val {n : Nat} (x : Fin (n + 1)) : Fin.ofNat (n + 1) x.val = x :=
  Fin.ext (Nat.mod_eq_of_lt x.isLt)

theorem parseFR_rawFR (maj : BitVec 7) (f : FR) : parseFR (rawFR maj f) = some f := by
  obtain ⟨c, i20, mk, na, nb, nc, sat, rm, t⟩ := f
  have h1 := (tyCode t).isLt; have h2 := (rmCode rm).isLt; have h3 := toNat_lt_two sat
  have h4 := toNat_lt_two na; have h5 := toNat_lt_two nb; have h6 := toNat_lt_two nc
  have h7 := mk.isLt; have h8 := i20.isLt
  have e : (rawFR maj ⟨c, i20, mk, na, nb, nc, sat, rm, t⟩).tail.toNat = (tyCode t).toNat + 16 * ((rmCode rm).toNat +
      8 * (sat.toNat + 2 * (na.toNat + 2 * (nb.toNat + 2 * (nc.toNat + 2 * (mk.val + 8 * (4 * i20.toNat))))))) := by
    simp only [rawFR, rawOf, lay, BitVec.toNat_ofNat]; omega
  have p : parseCm (rawFR maj ⟨c, i20, mk, na, nb, nc, sat, rm, t⟩) = some c := by simp [rawFR]
  have q1 := cut_eq (n := 3) (rawFR maj ⟨c, i20, mk, na, nb, nc, sat, rm, t⟩).tail.toNat 4 (rmCode rm) (by rw [e]; omega)
  have q2 := cut_eq (n := 4) (rawFR maj ⟨c, i20, mk, na, nb, nc, sat, rm, t⟩).tail.toNat 0 (tyCode t) (by rw [e]; omega)
  have q3 := cut_eq (n := 20) (rawFR maj ⟨c, i20, mk, na, nb, nc, sat, rm, t⟩).tail.toNat 16 i20 (by rw [e]; omega)
  have q4 := cut_eq (n := 2) (rawFR maj ⟨c, i20, mk, na, nb, nc, sat, rm, t⟩).tail.toNat 14 0 (by rw [e]; simp; omega)
  have q5 : (cut (rawFR maj ⟨c, i20, mk, na, nb, nc, sat, rm, t⟩).tail.toNat 11 3).toNat = mk.val := by
    simp only [cut, BitVec.toNat_ofNat]; rw [e]; omega
  have b1 := bit_eq (rawFR maj ⟨c, i20, mk, na, nb, nc, sat, rm, t⟩).tail.toNat 8 na (by rw [e]; omega)
  have b2 := bit_eq (rawFR maj ⟨c, i20, mk, na, nb, nc, sat, rm, t⟩).tail.toNat 9 nb (by rw [e]; omega)
  have b3 := bit_eq (rawFR maj ⟨c, i20, mk, na, nb, nc, sat, rm, t⟩).tail.toNat 10 nc (by rw [e]; omega)
  have b4 := bit_eq (rawFR maj ⟨c, i20, mk, na, nb, nc, sat, rm, t⟩).tail.toNat 7 sat (by rw [e]; omega)
  simp only [parseFR, p, q1, q2, q3, q4, q5, b1, b2, b3, b4, rmOfCode_rmCode, tyOfCode_tyCode, if_true,
    fin_ofNat_val]

theorem parseFI_rawFI (maj : BitVec 7) (f : FI) : parseFI (rawFI maj f) = some f := by
  obtain ⟨c, imm, t⟩ := f
  have h1 := (tyCode t).isLt; have h2 := imm.isLt
  have e : (rawFI maj ⟨c, imm, t⟩).tail.toNat = (tyCode t).toNat + 16 * imm.toNat := by
    simp only [rawFI, rawOf, lay, BitVec.toNat_ofNat]; omega
  have p : parseCm (rawFI maj ⟨c, imm, t⟩) = some c := by simp [rawFI]
  have q1 := cut_eq (n := 4) (rawFI maj ⟨c, imm, t⟩).tail.toNat 0 (tyCode t) (by rw [e]; omega)
  have q2 := cut_eq (n := 32) (rawFI maj ⟨c, imm, t⟩).tail.toNat 4 imm (by rw [e]; omega)
  simp only [parseFI, p, q1, q2, tyOfCode_tyCode]

theorem parseFM_rawFM (maj : BitVec 7) (f : FM) : parseFM (rawFM maj f) = some f := by
  obtain ⟨c, off, sc, scl, sz⟩ := f
  have h1 := (szCode sz).isLt; have h2 := scl.isLt; have h3 := (scopeCode sc).isLt; have h4 := off.isLt
  have e : (rawFM maj ⟨c, off, sc, scl, sz⟩).tail.toNat =
      (szCode sz).toNat + 16 * (scl.toNat + 8 * ((scopeCode sc).toNat + 8 * (4 * off.toNat))) := by
    simp only [rawFM, rawOf, lay, BitVec.toNat_ofNat]; omega
  have p : parseCm (rawFM maj ⟨c, off, sc, scl, sz⟩) = some c := by simp [rawFM]
  have q1 := cut_eq (n := 3) (rawFM maj ⟨c, off, sc, scl, sz⟩).tail.toNat 7 (scopeCode sc) (by rw [e]; omega)
  have q2 := cut_eq (n := 4) (rawFM maj ⟨c, off, sc, scl, sz⟩).tail.toNat 0 (szCode sz) (by rw [e]; omega)
  have q3 := cut_eq (n := 24) (rawFM maj ⟨c, off, sc, scl, sz⟩).tail.toNat 12 off (by rw [e]; omega)
  have q4 := cut_eq (n := 2) (rawFM maj ⟨c, off, sc, scl, sz⟩).tail.toNat 10 0 (by rw [e]; simp; omega)
  have q5 := cut_eq (n := 3) (rawFM maj ⟨c, off, sc, scl, sz⟩).tail.toNat 4 scl (by rw [e]; omega)
  simp only [parseFM, p, q1, q2, q3, q4, q5, scopeOf_scopeCode, szOf_szCode, if_true]

theorem parseFB_rawFB (maj : BitVec 7) (f : FB) : parseFB (rawFB maj f) = some f := by
  obtain ⟨c, loff, tc⟩ := f
  have h1 := tc.isLt; have h2 := loff.isLt
  have e : (rawFB maj ⟨c, loff, tc⟩).tail.toNat = tc.val + 16 * loff.toNat := by
    simp only [rawFB, rawOf, lay, BitVec.toNat_ofNat]; omega
  have p : parseCm (rawFB maj ⟨c, loff, tc⟩) = some c := by simp [rawFB]
  have q1 := cut_eq (n := 32) (rawFB maj ⟨c, loff, tc⟩).tail.toNat 4 loff (by rw [e]; omega)
  have q2 : (cut (rawFB maj ⟨c, loff, tc⟩).tail.toNat 0 3).toNat = tc.val := by
    simp only [cut, BitVec.toNat_ofNat]; rw [e]; omega
  have b1 := bit_eq (rawFB maj ⟨c, loff, tc⟩).tail.toNat 3 false (by rw [e]; simp; omega)
  simp only [parseFB, p, q1, q2, b1]
  rw [if_pos ⟨trivial, h1⟩, fin_ofNat_val]

theorem parseFS_rawFS (maj : BitVec 7) (f : FS) : parseFS (rawFS maj f) = some f := by
  obtain ⟨c, imm⟩ := f
  have h2 := imm.isLt
  have e : (rawFS maj ⟨c, imm⟩).tail.toNat = 16 * imm.toNat := by
    simp only [rawFS, rawOf, lay, BitVec.toNat_ofNat]; omega
  have p : parseCm (rawFS maj ⟨c, imm⟩) = some c := by simp [rawFS]
  have q1 := cut_eq (n := 32) (rawFS maj ⟨c, imm⟩).tail.toNat 4 imm (by rw [e]; omega)
  have q2 := cut_eq (n := 4) (rawFS maj ⟨c, imm⟩).tail.toNat 0 0 (by rw [e]; simp)
  simp only [parseFS, p, q1, q2, if_true]

theorem parseFE_rawFE (maj : BitVec 7) (f : FE) : parseFE (rawFE maj f) = some f := by
  obtain ⟨c, tc, tb, ta⟩ := f
  have h1 := ta.isLt; have h2 := tb.isLt; have h3 := tc.isLt
  have e : (rawFE maj ⟨c, tc, tb, ta⟩).tail.toNat = ta.toNat + 256 * (tb.toNat + 256 * tc.toNat) := by
    simp only [rawFE, rawOf, lay, BitVec.toNat_ofNat]; omega
  have p : parseCm (rawFE maj ⟨c, tc, tb, ta⟩) = some c := by simp [rawFE]
  have q1 := cut_eq (n := 8) (rawFE maj ⟨c, tc, tb, ta⟩).tail.toNat 16 tc (by rw [e]; omega)
  have q2 := cut_eq (n := 8) (rawFE maj ⟨c, tc, tb, ta⟩).tail.toNat 8 tb (by rw [e]; omega)
  have q3 := cut_eq (n := 8) (rawFE maj ⟨c, tc, tb, ta⟩).tail.toNat 0 ta (by rw [e]; omega)
  have q4 := cut_eq (n := 12) (rawFE maj ⟨c, tc, tb, ta⟩).tail.toNat 24 0 (by rw [e]; simp; omega)
  simp only [parseFE, p, q1, q2, q3, q4, if_true]

/-- The decoder on a cell whose fields are known. -/
theorem decode_joinCell (r : Raw) : decode (joinCell r) =
    match rowOf r.maj.toNat r.min.toNat with
    | none => .error .opcode
    | some (.fr mk) => finish mk (FR.blank r.min) (parseFR r)
    | some (.fi mk) => finish mk (FI.blank r.min) (parseFI r)
    | some (.fm mk) => finish mk (FM.blank r.min) (parseFM r)
    | some (.fb mk) => finish mk (FB.blank r.min) (parseFB r)
    | some (.fs mk) => finish mk (FS.blank r.min) (parseFS r)
    | some (.fe mk) => finish mk (FE.blank r.min) (parseFE r) := by
  simp only [decode, splitCell_joinCell] <;> rfl

theorem finish_ok {F : Type} {mk : F → Instr} {blank f : F} {i : Instr} (e : mk f = i)
    (hm : minOk (mk blank) = true) (h : WellFormed i = true) : finish mk blank (some f) = .ok i := by
  have h2 : fieldsOk i = true := by
    simp only [WellFormed, Bool.and_eq_true] at h; exact h.2
  simp only [finish, hm, if_true, e, h2]

theorem decode_rawFR {maj : BitVec 7} {mk : FR → Instr} {f : FR} {i : Instr} (h : WellFormed i = true)
    (hr : rowOf maj.toNat f.min.toNat = some (.fr mk)) (e : mk f = i) (hm : minOk (mk (FR.blank f.min)) = true) :
    decode (joinCell (rawFR maj f)) = .ok i := by
  have hr2 : rowOf (rawFR maj f).maj.toNat (rawFR maj f).min.toNat = some (.fr mk) := hr
  rw [decode_joinCell, hr2, parseFR_rawFR]
  exact finish_ok e hm h

theorem decode_rawFI {maj : BitVec 7} {mk : FI → Instr} {f : FI} {i : Instr} (h : WellFormed i = true)
    (hr : rowOf maj.toNat f.min.toNat = some (.fi mk)) (e : mk f = i) (hm : minOk (mk (FI.blank f.min)) = true) :
    decode (joinCell (rawFI maj f)) = .ok i := by
  have hr2 : rowOf (rawFI maj f).maj.toNat (rawFI maj f).min.toNat = some (.fi mk) := hr
  rw [decode_joinCell, hr2, parseFI_rawFI]
  exact finish_ok e hm h

theorem decode_rawFM {maj : BitVec 7} {mk : FM → Instr} {f : FM} {i : Instr} (h : WellFormed i = true)
    (hr : rowOf maj.toNat f.min.toNat = some (.fm mk)) (e : mk f = i) (hm : minOk (mk (FM.blank f.min)) = true) :
    decode (joinCell (rawFM maj f)) = .ok i := by
  have hr2 : rowOf (rawFM maj f).maj.toNat (rawFM maj f).min.toNat = some (.fm mk) := hr
  rw [decode_joinCell, hr2, parseFM_rawFM]
  exact finish_ok e hm h

theorem decode_rawFB {maj : BitVec 7} {mk : FB → Instr} {f : FB} {i : Instr} (h : WellFormed i = true)
    (hr : rowOf maj.toNat f.min.toNat = some (.fb mk)) (e : mk f = i) (hm : minOk (mk (FB.blank f.min)) = true) :
    decode (joinCell (rawFB maj f)) = .ok i := by
  have hr2 : rowOf (rawFB maj f).maj.toNat (rawFB maj f).min.toNat = some (.fb mk) := hr
  rw [decode_joinCell, hr2, parseFB_rawFB]
  exact finish_ok e hm h

theorem decode_rawFS {maj : BitVec 7} {mk : FS → Instr} {f : FS} {i : Instr} (h : WellFormed i = true)
    (hr : rowOf maj.toNat f.min.toNat = some (.fs mk)) (e : mk f = i) (hm : minOk (mk (FS.blank f.min)) = true) :
    decode (joinCell (rawFS maj f)) = .ok i := by
  have hr2 : rowOf (rawFS maj f).maj.toNat (rawFS maj f).min.toNat = some (.fs mk) := hr
  rw [decode_joinCell, hr2, parseFS_rawFS]
  exact finish_ok e hm h

theorem decode_rawFE {maj : BitVec 7} {mk : FE → Instr} {f : FE} {i : Instr} (h : WellFormed i = true)
    (hr : rowOf maj.toNat f.min.toNat = some (.fe mk)) (e : mk f = i) (hm : minOk (mk (FE.blank f.min)) = true) :
    decode (joinCell (rawFE maj f)) = .ok i := by
  have hr2 : rowOf (rawFE maj f).maj.toNat (rawFE maj f).min.toNat = some (.fe mk) := hr
  rw [decode_joinCell, hr2, parseFE_rawFE]
  exact finish_ok e hm h

/-- MIN's check of a well-formed instruction. -/
theorem wf_min {i : Instr} (h : WellFormed i = true) : minOk i = true := by
  simp only [WellFormed, Bool.and_eq_true] at h; exact h.1

theorem wf_fields {i : Instr} (h : WellFormed i = true) : fieldsOk i = true := by
  simp only [WellFormed, Bool.and_eq_true] at h; exact h.2

end Sys2Proof
end

