-- ==== Sys2Proof/Laws/PerInstr.lean ====
section
/-! SUPPORT. Statements made per instruction: decoding the cell of a well-formed instruction gives it back. -/

namespace Sys2Proof.Laws.RoundTrip

open Sys2Proof

set_option Elab.async false

/-- The decoder reads the encoder's cell of a well-formed instruction as that instruction. An event has no
cell. -/
def Statement (i : Instr) : Prop := WellFormed i = true → ∀ w, encode i = some w → decode w = .ok i

theorem nop (f : FR) : Statement (.nop f) := by
  intro h w hw
  obtain rfl := Option.some.inj hw
  exact decode_rawFR (mk := .nop) h rfl rfl (wf_min (i := .nop f) h)

theorem add (f : FR) : Statement (.add f) := by
  intro h w hw
  obtain rfl := Option.some.inj hw
  exact decode_rawFR (mk := .add) h rfl rfl (wf_min (i := .add f) h)

theorem sub (f : FR) : Statement (.sub f) := by
  intro h w hw
  obtain rfl := Option.some.inj hw
  exact decode_rawFR (mk := .sub) h rfl rfl (wf_min (i := .sub f) h)

theorem mul (f : FR) : Statement (.mul f) := by
  intro h w hw
  obtain rfl := Option.some.inj hw
  exact decode_rawFR (mk := .mul) h rfl rfl (wf_min (i := .mul f) h)

theorem mulh (f : FR) : Statement (.mulh f) := by
  intro h w hw
  obtain rfl := Option.some.inj hw
  exact decode_rawFR (mk := .mulh) h rfl rfl (wf_min (i := .mulh f) h)

theorem div (f : FR) : Statement (.div f) := by
  intro h w hw
  obtain rfl := Option.some.inj hw
  exact decode_rawFR (mk := .div) h rfl rfl (wf_min (i := .div f) h)

theorem rem (f : FR) : Statement (.rem f) := by
  intro h w hw
  obtain rfl := Option.some.inj hw
  exact decode_rawFR (mk := .rem) h rfl rfl (wf_min (i := .rem f) h)

theorem min (f : FR) : Statement (.min f) := by
  intro h w hw
  obtain rfl := Option.some.inj hw
  exact decode_rawFR (mk := .min) h rfl rfl (wf_min (i := .min f) h)

theorem max (f : FR) : Statement (.max f) := by
  intro h w hw
  obtain rfl := Option.some.inj hw
  exact decode_rawFR (mk := .max) h rfl rfl (wf_min (i := .max f) h)

theorem and (f : FR) : Statement (.and f) := by
  intro h w hw
  obtain rfl := Option.some.inj hw
  exact decode_rawFR (mk := .and) h rfl rfl (wf_min (i := .and f) h)

theorem or (f : FR) : Statement (.or f) := by
  intro h w hw
  obtain rfl := Option.some.inj hw
  exact decode_rawFR (mk := .or) h rfl rfl (wf_min (i := .or f) h)

theorem xor (f : FR) : Statement (.xor f) := by
  intro h w hw
  obtain rfl := Option.some.inj hw
  exact decode_rawFR (mk := .xor) h rfl rfl (wf_min (i := .xor f) h)

theorem andn (f : FR) : Statement (.andn f) := by
  intro h w hw
  obtain rfl := Option.some.inj hw
  exact decode_rawFR (mk := .andn) h rfl rfl (wf_min (i := .andn f) h)

theorem shl (f : FR) : Statement (.shl f) := by
  intro h w hw
  obtain rfl := Option.some.inj hw
  exact decode_rawFR (mk := .shl) h rfl rfl (wf_min (i := .shl f) h)

theorem shrl (f : FR) : Statement (.shrl f) := by
  intro h w hw
  obtain rfl := Option.some.inj hw
  exact decode_rawFR (mk := .shrl) h rfl rfl (wf_min (i := .shrl f) h)

theorem shra (f : FR) : Statement (.shra f) := by
  intro h w hw
  obtain rfl := Option.some.inj hw
  exact decode_rawFR (mk := .shra) h rfl rfl (wf_min (i := .shra f) h)

theorem rot (f : FR) : Statement (.rot f) := by
  intro h w hw
  obtain rfl := Option.some.inj hw
  exact decode_rawFR (mk := .rot) h rfl rfl (wf_min (i := .rot f) h)

theorem clz (f : FR) : Statement (.clz f) := by
  intro h w hw
  obtain rfl := Option.some.inj hw
  exact decode_rawFR (mk := .clz) h rfl rfl (wf_min (i := .clz f) h)

theorem popc (f : FR) : Statement (.popc f) := by
  intro h w hw
  obtain rfl := Option.some.inj hw
  exact decode_rawFR (mk := .popc) h rfl rfl (wf_min (i := .popc f) h)

theorem bfx (f : FR) : Statement (.bfx f) := by
  intro h w hw
  obtain rfl := Option.some.inj hw
  exact decode_rawFR (mk := .bfx) h rfl rfl (wf_min (i := .bfx f) h)

theorem bfi (f : FR) : Statement (.bfi f) := by
  intro h w hw
  obtain rfl := Option.some.inj hw
  exact decode_rawFR (mk := .bfi) h rfl rfl (wf_min (i := .bfi f) h)

theorem sel (f : FR) : Statement (.sel f) := by
  intro h w hw
  obtain rfl := Option.some.inj hw
  exact decode_rawFR (mk := .sel) h rfl rfl (wf_min (i := .sel f) h)

theorem mov (f : FR) : Statement (.mov f) := by
  intro h w hw
  obtain rfl := Option.some.inj hw
  exact decode_rawFR (mk := .mov) h rfl rfl (wf_min (i := .mov f) h)

theorem li (f : FI) : Statement (.li f) := by
  intro h w hw
  obtain rfl := Option.some.inj hw
  exact decode_rawFI (mk := .li) h rfl rfl (wf_min (i := .li f) h)

theorem lih (f : FI) : Statement (.lih f) := by
  intro h w hw
  obtain rfl := Option.some.inj hw
  exact decode_rawFI (mk := .lih) h rfl rfl (wf_min (i := .lih f) h)

theorem abs (f : FR) : Statement (.abs f) := by
  intro h w hw
  obtain rfl := Option.some.inj hw
  exact decode_rawFR (mk := .abs) h rfl rfl (wf_min (i := .abs f) h)

theorem mad (f : FR) : Statement (.mad f) := by
  intro h w hw
  obtain rfl := Option.some.inj hw
  exact decode_rawFR (mk := .mad) h rfl rfl (wf_min (i := .mad f) h)

theorem cmp (f : FR) : Statement (.cmp f) := by
  intro h w hw
  obtain rfl := Option.some.inj hw
  exact decode_rawFR (mk := .cmp) h rfl rfl (wf_min (i := .cmp f) h)

theorem fcmp (f : FR) : Statement (.fcmp f) := by
  intro h w hw
  obtain rfl := Option.some.inj hw
  exact decode_rawFR (mk := .fcmp) h rfl rfl (wf_min (i := .fcmp f) h)

theorem tstb (f : FR) : Statement (.tstb f) := by
  intro h w hw
  obtain rfl := Option.some.inj hw
  exact decode_rawFR (mk := .tstb) h rfl rfl (wf_min (i := .tstb f) h)

theorem br (f : FB) : Statement (.br f) := by
  intro h w hw
  obtain rfl := Option.some.inj hw
  exact decode_rawFB (mk := .br) h rfl rfl (wf_min (i := .br f) h)

theorem bri (f : FB) : Statement (.bri f) := by
  intro h w hw
  obtain rfl := Option.some.inj hw
  exact decode_rawFB (mk := .bri) h rfl rfl (wf_min (i := .bri f) h)

theorem call (f : FB) : Statement (.call f) := by
  intro h w hw
  obtain rfl := Option.some.inj hw
  exact decode_rawFB (mk := .call) h rfl rfl (wf_min (i := .call f) h)

theorem calli (f : FB) : Statement (.calli f) := by
  intro h w hw
  obtain rfl := Option.some.inj hw
  exact decode_rawFB (mk := .calli) h rfl rfl (wf_min (i := .calli f) h)

theorem ret (f : FB) : Statement (.ret f) := by
  intro h w hw
  obtain rfl := Option.some.inj hw
  exact decode_rawFB (mk := .ret) h rfl rfl (wf_min (i := .ret f) h)

theorem loop (f : FB) : Statement (.loop f) := by
  intro h w hw
  obtain rfl := Option.some.inj hw
  exact decode_rawFB (mk := .loop) h rfl rfl (wf_min (i := .loop f) h)

theorem exit (f : FS) : Statement (.exit f) := by
  intro h w hw
  obtain rfl := Option.some.inj hw
  exact decode_rawFS (mk := .exit) h rfl rfl (wf_min (i := .exit f) h)

theorem exitCompletion (x : CtxId) : Statement (.exitCompletion x) := by
  intro _ w hw
  cases hw

theorem yield (f : FS) : Statement (.yield f) := by
  intro h w hw
  obtain rfl := Option.some.inj hw
  exact decode_rawFS (mk := .yield) h rfl rfl (wf_min (i := .yield f) h)

theorem trap (f : FS) : Statement (.trap f) := by
  intro h w hw
  obtain rfl := Option.some.inj hw
  exact decode_rawFS (mk := .trap) h rfl rfl (wf_min (i := .trap f) h)

theorem fadd (f : FR) : Statement (.fadd f) := by
  intro h w hw
  obtain rfl := Option.some.inj hw
  exact decode_rawFR (mk := .fadd) h rfl rfl (wf_min (i := .fadd f) h)

theorem fsub (f : FR) : Statement (.fsub f) := by
  intro h w hw
  obtain rfl := Option.some.inj hw
  exact decode_rawFR (mk := .fsub) h rfl rfl (wf_min (i := .fsub f) h)

theorem fmul (f : FR) : Statement (.fmul f) := by
  intro h w hw
  obtain rfl := Option.some.inj hw
  exact decode_rawFR (mk := .fmul) h rfl rfl (wf_min (i := .fmul f) h)

theorem fma (f : FR) : Statement (.fma f) := by
  intro h w hw
  obtain rfl := Option.some.inj hw
  exact decode_rawFR (mk := .fma) h rfl rfl (wf_min (i := .fma f) h)

theorem fmin (f : FR) : Statement (.fmin f) := by
  intro h w hw
  obtain rfl := Option.some.inj hw
  exact decode_rawFR (mk := .fmin) h rfl rfl (wf_min (i := .fmin f) h)

theorem fmax (f : FR) : Statement (.fmax f) := by
  intro h w hw
  obtain rfl := Option.some.inj hw
  exact decode_rawFR (mk := .fmax) h rfl rfl (wf_min (i := .fmax f) h)

theorem frcp (f : FR) : Statement (.frcp f) := by
  intro h w hw
  obtain rfl := Option.some.inj hw
  exact decode_rawFR (mk := .frcp) h rfl rfl (wf_min (i := .frcp f) h)

theorem frsq (f : FR) : Statement (.frsq f) := by
  intro h w hw
  obtain rfl := Option.some.inj hw
  exact decode_rawFR (mk := .frsq) h rfl rfl (wf_min (i := .frsq f) h)

theorem fex2 (f : FR) : Statement (.fex2 f) := by
  intro h w hw
  obtain rfl := Option.some.inj hw
  exact decode_rawFR (mk := .fex2) h rfl rfl (wf_min (i := .fex2 f) h)

theorem flg2 (f : FR) : Statement (.flg2 f) := by
  intro h w hw
  obtain rfl := Option.some.inj hw
  exact decode_rawFR (mk := .flg2) h rfl rfl (wf_min (i := .flg2 f) h)

theorem fsqt (f : FR) : Statement (.fsqt f) := by
  intro h w hw
  obtain rfl := Option.some.inj hw
  exact decode_rawFR (mk := .fsqt) h rfl rfl (wf_min (i := .fsqt f) h)

theorem fdot (f : FR) : Statement (.fdot f) := by
  intro h w hw
  obtain rfl := Option.some.inj hw
  exact decode_rawFR (mk := .fdot) h rfl rfl (wf_min (i := .fdot f) h)

theorem shuf (f : FR) : Statement (.shuf f) := by
  intro h w hw
  obtain rfl := Option.some.inj hw
  exact decode_rawFR (mk := .shuf) h rfl rfl (wf_min (i := .shuf f) h)

theorem bcst (f : FR) : Statement (.bcst f) := by
  intro h w hw
  obtain rfl := Option.some.inj hw
  exact decode_rawFR (mk := .bcst) h rfl rfl (wf_min (i := .bcst f) h)

theorem redl (f : FR) : Statement (.redl f) := by
  intro h w hw
  obtain rfl := Option.some.inj hw
  exact decode_rawFR (mk := .redl) h rfl rfl (wf_min (i := .redl f) h)

theorem extl (f : FR) : Statement (.extl f) := by
  intro h w hw
  obtain rfl := Option.some.inj hw
  exact decode_rawFR (mk := .extl) h rfl rfl (wf_min (i := .extl f) h)

theorem insl (f : FR) : Statement (.insl f) := by
  intro h w hw
  obtain rfl := Option.some.inj hw
  exact decode_rawFR (mk := .insl) h rfl rfl (wf_min (i := .insl f) h)

theorem mlog (f : FR) : Statement (.mlog f) := by
  intro h w hw
  obtain rfl := Option.some.inj hw
  exact decode_rawFR (mk := .mlog) h rfl rfl (wf_min (i := .mlog f) h)

theorem mpop (f : FR) : Statement (.mpop f) := by
  intro h w hw
  obtain rfl := Option.some.inj hw
  exact decode_rawFR (mk := .mpop) h rfl rfl (wf_min (i := .mpop f) h)

theorem mmov (f : FR) : Statement (.mmov f) := by
  intro h w hw
  obtain rfl := Option.some.inj hw
  exact decode_rawFR (mk := .mmov) h rfl rfl (wf_min (i := .mmov f) h)

theorem cvt (f : FR) : Statement (.cvt f) := by
  intro h w hw
  obtain rfl := Option.some.inj hw
  exact decode_rawFR (mk := .cvt) h rfl rfl (wf_min (i := .cvt f) h)

theorem pack (f : FR) : Statement (.pack f) := by
  intro h w hw
  obtain rfl := Option.some.inj hw
  exact decode_rawFR (mk := .pack) h rfl rfl (wf_min (i := .pack f) h)

theorem unpk (f : FR) : Statement (.unpk f) := by
  intro h w hw
  obtain rfl := Option.some.inj hw
  exact decode_rawFR (mk := .unpk) h rfl rfl (wf_min (i := .unpk f) h)

theorem qnt (f : FR) : Statement (.qnt f) := by
  intro h w hw
  obtain rfl := Option.some.inj hw
  exact decode_rawFR (mk := .qnt) h rfl rfl (wf_min (i := .qnt f) h)

theorem dqnt (f : FR) : Statement (.dqnt f) := by
  intro h w hw
  obtain rfl := Option.some.inj hw
  exact decode_rawFR (mk := .dqnt) h rfl rfl (wf_min (i := .dqnt f) h)

theorem sclx (f : FR) : Statement (.sclx f) := by
  intro h w hw
  obtain rfl := Option.some.inj hw
  exact decode_rawFR (mk := .sclx) h rfl rfl (wf_min (i := .sclx f) h)

theorem ld (f : FM) : Statement (.ld f) := by
  intro h w hw
  obtain rfl := Option.some.inj hw
  exact decode_rawFM (mk := .ld) h rfl rfl (wf_min (i := .ld f) h)

theorem st (f : FM) : Statement (.st f) := by
  intro h w hw
  obtain rfl := Option.some.inj hw
  exact decode_rawFM (mk := .st) h rfl rfl (wf_min (i := .st f) h)

theorem gth (f : FM) : Statement (.gth f) := by
  intro h w hw
  obtain rfl := Option.some.inj hw
  exact decode_rawFM (mk := .gth) h rfl rfl (wf_min (i := .gth f) h)

theorem sct (f : FM) : Statement (.sct f) := by
  intro h w hw
  obtain rfl := Option.some.inj hw
  exact decode_rawFM (mk := .sct) h rfl rfl (wf_min (i := .sct f) h)

theorem ldfe (f : FM) : Statement (.ldfe f) := by
  intro h w hw
  obtain rfl := Option.some.inj hw
  exact decode_rawFM (mk := .ldfe) h rfl rfl (wf_min (i := .ldfe f) h)

theorem ldfc (f : FM) : Statement (.ldfc f) := by
  intro h w hw
  obtain rfl := Option.some.inj hw
  exact decode_rawFM (mk := .ldfc) h rfl rfl (wf_min (i := .ldfc f) h)

theorem stfl (f : FM) : Statement (.stfl f) := by
  intro h w hw
  obtain rfl := Option.some.inj hw
  exact decode_rawFM (mk := .stfl) h rfl rfl (wf_min (i := .stfl f) h)

theorem empt (f : FM) : Statement (.empt f) := by
  intro h w hw
  obtain rfl := Option.some.inj hw
  exact decode_rawFM (mk := .empt) h rfl rfl (wf_min (i := .empt f) h)

theorem stmap (f : FM) : Statement (.stmap f) := by
  intro h w hw
  obtain rfl := Option.some.inj hw
  exact decode_rawFM (mk := .stmap) h rfl rfl (wf_min (i := .stmap f) h)

theorem stunmap (f : FM) : Statement (.stunmap f) := by
  intro h w hw
  obtain rfl := Option.some.inj hw
  exact decode_rawFM (mk := .stunmap) h rfl rfl (wf_min (i := .stunmap f) h)

theorem stag (f : FM) : Statement (.stag f) := by
  intro h w hw
  obtain rfl := Option.some.inj hw
  exact decode_rawFM (mk := .stag) h rfl rfl (wf_min (i := .stag f) h)

theorem ldt (f : FM) : Statement (.ldt f) := by
  intro h w hw
  obtain rfl := Option.some.inj hw
  exact decode_rawFM (mk := .ldt) h rfl rfl (wf_min (i := .ldt f) h)

theorem pfr (f : FM) : Statement (.pfr f) := by
  intro h w hw
  obtain rfl := Option.some.inj hw
  exact decode_rawFM (mk := .pfr) h rfl rfl (wf_min (i := .pfr f) h)

theorem prefetchCompletion (n : Nat) : Statement (.prefetchCompletion n) := by
  intro _ w hw
  cases hw

theorem wbk (f : FM) : Statement (.wbk f) := by
  intro h w hw
  obtain rfl := Option.some.inj hw
  exact decode_rawFM (mk := .wbk) h rfl rfl (wf_min (i := .wbk f) h)

theorem inv (f : FM) : Statement (.inv f) := by
  intro h w hw
  obtain rfl := Option.some.inj hw
  exact decode_rawFM (mk := .inv) h rfl rfl (wf_min (i := .inv f) h)

theorem fence (f : FS) : Statement (.fence f) := by
  intro h w hw
  obtain rfl := Option.some.inj hw
  have hm := wf_min h
  simp only [minOk, beq_iff_eq] at hm
  exact decode_rawFS (mk := .fence) h (by rw [hm]; rfl) rfl (by rw [hm]; rfl)

theorem fenceCode (f : FS) : Statement (.fenceCode f) := by
  intro h w hw
  obtain rfl := Option.some.inj hw
  have hm := wf_min h
  simp only [minOk, beq_iff_eq] at hm
  exact decode_rawFS (mk := .fenceCode) h (by rw [hm]; rfl) rfl (by rw [hm]; rfl)

theorem fenceEng (f : FS) : Statement (.fenceEng f) := by
  intro h w hw
  obtain rfl := Option.some.inj hw
  have hm := wf_min h
  simp only [minOk, beq_iff_eq] at hm
  exact decode_rawFS (mk := .fenceEng) h (by rw [hm]; rfl) rfl (by rw [hm]; rfl)

theorem atom (f : FM) : Statement (.atom f) := by
  intro h w hw
  obtain rfl := Option.some.inj hw
  exact decode_rawFM (mk := .atom) h rfl rfl (wf_min (i := .atom f) h)

theorem red (f : FM) : Statement (.red f) := by
  intro h w hw
  obtain rfl := Option.some.inj hw
  exact decode_rawFM (mk := .red) h rfl rfl (wf_min (i := .red f) h)

theorem seedPerform (n : Nat) : Statement (.seedPerform n) := by
  intro _ w hw
  cases hw

theorem migr (f : FR) : Statement (.migr f) := by
  intro h w hw
  obtain rfl := Option.some.inj hw
  exact decode_rawFR (mk := .migr) h rfl rfl (wf_min (i := .migr f) h)

theorem home (f : FR) : Statement (.home f) := by
  intro h w hw
  obtain rfl := Option.some.inj hw
  exact decode_rawFR (mk := .home) h rfl rfl (wf_min (i := .home f) h)

theorem spawn (f : FR) : Statement (.spawn f) := by
  intro h w hw
  obtain rfl := Option.some.inj hw
  exact decode_rawFR (mk := .spawn) h rfl rfl (wf_min (i := .spawn f) h)

theorem spawnat (f : FR) : Statement (.spawnat f) := by
  intro h w hw
  obtain rfl := Option.some.inj hw
  exact decode_rawFR (mk := .spawnat) h rfl rfl (wf_min (i := .spawnat f) h)

theorem join (f : FR) : Statement (.join f) := by
  intro h w hw
  obtain rfl := Option.some.inj hw
  exact decode_rawFR (mk := .join) h rfl rfl (wf_min (i := .join f) h)

theorem nwr (f : FR) : Statement (.nwr f) := by
  intro h w hw
  obtain rfl := Option.some.inj hw
  exact decode_rawFR (mk := .nwr) h rfl rfl (wf_min (i := .nwr f) h)

theorem arm (f : FR) : Statement (.arm f) := by
  intro h w hw
  obtain rfl := Option.some.inj hw
  exact decode_rawFR (mk := .arm) h rfl rfl (wf_min (i := .arm f) h)

theorem obl (f : FR) : Statement (.obl f) := by
  intro h w hw
  obtain rfl := Option.some.inj hw
  exact decode_rawFR (mk := .obl) h rfl rfl (wf_min (i := .obl f) h)

theorem xfer (f : FR) : Statement (.xfer f) := by
  intro h w hw
  obtain rfl := Option.some.inj hw
  exact decode_rawFR (mk := .xfer) h rfl rfl (wf_min (i := .xfer f) h)

theorem poison (f : FR) : Statement (.poison f) := by
  intro h w hw
  obtain rfl := Option.some.inj hw
  exact decode_rawFR (mk := .poison) h rfl rfl (wf_min (i := .poison f) h)

theorem obq (f : FR) : Statement (.obq f) := by
  intro h w hw
  obtain rfl := Option.some.inj hw
  exact decode_rawFR (mk := .obq) h rfl rfl (wf_min (i := .obq f) h)

theorem rksplit (f : FR) : Statement (.rksplit f) := by
  intro h w hw
  obtain rfl := Option.some.inj hw
  exact decode_rawFR (mk := .rksplit) h rfl rfl (wf_min (i := .rksplit f) h)

theorem bnew (f : FR) : Statement (.bnew f) := by
  intro h w hw
  obtain rfl := Option.some.inj hw
  exact decode_rawFR (mk := .bnew) h rfl rfl (wf_min (i := .bnew f) h)

theorem bjoin (f : FR) : Statement (.bjoin f) := by
  intro h w hw
  obtain rfl := Option.some.inj hw
  exact decode_rawFR (mk := .bjoin) h rfl rfl (wf_min (i := .bjoin f) h)

theorem barv (f : FR) : Statement (.barv f) := by
  intro h w hw
  obtain rfl := Option.some.inj hw
  exact decode_rawFR (mk := .barv) h rfl rfl (wf_min (i := .barv f) h)

theorem bwait (f : FR) : Statement (.bwait f) := by
  intro h w hw
  obtain rfl := Option.some.inj hw
  exact decode_rawFR (mk := .bwait) h rfl rfl (wf_min (i := .bwait f) h)

theorem bleave (f : FR) : Statement (.bleave f) := by
  intro h w hw
  obtain rfl := Option.some.inj hw
  exact decode_rawFR (mk := .bleave) h rfl rfl (wf_min (i := .bleave f) h)

theorem bdel (f : FR) : Statement (.bdel f) := by
  intro h w hw
  obtain rfl := Option.some.inj hw
  exact decode_rawFR (mk := .bdel) h rfl rfl (wf_min (i := .bdel f) h)

theorem gsig (f : FR) : Statement (.gsig f) := by
  intro h w hw
  obtain rfl := Option.some.inj hw
  exact decode_rawFR (mk := .gsig) h rfl rfl (wf_min (i := .gsig f) h)

theorem gwait (f : FR) : Statement (.gwait f) := by
  intro h w hw
  obtain rfl := Option.some.inj hw
  exact decode_rawFR (mk := .gwait) h rfl rfl (wf_min (i := .gwait f) h)

theorem gqry (f : FR) : Statement (.gqry f) := by
  intro h w hw
  obtain rfl := Option.some.inj hw
  exact decode_rawFR (mk := .gqry) h rfl rfl (wf_min (i := .gqry f) h)

theorem gmakeCreate (f : FS) : Statement (.gmakeCreate f) := by
  intro h w hw
  obtain rfl := Option.some.inj hw
  have hm := wf_min h
  simp only [minOk, beq_iff_eq] at hm
  have hf := wf_fields h
  simp only [fieldsOk, wfFS, Bool.and_eq_true, Bool.or_eq_true, beq_iff_eq] at hf
  have e0 : f.imm = 0 ∨ f.imm = 256 := by
    rcases hf.1.2 with h0 | h0
    · exact .inl (BitVec.eq_of_toNat_eq h0)
    · exact .inr (BitVec.eq_of_toNat_eq h0)
  exact decode_rawFS (mk := gmakeRow) h (by rw [hm]; rfl) (by rcases e0 with h0 | h0 <;> simp [gmakeRow, h0]) (by rw [hm]; rfl)

theorem gmakeRevoke (f : FS) : Statement (.gmakeRevoke f) := by
  intro h w hw
  obtain rfl := Option.some.inj hw
  have hm := wf_min h
  simp only [minOk, beq_iff_eq] at hm
  have hf := wf_fields h
  simp only [fieldsOk, wfFS, immIs, Bool.and_eq_true, beq_iff_eq] at hf
  have e0 : f.imm = 1 := BitVec.eq_of_toNat_eq hf.2
  exact decode_rawFS (mk := gmakeRow) h (by rw [hm]; rfl) (by simp [gmakeRow, e0]) (by rw [hm]; rfl)

theorem gmakeSetacl (f : FS) : Statement (.gmakeSetacl f) := by
  intro h w hw
  obtain rfl := Option.some.inj hw
  have hm := wf_min h
  simp only [minOk, beq_iff_eq] at hm
  have hf := wf_fields h
  simp only [fieldsOk, wfFS, immIs, Bool.and_eq_true, beq_iff_eq] at hf
  have e0 : f.imm = 2 := BitVec.eq_of_toNat_eq hf.2
  exact decode_rawFS (mk := gmakeRow) h (by rw [hm]; rfl) (by simp [gmakeRow, e0]) (by rw [hm]; rfl)

theorem gmakeFreeze (f : FS) : Statement (.gmakeFreeze f) := by
  intro h w hw
  obtain rfl := Option.some.inj hw
  have hm := wf_min h
  simp only [minOk, beq_iff_eq] at hm
  have hf := wf_fields h
  simp only [fieldsOk, wfFS, immIs, Bool.and_eq_true, beq_iff_eq] at hf
  have e0 : f.imm = 3 := BitVec.eq_of_toNat_eq hf.2
  exact decode_rawFS (mk := gmakeRow) h (by rw [hm]; rfl) (by simp [gmakeRow, e0]) (by rw [hm]; rfl)

theorem gmakeThaw (f : FS) : Statement (.gmakeThaw f) := by
  intro h w hw
  obtain rfl := Option.some.inj hw
  have hm := wf_min h
  simp only [minOk, beq_iff_eq] at hm
  have hf := wf_fields h
  simp only [fieldsOk, wfFS, immIs, Bool.and_eq_true, beq_iff_eq] at hf
  have e0 : f.imm = 4 := BitVec.eq_of_toNat_eq hf.2
  exact decode_rawFS (mk := gmakeRow) h (by rw [hm]; rfl) (by simp [gmakeRow, e0]) (by rw [hm]; rfl)

theorem gmakeRead (f : FS) : Statement (.gmakeRead f) := by
  intro h w hw
  obtain rfl := Option.some.inj hw
  have hm := wf_min h
  simp only [minOk, beq_iff_eq] at hm
  have hf := wf_fields h
  simp only [fieldsOk, wfFS, immIs, Bool.and_eq_true, beq_iff_eq] at hf
  have e0 : f.imm = 5 := BitVec.eq_of_toNat_eq hf.2
  exact decode_rawFS (mk := gmakeRow) h (by rw [hm]; rfl) (by simp [gmakeRow, e0]) (by rw [hm]; rfl)

theorem cpy (f : FE) : Statement (.cpy f) := by
  intro h w hw
  obtain rfl := Option.some.inj hw
  exact decode_rawFE (mk := .cpy) h rfl rfl (wf_min (i := .cpy f) h)

theorem mma (f : FE) : Statement (.mma f) := by
  intro h w hw
  obtain rfl := Option.some.inj hw
  exact decode_rawFE (mk := .mma) h rfl rfl (wf_min (i := .mma f) h)

theorem mdrn (f : FE) : Statement (.mdrn f) := by
  intro h w hw
  obtain rfl := Option.some.inj hw
  exact decode_rawFE (mk := .mdrn) h rfl rfl (wf_min (i := .mdrn f) h)

theorem mzro (f : FE) : Statement (.mzro f) := by
  intro h w hw
  obtain rfl := Option.some.inj hw
  exact decode_rawFE (mk := .mzro) h rfl rfl (wf_min (i := .mzro f) h)

theorem jobc (f : FE) : Statement (.jobc f) := by
  intro h w hw
  obtain rfl := Option.some.inj hw
  exact decode_rawFE (mk := .jobc) h rfl rfl (wf_min (i := .jobc f) h)

theorem tidw (f : FE) : Statement (.tidw f) := by
  intro h w hw
  obtain rfl := Option.some.inj hw
  have hm := wf_min h
  simp only [minOk, beq_iff_eq] at hm
  exact decode_rawFE (mk := .tidw) h (by rw [hm]; rfl) rfl (by rw [hm]; rfl)

theorem tidr (f : FE) : Statement (.tidr f) := by
  intro h w hw
  obtain rfl := Option.some.inj hw
  have hm := wf_min h
  simp only [minOk, beq_iff_eq] at hm
  exact decode_rawFE (mk := .tidr) h (by rw [hm]; rfl) rfl (by rw [hm]; rfl)

theorem tidinv (f : FE) : Statement (.tidinv f) := by
  intro h w hw
  obtain rfl := Option.some.inj hw
  have hm := wf_min h
  simp only [minOk, beq_iff_eq] at hm
  exact decode_rawFE (mk := .tidinv) h (by rw [hm]; rfl) rfl (by rw [hm]; rfl)

theorem qsub (f : FR) : Statement (.qsub f) := by
  intro h w hw
  obtain rfl := Option.some.inj hw
  have hm := wf_min h
  simp only [minOk, beq_iff_eq] at hm
  exact decode_rawFR (mk := .qsub) h (by rw [hm]; rfl) rfl (by rw [hm]; rfl)

theorem launch (f : FR) : Statement (.launch f) := by
  intro h w hw
  obtain rfl := Option.some.inj hw
  have hm := wf_min h
  simp only [minOk, beq_iff_eq] at hm
  exact decode_rawFR (mk := .launch) h (by rw [hm]; rfl) rfl (by rw [hm]; rfl)

theorem cntw (f : FR) : Statement (.cntw f) := by
  intro h w hw
  obtain rfl := Option.some.inj hw
  have hm := wf_min h
  simp only [minOk, beq_iff_eq] at hm
  exact decode_rawFR (mk := .cntw) h (by rw [hm]; rfl) rfl (by rw [hm]; rfl)

theorem cncl (f : FR) : Statement (.cncl f) := by
  intro h w hw
  obtain rfl := Option.some.inj hw
  have hm := wf_min h
  simp only [minOk, beq_iff_eq] at hm
  exact decode_rawFR (mk := .cncl) h (by rw [hm]; rfl) rfl (by rw [hm]; rfl)

theorem kswap (f : FR) : Statement (.kswap f) := by
  intro h w hw
  obtain rfl := Option.some.inj hw
  have hm := wf_min h
  simp only [minOk, beq_iff_eq] at hm
  exact decode_rawFR (mk := .kswap) h (by rw [hm]; rfl) rfl (by rw [hm]; rfl)

theorem gred (f : FR) : Statement (.gred f) := by
  intro h w hw
  obtain rfl := Option.some.inj hw
  have hm := wf_min h
  simp only [minOk, beq_iff_eq] at hm
  exact decode_rawFR (mk := .gred) h (by rw [hm]; rfl) rfl (by rw [hm]; rfl)

theorem gbc (f : FR) : Statement (.gbc f) := by
  intro h w hw
  obtain rfl := Option.some.inj hw
  have hm := wf_min h
  simp only [minOk, beq_iff_eq] at hm
  exact decode_rawFR (mk := .gbc) h (by rw [hm]; rfl) rfl (by rw [hm]; rfl)

theorem gag (f : FR) : Statement (.gag f) := by
  intro h w hw
  obtain rfl := Option.some.inj hw
  have hm := wf_min h
  simp only [minOk, beq_iff_eq] at hm
  exact decode_rawFR (mk := .gag) h (by rw [hm]; rfl) rfl (by rw [hm]; rfl)

theorem gtbl (f : FR) : Statement (.gtbl f) := by
  intro h w hw
  obtain rfl := Option.some.inj hw
  have hm := wf_min h
  simp only [minOk, beq_iff_eq] at hm
  have hf := wf_fields h
  simp only [fieldsOk, wfR79, Bool.and_eq_true, beq_iff_eq] at hf
  exact decode_rawFR (mk := gtblRow) h (by rw [hm]; rfl) (by simp [gtblRow, hf.1]) (by rw [hm]; rfl)

theorem gtblW (f : FR) : Statement (.gtblW f) := by
  intro h w hw
  obtain rfl := Option.some.inj hw
  have hm := wf_min h
  simp only [minOk, beq_iff_eq] at hm
  have hf := wf_fields h
  simp only [fieldsOk, wfR79, Bool.and_eq_true, beq_iff_eq] at hf
  exact decode_rawFR (mk := gtblRow) h (by rw [hm]; rfl) (by simp [gtblRow, hf.1]) (by rw [hm]; rfl)

theorem svc (f : FS) : Statement (.svc f) := by
  intro h w hw
  obtain rfl := Option.some.inj hw
  have hm := wf_min h
  simp only [minOk, beq_iff_eq] at hm
  exact decode_rawFS (mk := .svc) h (by rw [hm]; rfl) rfl (by rw [hm]; rfl)

theorem hvc (f : FS) : Statement (.hvc f) := by
  intro h w hw
  obtain rfl := Option.some.inj hw
  have hm := wf_min h
  simp only [minOk, beq_iff_eq] at hm
  exact decode_rawFS (mk := .hvc) h (by rw [hm]; rfl) rfl (by rw [hm]; rfl)

theorem eret (f : FS) : Statement (.eret f) := by
  intro h w hw
  obtain rfl := Option.some.inj hw
  have hm := wf_min h
  simp only [minOk, beq_iff_eq] at hm
  exact decode_rawFS (mk := .eret) h (by rw [hm]; rfl) rfl (by rw [hm]; rfl)

theorem sysr (f : FS) : Statement (.sysr f) := by
  intro h w hw
  obtain rfl := Option.some.inj hw
  have hm := wf_min h
  simp only [minOk, beq_iff_eq] at hm
  exact decode_rawFS (mk := .sysr) h (by rw [hm]; rfl) rfl (by rw [hm]; rfl)

theorem sysw (f : FS) : Statement (.sysw f) := by
  intro h w hw
  obtain rfl := Option.some.inj hw
  have hm := wf_min h
  simp only [minOk, beq_iff_eq] at hm
  have hf := wf_fields h
  simp only [fieldsOk, wfFS, Bool.and_eq_true, bne_iff_ne, ne_eq] at hf
  obtain ⟨⟨hf0, hf1⟩, hf2⟩ := hf.2
  have e0 : f.imm ≠ 0 := fun e => hf0 (by rw [e]; rfl)
  have e1 : f.imm ≠ 0x11 := fun e => hf1 (by rw [e]; rfl)
  have e2 : f.imm ≠ 0x35 := fun e => hf2 (by rw [e]; rfl)
  exact decode_rawFS (mk := syswRow) h (by rw [hm]; rfl) (by unfold syswRow; rw [if_neg e0, if_neg e1, if_neg e2]) (by rw [hm]; rfl)

theorem syswStatus (f : FS) : Statement (.syswStatus f) := by
  intro h w hw
  obtain rfl := Option.some.inj hw
  have hm := wf_min h
  simp only [minOk, beq_iff_eq] at hm
  have hf := wf_fields h
  simp only [fieldsOk, wfFS, immIs, Bool.and_eq_true, beq_iff_eq] at hf
  have e0 : f.imm = 0 := BitVec.eq_of_toNat_eq hf.2
  exact decode_rawFS (mk := syswRow) h (by rw [hm]; rfl) (by simp [syswRow, e0]) (by rw [hm]; rfl)

theorem syswLfsr (f : FS) : Statement (.syswLfsr f) := by
  intro h w hw
  obtain rfl := Option.some.inj hw
  have hm := wf_min h
  simp only [minOk, beq_iff_eq] at hm
  have hf := wf_fields h
  simp only [fieldsOk, wfFS, immIs, Bool.and_eq_true, beq_iff_eq] at hf
  have e0 : f.imm = 17 := BitVec.eq_of_toNat_eq hf.2
  exact decode_rawFS (mk := syswRow) h (by rw [hm]; rfl) (by simp [syswRow, e0]) (by rw [hm]; rfl)

theorem syswWmask (f : FS) : Statement (.syswWmask f) := by
  intro h w hw
  obtain rfl := Option.some.inj hw
  have hm := wf_min h
  simp only [minOk, beq_iff_eq] at hm
  have hf := wf_fields h
  simp only [fieldsOk, wfFS, immIs, Bool.and_eq_true, beq_iff_eq] at hf
  have e0 : f.imm = 53 := BitVec.eq_of_toNat_eq hf.2
  exact decode_rawFS (mk := syswRow) h (by rw [hm]; rfl) (by simp [syswRow, e0]) (by rw [hm]; rfl)

theorem bkpt (f : FS) : Statement (.bkpt f) := by
  intro h w hw
  obtain rfl := Option.some.inj hw
  have hm := wf_min h
  simp only [minOk, beq_iff_eq] at hm
  exact decode_rawFS (mk := .bkpt) h (by rw [hm]; rfl) rfl (by rw [hm]; rfl)

theorem trmk (f : FS) : Statement (.trmk f) := by
  intro h w hw
  obtain rfl := Option.some.inj hw
  have hm := wf_min h
  simp only [minOk, beq_iff_eq] at hm
  exact decode_rawFS (mk := .trmk) h (by rw [hm]; rfl) rfl (by rw [hm]; rfl)

theorem waiti (f : FS) : Statement (.waiti f) := by
  intro h w hw
  obtain rfl := Option.some.inj hw
  have hm := wf_min h
  simp only [minOk, beq_iff_eq] at hm
  exact decode_rawFS (mk := .waiti) h (by rw [hm]; rfl) rfl (by rw [hm]; rfl)

theorem tlbiPage (f : FS) : Statement (.tlbiPage f) := by
  intro h w hw
  obtain rfl := Option.some.inj hw
  have hm := wf_min h
  simp only [minOk, beq_iff_eq] at hm
  have hf := wf_fields h
  simp only [fieldsOk, wfFS, immIs, Bool.and_eq_true, beq_iff_eq] at hf
  have e0 : f.imm = 0 := BitVec.eq_of_toNat_eq hf.2
  exact decode_rawFS (mk := tlbiRow) h (by rw [hm]; rfl) (by simp [tlbiRow, e0]) (by rw [hm]; rfl)

theorem tlbiAll (f : FS) : Statement (.tlbiAll f) := by
  intro h w hw
  obtain rfl := Option.some.inj hw
  have hm := wf_min h
  simp only [minOk, beq_iff_eq] at hm
  have hf := wf_fields h
  simp only [fieldsOk, wfFS, immIs, Bool.and_eq_true, beq_iff_eq] at hf
  have e0 : f.imm = 1 := BitVec.eq_of_toNat_eq hf.2
  exact decode_rawFS (mk := tlbiRow) h (by rw [hm]; rfl) (by simp [tlbiRow, e0]) (by rw [hm]; rfl)

theorem tlbiPart (f : FS) : Statement (.tlbiPart f) := by
  intro h w hw
  obtain rfl := Option.some.inj hw
  have hm := wf_min h
  simp only [minOk, beq_iff_eq] at hm
  have hf := wf_fields h
  simp only [fieldsOk, wfFS, immIs, Bool.and_eq_true, beq_iff_eq] at hf
  have e0 : f.imm = 2 := BitVec.eq_of_toNat_eq hf.2
  exact decode_rawFS (mk := tlbiRow) h (by rw [hm]; rfl) (by simp [tlbiRow, e0]) (by rw [hm]; rfl)

theorem ckpt (f : FS) : Statement (.ckpt f) := by
  intro h w hw
  obtain rfl := Option.some.inj hw
  have hm := wf_min h
  simp only [minOk, beq_iff_eq] at hm
  exact decode_rawFS (mk := .ckpt) h (by rw [hm]; rfl) rfl (by rw [hm]; rfl)

theorem tbeg (f : FS) : Statement (.tbeg f) := by
  intro h w hw
  obtain rfl := Option.some.inj hw
  have hm := wf_min h
  simp only [minOk, beq_iff_eq] at hm
  exact decode_rawFS (mk := .tbeg) h (by rw [hm]; rfl) rfl (by rw [hm]; rfl)

theorem tcom (f : FS) : Statement (.tcom f) := by
  intro h w hw
  obtain rfl := Option.some.inj hw
  have hm := wf_min h
  simp only [minOk, beq_iff_eq] at hm
  exact decode_rawFS (mk := .tcom) h (by rw [hm]; rfl) rfl (by rw [hm]; rfl)

theorem tabt (f : FS) : Statement (.tabt f) := by
  intro h w hw
  obtain rfl := Option.some.inj hw
  have hm := wf_min h
  simp only [minOk, beq_iff_eq] at hm
  exact decode_rawFS (mk := .tabt) h (by rw [hm]; rfl) rfl (by rw [hm]; rfl)

theorem uiret (f : FS) : Statement (.uiret f) := by
  intro h w hw
  obtain rfl := Option.some.inj hw
  have hm := wf_min h
  simp only [minOk, beq_iff_eq] at hm
  exact decode_rawFS (mk := .uiret) h (by rw [hm]; rfl) rfl (by rw [hm]; rfl)

theorem uimask (f : FS) : Statement (.uimask f) := by
  intro h w hw
  obtain rfl := Option.some.inj hw
  have hm := wf_min h
  simp only [minOk, beq_iff_eq] at hm
  exact decode_rawFS (mk := .uimask) h (by rw [hm]; rfl) rfl (by rw [hm]; rfl)

theorem pgsnap (f : FS) : Statement (.pgsnap f) := by
  intro h w hw
  obtain rfl := Option.some.inj hw
  have hm := wf_min h
  simp only [minOk, beq_iff_eq] at hm
  exact decode_rawFS (mk := .pgsnap) h (by rw [hm]; rfl) rfl (by rw [hm]; rfl)

theorem pgret (f : FS) : Statement (.pgret f) := by
  intro h w hw
  obtain rfl := Option.some.inj hw
  have hm := wf_min h
  simp only [minOk, beq_iff_eq] at hm
  exact decode_rawFS (mk := .pgret) h (by rw [hm]; rfl) rfl (by rw [hm]; rfl)

theorem variableResultLanding (core n : Nat) : Statement (.variableResultLanding core n) := by
  intro _ w hw
  cases hw

theorem fixedResultLanding (core n : Nat) : Statement (.fixedResultLanding core n) := by
  intro _ w hw
  cases hw

theorem dividerResult (core : Nat) : Statement (.dividerResult core) := by
  intro _ w hw
  cases hw

theorem sqrtUnitResult (core : Nat) : Statement (.sqrtUnitResult core) := by
  intro _ w hw
  cases hw

theorem syncWakeReply (x : CtxId) : Statement (.syncWakeReply x) := by
  intro _ w hw
  cases hw

theorem lineRefetch (x : CtxId) : Statement (.lineRefetch x) := by
  intro _ w hw
  cases hw

theorem depositArrival (n : Nat) : Statement (.depositArrival n) := by
  intro _ w hw
  cases hw

theorem migrationArrival (n : Nat) : Statement (.migrationArrival n) := by
  intro _ w hw
  cases hw

theorem migrationRefusal (n : Nat) : Statement (.migrationRefusal n) := by
  intro _ w hw
  cases hw

theorem visitorReturn (x : CtxId) : Statement (.visitorReturn x) := by
  intro _ w hw
  cases hw

theorem xferDelivery (n : Nat) : Statement (.xferDelivery n) := by
  intro _ w hw
  cases hw

theorem heirMerge (n : Nat) : Statement (.heirMerge n) := by
  intro _ w hw
  cases hw

theorem cancelArrival (x : CtxId) : Statement (.cancelArrival x) := by
  intro _ w hw
  cases hw

theorem cancelAcknowledge (n : Nat) : Statement (.cancelAcknowledge n) := by
  intro _ w hw
  cases hw

theorem waitWithdrawal (x : CtxId) : Statement (.waitWithdrawal x) := by
  intro _ w hw
  cases hw

theorem trapEntry (x : CtxId) : Statement (.trapEntry x) := by
  intro _ w hw
  cases hw

theorem asyncEventDelivery (x : CtxId) : Statement (.asyncEventDelivery x) := by
  intro _ w hw
  cases hw

theorem userInterruptDelivery (x : CtxId) : Statement (.userInterruptDelivery x) := by
  intro _ w hw
  cases hw

theorem pageWalk (core : Nat) (p : PartId) (va : VA) (write : Bool) : Statement (.pageWalk core p va write) := by
  intro _ w hw
  cases hw

theorem cowCopy (p : PartId) (va : VA) : Statement (.cowCopy p va) := by
  intro _ w hw
  cases hw

theorem l2WaySweep (site : Nat) : Statement (.l2WaySweep site) := by
  intro _ w hw
  cases hw

theorem dataErrorConsumption (x : CtxId) (err : DataErr) (pa : Nat) : Statement (.dataErrorConsumption x err pa) := by
  intro _ w hw
  cases hw

theorem rollback (p : PartId) (members : List CtxId) : Statement (.rollback p members) := by
  intro _ w hw
  cases hw

theorem checkpointLogRelease (p : PartId) : Statement (.checkpointLogRelease p) := by
  intro _ w hw
  cases hw

theorem bankRebuildComplete (site : Nat) (arr : ArrayKind) (bank : Nat) : Statement (.bankRebuildComplete site arr bank) := by
  intro _ w hw
  cases hw

theorem streamerRequest (core job : Nat) : Statement (.streamerRequest core job) := by
  intro _ w hw
  cases hw

theorem jobStart (core job : Nat) : Statement (.jobStart core job) := by
  intro _ w hw
  cases hw

theorem jobCompletion (core job : Nat) : Statement (.jobCompletion core job) := by
  intro _ w hw
  cases hw

theorem followOnCommand (core job : Nat) : Statement (.followOnCommand core job) := by
  intro _ w hw
  cases hw

theorem mmaCompletion (core : Nat) : Statement (.mmaCompletion core) := by
  intro _ w hw
  cases hw

theorem timedCommandStart (core job : Nat) : Statement (.timedCommandStart core job) := by
  intro _ w hw
  cases hw

theorem timeZeroFix (p : PartId) (gid : Nat) : Statement (.timeZeroFix p gid) := by
  intro _ w hw
  cases hw

theorem timeZeroReached (core : Nat) (p : PartId) (gid : Nat) : Statement (.timeZeroReached core p gid) := by
  intro _ w hw
  cases hw

theorem cmdConfigure (p : PartId) (q : Nat) : Statement (.cmdConfigure p q) := by
  intro _ w hw
  cases hw

theorem cmdSuspend (p : PartId) (q : Nat) : Statement (.cmdSuspend p q) := by
  intro _ w hw
  cases hw

theorem cmdResume (p : PartId) (q : Nat) : Statement (.cmdResume p q) := by
  intro _ w hw
  cases hw

theorem cmdDrain (p : PartId) (q : Nat) : Statement (.cmdDrain p q) := by
  intro _ w hw
  cases hw

theorem cmdReset (p : PartId) (q : Nat) : Statement (.cmdReset p q) := by
  intro _ w hw
  cases hw

theorem cmdRefused (p : PartId) (q : Nat) : Statement (.cmdRefused p q) := by
  intro _ w hw
  cases hw

theorem packetValidation (p : PartId) (q : Nat) : Statement (.packetValidation p q) := by
  intro _ w hw
  cases hw

theorem headDependenceMet (p : PartId) (q : Nat) : Statement (.headDependenceMet p q) := by
  intro _ w hw
  cases hw

theorem queuePriorityAging (p : PartId) (q : Nat) : Statement (.queuePriorityAging p q) := by
  intro _ w hw
  cases hw

theorem unitPlacement (n : Nat) : Statement (.unitPlacement n) := by
  intro _ w hw
  cases hw

theorem placementCompletion (core : Nat) : Statement (.placementCompletion core) := by
  intro _ w hw
  cases hw

theorem placementReconsider (pkg die : Nat) : Statement (.placementReconsider pkg die) := by
  intro _ w hw
  cases hw

theorem counterCount (p : PartId) (c : Nat) (poisoned : Bool) : Statement (.counterCount p c poisoned) := by
  intro _ w hw
  cases hw

theorem watchdogExpiry (p : PartId) (gid : Nat) : Statement (.watchdogExpiry p gid) := by
  intro _ w hw
  cases hw

theorem chunkFrameArrival (n : Nat) : Statement (.chunkFrameArrival n) := by
  intro _ w hw
  cases hw

theorem collectiveCompletion (n : Nat) : Statement (.collectiveCompletion n) := by
  intro _ w hw
  cases hw

theorem fenceReport (a b : Nat) (p : PartId) (gid : Nat) : Statement (.fenceReport a b p gid) := by
  intro _ w hw
  cases hw

theorem syncUnitReset (site : Nat) : Statement (.syncUnitReset site) := by
  intro _ w hw
  cases hw

theorem gateRefillTick (site entry : Nat) : Statement (.gateRefillTick site entry) := by
  intro _ w hw
  cases hw

theorem throttleRetry (x : CtxId) : Statement (.throttleRetry x) := by
  intro _ w hw
  cases hw

theorem throttleTimeout (x : CtxId) : Statement (.throttleTimeout x) := by
  intro _ w hw
  cases hw

theorem retrainTimeout (l : LinkId) : Statement (.retrainTimeout l) := by
  intro _ w hw
  cases hw

theorem viralNoticeArrival (pkg dst : Nat) : Statement (.viralNoticeArrival pkg dst) := by
  intro _ w hw
  cases hw

theorem packageViral (pkg : Nat) : Statement (.packageViral pkg) := by
  intro _ w hw
  cases hw

theorem resendTimeout (pkg dst : Nat) : Statement (.resendTimeout pkg dst) := by
  intro _ w hw
  cases hw

theorem pauseExpiry (pkg dst : Nat) (vc : Nat) : Statement (.pauseExpiry pkg dst vc) := by
  intro _ w hw
  cases hw

theorem fenceHandshake (a b : Nat) : Statement (.fenceHandshake a b) := by
  intro _ w hw
  cases hw

theorem tokenPass (pkg : Nat) : Statement (.tokenPass pkg) := by
  intro _ w hw
  cases hw

theorem copseStore (pkg : Nat) : Statement (.copseStore pkg) := by
  intro _ w hw
  cases hw

theorem copseAtomic (pkg : Nat) : Statement (.copseAtomic pkg) := by
  intro _ w hw
  cases hw

theorem gateOperation (pkg : Nat) : Statement (.gateOperation pkg) := by
  intro _ w hw
  cases hw

theorem copseBarrierOperation (pkg : Nat) : Statement (.copseBarrierOperation pkg) := by
  intro _ w hw
  cases hw

theorem transactionReady (pkg : Nat) : Statement (.transactionReady pkg) := by
  intro _ w hw
  cases hw

theorem transactionCommit (pkg : Nat) : Statement (.transactionCommit pkg) := by
  intro _ w hw
  cases hw

theorem transactionAbort (pkg : Nat) : Statement (.transactionAbort pkg) := by
  intro _ w hw
  cases hw

theorem groupTreeRebuildNotice (pkg : Nat) : Statement (.groupTreeRebuildNotice pkg) := by
  intro _ w hw
  cases hw

theorem orderFrameRecovery (pkg src : Nat) : Statement (.orderFrameRecovery pkg src) := by
  intro _ w hw
  cases hw

theorem orderRecoveryTimeout (pkg : Nat) : Statement (.orderRecoveryTimeout pkg) := by
  intro _ w hw
  cases hw

theorem thornRegeneration (pkg : Nat) : Statement (.thornRegeneration pkg) := by
  intro _ w hw
  cases hw

theorem bulkSlot (pkg : Nat) : Statement (.bulkSlot pkg) := by
  intro _ w hw
  cases hw

theorem bootSequence (pkg : Nat) (failAt : Option Nat) : Statement (.bootSequence pkg failAt) := by
  intro _ w hw
  cases hw

theorem preemption (core : Nat) : Statement (.preemption core) := by
  intro _ w hw
  cases hw

theorem resumption (core vd : Nat) : Statement (.resumption core vd) := by
  intro _ w hw
  cases hw

theorem slotTableChange (p : PartId) : Statement (.slotTableChange p) := by
  intro _ w hw
  cases hw

theorem traceSampleTick (core : Nat) : Statement (.traceSampleTick core) := by
  intro _ w hw
  cases hw

theorem illegalOpcodeCell (w : Cell96) : Statement (.illegalOpcodeCell w) := by
  intro _ w hw
  cases hw

theorem storePerformed (n : Nat) : Statement (.storePerformed n) := by
  intro _ w hw
  cases hw

theorem storeAcknowledged (n : Nat) : Statement (.storeAcknowledged n) := by
  intro _ w hw
  cases hw

theorem lazyWriteback (core off : Nat) : Statement (.lazyWriteback core off) := by
  intro _ w hw
  cases hw

theorem dropReport (x : CtxId) (info : BitVec 64) : Statement (.dropReport x info) := by
  intro _ w hw
  cases hw

theorem l2TagParityError (site set way : Nat) (dirtyClean : Bool) : Statement (.l2TagParityError site set way dirtyClean) := by
  intro _ w hw
  cases hw

theorem bankFailure (site : Nat) (arr : ArrayKind) (bank : Nat) : Statement (.bankFailure site arr bank) := by
  intro _ w hw
  cases hw

theorem linkOn (l : LinkId) : Statement (.linkOn l) := by
  intro _ w hw
  cases hw

theorem linkOff (l : LinkId) : Statement (.linkOff l) := by
  intro _ w hw
  cases hw

theorem trainingComplete (l : LinkId) (lanes total : Nat) : Statement (.trainingComplete l lanes total) := by
  intro _ w hw
  cases hw

theorem laneLoss (l : LinkId) (lanes : Nat) : Statement (.laneLoss l lanes) := by
  intro _ w hw
  cases hw

theorem replayThreshold (l : LinkId) : Statement (.replayThreshold l) := by
  intro _ w hw
  cases hw

theorem linkFenceCommand (l : LinkId) : Statement (.linkFenceCommand l) := by
  intro _ w hw
  cases hw

theorem linkUnfenceCommand (l : LinkId) : Statement (.linkUnfenceCommand l) := by
  intro _ w hw
  cases hw

theorem dataFrameReceive (pkg dst : Nat) (seq : BitVec 12) (good : Bool) (body : Nat) : Statement (.dataFrameReceive pkg dst seq good body) := by
  intro _ w hw
  cases hw

theorem nakReceive (pkg dst : Nat) (ack : BitVec 12) : Statement (.nakReceive pkg dst ack) := by
  intro _ w hw
  cases hw

theorem pauseFrame (pkg dst : Nat) (vcs : BitVec 4) (dur : BitVec 16) : Statement (.pauseFrame pkg dst vcs dur) := by
  intro _ w hw
  cases hw

theorem flitEscapeTimeout (pkg n : Nat) : Statement (.flitEscapeTimeout pkg n) := by
  intro _ w hw
  cases hw

theorem orderFrameGap (pkg : Nat) : Statement (.orderFrameGap pkg) := by
  intro _ w hw
  cases hw

theorem reservedOkindFrame (pkg : Nat) : Statement (.reservedOkindFrame pkg) := by
  intro _ w hw
  cases hw

theorem bulkFrameReceive (pkg src : Nat) (good : Bool) : Statement (.bulkFrameReceive pkg src good) := by
  intro _ w hw
  cases hw

theorem hostFlagWindowAccess (pkg link : Nat) (vf : Option Nat) (off size : Nat) (write : Option (BitVec 64)) : Statement (.hostFlagWindowAccess pkg link vf off size write) := by
  intro _ w hw
  cases hw

theorem hostBarAccess (pkg link : Nat) (vf : Option Nat) (off size : Nat) (write : Option (BitVec 64)) : Statement (.hostBarAccess pkg link vf off size write) := by
  intro _ w hw
  cases hw

theorem flush (pkg link : Nat) (vf : Option Nat) (svc off : Nat) (val : BitVec 64) : Statement (.flush pkg link vf svc off val) := by
  intro _ w hw
  cases hw

theorem doorbell (p : PartId) (q : Nat) (v : BitVec 32) : Statement (.doorbell p q v) := by
  intro _ w hw
  cases hw

theorem vfBind (pkg vf part : Nat) : Statement (.vfBind pkg vf part) := by
  intro _ w hw
  cases hw

theorem keyLoad (p : PartId) (key : BitVec 512) : Statement (.keyLoad p key) := by
  intro _ w hw
  cases hw

theorem ptmExchange (pkg : Nat) (hostTime : Nat) : Statement (.ptmExchange pkg hostTime) := by
  intro _ w hw
  cases hw

theorem spdmRequest (pkg blk : Nat) : Statement (.spdmRequest pkg blk) := by
  intro _ w hw
  cases hw

theorem setDieClock (pkg die setting : Nat) : Statement (.setDieClock pkg die setting) := by
  intro _ w hw
  cases hw

theorem gateCore (pkg die site : Nat) : Statement (.gateCore pkg die site) := by
  intro _ w hw
  cases hw

theorem ungateCore (pkg die site : Nat) : Statement (.ungateCore pkg die site) := by
  intro _ w hw
  cases hw

theorem gateChannel (pkg die site : Nat) : Statement (.gateChannel pkg die site) := by
  intro _ w hw
  cases hw

theorem ungateChannel (pkg die site : Nat) : Statement (.ungateChannel pkg die site) := by
  intro _ w hw
  cases hw

theorem thermalTrip (pkg die : Nat) : Statement (.thermalTrip pkg die) := by
  intro _ w hw
  cases hw

theorem packageReset (pkg : Nat) : Statement (.packageReset pkg) := by
  intro _ w hw
  cases hw

theorem bootCommand (pkg : Nat) (kdesc : List VA) (ptroot fmap fmlen : BitVec 64) : Statement (.bootCommand pkg kdesc ptroot fmap fmlen) := by
  intro _ w hw
  cases hw

theorem copseFormation (pkgs : List Nat) : Statement (.copseFormation pkgs) := by
  intro _ w hw
  cases hw

theorem coreRemoval (p : PartId) (lcore : Nat) : Statement (.coreRemoval p lcore) := by
  intro _ w hw
  cases hw

theorem perPartitionReset (p : PartId) : Statement (.perPartitionReset p) := by
  intro _ w hw
  cases hw

theorem partitionTagWrite (x : CtxId) (v : BitVec 64) : Statement (.partitionTagWrite x v) := by
  intro _ w hw
  cases hw

theorem ebstatClearRecord (pkg : Nat) (v : BitVec 64) : Statement (.ebstatClearRecord pkg v) := by
  intro _ w hw
  cases hw

theorem ebstatClearCe (pkg : Nat) : Statement (.ebstatClearCe pkg) := by
  intro _ w hw
  cases hw

theorem cklogEnable (p : PartId) (v : BitVec 64) : Statement (.cklogEnable p v) := by
  intro _ w hw
  cases hw

theorem cklogDisable (p : PartId) (v : BitVec 64) : Statement (.cklogDisable p v) := by
  intro _ w hw
  cases hw

theorem debugStop (x : CtxId) (gen : BitVec 32) : Statement (.debugStop x gen) := by
  intro _ w hw
  cases hw

theorem debugRelease (x : CtxId) (gen : BitVec 32) : Statement (.debugRelease x gen) := by
  intro _ w hw
  cases hw

theorem dieToDieReplay (l : LinkId) : Statement (.dieToDieReplay l) := by
  intro _ w hw
  cases hw

theorem dieReset (pkg die : Nat) : Statement (.dieReset pkg die) := by
  intro _ w hw
  cases hw

end Sys2Proof.Laws.RoundTrip
end

