-- ==== Sys2Proof/Safety.lean ====
section
/-! DEFINITION. What claims about the machine are stated in: the conditions under which an instruction passes
the checks of every issue, what "unchanged" means for memory, registers and contexts, the form that every
memory keeps, and runs that never stop on an instruction without a meaning. -/

namespace Sys2Proof.Machine

open Sys2Proof

/-- The canonical form: memory has rising addresses and lists no zero byte, and the map that says which sectors
are dirty in a stash has rising keys. -/
def State.Inv (s : State) : Prop := Memory.wf s.mem = true ∧ Map.sorted s.dir = true

/-- A step that answers a next state, or finds that the device waits for the outside world. -/
def safeStep (s : State) : Prop := ∀ r, step s ≠ .refused r

/-- A run of `n` steps from `s`, none of which is refused. -/
def SafeRun : Nat → State → Prop
  | 0, _ => True
  | n + 1, s => safeStep s ∧ ∀ t, step s = .next t → SafeRun n t

/-- An instruction with operand fields `os`, of which it reads `rs`, passes the checks of every issue: it is
a member of a pair whose checks have been made for both members (R24), or each literal operand names a
literal cell (R25), each register lies in the window (R29) and is present (R93), no open write window of an
operand is checked (R92) and no register that it reads carries poison (R70). -/
def Ready (os rs : List Opnd) (s : State) : Prop :=
  s.cur.pair = true ∨
    ((∀ o ∈ os, badLiteral s o = false) ∧ (∀ o ∈ os, outsideWindow (myCtx s) o = false) ∧
      (∀ o ∈ os, (marksOf s o).present = true) ∧
      ((myCore s).schk = false ∨ ∀ o ∈ os, inWindow s o = false) ∧
      (∀ o ∈ rs, (marksOf s o).poison = false))

/-- Every byte that any context can read, and the full/empty mark of every word, stand as they did. -/
def SameMemory (s t : State) : Prop := ∀ key, readByte t key = readByte s key ∧ feOf t key = feOf s key

/-- Every register-file entry of every core holds the value that it held. -/
def SameRegs (s t : State) : Prop := ∀ core e, entryVal t core e = entryVal s core e

/-- Every mask register of every context holds the value that it held. -/
def SameMasks (s t : State) : Prop := ∀ x n, maskVal t x n = maskVal s x n

/-- Every accumulator, every TID entry and the LFSR of every core stand as they did. -/
def SameUnits (s t : State) : Prop :=
  ∀ core, (coreOf t core).accs = (coreOf s core).accs ∧ (coreOf t core).tids = (coreOf s core).tids ∧
    (coreOf t core).lfsr = (coreOf s core).lfsr

/-- The contexts of all slots but `x` stand as they did. -/
def SameOthers (s t : State) (x : CtxId) : Prop := ∀ y, y ≠ x → ctxOf t y = ctxOf s y

/-- The whole register file, memory, masks, units and the other contexts stand as they did. -/
def SameAll (s t : State) : Prop :=
  SameMemory s t ∧ SameRegs s t ∧ SameMasks s t ∧ SameUnits s t ∧ SameOthers s t (me s)

/-- The context that has issued is at the sequential successor and otherwise stands as it did. -/
def MovedOn (s t : State) : Prop :=
  ctxOf t (me s) = { myCtx s with pc := s.cur.nx, entry := .flow, source := s.cur.src }

/-- No flag that `fl` raises is enabled (R57). -/
def noTrapOf (s : State) (fl : Flags) : Prop := enabledFlags (myCtx s) fl = 0

end Sys2Proof.Machine
end

