-- ==== Sys2Proof/Certificates/Slice0/Obligations.lean ====
section
/-! DEFINITION. The statements for the provers: what the rules of spec/ say that instructions, events and the
machine do. Tables that several statements share stand in the namespace Claims. -/

open Sys2Proof Sys2Proof.Machine

/-! ## Tables that the statements quantify over -/

namespace Sys2Proof.Claims

/-- The integer operations of fixed latency (R118): constructor, latency, and the exact lane result of the
width, the signedness and the operand lanes. -/
def integerOps : List ((FR → Instr) × Nat × LaneOp) :=
  [(.add, 2, fun _ _ a b _ => a + b),
   (.sub, 2, fun _ _ a b _ => a - b),
   (.mul, 4, fun _ _ a b _ => a * b),
   (.mulh, 4, fun w _ a b _ => (a * b).fdiv (2 ^ w : Int)),
   (.min, 2, fun _ _ a b _ => min a b),
   (.max, 2, fun _ _ a b _ => max a b),
   (.and, 2, fun w _ a b _ => ((wrapNat w a &&& wrapNat w b : Nat) : Int)),
   (.or, 2, fun w _ a b _ => ((wrapNat w a ||| wrapNat w b : Nat) : Int)),
   (.xor, 2, fun w _ a b _ => ((wrapNat w a ^^^ wrapNat w b : Nat) : Int)),
   (.andn, 2, fun w _ a b _ => ((wrapNat w a - (wrapNat w a &&& wrapNat w b) : Nat) : Int)),
   (.shl, 2, opShl), (.shrl, 2, opShrl), (.shra, 2, opShra), (.rot, 2, opRot),
   (.clz, 2, opClz), (.popc, 2, opPopc), (.bfx, 2, opBfx), (.bfi, 2, opBfi),
   (.sel, 2, fun _ _ a b c => if c ≠ 0 then a else b),
   (.mov, 2, fun _ _ a _ _ => a),
   (.abs, 2, fun _ _ a _ _ => (a.natAbs : Int)),
   (.mad, 4, fun _ _ a b c => a * b + c)]

/-- The compares (R124, R133): constructor, and the condition of lane i. -/
def compares : List ((FR → Instr) × (FR → State → Nat → Bool)) :=
  [(.cmp, fun f s i => intCond (bitsOf f.min.toNat 1 4) (intLane f s f.a f.negA i) (intLane f s f.b f.negB i)),
   (.tstb, fun f s i => intCond (bitsOf f.min.toNat 1 4) (commonBits f s i) 0),
   (.fcmp, fun f s i =>
      floatCond (bitsOf f.min.toNat 1 4) (floatLane f s f.a f.negA i) (floatLane f s f.b f.negB i))]

/-- The lane operations on floats (R134, R135): constructor, latency, exact result. -/
def floatOps : List ((FR → Instr) × Nat × FOp) :=
  [(.fadd, 4, fun rm a b _ => addF rm a b), (.fsub, 4, fun rm a b _ => addF rm a b.negate),
   (.fmul, 4, fun _ a b _ => mulF a b), (.fma, 4, fun rm a b c => fmaF rm a b c),
   (.fmin, 4, fun _ a b _ => minmaxF false a b), (.fmax, 4, fun _ a b _ => minmaxF true a b),
   (.frcp, 8, fun _ a _ _ => frcpF a), (.frsq, 8, fun _ a _ _ => frsqF a),
   (.fex2, 8, fun _ a _ _ => fex2F a), (.flg2, 8, fun _ a _ _ => flg2F a)]

/-- The lanes, each with its flags, of a float operation on the operands of `f`. -/
def floatResult (op : FOp) (f : FR) (s : State) : List (Nat × Flags) :=
  floatLanes f.t f.rm f.sat (lanesOn f s) (wideSrc s 1 f.d) (myCore s).lfsr fun i =>
    op f.rm (floatLane f s f.a f.negA i) (floatLane f s f.b f.negB i) (floatLane f s f.c f.negC i)

/-- Where an instruction that reads `rs` finds the machine if it is not performed after all: it has read nothing
(R46, R89), unless its pair had been undone before. -/
def unread (rs : List Opnd) (s : State) : State := if s.cur.undone then markRead rs s else s

/-- The state with the flags of a result raised. -/
def flagged (fl : Flags) (s : State) : State := if fl = 0 then s else raiseFlags fl s

/-- An instruction that reads `rs` raises the flags `fl`, of which one is enabled (R57). -/
def fpTrap (fl : Flags) (rs : List Opnd) (s : State) : State :=
  fault .fp (fl.setWidth 64) (raiseFlags fl (unread rs s))

/-- A result of fixed latency is in its write window, and the context has moved on. -/
def opened (L : Nat) (d : Opnd) (v : Reg) (s : State) : State := advance (openWindow s L (destOf s d) v)

/-- Every instruction in format FR that has no effect but on D, flags and the skip count. -/
def registerOps : List (FR → Instr) :=
  [.nop, .add, .sub, .mul, .mulh, .div, .rem, .min, .max, .and, .or, .xor, .andn, .shl, .shrl, .shra, .rot,
   .clz, .popc, .bfx, .bfi, .sel, .mov, .abs, .mad, .cmp, .fcmp, .tstb, .fadd, .fsub, .fmul, .fma, .fmin, .fmax,
   .frcp, .frsq, .fex2, .flg2, .fsqt, .fdot, .shuf, .bcst, .redl, .extl, .insl, .mlog, .mpop, .mmov,
   .cvt, .pack, .unpk, .qnt, .dqnt, .sclx]

/-- The conversions by lanes (R145, R146) and the source of lane i. -/
def conversions : List ((FR → Instr) × (FR → State → Nat → FVal)) :=
  [(.cvt, fun f s i => convSrc f (srcTy f) s f.a f.negA i),
   (.pack, fun f s i =>
      if i < (srcTy f).lanes then convSrc f (srcTy f) s f.a f.negA i
      else convSrc f (srcTy f) s f.b f.negB (i - (srcTy f).lanes))]

/-- The branches (R126 to R128): constructor, whether it is taken, its target. -/
def branches : List ((FB → Instr) × (FB → State → Bool) × (FB → State → VA)) :=
  [(.br, brTaken, branchTarget), (.bri, fun _ _ => true, regTarget), (.call, fun _ _ => true, branchTarget),
   (.calli, fun _ _ => true, regTarget), (.ret, fun _ _ => true, regTarget),
   (.loop, fun f s => src64u s f.a - 1 != 0, branchTarget)]

/-- The instructions whose effect is a trap that they raise (R130, R361), with cause and operand. -/
def selfTraps : List ((FS → Instr) × Cause) := [(.trap, .trap), (.svc, .svc), (.hvc, .hvc)]

end Sys2Proof.Claims

/-! ## Decoding -/

/-- Decoding the cell of a well-formed instruction gives it back, every operand and field at every value that
its encoding admits (R27 to R42). -/
def Obligations.DecodeEncode : Prop := ∀ i w, WellFormed i = true → encode i = some w → decode w = .ok i

/-! ## Integer, float, lane and conversion instructions -/

/-- Each integer operation that passes the checks of its issue opens the write window of its result, of the
latency of R118, and moves on; nothing else changes but the unread bits of what it read (R89, R92, R117). -/
def Obligations.IntegerOperations : Prop :=
  ∀ e ∈ Claims.integerOps, ∀ (f : FR) (s : State), Ready f.fields (FR.reads f s) s →
    ∃ t, exec (e.1 f) s = .next t ∧
      t = Claims.opened e.2.1 f.d (intResult e.2.2 f (markRead (FR.reads f s) s)) (markRead (FR.reads f s) s) ∧
      SameAll s t ∧ MovedOn s t

/-- The lanes of an integer result (R117): a selected lane is the exact result clamped or wrapped, an
unselected lane keeps D, and a scalar result is zero above its width. -/
def Sys2Proof.Claims.IntegerLanes : Prop :=
  ∀ (op : LaneOp) (f : FR) (s : State) (i : Nat), i < f.t.lanes →
    (((lanesOn f s).getLsbD i = true →
        bitsOf (intResult op f s).toNat (f.t.width * i) f.t.width =
          let x := op f.t.width f.sgn (intLane f s f.a f.negA i) (intLane f s f.b f.negB i) (intLane f s f.c f.negC i)
          wrapNat f.t.width (if f.sat then clampInt f.t.width f.sgn x else x)) ∧
      ((lanesOn f s).getLsbD i = false →
        bitsOf (intResult op f s).toNat (f.t.width * i) f.t.width =
          bitsOf (wideSrc s 1 f.d).toNat (f.t.width * i) f.t.width) ∧
      (f.t.isScalar = true → (intResult op f s).toNat < 2 ^ f.t.width))

/-- Sums, differences, products and shifts of lanes are those of words of the lane's width (R118, R119): a count
of the width or more shifts everything out. -/
def Sys2Proof.Claims.LaneArithmetic : Prop :=
  ∀ (w : Nat) (g : Bool) (a b c : Int), 0 < w →
    wrapNat w (a + b) = (BitVec.ofInt w a + BitVec.ofInt w b).toNat ∧
    wrapNat w (a - b) = (BitVec.ofInt w a - BitVec.ofInt w b).toNat ∧
    wrapNat w (a * b) = (BitVec.ofInt w a * BitVec.ofInt w b).toNat ∧
    wrapNat w (opShl w g a b c) = (BitVec.ofInt w a <<< wrapNat w b).toNat ∧
    wrapNat w (opShrl w g a b c) = (BitVec.ofInt w a >>> wrapNat w b).toNat ∧
    wrapNat w (opShra w g a b c) = ((BitVec.ofInt w a).sshiftRight (wrapNat w b)).toNat ∧
    wrapNat w (opRot w g a b c) = ((BitVec.ofInt w a).rotateLeft (wrapNat w b)).toNat

/-- Counting and bit fields (R118, R119): CLZ gives the number of zeros above the highest one, the width for
zero; POPC the number of ones; BFX places the field at bit 0 and fills above it; BFI replaces the field and
keeps every other bit. -/
def Sys2Proof.Claims.FieldOperations : Prop :=
  ∀ (w : Nat) (g : Bool) (a b c : Int), 0 < w → w ≤ 64 →
    (0 ≤ opClz w g a b c ∧ opClz w g a b c ≤ w ∧ (wrapNat w a = 0 → opClz w g a b c = w) ∧
      (wrapNat w a ≠ 0 → ∃ n : Nat, opClz w g a b c = n ∧ n < w ∧
        2 ^ (w - 1 - n) ≤ wrapNat w a ∧ wrapNat w a < 2 ^ (w - n))) ∧
    opPopc w g a b c = ((upto w).countP fun i => (wrapNat w a).testBit i) ∧
    (let pos := wrapNat w b % 256
     let len := wrapNat w b / 256 % 256
     let n := min (pos + len) w - pos
     ∀ j, j < w → (wrapNat w (opBfx w g a b c)).testBit j =
       if n = 0 then false else (wrapNat w a).testBit (pos + if j < n then j else n - 1) && (decide (j < n) || g)) ∧
    (let pos := wrapNat w c % 256
     let len := wrapNat w c / 256 % 256
     let n := min (pos + len) w - pos
     ∀ j, j < w → (wrapNat w (opBfi w g a b c)).testBit j =
       if pos ≤ j ∧ j < pos + n then (wrapNat w a).testBit (j - pos) else (wrapNat w b).testBit j)

/-- DIV and REM (R120): with no zero divisor in a selected lane, D's presence is cleared and the divider takes
the request, which lands its latency after the later of the issue cycle and the request ahead; a zero divisor
faults INT_DIV_ZERO with the lowest such lane. Quotients are truncated toward zero. -/
def Obligations.Division : Prop :=
  ∀ e ∈ ([(.div, fun _ _ a b _ => a.tdiv b), (.rem, fun _ _ a b _ => a.tmod b)] : List ((FR → Instr) × LaneOp)),
    ∀ (f : FR) (s : State), Ready f.fields (FR.reads f s) s →
      let s1 := markRead (FR.reads f s) s
      (zeroLane f s1 = none → ∃ t, exec (e.1 f) s = .next t ∧ MovedOn s t ∧ SameMemory s t ∧ SameRegs s t ∧
        (coreOf t (me s).core).divq = (myCore s).divq ++
          [⟨(myCore s).divq.foldl (fun m r => max m r.due) (myCore s).cyc + (if f.t = .i64 then 34 else 18),
            (me s).slot, destOf s f.d, intResult e.2 f s1⟩] ∧
        (∀ n, f.d = .g n → (entryMarks t (me s).core (entryOf s (me s) n)).present = false)) ∧
      (∀ i, zeroLane f s1 = some i → exec (e.1 f) s = .next (fault .intDivZero (BitVec.ofNat 64 i) (Claims.unread (FR.reads f s) s)) ∧
        i < f.t.lanes ∧ (lanesOn f s1).getLsbD i = true ∧ intLane f s1 f.b f.negB i = 0 ∧
        ∀ j < i, ¬ ((lanesOn f s1).getLsbD j = true ∧ intLane f s1 f.b f.negB j = 0))

/-- LI writes the extended immediate to every lane of its type, and LIH the immediate above the low word of
D; both land two cycles after issue (R123). NOP has no effect but to move on (R122). -/
def Obligations.Immediates : Prop :=
  (∀ (f : FI) (s : State), Ready f.fields [] s →
    ∃ v, exec (.li f) s = .next (Claims.opened 2 f.d v s) ∧
      (∀ i < f.t.lanes, bitsOf v.toNat (f.t.width * i) f.t.width =
        (if f.min.getLsbD 0 then f.imm.toNat else (f.imm.signExtend 64).toNat) % 2 ^ f.t.width) ∧
      (f.t.isScalar = true → v.toNat < 2 ^ f.t.width)) ∧
  (∀ (f : FI) (s : State), Ready f.fields [f.d] s →
    exec (.lih f) s = .next (Claims.opened 2 f.d
      (BitVec.ofNat 256 (f.imm.toNat * 2 ^ 32 + (wideSrc s 1 f.d).toNat % 2 ^ 32)) (markRead [f.d] s))) ∧
  (∀ (f : FR) (s : State), exec (.nop f) s = .next (advance s))

/-- CMP, TSTB and FCMP (R38, R39, R124, R133): a vector compare writes the condition of each selected lane to
a mask, keeps the other lanes' bits and clears those past the lanes; a scalar compare without SKIP writes 0 or
1; with SKIP it sets the skip count where the condition is what SENSE names, and else only moves on. -/
def Obligations.Compares : Prop :=
  ∀ e ∈ Claims.compares, ∀ (f : FR) (s : State), Ready f.fields (FR.reads f s) s →
    let s1 := markRead (FR.reads f s) s
    let c := e.2 f s1
    (f.vec = true → ∃ v, exec (e.1 f) s = .next (Claims.opened 2 f.d v s1) ∧
      ∀ i < 256, v.getLsbD i = if i < f.t.lanes then
        (if (lanesOn f s1).getLsbD i then c i else (wideSrc s1 1 f.d).getLsbD i) else false) ∧
    (f.vec = false → f.skip = 0 →
      exec (e.1 f) s = .next (Claims.opened 2 f.d (if c 0 then 1 else 0) s1)) ∧
    (f.vec = false → f.skip ≠ 0 → ∃ t, exec (e.1 f) s = .next t ∧ SameAll s t ∧
      ctxOf t (me s) = { myCtx s with
        pc := s.cur.nx
        entry := .flow
        source := s.cur.src
        status := if c 0 = f.sense then putField (myCtx s).status 4 2 f.skip else (myCtx s).status })

/-- The float operations FADD to FLG2, where no raised flag is enabled (R55, R57, R134, R135): each rounds every
selected lane, raises the flags of all lanes, steps the LFSR by the number of selected lanes where it rounds
stochastically, and lands after its latency. -/
def Sys2Proof.Claims.FloatOperations : Prop :=
  ∀ e ∈ Claims.floatOps, ∀ (f : FR) (s : State), Ready f.fields (FR.reads f s) s →
    let s1 := markRead (FR.reads f s) s
    let l := Claims.floatResult e.2.2 f s1
    noTrapOf s (orFlags l) →
      exec (e.1 f) s = .next (stepLfsr f.rm (drawsBefore (lanesOn f s1) f.t.lanes)
        (Claims.opened e.2.1 f.d (nat256 (packLanes (fmtOf f.t).width (l.map (·.1))))
          (Claims.flagged (orFlags l) s1)))

/-- A float operation that raises an enabled flag faults FP with the raised flags, which stick; D, its marks
and every register stay as they were (R57). -/
def Sys2Proof.Claims.FloatTraps : Prop :=
  ∀ e ∈ Claims.floatOps, ∀ (f : FR) (s : State), Ready f.fields (FR.reads f s) s →
    let s1 := markRead (FR.reads f s) s
    let fl := orFlags (Claims.floatResult e.2.2 f s1)
    ¬ noTrapOf s fl → ∃ t, t = Claims.fpTrap fl (FR.reads f s) s ∧
      exec (e.1 f) s = .next t ∧ SameRegs s t ∧ (coreOf t (me s).core).pend = (myCore s).pend

/-- FSQT goes to the square-root unit, which lands its requests in order after 16 or 24 cycles each, and FDOT
rounds one exact sum to FP32 and lands after 6 cycles; both raise their flags, and fault FP where one of these is
enabled (R57, R138, R139). -/
def Obligations.RootAndDot : Prop :=
  (∀ (f : FR) (s : State), Ready f.fields (FR.reads f s) s →
    let s1 := markRead (FR.reads f s) s
    let l := Claims.floatResult (fun _ a _ _ => fsqtF a) f s1
    noTrapOf s (orFlags l) →
      ∃ t, exec (.fsqt f) s = .next t ∧ SameMemory s t ∧ SameRegs s t ∧
        (coreOf t (me s).core).sqq = (myCore s).sqq ++
          [⟨(myCore s).sqq.foldl (fun m r => max m r.due) (myCore s).cyc + (if f.t = .f32 then 16 else 24),
            (me s).slot, destOf s f.d, nat256 (packLanes 32 (l.map (·.1)))⟩] ∧
        (ctxOf t (me s)).pc = s.cur.nx ∧ (ctxOf t (me s)).fpstat = (myCtx s).fpstat ||| (orFlags l).setWidth 64) ∧
  (∀ (f : FR) (s : State), Ready f.fields (FR.reads f s) s →
    let fl := orFlags (Claims.floatResult (fun _ a _ _ => fsqtF a) f (markRead (FR.reads f s) s))
    ¬ noTrapOf s fl → exec (.fsqt f) s = .next (Claims.fpTrap fl (FR.reads f s) s)) ∧
  (∀ (f : FR) (s : State), Ready f.fields f.srcs s →
    let s1 := markRead f.srcs s
    let r := roundSat fp32 f.rm f.sat (drawOf (myCore s).lfsr 1) (fdotSum f s1).1
    let fl := (fdotSum f s1).2 ||| r.flags
    (noTrapOf s fl →
      exec (.fdot f) s = .next (stepLfsr f.rm 1
        (Claims.opened 6 f.d (nat256 (encodeF fp32 r.val)) (Claims.flagged fl s1)))) ∧
    (¬ noTrapOf s fl → exec (.fdot f) s = .next (Claims.fpTrap fl f.srcs s)))

/-- SHUF, BCST, EXTL, INSL, MLOG, MPOP and MMOV (R141 to R143): what each lane or word of D is; all land after 3
cycles. -/
def Sys2Proof.Claims.LaneInstructions : Prop :=
  (∀ (f : FR) (s : State), Ready f.fields (FR.reads f s) s →
    let s1 := markRead (FR.reads f s) s
    let w := f.t.width
    let lane := fun (o : Opnd) (i : Nat) => bitsOf (wideSrc s1 1 o).toNat (w * i) w
    (∃ v, exec (.shuf f) s = .next (Claims.opened 3 f.d v s1) ∧
      ∀ i < f.t.lanes, bitsOf v.toNat (w * i) w =
        if (maskVal s1 (me s) f.mask).getLsbD i then
          (if 2 ^ (w - 1) ≤ lane f.b i then 0 else lane f.a (lane f.b i % f.t.lanes))
        else lane f.d i) ∧
    (∃ v, exec (.bcst f) s = .next (Claims.opened 3 f.d v s1) ∧
      ∀ i < f.t.lanes, bitsOf v.toNat (w * i) w =
        if (maskVal s1 (me s) f.mask).getLsbD i then lane f.a ((src64L f s1 f.b).toNat % f.t.lanes)
        else lane f.d i)) ∧
  (∀ (f : FR) (s : State), Ready f.fields f.srcs s →
    let s1 := markRead f.srcs s
    let w := f.t.width
    let lane := fun (o : Opnd) (i : Nat) => bitsOf (wideSrc s1 1 o).toNat (w * i) w
    (f.t.isFloat = false → exec (.extl f) s = .next (Claims.opened 3 f.d
      (nat256 (extend f.sgn (lane f.a ((src64L f s1 f.b).toNat % f.t.lanes)) w 64)) s1)) ∧
    (f.t.isFloat = true → exec (.extl f) s = .next (Claims.opened 3 f.d
      (nat256 (encodeF fp32 (roundF fp32 .rn 0
        (decodeF (fmtOf f.t) (lane f.a ((src64L f s1 f.b).toNat % f.t.lanes)))).val)) s1)) ∧
    exec (.mlog f) s = .next (Claims.opened 3 f.d (w64 (mlogResult f.min.toNat (mask64 s1 f.a) (mask64 s1 f.b))) s1) ∧
    exec (.mpop f) s = .next (Claims.opened 3 f.d
      (nat256 (mpopResult f.min.toNat f.t.lanes (mask64 s1 f.a).toNat)) s1) ∧
    exec (.mmov f) s = .next (Claims.opened 3 f.d
      (if f.min = 0 then w64 (src64i s1 f.imm20 f.a) else w64 (mask64 s1 f.a)) s1)) ∧
  (∀ (f : FR) (s : State), Ready f.fields (f.d :: f.srcs) s →
    let s1 := markRead (f.d :: f.srcs) s
    let w := f.t.width
    ∃ v, exec (.insl f) s = .next (Claims.opened 3 f.d v s1) ∧
      ∀ i < f.t.lanes, bitsOf v.toNat (w * i) w =
        if i = (src64L f s1 f.b).toNat % f.t.lanes then inslValue f s1 % 2 ^ w
        else bitsOf (wideSrc s1 1 f.d).toNat (w * i) w) ∧
  (∀ n v, mpopResult 0 n v = onesOf n v) ∧
  (∀ n v, v % 2 ^ n = 0 → mpopResult 1 n v = n ∧ mpopResult 2 n v = n) ∧
  (∀ n v, 0 < v % 2 ^ n → v.testBit (mpopResult 1 n v) = true ∧ mpopResult 1 n v < n ∧
    (∀ j < mpopResult 1 n v, v.testBit j = false) ∧ v.testBit (mpopResult 2 n v) = true ∧ mpopResult 2 n v < n ∧
    ∀ j, mpopResult 2 n v < j → j < n → v.testBit j = false)

/-- REDL (R142): an integer reduction folds the selected lanes in ascending order from the identity and takes the
result modulo 2^64; a float reduction is rounded once to FP32, and faults FP where a flag it raises is enabled. -/
def Sys2Proof.Claims.Reductions : Prop :=
  ∀ (f : FR) (s : State), Ready f.fields f.srcs s →
    let s1 := markRead f.srcs s
    (f.t.isFloat = false → exec (.redl f) s = .next (Claims.opened 3 f.d
      (nat256 (wrapNat 64 (((upto f.t.lanes).filter (maskVal s1 (me s) f.mask).getLsbD).foldl
        (fun acc i => redStep (bitsOf f.min.toNat 1 4) f.t.width f.sgn acc (laneInt f.t f.sgn (wideSrc s1 1 f.a) i))
        (redIdent (bitsOf f.min.toNat 1 4) f.t.width f.sgn)))) s1)) ∧
    (f.t.isFloat = true →
      let r := roundF fp32 f.rm (drawOf (myCore s).lfsr 1) (redFloat f s1).1
      let fl := (redFloat f s1).2 ||| r.flags
      (noTrapOf s fl → exec (.redl f) s = .next (stepLfsr f.rm 1
        (Claims.opened 3 f.d (nat256 (encodeF fp32 r.val)) (Claims.flagged fl s1)))) ∧
      (¬ noTrapOf s fl → exec (.redl f) s = .next (Claims.fpTrap fl f.srcs s)))

/-- CVT and PACK (R56, R145, R146, R151): with SAT no lane raises RANGE, and where no raised flag is enabled the
converted lanes land after 4 cycles (an enabled one faults FP); without it the lowest lane out of range faults
RANGE. -/
def Sys2Proof.Claims.Conversions : Prop :=
  ∀ e ∈ Claims.conversions, ∀ (f : FR) (s : State), Ready f.fields (FR.reads f s) s →
    let s1 := markRead (FR.reads f s) s
    let l := Machine.convLanes f (lanesOn f s1) (wideSrc s1 1 f.d) (myCore s).lfsr (e.2 f s1)
    let v := l.map fun x => x.getD (0, 0)
    (f.sat = true → none ∉ l) ∧
    (none ∉ l → noTrapOf s (orFlags v) →
      exec (e.1 f) s = .next (stepLfsr f.rm (drawsBefore (lanesOn f s1) f.t.lanes)
        (Claims.opened 4 f.d (nat256 (packLanes f.t.width (v.map (·.1)))) (Claims.flagged (orFlags v) s1)))) ∧
    (none ∉ l → ¬ noTrapOf s (orFlags v) → exec (e.1 f) s = .next (Claims.fpTrap (orFlags v) (FR.reads f s) s)) ∧
    (none ∈ l → ∃ i, exec (e.1 f) s = .next (fault .range (BitVec.ofNat 64 i) (Claims.unread (FR.reads f s) s)) ∧
      l[i]? = some none ∧ ∀ j < i, l[j]? ≠ some none)

/-- UNPK widens half of A's lanes; QNT, DQNT and SCLX act on O4 blocks (R147 to R150). With SAT neither QNT nor
SCLX raises RANGE; without it they fault RANGE where an element does not fit. UNPK lands after 4 cycles, the others
after 6; a raised flag that is enabled faults FP. -/
def Sys2Proof.Claims.Blocks : Prop :=
  ∀ (f : FR) (s : State), Ready f.fields (FR.reads f s) s →
    let rs := FR.reads f s
    let s1 := markRead rs s
    let q := qntBlock (blockElems f s1) ((src64L f s1 f.c).toNat % 256) f.rm f.sat (strictOf f) (drawOf (myCore s).lfsr)
    let e := sclxByte (blockElems f s1) (min (src64L f s1 f.c).toNat 2) f.sat
    (∃ v, exec (.unpk f) s = .next (Claims.opened 4 f.d v s1) ∧
      ∀ i < f.t.lanes, bitsOf v.toNat (f.t.width * i) f.t.width =
        unpkLane f (wideSrc s1 1 f.a) ((src64L f s1 f.b).toNat % 2 * f.t.lanes + i) % 2 ^ f.t.width) ∧
    (f.sat = true → (∃ r, q = .ok r) ∧ ∃ b, e = .ok b ∧ b < 256) ∧
    (∀ blk fl, q = .ok (blk, fl) →
      (noTrapOf s fl → exec (.qnt f) s = .next (stepLfsr f.rm 32
        (Claims.opened 6 f.d (nat256 blk) (Claims.flagged fl s1)))) ∧
      (¬ noTrapOf s fl → exec (.qnt f) s = .next (Claims.fpTrap fl rs s))) ∧
    (∀ i, q = .error i → exec (.qnt f) s = .next (fault .range (BitVec.ofNat 64 i) (Claims.unread rs s))) ∧
    (let vs := o4Decode ((wideSrc s1 1 f.a).toNat % 2 ^ 144)
     let g := (src64L f s1 f.b).toNat % (32 / f.t.lanes)
     let l := floatLanes f.t f.rm f.sat (lanesOn f s1) (wideSrc s1 1 f.d) (myCore s).lfsr fun i =>
       ((vs[g * f.t.lanes + i]?).getD .nan, 0)
     let fl := orFlags l ||| flagIf (o4Bad ((wideSrc s1 1 f.a).toNat % 2 ^ 144)) fBAD
     (noTrapOf s fl → exec (.dqnt f) s = .next (stepLfsr f.rm (drawsBefore (lanesOn f s1) f.t.lanes)
       (Claims.opened 6 f.d (nat256 (packLanes f.t.width (l.map (·.1)))) (Claims.flagged fl s1)))) ∧
     (¬ noTrapOf s fl → exec (.dqnt f) s = .next (Claims.fpTrap fl rs s))) ∧
    (∀ b, e = .ok b → exec (.sclx f) s = .next (Claims.opened 6 f.d (nat256 b) s1)) ∧
    (∀ i, e = .error i → exec (.sclx f) s = .next (fault .range (BitVec.ofNat 64 i) (Claims.unread rs s)))

/-- Whatever a register instruction does, it completes, faults or waits: memory, full/empty marks, every
register-file entry, every mask register and every accumulator stand as they did, and its result, if it has
one, is still to land (R92, R93, R117). -/
def Obligations.RegisterFrame : Prop :=
  (∀ c ∈ Claims.registerOps, ∀ (f : FR) (s t : State), exec (c f) s = .next t →
    SameMemory s t ∧ SameRegs s t ∧ SameMasks s t ∧ ∀ core, (coreOf t core).accs = (coreOf s core).accs) ∧
  (∀ c ∈ ([.li, .lih] : List (FI → Instr)), ∀ (f : FI) (s t : State), exec (c f) s = .next t →
    SameMemory s t ∧ SameRegs s t ∧ SameMasks s t ∧ SameUnits s t)

/-- Results land (R92, R93, R120, R139): a fixed-latency result is written and its write window closes; a
result of variable latency, the divider's and the square-root unit's oldest sets presence as well. A landing
writes no other entry and no memory. -/
def Obligations.Landings : Prop :=
  (∀ (s : State) (core n : Nat) (p : Pend), firstWhere (fun v => v.id == n) (coreOf s core).pend = some p →
    ∃ t, exec (.fixedResultLanding core n) s = .next t ∧ SameMemory s t ∧
      (coreOf t core).pend = (coreOf s core).pend.filter (fun q => !(q.id == n)) ∧
      (∀ e, p.dst = .reg e → entryVal t core e = p.val ∧ (entryMarks t core e).unread = false ∧
        (entryMarks t core e).poison = false ∧ (entryMarks t core e).present = (entryMarks s core e).present) ∧
      (∀ c e, (c = core ∧ p.dst = .reg e) ∨ entryVal t c e = entryVal s c e) ∧
      (∀ sl k, p.dst = .mask sl k → k ≠ 0 → maskVal t ⟨core, sl⟩ k = p.val.setWidth 64)) ∧
  (∀ (s : State) (core n : Nat) (p : VPend), firstWhere (fun v => v.id == n) (coreOf s core).vpend = some p →
    p.load = none → ∃ t, exec (.variableResultLanding core n) s = .next t ∧ SameMemory s t ∧
      (∀ e, p.dst = .reg e → entryVal t core e = p.val ∧ entryMarks t core e = ⟨true, false, false, none⟩) ∧
      (∀ c e, (c = core ∧ p.dst = .reg e) ∨ entryVal t c e = entryVal s c e)) ∧
  (∀ (s : State) (core : Nat) (q : UnitReq) (rest : List UnitReq),
    ((coreOf s core).divq = q :: rest → ∃ t, exec (.dividerResult core) s = .next t ∧ (coreOf t core).divq = rest ∧
      SameMemory s t ∧ ∀ e, q.dst = .reg e → entryVal t core e = q.val ∧ (entryMarks t core e).present = true) ∧
    ((coreOf s core).sqq = q :: rest → ∃ t, exec (.sqrtUnitResult core) s = .next t ∧ (coreOf t core).sqq = rest ∧
      SameMemory s t ∧ ∀ e, q.dst = .reg e → entryVal t core e = q.val ∧ (entryMarks t core e).present = true))

/-! ## Control transfers, traps and returns -/

/-- BR, BRI, CALL, CALLI, RET and LOOP (R126 to R128): a branch that is not taken moves on; one that is taken to
a legal target transfers control there; CALL and CALLI write the return point and LOOP the count, landing after
two cycles. -/
def Sys2Proof.Claims.Branches : Prop :=
  ∀ (f : FB) (s : State), Ready f.fields f.srcs s →
    let s1 := markRead f.srcs s
    let near := fbTarget s.cur.pc f.loff f.tcell
    let far : VA := (src64u s1 f.a).setWidth 57
    let count := src64u s1 f.a - 1
    (brTaken f s1 = false → exec (.br f) s = .next (advance s1)) ∧
    (brTaken f s1 = true → checkTarget s1 (me s) near = .ok →
      exec (.br f) s = .next (jump near (pmCore s1 (me s).core 8 1))) ∧
    (checkTarget s1 (me s) far = .ok →
      exec (.bri f) s = .next (jump far (pmCore s1 (me s).core 0x0A 1)) ∧
      exec (.ret f) s = .next (jump far (pmCore s1 (me s).core 9 1))) ∧
    (∀ nx, successor s1 (me s) allLines s.cur.nx = .ok nx →
      (checkTarget s1 (me s) near = .ok → ∃ u, u = pmCore s1 (me s).core 8 1 ∧
        exec (.call f) s = .next (jump near (openWindow u 2 (destOf u f.d) (nat256 nx.toNat)))) ∧
      (checkTarget s1 (me s) far = .ok → ∃ u, u = pmCore s1 (me s).core 0x0A 1 ∧
        exec (.calli f) s = .next (jump far (openWindow u 2 (destOf u f.d) (nat256 nx.toNat))))) ∧
    (count = 0 → exec (.loop f) s = .next (advance (openWindow s1 2 (destOf s1 f.a) 0))) ∧
    (count ≠ 0 → checkTarget s1 (me s) near = .ok → ∃ u, u = pmCore s1 (me s).core 8 1 ∧
      exec (.loop f) s = .next (jump near (openWindow u 2 (destOf u f.a) (nat256 count.toNat))))

/-- A taken branch whose target breaks the form of a PC faults BAD_PC, and one whose target is no branch target
faults BAD_TARGET; in both the PC reported is the branch's own, the information is the target, and neither the link
nor the count is written. Where the target's line needs a walk the branch waits for it before it issues. CALL and
CALLI first find their sequential successor, and take a fault found on the way as though control had flowed there
(R16, R20, R26, R46, R127). -/
def Sys2Proof.Claims.BranchFaults : Prop :=
  (∀ e ∈ Claims.branches, ∀ (f : FB) (s : State), Ready f.fields f.srcs s →
    let s1 := markRead f.srcs s
    let s0 := Claims.unread f.srcs s
    let t := e.2.2 f s1
    e.2.1 f s1 = true →
      (e.1 f = .call f ∨ e.1 f = .calli f → ∃ nx, successor s1 (me s) allLines s.cur.nx = .ok nx) →
      (checkTarget s1 (me s) t = .badPc → exec (e.1 f) s = .next (faultAt .badPc (t.setWidth 64) s.cur.pc s0)) ∧
      (checkTarget s1 (me s) t = .badTarget →
        exec (e.1 f) s = .next (faultAt .badTarget (t.setWidth 64) s.cur.pc s0)) ∧
      (checkTarget s1 (me s) t = .miss → exec (e.1 f) s = .next (parkWalk s0 t false))) ∧
  (∀ e ∈ ([.call, .calli] : List (FB → Instr)), ∀ (f : FB) (s : State), Ready f.fields f.srcs s →
    (∀ c fm a, successor (markRead f.srcs s) (me s) allLines s.cur.nx = .error (.fault c fm, a) →
      exec (e f) s = .next (faultAt c (lineInfo c fm (BitVec.allOnes 57) a) a (Claims.unread f.srcs s))) ∧
    (∀ a, successor (markRead f.srcs s) (me s) allLines s.cur.nx = .error (.miss, a) →
      exec (e f) s = .next (parkWalk (Claims.unread f.srcs s) a false)))

/-- The target level of a cause, by the first test of R354 that holds. -/
def Obligations.TargetLevel : Prop :=
  ∀ (c : Ctx) (k : Cause) (info : W64), c.prv ≠ .maker →
    (k = .userInt → targetLevel c k info = .user) ∧
    (k = .hvc ∨ (k = .translation ∧ info.getLsbD 57 = true) → targetLevel c k info = .hyp) ∧
    (k ≠ .userInt → k ≠ .hvc → ¬ (k = .translation ∧ info.getLsbD 57 = true) →
      (c.prv = .hyp ∨ c.hdeleg.getLsbD k.code = true → targetLevel c k info = .hyp) ∧
      (c.prv ≠ .hyp → c.hdeleg.getLsbD k.code = false →
        (k = .svc → targetLevel c k info = .guest) ∧
        (k ≠ .svc → c.prv = .user → c.udeleg.getLsbD k.code = true → targetLevel c k info = .user) ∧
        (k ≠ .svc → ¬ (c.prv = .user ∧ c.udeleg.getLsbD k.code = true) → targetLevel c k info = .guest)))

/-- Entry into a handler of level `l` (R352, R355): what the bank of the level, `sys.status`, the privilege and
the PC become, and that the other banks, the registers a handler inherits and the obligation table stand. -/
def Sys2Proof.Claims.HandlerEntry : Prop :=
  ∀ (c : Ctx) (l : Prv) (k : Cause) (info : W64) (epc pcv : VA) (esc asy rsm : Bool), l ≠ .maker →
    let d := enterCtx c l k info epc pcv esc asy rsm
    bankOf d l = { bankOf c l with
      ecause := BitVec.ofNat 64 k.code
      einfo := info
      epc := epc.setWidth 64
      erst := c.rstpc.setWidth 64
      estat := (bankOf d l).estat } ∧
    (∀ m, m ≠ l → m ≠ .maker → bankOf d m = bankOf c m) ∧
    (let e := (bankOf d l).estat.toNat
     bitsOf e 0 2 = prvNo c.prv ∧ bitsOf e 4 2 = (if rsm then 0 else skn c) ∧ bitAt e 7 = rsm ∧ bitAt e 8 = asy ∧
       bitAt e 9 = esc ∧ e < 1024 ∧ bitsOf e 2 2 = 0 ∧ bitAt e 6 = false) ∧
    d.status.getLsbD stRSM = rsm ∧ skn d = 0 ∧ levelRuns d l = true ∧
    (∀ i, i ≠ stRSM → i ≠ stSKN → i ≠ stSKN + 1 → i ≠ levelBit l → d.status.getLsbD i = c.status.getLsbD i) ∧
    d.prv = l ∧ d.pc = pcv ∧ d.obls = c.obls ∧ d.masks = c.masks ∧ d.rstpc = c.rstpc ∧ d.fpstat = c.fpstat ∧
    d.uvec = c.uvec ∧ d.gvec = c.gvec ∧ d.hvec = c.hvec ∧ d.udeleg = c.udeleg ∧ d.hdeleg = c.hdeleg

/-- Nesting (R356): a synchronous cause whose target level already runs goes to the next level whose bit is
clear, and entry then sets ESC; where the hypervisor's handler runs too, the context stops. -/
def Sys2Proof.Claims.Nesting : Prop :=
  ∀ (s : State) (x : CtxId) (k : Cause) (info : W64) (epc : VA) (asy rsm : Bool),
    let c := ctxOf s x
    let l := targetLevel c k info
    (levelRuns c l = false → escalate c l = some (l, false)) ∧
    (levelRuns c .user = true → levelRuns c .guest = false → escalate c .user = some (.guest, true)) ∧
    (levelRuns c .user = true → levelRuns c .guest = true → levelRuns c .hyp = false →
      escalate c .user = some (.hyp, true)) ∧
    (levelRuns c .guest = true → levelRuns c .hyp = false → escalate c .guest = some (.hyp, true)) ∧
    (∀ m esc, escalate c l = some (m, esc) →
      (slotOf (enterTrap s x k info epc asy rsm) x).st = .ready ∧
      (ctxOf (enterTrap s x k info epc asy rsm) x).prv = m ∧
      (ctxOf (enterTrap s x k info epc asy rsm) x).pc = (vecOf c m).setWidth 57 ∧
      bitAt (bankOf (ctxOf (enterTrap s x k info epc asy rsm) x) m).estat.toNat 9 = esc) ∧
    (escalate c l = none → (slotOf (enterTrap s x k info epc asy rsm) x).st = .stopped)

/-- TRAP, SVC and HVC take their own cause, with IMM32 as the information and the sequential successor as the
PC (R130, R361, R363): the context enters the handler at once where no write window is open and it is at its
origin; otherwise its slot is trapped until it can. -/
def Obligations.SelfTraps : Prop :=
  ∀ e ∈ Claims.selfTraps, ∀ (f : FS) (s : State) (nx : VA), Ready f.fields [] s →
    successor s (me s) allLines s.cur.nx = .ok nx →
    (windowOpen s (me s) = false → visiting s (me s) = false →
      exec (e.1 f) s = .next (enterTrap (dropYield s (me s)) (me s) e.2 (f.imm.setWidth 64) nx false false)) ∧
    (windowOpen s (me s) = false ∨ s.cur.pair = true → windowOpen s (me s) = true ∨ visiting s (me s) = true →
      ∃ t, exec (e.1 f) s = .next t ∧ (slotOf t (me s)).st = .trapped ∧
        (ctxOf t (me s)).trap = some ⟨e.2, f.imm.setWidth 64, nx, false, false⟩) ∧
    (windowOpen s (me s) = true → s.cur.pair = false → ∃ t, exec (e.1 f) s = .next t ∧ t.cur.undone = true ∧
      (slotOf t (me s)).st = (slotOf s (me s)).st ∧ (ctxOf t (me s)).pc = (myCtx s).pc)

/-- ERET and UIRET (R364, R367): the level bit is cleared, RSM too, the skip count, `sys.rstpc` and the PC come
from the bank; ERET takes its privilege from the bank and never raises it, UIRET leaves it; UIRET without a
user handler running faults ILLEGAL_ENCODING, and ERET at user level PRIVILEGE. -/
def Obligations.Returns : Prop :=
  (∀ (f : FS) (s : State), Ready f.fields [] s → (∀ o ∈ f.fields, badLiteral s o = false) →
    ((myCtx s).prv = .guest ∨ (myCtx s).prv = .hyp) →
    let c := wholeCtx s (me s)
    let b := bankOf c c.prv
    (bitsOf b.estat.toNat 0 2 ≤ prvNo c.prv → ∃ t, exec (.eret f) s = .next t ∧ SameMemory s t ∧ SameRegs s t ∧
      (let d := ctxOf t (me s)
       d.prv = prvOf (bitsOf b.estat.toNat 0 2) ∧ d.pc = b.epc.setWidth 57 ∧ d.rstpc = b.erst.setWidth 57 ∧
         levelRuns d c.prv = false ∧ d.status.getLsbD stRSM = false ∧ skn d = bitsOf b.estat.toNat 4 2 ∧
         d.obls = c.obls ∧ d.masks = c.masks ∧ d.fpstat = c.fpstat)) ∧
    (prvNo c.prv < bitsOf b.estat.toNat 0 2 → exec (.eret f) s = .next (faultHere .privilege s))) ∧
  (∀ (f : FS) (s : State), (∀ o ∈ f.fields, badLiteral s o = false) → (myCtx s).prv = .user →
    exec (.eret f) s = .next (faultHere .privilege s)) ∧
  (∀ (f : FS) (s : State), Ready f.fields [] s →
    let c := wholeCtx s (me s)
    let b := c.userBank
    (levelRuns c .user = true → ∃ t, exec (.uiret f) s = .next t ∧ SameMemory s t ∧ SameRegs s t ∧
      (let d := ctxOf t (me s)
       d.prv = c.prv ∧ d.pc = b.epc.setWidth 57 ∧ d.rstpc = b.erst.setWidth 57 ∧ levelRuns d .user = false ∧
         d.status.getLsbD stRSM = false ∧ skn d = bitsOf b.estat.toNat 4 2 ∧ d.xferid = c.xferid)) ∧
    (levelRuns c .user = false → exec (.uiret f) s = .next (faultHere .illegalEncoding s)))

/-! ## Memory, atomic and reduction instructions -/

namespace Sys2Proof.Claims

/-- An access of the issuing context at `va` passes the checks 1 to 4 of R171, reaches its home and writes no guarded
counter table. -/
def Reaches (s : State) (va : VA) (n : Need) (h : Hit) : Prop :=
  checkAccess s (me s) va n = .hit h ∧ reachesSpace s (me s) h.space = true ∧
    (n.write = true → guarded s (myPart s) (myCtx s).prv va h.pa n.size = false)

/-- An access that reaches DRAM whose channel is not gated, and finds no lost sector and, where it reads, no uncorrected
error. -/
def Clear (s : State) (va : VA) (n : Need) (h : Hit) : Prop :=
  Reaches s va n h ∧ (∃ site, h.space = .dram site ∧ (siteOf s site).gated = false) ∧ lostAt s h.pa n.size = false ∧
    (n.read = true → badAt s h.pa n.size = none)

/-- A plain access has no race, and its record has room (R284 to R286). -/
def Unraced (s : State) (h : Hit) (write : Bool) : Prop :=
  h.pte.unch = true ∨ (racePlain s (me s) (h.pa / 32) write = none ∧ recordsFull s (me s) (h.pa / 32) = false)

/-- The state in which a plain access has left its record. -/
def recorded (s : State) (h : Hit) (write : Bool) (va : VA) : State :=
  if h.pte.unch then s else recPlain s (me s) (h.pa / 32) write s.cur.pc va

/-- The previous sync operation of the issuing context has been performed: no order frame of its own waits for
transmission (R279, R301). -/
def Free (s : State) : Prop := ∀ b ∈ (pkgAt s (pkgOf (me s).core)).toSend, ownFrame (originOf s (me s)) b = false

/-- What a release waits for has come (R173, R279, R304): every earlier write of the issuing context is acknowledged,
its previous sync operation performed, and at copse scope its own frames have been applied at its package. -/
def Settled (copse : Bool) (s : State) : Prop :=
  drained s (me s) = true ∧ Free s ∧
    (copse = true → ∀ f ∈ unapplied s (pkgOf (me s).core), ownWrite (originOf s (me s)) f.body = false)

/-- An instruction of copse scope is not clamped (R305). -/
def Unclamped (f : FM) (s : State) : Prop := f.scope ≠ .copse ∨ 2 ≤ prvNo (myCtx s).prv

/-- The state after a sync operation on a word has taken its place in S and left its record. -/
def synced (s : State) (h : Hit) (acq rel write : Bool) (va : VA) : State :=
  syncWord s (me s) h acq rel write s.cur.pc va

/-- The stash bytes that a touch of `va` fills belong to no other sector: the address is bound to none, or the maps are
in their form and every sector in the core's stash lies elsewhere, but for the touched one in its own place. -/
def Alone (s : State) (va : VA) (key : Nat) : Prop :=
  ∀ m, stashBind s (me s).core (myCtx s).part va = some m →
    let base := stashOff m va - key % 32
    s.Inv ∧ ∀ e ∈ s.dir, e.2.core = (me s).core →
      (e.1 = key / 32 ∧ e.2.off = base) ∨ e.2.off + 32 ≤ base ∨ base + 32 ≤ e.2.off

end Sys2Proof.Claims

/-- A plain LD of DRAM (R175, R278): its result lands later, read from the bytes at the address when it is bound;
the access is recorded for race detection, and the context moves on. An acquire LD takes its place in S and
reads at once (R173, R279). -/
def Obligations.Loads : Prop :=
  ∀ (f : FM) (s : State) (h : Hit), Ready f.fields f.srcs s → Claims.Unclamped f s →
    let s1 := markRead f.srcs s
    let va := fmAddr f s1
    Claims.Clear s1 va (needOf f.sz.bytes true false) h → seedAt s1 (me s) h.pa f.sz.bytes = false →
    (acqOf f = false → Claims.Unraced s1 h false →
      exec (.ld f) s = .next (resultOf f.d 0 [ldPart f h] (passThrough va h false (ntOf f) (Claims.recorded s1 h false va)))) ∧
    (acqOf f = true → storeAt s1 (me s) h.pa f.sz.bytes = false → Claims.Free s1 → syncRace s1 (me s) h false = none →
      ∃ u, u = Claims.synced s1 h true false false va ∧
      exec (.ld f) s = .next (resultOf f.d (loadValue f.sz (sxOf f) (readN u h.pa f.sz.bytes)) [] u))

/-- LD of a copse word and of the flag window (R301, R303, R306): a sync operation that reads the replica or the
window; a context with a frame of its own to the word in flight parks. -/
def Sys2Proof.Claims.LoadsElsewhere : Prop :=
  ∀ (f : FM) (s : State) (h : Hit), Ready f.fields f.srcs s → Claims.Unclamped f s →
    let s1 := markRead f.srcs s
    let va := fmAddr f s1
    checkAccess s1 (me s) va (needOf f.sz.bytes true false) = .hit h →
    (∀ w, h.space = .copse w → frameTo s1 w = true →
      exec (.ld f) s = .next (parkBefore .parkedMessage (.ownFrame w) (Claims.unread f.srcs s))) ∧
    (∀ w, h.space = .copse w → frameTo s1 w = false → Claims.Free s1 → ∃ u,
      u = markOutside (syncObj s1 (me s) (2 ^ 62 + w) true false) (me s) ∧
      exec (.ld f) s = .next (resultOf f.d (loadValue f.sz (sxOf f) (readN u (hitKey s1 h) f.sz.bytes)) [] u)) ∧
    (∀ off, h.space = .hub off → Claims.Free s1 → ∃ u, u = syncObj s1 (me s) (2 ^ 63 + h.pa) true false ∧
      exec (.ld f) s = .next (resultOf f.d (loadValue f.sz (sxOf f) (readN s1 (hitKey s1 h) f.sz.bytes)) [] u))

/-- A plain ST to DRAM (R175, R278): one store is added to those that are not performed, with the address, the
length and the low bytes of its data register; no byte of memory and no register changes yet. A release ST is
performed at its home once earlier writes are acknowledged. -/
def Obligations.Stores : Prop :=
  ∀ (f : FM) (s : State) (h : Hit), Ready f.fields f.fields s → Claims.Unclamped f s →
    let s1 := markRead f.fields s
    let va := fmAddr f s1
    let n := f.sz.bytes
    let v := BitVec.ofNat 256 ((wideSrc s1 1 f.d).toNat % 2 ^ (8 * n))
    Claims.Clear s1 va (needOf n false true) h →
    (relOf f = false → seedAt s1 (me s) h.pa n = false →
      (h.pte.unch = true ∨ recordsFull s1 (me s) (h.pa / 32) = false) →
      ∃ t p, exec (.st f) s = .next t ∧ t.stores = s.stores ++ [p] ∧ p.key = h.pa ∧ p.len = n ∧ p.val = v ∧
        p.va = va ∧ p.performed = false ∧ p.ctx = originOf s (me s) ∧ (ctxOf t (me s)).pc = s.cur.nx ∧ SameRegs s t ∧
        (Claims.Alone s va h.pa → ∀ key, readByte t key = readByte s key)) ∧
    (relOf f = true → Claims.Settled (copseScope f.scope s1) s1 → syncRace s1 (me s) h true = none →
      exec (.st f) s = .next (advance (homeWrite h n v.toNat (Claims.synced s1 h false true true va))))

/-- ST to a copse word sends an order frame with the word and the value; to the flag window it writes the window
at once; both are sync operations (R301, R306). A store to a word of a copse barrier faults PROTECTION (R240). -/
def Sys2Proof.Claims.StoresElsewhere : Prop :=
  ∀ (f : FM) (s : State) (h : Hit), Ready f.fields f.fields s → Claims.Unclamped f s →
    let s1 := markRead f.fields s
    let va := fmAddr f s1
    let v := storeValue f s1
    checkAccess s1 (me s) va (needOf f.sz.bytes false true) = .hit h →
    guarded s1 (myPart s1) (myCtx s1).prv va h.pa f.sz.bytes = false →
    (∀ w, h.space = .copse w → barrierWord s1 w = true →
      exec (.st f) s = .next (fault .protection (va.setWidth 64) (Claims.unread f.fields s))) ∧
    (∀ w, h.space = .copse w → barrierWord s1 w = false → Claims.Settled (copseScope f.scope s1) s1 →
      exec (.st f) s = .next (advance (sendFrame (markOutside s1 (me s)) (pkgOf (me s).core)
        (.store w (myCtx s).part (v.setWidth 64) (originOf s (me s)))))) ∧
    (∀ off, h.space = .hub off → Claims.Settled false s1 →
      exec (.st f) s = .next (advance (writeN (syncObj s1 (me s) (2 ^ 63 + h.pa) false true) (hitKey s1 h)
        f.sz.bytes v.toNat)))

/-- The order of the checks of a load or store (R171): a misaligned address faults ALIGNMENT before translation
and protection are looked at; an address that no table maps faults TRANSLATION; one whose page or region denies
the access faults PROTECTION. The information is the address. An access that passes them waits while the channel of its
address is gated (R455). -/
def Obligations.AccessFaults : Prop :=
  ∀ e ∈ ([(.ld, false), (.st, true)] : List ((FM → Instr) × Bool)), ∀ (f : FM) (s : State),
    let rs := if e.2 then f.fields else f.srcs
    Ready f.fields rs s → Claims.Unclamped f s →
    let s1 := markRead rs s
    let s0 := Claims.unread rs s
    let va := fmAddr f s1
    (va.toNat % f.sz.bytes ≠ 0 → exec (e.1 f) s = .next (fault .alignment (va.setWidth 64) s0)) ∧
    (va.toNat % f.sz.bytes = 0 → tlbLook s1 (me s).core (myCtx s).part va = none →
      walkHeld s1 (myPart s) va = .fault false → exec (e.1 f) s = .next (fault .translation (va.setWidth 64) s0)) ∧
    (∀ p, va.toNat % f.sz.bytes = 0 → tlbLook s1 (me s).core (myCtx s).part va = some p →
      ((e.2 = false ∧ p.pte.getLsbD 1 = false) ∨
        ((e.2 = true → p.pte.getLsbD 10 = true) ∧ (myCtx s).prv = .user ∧ p.pte.getLsbD 4 = false) ∨
        (e.2 = true ∧ p.pte.getLsbD 10 = true ∧ p.pte.getLsbD 2 = false)) →
      exec (e.1 f) s = .next (fault .protection (va.setWidth 64) s0)) ∧
    (∀ h site, Claims.Reaches s1 va (needOf f.sz.bytes (!e.2) e.2) h → h.space = .dram site →
      (siteOf s site).gated = true → exec (e.1 f) s = .next (parkBefore .parkedMemory (.channel site) s0))

/-- GTH and SCT whose selected lanes all pass their checks, with no race, no seed and room for their records (R176):
GTH's result takes the selected lanes from memory and keeps the others, and SCT posts one store for each lane, in
order. -/
def Obligations.GatherScatter : Prop :=
  (∀ (f : FM) (s : State) (hs : Nat → Hit), Ready f.fields (f.d :: f.srcs) s →
    let s1 := markRead (f.d :: f.srcs) s
    let n := f.sz.bytes
    let old := nat256 (packLanes (8 * n) ((upto (vecLanes f)).map fun i =>
      bitsOf (wideSrc s1 1 f.d).toNat (8 * n * i) (8 * n)))
    (∀ i ∈ vecOn f s1, Claims.Clear s1 (vecAddr f s1 i) (needOther n true false) (hs i) ∧
      seedAt s1 (me s) (hs i).pa n = false ∧ Claims.Unraced s1 (hs i) false) →
    exec (.gth f) s = .next (resultOf f.d old
      ((vecOn f s1).map fun i => ⟨(hs i).pa, n, 8 * n * i, 8 * n, false⟩)
      ((vecOn f s1).foldl (fun u i => passThrough (vecAddr f s1 i) (hs i) false (ntOf f) u)
        ((vecOn f s1).foldl (fun u i => Claims.recorded u (hs i) false (vecAddr f s1 i)) s1)))) ∧
  (∀ (f : FM) (s : State) (hs : Nat → Hit), Ready f.fields f.fields s →
    let s1 := markRead f.fields s
    let n := f.sz.bytes
    (∀ i ∈ vecOn f s1, Claims.Clear s1 (vecAddr f s1 i) (needOther n false true) (hs i) ∧
      seedAt s1 (me s) (hs i).pa n = false ∧
      ((hs i).pte.unch = true ∨ recordsFull s1 (me s) ((hs i).pa / 32) = false)) →
    exec (.sct f) s = .next (advance ((vecOn f s1).foldl (fun u i =>
      postStore (laneInfo i) (vecAddr f s1 i) (hs i) n
        (BitVec.ofNat 256 (bitsOf (wideSrc s1 1 f.d).toNat (8 * n * i) (8 * n))) (ntOf f) u) s1)))

/-- LDFE and LDFC (R64, R178): of a full word both read it, and LDFE leaves it empty; of an empty one both wait
where the word's rank lies below `sys.obmin`, and fault RANK_ORDER where it does not; a poisoned word faults
POISONED. -/
def Obligations.FullEmptyLoads : Prop :=
  ∀ e ∈ ([(.ldfe, true), (.ldfc, false)] : List ((FM → Instr) × Bool)), ∀ (f : FM) (s : State) (h : Hit),
    Ready f.fields f.srcs s → Claims.Unclamped f s → tableHeld s (me s) = false →
    let s1 := markRead f.srcs s
    let s0 := Claims.unread f.srcs s
    let va := fmAddr f s1
    Claims.Free s1 → Claims.Clear s1 va (needFe true false) h →
    seedAt s1 (me s) h.pa 8 = false → storeAt s1 (me s) h.pa 8 = false →
    ((feOf s1 h.pa).full = true → (feOf s1 h.pa).poison = false → syncRace s1 (me s) h e.2 = none →
      let u := Claims.synced s1 h true false e.2 va
      exec (e.1 f) s = .next (resultOf f.d (nat256 (readN u h.pa 8)) []
        (if e.2 then setFe u h.pa ⟨false, false, .none⟩ else u))) ∧
    ((feOf s1 h.pa).full = true → (feOf s1 h.pa).poison = true →
      exec (e.1 f) s = .next (fault .poisoned 0 s0)) ∧
    ((feOf s1 h.pa).full = false → h.pte.rank < obminOf (myCtx s) →
      exec (e.1 f) s = .next (ranked h.pte.rank (parkOn .parkedSync (.word h.pa e.2) (destOf s1 f.d)
        (mod s1 fun c => { c with waitVa := va })))) ∧
    ((feOf s1 h.pa).full = false → obminOf (myCtx s) ≤ h.pte.rank →
      exec (e.1 f) s = .next (fault .rankOrder (BitVec.ofNat 64 (obminOf (myCtx s) * 65536 + h.pte.rank)) s0))

/-- STFL fills a word and discharges the context's FILL count for it; EMPT reads and empties it, records the
context as its holder and gives it a FILL obligation of the page's rank unless it holds one; either faults
FOREIGN_FILL where another holder owes the word (R177, R179, R180). -/
def Obligations.FullEmptyStores : Prop :=
  (∀ (f : FM) (s : State) (h : Hit), Ready f.fields f.fields s → Claims.Unclamped f s → tableHeld s (me s) = false →
    let s1 := markRead f.fields s
    let va := fmAddr f s1
    Claims.Clear s1 va (needFe false true) h → Claims.Settled (copseScope f.scope s1) s1 →
    (foreign s1 h.pa = true →
      exec (.stfl f) s = .next (fault .foreignFill (va.setWidth 64) (Claims.unread f.fields s))) ∧
    (foreign s1 h.pa = false → syncRace s1 (me s) h true = none →
      exec (.stfl f) s = .next (advance (mod (fillWord
        (homeWrite h 8 ((wideSrc s1 1 f.d).toNat % 2 ^ 64) (Claims.synced s1 h false true true va)) h.pa none false)
        fun c => dischargeObl c .fill (va.setWidth 64) 1)))) ∧
  (∀ (f : FM) (s : State) (h : Hit), Ready f.fields f.srcs s → Claims.Unclamped f s → tableHeld s (me s) = false →
    let s1 := markRead f.srcs s
    let s0 := Claims.unread f.srcs s
    let va := fmAddr f s1
    Claims.Clear s1 va (needFe true true) h → Claims.Settled (copseScope f.scope s1) s1 →
    (foreign s1 h.pa = true → exec (.empt f) s = .next (fault .foreignFill (va.setWidth 64) s0)) ∧
    (foreign s1 h.pa = false → findObl (myCtx s) .fill (va.setWidth 64) = none → freeEntry (myCtx s) = none →
      exec (.empt f) s = .next (fault .oblOverflow 0 s0)) ∧
    (foreign s1 h.pa = false → freeEntry (myCtx s) ≠ none ∨ findObl (myCtx s) .fill (va.setWidth 64) ≠ none →
      syncRace s1 (me s) h true = none → ∃ u,
        exec (.empt f) s = .next (resultOf f.d (nat256 (readN s1 h.pa 8)) [] u) ∧ SameRegs s u ∧
        (∀ key, readByte u key = readByte s key) ∧
        feOf u h.pa = ⟨false, false, .ctx (myPart s) (refOf s (me s))⟩ ∧
        (∀ a, a / 8 ≠ h.pa / 8 → feOf u a = feOf s a) ∧
        (ctxOf u (me s)).obls = (match findObl (myCtx s) .fill (va.setWidth 64) with
          | some _ => (myCtx s).obls
          | none => ((takeObl (myCtx s) .fill (va.setWidth 64) h.pte.rank 1).getD (myCtx s)).obls)))

/-- STMAP, STUNMAP, STAG and LDT (R156, R182 to R184, R347): a context outside the core's resident launch may not
change the mapping; STMAP binds a descriptor that passes the checks of R182, on every page of its range, and faults
with the code of the first that fails; STUNMAP clears an entry; STAG writes the tag of the bound tile; LDT binds its
data with the tag it expects and else faults SCHEDULE; both fault with code 6 at an address that is not bound. -/
def Obligations.StashInstructions : Prop :=
  (∀ (f : FM) (s : State), Ready f.fields f.srcs s →
    let s1 := markRead f.srcs s
    let s0 := Claims.unread f.srcs s
    let core := (me s).core
    let part := (myCtx s).part
    let va := fmAddr f s1
    let desc := src64 s1 f.c
    let inside := (myCore s).resident = some (launchKey part (myCtx s).grp)
    let code := fun n : Nat => BitVec.ofNat 64 (15 * 2 ^ 60 + n)
    let pages := va :: ((upto 9).map fun i => BitVec.ofNat 57 ((va.toNat / 65536 + 1 + i) * 65536)).filter
      fun p => decide (p.toNat < va.toNat + bitsOf desc.toNat 32 9 * 1024)
    (inside → exec (.stunmap f) s = .next (advance (unmapEntry s1 core (bitsOf desc.toNat 0 6)))) ∧
    (¬ inside → exec (.stunmap f) s = .next (fault .protection (code 1) s0)) ∧
    (∀ hs : VA → Hit, (∀ p ∈ pages, Claims.Reaches s1 p ⟨1024, true, false, false, false, true⟩ (hs p)) →
      let bad := stmapCheck (myCore s) part va.toNat desc (pages.any fun p => (hs p).pte.fe || (hs p).pte.cps)
      (¬ inside → exec (.stmap f) s = .next (fault .protection (code 1) s0)) ∧
      (inside → bad = none → exec (.stmap f) s = .next (advance (bindStash s1 core part va.toNat desc))) ∧
      (∀ n e, inside → bad = some (n, e) → exec (.stmap f) s = .next (fault .protection (code (e * 256 + n)) s0))) ∧
    (∀ h, Claims.Clear s1 va (needOther f.sz.bytes true false) h →
      (stashBind s1 core part va = none → exec (.ldt f) s = .next (fault .protection (code 6) s0)) ∧
      (∀ m, stashBind s1 core part va = some m →
        let tag := tileTag (myCore s) (stashOff m va)
        let want : BitVec 16 := desc.setWidth 16
        let r := Claims.recorded (newRegion s1 (me s)) h false va
        (tag ≠ want ∨ tag = 0xFFFF →
          exec (.ldt f) s = .next (fault .schedule (BitVec.ofNat 64 (tag.toNat + want.toNat * 65536)) s0)) ∧
        (tag = want → tag ≠ 0xFFFF → seedAt s1 (me s) h.pa f.sz.bytes = false →
          Claims.Unraced (newRegion s1 (me s)) h false →
          exec (.ldt f) s = .next (bindThis (resultOf f.d 0 [ldPart f h] (passThrough va h false false r)) core
            ⟨r.ids, originOf s (me s), [ldPart f h]⟩))))) ∧
  (∀ (f : FM) (s : State) (h : Hit), Ready f.fields f.fields s →
    let s1 := markRead f.fields s
    let va := fmAddr f s1
    Claims.Reaches s1 va (needOther 1 false false) h →
    (stashBind s1 (me s).core (myCtx s).part va = none →
      exec (.stag f) s = .next (fault .protection (BitVec.ofNat 64 (15 * 2 ^ 60 + 6)) (Claims.unread f.fields s))) ∧
    (∀ m, stashBind s1 (me s).core (myCtx s).part va = some m →
      ∃ t, exec (.stag f) s = .next t ∧ MovedOn s t ∧ SameMemory s t ∧ SameRegs s t ∧
        (coreOf t (me s).core).tags =
          Map.put (myCore s).tags (stashOff m va / 1024) ((wideSrc s1 1 f.d).setWidth 16)))

/-- WBK and INV of a DRAM line act on the copies that caches hold and move on, of any other word they only move on
(R186); WBK leaves every byte as every context reads it, and the line's bytes stand in memory. PFR of no bytes fills its token with 0; any other empties
it, makes the prefetcher its holder and starts the fetch (R177, R185). -/
def Sys2Proof.Claims.CacheControl : Prop :=
  (∀ (f : FM) (s : State) (h : Hit), Ready f.fields f.srcs s →
    let s1 := markRead f.srcs s
    let va := fmAddr f s1
    Claims.Reaches s1 va cacheNeed h →
    ((∃ site, h.space = .dram site) → ∃ t, t = advance (writeBackLine s1 h.pa) ∧ exec (.wbk f) s = .next t ∧
      SameMemory s t ∧ SameRegs s t ∧ MovedOn s t ∧ (s.Inv → ∀ a, a / 64 = h.pa / 64 → memGet t.mem a = readByte s a) ∧
      exec (.inv f) s = .next (advance (invLine s1 (me s).core (myCtx s).part va h.pa))) ∧
    ((∀ site, h.space ≠ .dram site) →
      exec (.wbk f) s = .next (advance s1) ∧ exec (.inv f) s = .next (advance s1))) ∧
  (∀ (f : FM) (s : State) (h : Hit), Ready f.fields f.srcs s →
    let s1 := markRead f.srcs s
    let tva : VA := (src64 s1 f.c).setWidth 57
    let len := min (src64 s1 f.b).toNat 0x4000000
    Claims.Clear s1 tva (needFe false true) h →
    (foreign s1 h.pa = true →
      exec (.pfr f) s = .next (fault .foreignFill (tva.setWidth 64) (Claims.unread f.srcs s))) ∧
    (foreign s1 h.pa = false → len = 0 → exec (.pfr f) s = .next (advance (fillWord
      (logUndo (fresh s1).2 (myPart s) (refOf s (me s)) (myCtx s).tx h.pte.disc h.pa) h.pa (some 0) false))) ∧
    (foreign s1 h.pa = false → 0 < len → ∃ t n, exec (.pfr f) s = .next t ∧ (ctxOf t (me s)).pc = s.cur.nx ∧
      feOf t h.pa = ⟨false, false, .prefetcher n⟩ ∧ SameRegs s t ∧ (∃ due, (due, .prefetchCompletion n) ∈ t.agenda) ∧
      t.prefetches = s.prefetches ++ [⟨n, (me s).core, myPart s, ea (src64 s1 f.a) 0 0 f.off, len, h.pa, (myCtx s).prv,
        (myCtx s).pkey⟩]))

/-- The three fences (R187, R188): each waits until the context's earlier writes are acknowledged, FENCE and
FENCE_ENG also for the results of its earlier accesses; then FENCE is an acquire and a release, at part scope where
its copse scope is clamped (R305), FENCE_CODE drops the held line, and FENCE_ENG waits for the context's engine
jobs. -/
def Sys2Proof.Claims.Fences : Prop :=
  ∀ (f : FS) (s : State), Ready f.fields [] s →
    (drained s (me s) = false →
      exec (.fenceCode f) s = .next (parkBefore .parkedMemory .drain s) ∧
      exec (.fenceEng f) s = .next (parkBefore .parkedMemory .drain s)) ∧
    (loadsOut s (me s) = true → exec (.fenceEng f) s = .next (parkBefore .parkedMemory .drain s)) ∧
    (drained s (me s) = true → exec (.fenceCode f) s = .next (advance (mod s fun c =>
      { c with
        line := none
        codeSeen := s.lineOld.length }))) ∧
    (drained s (me s) = true → loadsOut s (me s) = false →
      (hasJobs s (me s) = false → exec (.fenceEng f) s = .next (advance s)) ∧
      (hasJobs s (me s) = true → exec (.fenceEng f) s = .next (parkBefore .parkedMemory .drain s))) ∧
    (loadsOut s (me s) = true ∨ ¬ Claims.Settled (fenceCopse f s) s →
      exec (.fence f) s = .next (parkBefore .parkedMemory .drain s)) ∧
    (loadsOut s (me s) = false → Claims.Settled (fenceCopse f s) s →
      (bitsOf f.imm.toNat 0 3 ≠ 5 ∨ 2 ≤ prvNo (myCtx s).prv →
        exec (.fence f) s = .next (advance (syncObj s (me s) 0 true true))) ∧
      (bitsOf f.imm.toNat 0 3 = 5 → prvNo (myCtx s).prv < 2 → (myCtx s).held = none →
        exec (.fence f) s = .next (advance (syncObj (clampStep s) (me s) 0 true true))))

/-- The operations of ATOM and RED on a word (R190), as operations on words of the access's width. -/
def Sys2Proof.Claims.AtomOperations : Prop :=
  ∀ (w m v x : Nat), 0 < w → m < 2 ^ w → v < 2 ^ w →
    let a := BitVec.ofNat w m
    let b := BitVec.ofNat w v
    atomNew 0 w m v x = (a + b).toNat ∧
    atomNew 1 w m v x = (if b.toInt < a.toInt then b else a).toNat ∧
    atomNew 2 w m v x = (if a.toInt < b.toInt then b else a).toNat ∧
    atomNew 3 w m v x = (if b.toNat < a.toNat then b else a).toNat ∧
    atomNew 4 w m v x = (if a.toNat < b.toNat then b else a).toNat ∧
    atomNew 5 w m v x = (a &&& b).toNat ∧ atomNew 6 w m v x = (a ||| b).toNat ∧
    atomNew 7 w m v x = (a ^^^ b).toNat ∧ atomNew 8 w m v x = b.toNat ∧
    (m = x → atomNew 9 w m v x = b.toNat) ∧ (m ≠ x → atomNew 9 w m v x = a.toNat)

/-- ATOM (R173, R189 to R191): on DRAM its context travels to the word's home core where it may, and else the home
performs the operation at the instruction's place in S and D gets the old value, as for the flag window; on a copse
word it sends an order frame and waits for the frame's application. RED sends a seed with its value, or to a copse
word an order frame, and passes on one act of the DONE entry that C names (R192). -/
def Sys2Proof.Claims.Atomics : Prop :=
  (∀ (f : FM) (s : State) (h : Hit), Ready f.fields f.srcs s → Claims.Unclamped f s →
    let s1 := markRead f.srcs s
    let va := fmAddr f s1
    let dbl := f.sz == .b64
    (Claims.Clear s1 va (needOf f.sz.bytes true true) h → Claims.Settled (copseScope f.scope s1) s1 →
      syncRace s1 (me s) h true = none →
      (atomTravels s1 h = none → ∃ r u, r = Claims.synced s1 h true true true va ∧
        u = atomAt r (me s) h f.min.toNat dbl (src256 r 0 f.c) ∧
        u.1 = readN r (memKey (pkgOf (me s).core) h.pa) (atomBytes dbl) ∧
        exec (.atom f) s = .next (resultOf f.d (atomOld dbl (sxOf f) u.1) [] u.2)) ∧
      (∀ c, atomTravels s1 h = some c → s.cur.pair = true ∨ windowQuiet s1 (me s) = true →
        exec (.atom f) s = .next (leaveFor c f.d false
          (some ⟨f.min.toNat, dbl, sxOf f, va, h.pa, h.pte, src256 s1 0 f.c, s.cur.pc, s.cur.pc0, none⟩) s1))) ∧
    (Claims.Reaches s1 va (needOf f.sz.bytes true true) h →
      (∀ off, h.space = .hub off → Claims.Settled false s1 → ∃ r u,
        r = syncObj s1 (me s) (2 ^ 63 + h.pa) true true ∧
        u = atomAt r (me s) h f.min.toNat dbl (src256 r 0 f.c) ∧
        exec (.atom f) s = .next (resultOf f.d (atomOld dbl (sxOf f) u.1) [] u.2)) ∧
      (∀ w, h.space = .copse w → barrierWord s1 w = true →
        exec (.atom f) s = .next (fault .protection (va.setWidth 64) (Claims.unread f.srcs s))) ∧
      (∀ w, h.space = .copse w → barrierWord s1 w = false → Claims.Settled (copseScope f.scope s1) s1 →
        exec (.atom f) s = .next (parkOn .parkedMessage .reply (destOf s1 f.d) (sendFrame (markOutside s1 (me s))
          (pkgOf (me s).core) (.atomic f.min.toNat w (myCtx s).part
            (BitVec.ofNat 64 (atomVal dbl (src256 s1 0 f.c))) (BitVec.ofNat 64 (atomExpected dbl (src256 s1 0 f.c)))
            (originOf s (me s)) .none (sxOf f))))))) ∧
  (∀ (f : FM) (s : State) (h : Hit), Ready f.fields f.fields s → Claims.Unclamped f s →
    (f.c = .z ∨ tableHeld s (me s) = false) →
    let s1 := markRead f.fields s
    let s0 := Claims.unread f.fields s
    let va := fmAddr f s1
    let full := limitOf s1 (myPart s) 6 0xFFFF ≤ seedsOf s1 (myPart s)
    Claims.Reaches s1 va (needOf f.sz.bytes true true) h → Claims.Free s1 →
    (∀ site, h.space = .dram site → (siteOf s site).gated = false ∧ lostAt s1 h.pa f.sz.bytes = false) →
    (f.c ≠ .z → strayCounter (src64 s1 f.c) = true →
      exec (.red f) s = .next (fault .protectionPart (src64 s1 f.c) s0)) ∧
    (f.c = .z ∨ strayCounter (src64 s1 f.c) = false →
      (redCarries f s1 = none → exec (.red f) s = .next (fault .oblMissing (src64 s1 f.c) s0)) ∧
      (∀ o, redCarries f s1 = some o →
        let kept := match o with
          | some e => (dischargeObl (myCtx s) .done e.handle 1).obls
          | none => (myCtx s).obls
        ((∀ w, h.space ≠ .copse w) → storeAt s1 (me s) h.pa (atomBytes (f.sz == .b64)) = false →
          (full → exec (.red f) s = .next (throttle .throttled true s1)) ∧
          (¬ full → ∃ t e, exec (.red f) s = .next t ∧ t.seeds = s.seeds ++ [e] ∧ (ctxOf t (me s)).pc = s.cur.nx ∧
            e.key = hitKey s1 h ∧ e.op = redOp f.min.toNat ∧ e.val = (wideSrc s1 1 f.d).setWidth 64 ∧ e.carried = o ∧
            e.ctx = originOf s (me s) ∧ (ctxOf t (me s)).obls = kept ∧ SameMemory s t ∧ SameRegs s t)) ∧
        (∀ w, h.space = .copse w → barrierWord s1 w = true →
          exec (.red f) s = .next (fault .protection (va.setWidth 64) s0)) ∧
        (∀ w, h.space = .copse w → barrierWord s1 w = false → ¬ full →
          (pkgAt s1 (pkgOf (me s).core)).viral = false → ∃ u, (ctxOf u (me s)).obls = kept ∧ SameMemory s u ∧
            SameRegs s u ∧ exec (.red f) s = .next (advance (sendFrame u (pkgOf (me s).core)
              (.red (redOp f.min.toNat) w (myCtx s).part ((wideSrc s1 1 f.d).setWidth 64) (originOf s (me s)) o)))))))

/-- What LD, ST and ATOM do once their scope is settled: constructor, what it reads, its effect. -/
def Sys2Proof.Claims.scoped : List ((FM → Instr) × (FM → List Opnd) × (FM → State → State)) :=
  [(.ld, fun f => f.srcs, fun f u => access (fmAddr f u) (needOf f.sz.bytes true false) (loadHit f (fmAddr f u)) u),
   (.st, fun f => f.fields, fun f u => access (fmAddr f u) (needOf f.sz.bytes false true) (storeHit f (fmAddr f u)) u),
   (.atom, fun f => f.srcs, fun f u => access (fmAddr f u) (needOf f.sz.bytes true true) (atomHit f (fmAddr f u)) u)]

/-- LD, ST or ATOM of copse scope at user or guest kernel level acts as at part scope, sets `sys.status.clamp` and
counts one in `sys.clampcnt`, which saturates; one that is not performed counts nothing (R305, entry 109). -/
def Obligations.ScopeClamp : Prop :=
  (∀ e ∈ Claims.scoped, ∀ (f : FM) (s : State), Ready f.fields (e.2.1 f) s → f.scope = .copse →
    prvNo (myCtx s).prv < 2 →
    let s1 := markRead (e.2.1 f) s
    let k := e.2.2 f
    ((k s1).cur.undone = true → (k s).cur.undone = true → exec (e.1 f) s = .next (k (Claims.unread (e.2.1 f) s))) ∧
    ((k s1).cur.undone = false → (myCtx (k s1)).held = none → (k (clampStep s1)).cur.undone = false →
      exec (e.1 f) s = .next (k (clampStep s1))) ∧
    ((k s1).cur.undone = false → (myCtx (k s1)).held ≠ none → exec (e.1 f) s = .next (k s1))) ∧
  (∀ s : State, visiting s (me s) = false → (ctxOf (clampStep s) (me s)).clampcnt =
      (if (myCtx s).clampcnt = BitVec.allOnes 64 then BitVec.allOnes 64 else (myCtx s).clampcnt + 1)) ∧
  (∀ s : State, (ctxOf (clampStep s) (me s)).status.getLsbD stCLAMP = true)

/-! ## The context, obligations and ranks -/

/-- A wait of a context is legal exactly where the rank of its object lies below `sys.obmin`, the least rank of
its table's valid entries; the information holds both (R63, R64). -/
def Sys2Proof.Claims.WaitLegality : Prop :=
  ∀ (s : State) (x : CtxId) (w : Nat), w < 0x10000 →
    (∀ e ∈ (ctxOf s x).obls, e.2.rank < 0x10000) →
    (waitCheck s x w = none ↔ ∀ e ∈ (ctxOf s x).obls, w < e.2.rank) ∧
    (∀ i, waitCheck s x w = some i → bitsOf i.toNat 0 16 = w ∧ bitsOf i.toNat 16 17 = obminOf (ctxOf s x)) ∧
    ((ctxOf s x).obls = [] → obminOf (ctxOf s x) = 0x10000) ∧
    (∀ e ∈ (ctxOf s x).obls, obminOf (ctxOf s x) ≤ e.2.rank) ∧
    ((ctxOf s x).obls ≠ [] → ∃ e ∈ (ctxOf s x).obls, obminOf (ctxOf s x) = e.2.rank)

/-- Taking and discharging acts of an obligation (R68): a take adds to the entry of its kind and handle, or opens
the lowest free one, and fails where the count would pass 65535 or no entry is free; a discharge lowers the
count and frees an entry that reaches zero. -/
def Sys2Proof.Claims.ObligationTable : Prop :=
  ∀ (c : Ctx) (k : OblKind) (h : W64) (r n : Nat), 0 < n → Map.sorted c.obls = true →
    (∀ i e, findObl c k h = some (i, e) → e.count + n ≤ 65535 →
      ∃ d, takeObl c k h r n = some d ∧ Map.get? d.obls i = some { e with count := e.count + n } ∧
        ∀ j, j ≠ i → Map.get? d.obls j = Map.get? c.obls j) ∧
    (∀ i e, findObl c k h = some (i, e) → 65535 < e.count + n → takeObl c k h r n = none) ∧
    (∀ i, findObl c k h = none → freeEntry c = some i → n ≤ 65535 →
      ∃ d, takeObl c k h r n = some d ∧ Map.get? d.obls i = some ⟨k, h, r, n, 0⟩ ∧
        ∀ j, j ≠ i → Map.get? d.obls j = Map.get? c.obls j) ∧
    (findObl c k h = none → freeEntry c = none → takeObl c k h r n = none) ∧
    (∀ i e, findObl c k h = some (i, e) → n < e.count →
      Map.get? (dischargeObl c k h n).obls i = some { e with count := e.count - n }) ∧
    (∀ i e, findObl c k h = some (i, e) → e.count ≤ n → Map.get? (dischargeObl c k h n).obls i = none) ∧
    (findObl c k h = none → dischargeObl c k h n = c)

/-- RKSPLIT (R84): an interval outside the context's, or empty, faults RANK_RANGE; with MIN 0 it writes the
descriptor of the interval to D and changes nothing else; with MIN 1 the interval becomes the context's. -/
def Obligations.RankSplit : Prop :=
  ∀ (f : FR) (s : State), Ready f.fields f.srcs s →
    let s1 := markRead f.srcs s
    let lo := (src64i s1 f.imm20 f.a).toNat
    let hi := (src64i s1 f.imm20 f.b).toNat
    let c := myCtx s
    let legal := c.rklo ≤ lo ∧ lo < hi ∧ hi ≤ c.rkhi
    (¬ legal → exec (.rksplit f) s = .next (fault .rankRange 0 (Claims.unread f.srcs s))) ∧
    (legal → f.min = 0 → ∃ t, exec (.rksplit f) s = .next t ∧ t = Claims.opened 2 f.d (nat256 (hi * 65536 + lo)) s1 ∧
      SameAll s t ∧ MovedOn s t) ∧
    (legal → f.min ≠ 0 → ∃ t, exec (.rksplit f) s = .next t ∧ SameAll s t ∧
      ctxOf t (me s) = { c with pc := s.cur.nx, entry := .flow, source := s.cur.src, rklo := lo, rkhi := hi })

/-- The rank that the handle of an obligation resolves to (R80): of the receiving port, the gate, the counter's entry
or the page of the word. -/
def Sys2Proof.Claims.Resolves (s : State) (kind : OblKind) (h : W64) (r : Nat) : Prop :=
  match kind with
  | .feed => feedRank s h = some r
  | .gate => ∃ g, getGate s (myPart s).pkg h = some g ∧ aclS g (myCtx s).part = true ∧ g.rank = r
  | _ => (∃ c, doneCounter h = some c ∧ badCounter s (myPart s) h = false ∧ ctrRank (counterEntry s (myPart s) c) = r) ∨
      (doneCounter h = none ∧ ∃ hit, Clear s (h.setWidth 57) (needFe true false) hit ∧ hit.pte.rank = r)

/-- OBL, XFER, POISON and OBQ (R80 to R83): OBL takes acts of the object its handle resolves to, at its rank, or faults
as the object's chapter says; POISON and XFER of acts that the table does not hold fault OBL_MISSING with the handle;
POISON performs the acts with the poison mark and discharges them; XFER sends an offer to a live context, and has its
status at once where the target is the context itself or names none; OBQ reads the table and changes nothing. -/
def Obligations.ObligationInstructions : Prop :=
  ∀ (f : FR) (s : State), Ready f.fields f.srcs s → tableHeld s (me s) = false →
    let s1 := markRead f.srcs s
    let s0 := Claims.unread f.srcs s
    let c := myCtx s
    let kind := kindOf f.min.toNat
    let ha := src64i s1 f.imm20 f.a
    let hb := src64i s1 f.imm20 f.b
    let nb := hb.toNat
    (∀ r, Claims.Resolves s1 kind ha r →
      (∀ d, takeObl c kind ha r nb = some d →
        exec (.obl f) s = .next (advance (openTable (mod s1 fun _ => d) (destOf s1 f.d) (nat256 r)))) ∧
      (takeObl c kind ha r nb = none → exec (.obl f) s = .next (fault .oblOverflow 0 s0))) ∧
    (kind = .feed → feedRank s1 ha = none → exec (.obl f) s = .next (fault .rankRange 0 s0)) ∧
    (kind = .gate → getGate s1 (myPart s).pkg ha = none → exec (.obl f) s = .next (fault .gateStale ha s0)) ∧
    (∀ g, kind = .gate → getGate s1 (myPart s).pkg ha = some g → aclS g c.part = false →
      exec (.obl f) s = .next (fault .gateDenied ha s0)) ∧
    (∀ n, kind = .done → doneCounter ha = some n → badCounter s1 (myPart s) ha = true →
      exec (.obl f) s = .next (fault .protectionPart ha s0)) ∧
    ((findObl c kind ha = none ∨ ∃ i e, findObl c kind ha = some (i, e) ∧ actCount e nb = none) →
      exec (.poison f) s = .next (fault .oblMissing ha s0)) ∧
    (∀ i e n, findObl c kind ha = some (i, e) → actCount e nb = some n →
      let done := fun u : State => exec (.poison f) s = .next (poisonNow kind ha n u)
      (kind = .feed → done s1) ∧
      (kind ≠ .feed → Claims.Settled false s1 →
        (∀ hit, poisonWord s1 kind ha = some hit → syncRace s1 (me s) hit true = none →
          done (Claims.synced s1 hit false true true (ha.setWidth 57))) ∧
        (poisonWord s1 kind ha = none →
          (kind = .bar → (handleCps ha = true ∨ reachesHome s1 (me s) (handleSite ha) = true) ∧
            ∃ b, getBarrier s1 (myPart s).pkg ha = some b ∧ b.part = c.part) →
          done (if poisonSent s1 kind ha then s1 else syncObj s1 (me s) (objName kind ha) false true)))) ∧
    ((findObl c kind hb = none ∨
        ∃ i e, findObl c kind hb = some (i, e) ∧ actCount e (src64i s1 f.imm20 f.c).toNat = none) →
      exec (.xfer f) s = .next (fault .oblMissing hb s0)) ∧
    (∀ i e n, findObl c kind hb = some (i, e) → actCount e (src64i s1 f.imm20 f.c).toNat = some n →
      (xferTarget s1 f = none → exec (.xfer f) s = .next (result f.d (nat256 1) s1)) ∧
      (xferTarget s1 f = some (refOf s (me s)) → exec (.xfer f) s = .next (result f.d 0 s1)) ∧
      (∀ r, xferTarget s1 f = some r → r ≠ refOf s (me s) →
        (xferDropped s1 r = true → exec (.xfer f) s = .next (dropped hb s0)) ∧
        (xferDropped s1 r = false → refLive s1 (myPart s) r = false →
          exec (.xfer f) s = .next (result f.d (nat256 1) s1)) ∧
        (xferDropped s1 r = false → refLive s1 (myPart s) r = true →
          exec (.xfer f) s = .next (sendOffer r kind e n f.d s1)))) ∧
    (∃ t, exec (.obq f) s = .next t ∧ SameMemory s t ∧ SameRegs s t ∧ MovedOn s t ∧
      (∀ g, f.d = .g g → ∃ p, (coreOf t (me s).core).vpend = (myCore s).vpend ++ [p] ∧ p.val = obqValue f s1 ∧
        p.dst = destOf s f.d ∧ p.due ≤ (myCore s).cyc + 4)) ∧
    (f.min = 0 → ∀ e, Map.get? c.obls (bitsOf (src64i s1 f.imm20 f.a).toNat 0 4) = some e → e.rank < 2 ^ 16 →
      availObl e < 2 ^ 16 → let v := (obqValue f s1).toNat
        bitsOf v 0 64 = e.handle.toNat ∧ bitsOf v 64 16 = e.rank ∧ bitsOf v 80 16 = availObl e ∧
          bitsOf v 96 3 = kindNo e.kind ∧ bitsOf v 99 157 = 1) ∧
    (f.min = 0 → Map.get? c.obls (bitsOf (src64i s1 f.imm20 f.a).toNat 0 4) = none → obqValue f s1 = 0)

/-- The context may leave: a pair's accesses and results are looked after, else its writes are acknowledged and its
window is quiet (R109). -/
def Sys2Proof.Claims.MayLeave (s : State) : Prop :=
  s.cur.pair = true ∨ (drained s (me s) = true ∧ windowQuiet s (me s) = true)

/-- MIGR and HOME (R100, R109): status 2 where the window or a handler forbids travel, 1 where the context is there
already, 3 where its state does not fit the message, 4 where the address names no core that it can reach; a context
that may go waits for its accesses and registers and then leaves in a migration message. -/
def Sys2Proof.Claims.Migration : Prop :=
  ∀ (f : FR) (s : State), Ready f.fields f.srcs s →
    let s1 := markRead f.srcs s
    let s0 := Claims.unread f.srcs s
    let x := me s
    let va : VA := (src64i s1 f.imm20 f.a).setWidth 57
    let tgt := checkAccess s1 x va ⟨1, true, false, false, false, true⟩
    (mayTravel s1 x = false → exec (.migr f) s = .next (result f.d 2 s1) ∧ exec (.home f) s = .next (result f.d 2 s1)) ∧
    (mayTravel s1 x = true → s.cur.pair = false → drained s1 x = false →
      exec (.migr f) s = .next (parkBefore .parkedMemory .drain s0) ∧
      exec (.home f) s = .next (parkBefore .parkedMemory .drain s0)) ∧
    (mayTravel s1 x = true → Claims.MayLeave s1 →
      (∀ k i, tgt = .fault k i → exec (.migr f) s = .next (fault k i s0)) ∧
      ((∃ p b, tgt = .copy p b) ∨ (∃ h, tgt = .hit h ∧ ∀ site, h.space ≠ .dram site) →
        exec (.migr f) s = .next (result f.d 4 s1)) ∧
      (∀ h site, tgt = .hit h → h.space = .dram site →
        let t := homeCore s1 site
        let reached := pkgOf t = pkgOf x.core ∧ reachesCore s1 x t = true ∧ (siteOf s1 t).tag = (siteOf s1 x.core).tag
        (t = x.core → exec (.migr f) s = .next (result f.d 1 s1)) ∧
        (t ≠ x.core → ¬ reached → exec (.migr f) s = .next (result f.d 4 s1)) ∧
        (t ≠ x.core → reached → canCarry s1 x = false → exec (.migr f) s = .next (result f.d 3 s1)) ∧
        (t ≠ x.core → reached → canCarry s1 x = true → exec (.migr f) s = .next (leaveFor t f.d false none s1))) ∧
      ((originOf s1 x).core = x.core → exec (.home f) s = .next (result f.d 1 s1)) ∧
      ((originOf s1 x).core ≠ x.core → exec (.home f) s = .next (leaveFor (originOf s1 x).core f.d true none s1)))

/-- SPAWN and SPAWNAT (R66, R110, R111): an entry PC of bad form faults BAD_PC and an interval outside the creator's,
empty or above its `sys.obmin` RANK_RANGE; then the statuses 3 (an impossible shape), 4 (no such core), 1 (no free
slot), 2 (no free window) and 5 (an empty token), in that order; else the context is created with the entry PC, the
interval and the window, it owes the token, and D gets its reference. JOIN reads a full token, faults POISONED for a
poisoned one and waits for an empty one where the wait is legal (R113). -/
def Obligations.Spawning : Prop :=
  (∀ e ∈ ([(.spawn, fun _ s => some (me s).core), (.spawnat, fun d s => logicalCore s (myPart s) d.core)] :
      List ((FR → Instr) × (SpawnDesc → State → Option Nat))), ∀ (f : FR) (s : State), Ready f.fields f.srcs s →
    let s1 := markRead f.srcs s
    let s0 := Claims.unread f.srcs s
    let entry : VA := (src64i s1 f.imm20 f.a).setWidth 57
    let d := spawnDesc (src256 s1 f.imm20 f.b)
    let tva : VA := BitVec.ofNat 57 d.token
    (∀ nx, badPc entry = true → successor s1 (me s) allLines s.cur.nx = .ok nx →
      exec (e.1 f) s = .next (faultAt .badPc (src64i s1 f.imm20 f.a) nx s0)) ∧
    (badPc entry = false → intervalOk (myCtx s) d.lo d.hi = false → exec (e.1 f) s = .next (fault .rankRange 0 s0)) ∧
    (∀ h, badPc entry = false → intervalOk (myCtx s) d.lo d.hi = true → Claims.Clear s1 tva (needFe false true) h →
      Claims.Settled false s1 →
      let fails := fun n => exec (e.1 f) s = .next (result f.d (spawnFail n) s1)
      (badShape s1 d ((e.2 d s1).getD (me s).core) = true → fails 3) ∧
      (badShape s1 d (me s).core = false → e.2 d s1 = none → fails 4) ∧
      (∀ core, badShape s1 d core = false → e.2 d s1 = some core →
        core = (me s).core ∨ reachesCore s1 (me s) core = true → (coreOf s core).suspended = false →
        (freeSlot s1 (myPart s) core = none → fails 1) ∧
        (∀ slot, freeSlot s1 (myPart s) core = some slot → spawnWindow s1 d core = none → fails 2) ∧
        (∀ slot base, freeSlot s1 (myPart s) core = some slot → spawnWindow s1 d core = some base →
          ((feOf s1 h.pa).full = false → fails 5) ∧
          ((feOf s1 h.pa).full = true → syncRace s1 (me s) h true = none → ∃ t,
            t = spawnAct d entry (w64 (src64i s1 f.imm20 f.c)) f.d core slot base tva h s1 ∧ exec (e.1 f) s = .next t ∧
            feOf t h.pa = ⟨false, false, .ctx (partId t ⟨core, slot⟩) (refOf t ⟨core, slot⟩)⟩ ∧
            (⟨core, slot⟩ ≠ me s → let c := ctxOf t ⟨core, slot⟩
              (slotOf t ⟨core, slot⟩).st = .ready ∧ c.pc = entry ∧ c.rklo = d.lo ∧ c.rkhi = d.hi ∧ c.winBase = base ∧
              c.winSize = d.size ∧ c.part = (myCtx s).part ∧ c.parent = some (refOf s (me s)) ∧
              c.obls = [(0, ⟨.done, BitVec.ofNat 64 d.token, h.pte.rank, 1, 0⟩)])))))) ∧
  (∀ (f : FR) (s : State) (h : Hit), Ready f.fields f.srcs s → tableHeld s (me s) = false →
    let s1 := markRead f.srcs s
    let s0 := Claims.unread f.srcs s
    let va : VA := (src64i s1 f.imm20 f.a).setWidth 57
    let m := obminOf (myCtx s)
    Claims.Free s1 → Claims.Clear s1 va (needFe true false) h →
    seedAt s1 (me s) h.pa 8 = false → storeAt s1 (me s) h.pa 8 = false →
    ((feOf s1 h.pa).full = true → (feOf s1 h.pa).poison = false → syncRace s1 (me s) h false = none → ∃ u,
      u = Claims.synced s1 h true false false va ∧
      exec (.join f) s = .next (resultOf f.d (nat256 (readN u h.pa 8)) [] u)) ∧
    ((feOf s1 h.pa).full = true → (feOf s1 h.pa).poison = true → exec (.join f) s = .next (fault .poisoned 0 s0)) ∧
    ((feOf s1 h.pa).full = false → h.pte.rank < m →
      exec (.join f) s = .next (ranked h.pte.rank (parkOn .parkedSync (.word h.pa false) (destOf s1 f.d)
        (mod s1 fun c => { c with waitVa := va })))) ∧
    ((feOf s1 h.pa).full = false → m ≤ h.pte.rank →
      exec (.join f) s = .next (fault .rankOrder (BitVec.ofNat 64 (m * 65536 + h.pte.rank)) s0)))

/-- NWR, ARM and YIELD (R97, R107, R114, R115, R276): NWR with a bad handle faults PROTECTION with the handle, and else
sends one deposit, once its context's sync operations have their places in S, and discharges one act of the FEED
entry; ARM of a port without a rank faults RANK_RANGE, waits for the write window of its register, and else makes a
register that holds no unread deposit absent and armed; YIELD holds the slot back until the slots that were issuable
have issued. -/
def Sys2Proof.Claims.Neighbours : Prop :=
  (∀ (f : FR) (s : State), Ready f.fields f.srcs s → tableHeld s (me s) = false →
    let s1 := markRead f.srcs s
    let h := src64i s1 f.imm20 f.b
    let o := originOf s (me s)
    let quiet := (∀ e ∈ s.seeds, e.ctx ≠ o) ∧ ∀ b ∈ (pkgAt s (pkgOf (me s).core)).toSend, frameWho b ≠ some o
    (badFeed s1 h = true → exec (.nwr f) s = .next (fault .protectionPart h (Claims.unread f.srcs s))) ∧
    (badFeed s1 h = false → ¬ quiet →
      exec (.nwr f) s = .next (parkBefore .parkedMemory .drain (Claims.unread f.srcs s))) ∧
    (badFeed s1 h = false → quiet → ∃ u,
      u = sendDeposit s1 (me s).core (myPart s) (refOf s (me s)) h (src256 s1 f.imm20 f.a) false ∧
      exec (.nwr f) s = .next (advance (mod u fun c => dischargeObl c .feed h 1)) ∧
      ∃ d, u.deposits = s.deposits ++ [d] ∧ d.val = src256 s1 f.imm20 f.a ∧ d.port = feedPort h ∧ d.slot = feedSlot h ∧
        d.reg = feedReg h ∧ d.poison = false ∧ neighbour (me s).core (feedDir h) = some d.core)) ∧
  (∀ (f : FR) (s : State), Ready f.fields f.srcs s →
    let s1 := markRead f.srcs s
    let s0 := Claims.unread f.srcs s
    let port := (src64i s1 f.imm20 f.a).toNat
    let ranked := port ≤ 3 ∧ portRank s1 (me s) port ≠ none
    (¬ ranked → exec (.arm f) s = .next (fault .rankRange 0 s0)) ∧
    (∀ n, ranked → f.d = .g n → inWindow s1 f.d = true → s.cur.pair = false →
      exec (.arm f) s = .next (parkBefore .parkedMemory (.window (entryOf s (me s) n)) s0)) ∧
    (ranked → inWindow s1 f.d = false ∨ s.cur.pair = true →
      ∃ t, exec (.arm f) s = .next t ∧ SameMemory s t ∧ SameRegs s t ∧ MovedOn s t ∧
        ∀ n, f.d = .g n →
          ((marksOf s1 f.d).unread = false → (entryMarks t (me s).core (entryOf s (me s) n)).present = false ∧
            (entryMarks t (me s).core (entryOf s (me s) n)).arm = some port) ∧
          ((marksOf s1 f.d).unread = true →
            entryMarks t (me s).core (entryOf s (me s) n) = entryMarks s1 (me s).core (entryOf s (me s) n)))) ∧
  (∀ (f : FS) (s : State), Ready f.fields [] s →
    ∃ t y, exec (.yield f) s = .next t ∧ (ctxOf t (me s)).yielded = some y ∧ (ctxOf t (me s)).pc = s.cur.nx ∧
      y.cycle = (myCore s).cyc + 2 + f.stall.toNat + f.imm.toNat % 65536 ∧
      (∀ i, i ∈ y.slots ↔ i < 64 ∧ i ≠ (me s).slot ∧ issuable s ⟨(me s).core, i⟩ = true) ∧
      SameMemory s t ∧ SameRegs s t)

/-- EXIT waits for the context's loads and writes, and then leaves the slot exited with its value, unless the fill of
its token would be second in a race; the completion frees the slot, and the origin slot of a visitor, and raises the
GEN (R87, R106). -/
def Sys2Proof.Claims.Exit : Prop :=
  (∀ (f : FS) (s : State), Ready f.fields [f.a] s →
    let s1 := markRead [f.a] s
    let s0 := Claims.unread [f.a] s
    let token := (ownEntry (myCtx s)).bind (tokenHit s1 (me s))
    (tableHeld s (me s) = true → exec (.exit f) s = .next (parkBefore .parkedMessage .table s0)) ∧
    (tableHeld s (me s) = false → loadsOut s1 (me s) = true ∨ ¬ Claims.Settled false s1 →
      exec (.exit f) s = .next (parkBefore .parkedMemory .drain s0)) ∧
    (∀ h r, tableHeld s (me s) = false → loadsOut s1 (me s) = false → Claims.Settled false s1 → token = some h →
      syncRace s1 (me s) h true = some r → exec (.exit f) s = .next
        (fault .memoryRace (raceInfo s.cur.pc r) (reportRace s0 (myPart s) r))) ∧
    (tableHeld s (me s) = false → loadsOut s1 (me s) = false → Claims.Settled false s1 →
      (∀ h, token = some h → syncRace s1 (me s) h true = none) →
      ∃ t, exec (.exit f) s = .next t ∧ (slotOf t (me s)).st = .exited ∧ SameMemory s t ∧ SameRegs s t ∧
        (s.now, .exitCompletion (me s)) ∈ t.agenda ∧
        (ctxOf t (me s)).reply = some (.value .none ((src64 s1 f.a).setWidth 256)))) ∧
  (∀ (s : State) (x : CtxId), (slotOf s x).st ≠ .exited → exec (.exitCompletion x) s = .next s) ∧
  (∀ (s : State) (x : CtxId), (slotOf s x).st = .exited → ∃ t, exec (.exitCompletion x) s = .next t ∧
    (slotOf t (originOf s x)).st = .free ∧ (slotOf t x).st = .free ∧
    (slotOf t (originOf s x)).gen = nextGen (slotOf s (originOf s x)).gen)

/-! ## The barrier -/

/-- The completion check (R237): where ARRIVED reaches NPART the phase completes, its poison goes into PHIST, PHASE
rises by one and ARRIVED and PPOIS are cleared; otherwise nothing changes. An arrival counts toward the open
phase and lowers OWED; a broken barrier only lowers OWED (R236). -/
def Sys2Proof.Claims.BarrierPhase : Prop :=
  ∀ (b : Barrier) (poison : Bool),
    (b.npart ≤ b.arrived → b.check.phase = b.phase + 1 ∧ b.check.arrived = 0 ∧ b.check.ppois = false ∧
      b.check.phist.getLsbD 0 = b.ppois ∧ (∀ i, i < 31 → b.check.phist.getLsbD (i + 1) = b.phist.getLsbD i) ∧
      b.check.npart = b.npart ∧ b.check.rank = b.rank ∧ b.check.gen = b.gen ∧ b.check.owed = b.owed) ∧
    (b.arrived < b.npart → b.check = b) ∧
    (b.st ≠ 2 → b.arrived + 1 < b.npart → b.arrive poison =
      { b with owed := b.owed - 1, arrived := b.arrived + 1, ppois := b.ppois || poison }) ∧
    (b.st = 2 → b.arrive poison = { b with owed := b.owed - 1 })

/-- BDEL (R247): status 0 frees the barrier and raises its GEN; status 1 where OWED is not zero, else 2 where
WAITERS is not, both leaving it unchanged; it never waits for an arrival. A copse barrier is deleted, with the same
statuses, by the order frame that BDEL sends. -/
def Obligations.BarrierDelete : Prop :=
  (∀ (f : FR) (s : State) (b : Barrier), Ready f.fields f.srcs s →
    let s1 := markRead f.srcs s
    let h := src64i s1 f.imm20 f.a
    Claims.Free s1 → getBarrier s1 (myPart s).pkg h = some b → b.part = (myCtx s).part →
    (handleCps h = false → reachesHome s1 (me s) (handleSite h) = true →
      let u := syncObj s1 (me s) (barObj h) false false
      (b.owed > 0 → exec (.bdel f) s = .next (result f.d 1 (stepBarrier u h b b))) ∧
      (b.owed = 0 → b.waiters > 0 → exec (.bdel f) s = .next (result f.d 2 (stepBarrier u h b b))) ∧
      (b.owed = 0 → b.waiters = 0 → exec (.bdel f) s = .next (result f.d 0
        (stepBarrier u h b { b with st := 0, gen := if b.gen = 0xFFFFFFFE then 0 else b.gen + 1 })))) ∧
    (handleCps h = true → exec (.bdel f) s = .next (sendBarrier 5 h 0 f.d s1))) ∧
  (∀ (s : State) (pkg : Nat) (h arg : W64) (who : CtxId) (b : Barrier), getBarrier s pkg h = some b →
    (b.owed > 0 → applyBarrier s pkg 5 h arg who = answerOrigin (putBarrier s pkg h b) pkg who 1) ∧
    (b.owed = 0 → b.waiters > 0 → applyBarrier s pkg 5 h arg who = answerOrigin (putBarrier s pkg h b) pkg who 2) ∧
    (b.owed = 0 → b.waiters = 0 → ∃ u, applyBarrier s pkg 5 h arg who = answerOrigin u pkg who 0 ∧
      u = modPkg (putBarrier s pkg h { b with st := 0, gen := if b.gen = 0xFFFFFFFE then 0 else b.gen + 1 }) pkg
        fun k => { k with copseBars := k.copseBars.filter (· != bitsOf h.toNat 3 16) }))

/-- The handle reaches a home, or names a copse barrier, and no barrier of the context's partition answers to it. -/
def Sys2Proof.Claims.NoBarrier (s : State) (h : W64) : Prop :=
  (handleCps h = true ∨ reachesHome s (me s) (handleSite h) = true) ∧
    ∀ b, getBarrier s (myPart s).pkg h = some b → b.part ≠ (myCtx s).part

/-- The handle names a barrier of the context's partition that it reaches. -/
def Sys2Proof.Claims.NamesBarrier (s : State) (h : W64) (b : Barrier) : Prop :=
  (handleCps h = true ∨ reachesHome s (me s) (handleSite h) = true) ∧
    getBarrier s (myPart s).pkg h = some b ∧ b.part = (myCtx s).part

/-- BNEW (R242): a rank outside the context's interval faults RANK_RANGE; a participant count that is no 16-bit number
from 1 writes status 2, a quota or a store that is full status 1; else the lowest free entry of the site holds the
barrier and D its handle. With a copse word as C the barrier is made by an order frame, and C is to be a multiple of
64. -/
def Sys2Proof.Claims.BarrierNew : Prop :=
  ∀ (f : FR) (s : State), Ready f.fields f.srcs s →
    let s1 := markRead f.srcs s
    let s0 := Claims.unread f.srcs s
    let c := myCtx s
    let n := (src64i s1 f.imm20 f.a).toNat
    let rank := (src64i s1 f.imm20 f.b).toNat
    let va : VA := (src64i s1 f.imm20 f.c).setWidth 57
    let copse := (tlbLook s1 (me s).core c.part va).any fun t => (t.pte : Pte).cps
    let room := barCount s1 (myPart s) < limitOf s1 (myPart s) 4 262144
    let made := fun (site i : Nat) => let b := Map.get (siteOf s site).bars i Barrier.zero
      let h := barHandle site i b.gen
      exec (.bnew f) s = .next (result f.d (w64 h) (putBarrier
        (syncObj (logBarrier s1 (myPart s) (refOf s (me s)) h b) (me s) (barObj h) false false) (myPart s).pkg h
        ⟨1, false, rank, n, 0, 0, 0, b.gen, 0, 0, c.part⟩))
    Claims.Free s1 →
    (rank < c.rklo ∨ c.rkhi ≤ rank ∨ 0x10000 ≤ rank → exec (.bnew f) s = .next (fault .rankRange 0 s0)) ∧
    (c.rklo ≤ rank → rank < c.rkhi → rank < 0x10000 →
      (f.c = .z →
        (n = 0 ∨ 65535 < n → exec (.bnew f) s = .next (result f.d (spawnFail 2) s1)) ∧
        (0 < n → n ≤ 65535 → (siteOf s (me s).core).gated = true →
          exec (.bnew f) s = .next (parkBefore .parkedMemory (.channel (me s).core) s0)) ∧
        (0 < n → n ≤ 65535 → (siteOf s (me s).core).gated = false →
          (¬ room ∨ freeBar s1 (me s).core = none → exec (.bnew f) s = .next (result f.d (spawnFail 1) s1)) ∧
          (∀ i, room → freeBar s1 (me s).core = some i → made (me s).core i))) ∧
      (∀ h site, f.c ≠ .z → copse = false → Claims.Clear s1 va ⟨1, true, false, false, false, true⟩ h →
        h.space = .dram site →
        (n = 0 ∨ 65535 < n → exec (.bnew f) s = .next (result f.d (spawnFail 2) s1)) ∧
        (0 < n → n ≤ 65535 → ¬ room ∨ freeBar s1 site = none →
          exec (.bnew f) s = .next (result f.d (spawnFail 1) s1)) ∧
        (∀ i, 0 < n → n ≤ 65535 → room → freeBar s1 site = some i → made site i)) ∧
      (f.c ≠ .z → copse = true → va.toNat % 64 ≠ 0 →
        exec (.bnew f) s = .next (fault .alignment (va.setWidth 64) s0)) ∧
      (∀ h w, f.c ≠ .z → copse = true → va.toNat % 64 = 0 →
        Claims.Reaches s1 va ⟨64, true, false, false, false, true⟩ h → h.space = .copse w →
        (n = 0 ∨ 65535 < n → exec (.bnew f) s = .next (result f.d (spawnFail 2) s1)) ∧
        (0 < n → n ≤ 65535 → ¬ room → exec (.bnew f) s = .next (result f.d (spawnFail 1) s1)) ∧
        (0 < n → n ≤ 65535 → room → exec (.bnew f) s = .next (sendBarrier 0 (copseHandle w 0)
          (BitVec.ofNat 64 (n + rank * 2 ^ 16 + c.part * 2 ^ 32)) f.d s1))))

/-- BJOIN, BARV, BWAIT and BLEAVE at a home barrier (R243 to R246): what each writes to D, how the entry and the
context's BAR obligation change, and which faults they raise. -/
def Sys2Proof.Claims.BarrierInstructions : Prop :=
  ∀ (f : FR) (s : State), Ready f.fields f.srcs s → tableHeld s (me s) = false →
    let s1 := markRead f.srcs s
    let s0 := Claims.unread f.srcs s
    let c := myCtx s
    let h := src64i s1 f.imm20 f.a
    Claims.Settled (handleCps h) s1 →
    (findObl c .bar h = none → exec (.barv f) s = .next (fault .oblMissing h s0)) ∧
    (takeObl c .bar h 0 1 = none → exec (.bjoin f) s = .next (fault .oblOverflow 0 s0)) ∧
    (Claims.NoBarrier s1 h →
      (takeObl c .bar h 0 1 ≠ none → exec (.bjoin f) s = .next (fault .protectionPart h s0)) ∧
      (findObl c .bar h ≠ none → exec (.barv f) s = .next (fault .protectionPart h s0)) ∧
      exec (.bwait f) s = .next (fault .protectionPart h s0) ∧
      exec (.bleave f) s = .next (fault .protectionPart h s0) ∧
      exec (.bdel f) s = .next (fault .protectionPart h s0)) ∧
    (handleCps h = false → reachesHome s1 (me s) (handleSite h) = false →
      (takeObl c .bar h 0 1 ≠ none → exec (.bjoin f) s = .next (dropped h s0)) ∧
      exec (.bwait f) s = .next (dropped h s0) ∧ exec (.bleave f) s = .next (dropped h s0)) ∧
    (∀ b, Claims.NamesBarrier s1 h b → handleCps h = false →
      let u := fun rel => syncObj s1 (me s) (barObj h) false rel
      (takeObl c .bar h 0 1 ≠ none →
        (b.st ≠ 2 → b.owed ≠ 65535 → exec (.bjoin f) s = .next (result f.d 0
          (mod (stepBarrier (u false) h b { b with owed := b.owed + 1 })
            fun c => (takeObl c .bar h b.rank 1).getD c))) ∧
        (b.st = 2 → exec (.bjoin f) s = .next (result f.d 1 (stepBarrier (u false) h b b))) ∧
        (b.st ≠ 2 → b.owed = 65535 → exec (.bjoin f) s = .next (result f.d 2 (stepBarrier (u false) h b b)))) ∧
      (findObl c .bar h ≠ none →
        (b.st ≠ 2 → exec (.barv f) s = .next (result f.d (nat256 b.phase.toNat) (stepBarrier
          (modExt (mod (u true) fun c => dischargeObl c .bar h 1) (me s) fun c => { c with lastArr := (h, b.phase) })
          h b (b.arrive false)))) ∧
        (b.st = 2 → exec (.barv f) s = .next (result f.d (nat256 (2 ^ 32)) (stepBarrier
          (mod (u true) fun c => dischargeObl c .bar h 1) h b (b.arrive false))))) ∧
      (let p := (waitPhase f h s1).getD b.phase
       (obminOf c ≤ b.rank → exec (.bwait f) s = .next
         (fault .rankOrder (BitVec.ofNat 64 (obminOf c * 65536 + b.rank)) s0)) ∧
       (b.rank < obminOf c → b.st = 2 → exec (.bwait f) s = .next (fault .barrierBroken 0 s0)) ∧
       (b.rank < obminOf c → b.st ≠ 2 → b.done p = true → b.poisoned p = false → exec (.bwait f) s = .next
         (result f.d (nat256 b.phase.toNat) (syncObj s1 (me s) (barObj h) true false))) ∧
       (b.rank < obminOf c → b.st ≠ 2 → b.done p = true → b.poisoned p = true →
         exec (.bwait f) s = .next (fault .poisoned 0 s0)) ∧
       (b.rank < obminOf c → b.st ≠ 2 → b.done p = false → ∃ t, exec (.bwait f) s = .next t ∧
         (slotOf t (me s)).st = .parkedSync ∧ (ctxOf t (me s)).wait = .barrier h p ∧
         (ctxOf t (me s)).waitRank = some b.rank ∧ (rawBarrier t (myPart s).pkg h).waiters = b.waiters + 1)) ∧
      (let held := (findObl c .bar h).isSome.toNat
       (b.npart = 0 → exec (.bleave f) s = .next (result f.d 2 (stepBarrier (u true) h b b))) ∧
       (0 < b.npart → ∃ v, v = mod (u true) (fun c => dischargeObl c .bar h 1) ∧
         (b.st = 2 → exec (.bleave f) s = .next (result f.d 1 (stepBarrier v h b { b with owed := b.owed - held }))) ∧
         (b.st ≠ 2 → exec (.bleave f) s = .next (result f.d 0 (stepBarrier v h b (Barrier.check { b with
           npart := b.npart - 1
           owed := b.owed - held }))))))) ∧
    (∀ b, Claims.NamesBarrier s1 h b → handleCps h = true →
      (takeObl c .bar h 0 1 ≠ none → exec (.bjoin f) s = .next (sendBarrier 1 h 0 f.d
        (mod s1 fun c => (takeObl c .bar h b.rank 1).getD c))) ∧
      (findObl c .bar h ≠ none → exec (.barv f) s = .next (sendBarrier 2 h 0 f.d
        (mod s1 fun c => dischargeObl c .bar h 1))) ∧
      (obminOf c ≤ b.rank → exec (.bwait f) s = .next
        (fault .rankOrder (BitVec.ofNat 64 (obminOf c * 65536 + b.rank)) s0)) ∧
      (b.rank < obminOf c → exec (.bwait f) s = .next (ranked b.rank (sendBarrier 3 h
        (waitArg (waitPhase f h s1) (obminOf c)) f.d s1))) ∧
      exec (.bleave f) s = .next (sendBarrier 4 h (BitVec.ofNat 64 (findObl c .bar h).isSome.toNat) f.d s1))

/-! ## Events of a core -/

/-- The end of a park (R94, R181): a value that has arrived completes the parked instruction, its D is written and
the context is at the sequential successor; a trap that has arrived is taken at the instruction; a wait that
nothing has answered is withdrawn, the instruction unissued. -/
def Sys2Proof.Claims.Replies : Prop :=
  ∀ (s : State) (x : CtxId), (coreOf s x.core).suspended = false → isParked (slotOf s x).st = true →
    let u := if arrivalWait (ctxOf s x).wait then arrivalAt s x else s
    (∀ d v, (ctxOf s x).reply = some (.value d v) → ∃ t, exec (.syncWakeReply x) s = .next t ∧
      (slotOf t x).st = .ready ∧ (ctxOf t x).pc = (ctxOf s x).waitNx ∧ (ctxOf t x).reply = none ∧ SameMemory s t ∧
      ∀ e, d = .reg e → entryVal t x.core e = v ∧ (entryMarks t x.core e).present = true) ∧
    (∀ k i, (ctxOf s x).reply = some (.trap k i) →
      exec (.syncWakeReply x) s = .next (takeTrap (restoreD u x) x k i (ctxOf s x).pc false false)) ∧
    ((ctxOf s x).reply = none → exec (.syncWakeReply x) s = .next s ∧ ∃ t, exec (.waitWithdrawal x) s = .next t ∧
      (slotOf t x).st = .ready ∧ (ctxOf t x).pc = (ctxOf s x).pc ∧
      ∀ e, (ctxOf s x).waitDest = .reg e → (ctxOf s x).waitUndo = none → (entryMarks t x.core e).present = true)

/-- A deposit (R97, R98): it writes all 256 bits of its register, sets presence and the unread mark, and disarms
it; over an unread deposit it sets LINKOVR of the receiver; a deposit to a slot or register that is not there
changes no register and sets LINKDROP of its sender. Nothing else of a register file changes. -/
def Sys2Proof.Claims.Deposits : Prop :=
  ∀ (s : State) (n : Nat) (d : Deposit), firstWhere (fun d => d.id == n) s.deposits = some d →
    (coreOf s d.core).suspended = false →
    ∃ t, exec (.depositArrival n) s = .next t ∧ SameMemory s t ∧ t.deposits = s.deposits.filter (fun q => !(q.id == n)) ∧
      (depositEntry s d = none → SameRegs s t ∧
        ∀ x, findCtx s d.part d.sender = some x → (ctxOf t x).status.getLsbD stLINKDROP = true) ∧
      (∀ e, depositEntry s d = some e →
        (d.poison = false → entryVal t d.core e = d.val) ∧ (d.poison = true → SameRegs s t) ∧
        entryMarks t d.core e = ⟨true, true, d.poison, none⟩ ∧
        (∀ c g, (c = d.core ∧ g = e) ∨ entryVal t c g = entryVal s c g) ∧
        ((entryMarks s d.core e).unread = true → (ctxOf t ⟨d.core, d.slot⟩).status.getLsbD stLINKOVR = true))

/-- Trap entry, asynchronous events and user interrupts (R85, R96, R103, R357 to R359): a trapped slot enters its
handler once no write window of its context is open; at a boundary the deliverable event of the best rank is taken out
of the pending ones and its handler is entered; the earliest completion enters the handler of its own HANDLER at user
level with its identifier in %xferid. A visitor goes home for each of them first. -/
def Obligations.Deliveries : Prop :=
  (∀ (s : State) (x : CtxId) (p : PendTrap), (slotOf s x).st = .trapped → (ctxOf s x).trap = some p →
    windowOpen s x = false →
    (visiting s x = false →
      exec (.trapEntry x) s = .next (enterTrap (catchCore s x.core) x p.cause p.info p.epc p.asy p.rsm)) ∧
    (visiting s x = true → exec (.trapEntry x) s = .next (goHome s x))) ∧
  (∀ (s : State) (x : CtxId) (e : AsyncEv), atBoundary s x = true → nextEvent (wholeCtx s x) = some e →
    let epc := nextInstrPc (leavePark s x) x
    let rsm := e.cause == .rollback
    let left := if e.cause = .cancelled then [] else (ctxOf s x).events.erase e
    e ∈ (ctxOf s x).events ∧
    (visiting s x = false → ∃ u, (ctxOf u x).events = left ∧
      exec (.asyncEventDelivery x) s = .next (enterTrap u x e.cause e.info epc true rsm)) ∧
    (visiting s x = true → ∃ t, exec (.asyncEventDelivery x) s = .next t ∧ (slotOf t x).st = .trapped ∧
      (ctxOf t x).trap = some ⟨e.cause, e.info, epc, true, rsm⟩ ∧ (ctxOf t x).events = left)) ∧
  (∀ (s : State) (x : CtxId) (k : Completion) (rest : List Completion), intDue s x = true →
    (visiting s x = true → exec (.userInterruptDelivery x) s = .next (goHome (leaveForInt s x) x)) ∧
    (visiting s x = false → (ctxOf s x).ints = k :: rest →
      ∃ t, exec (.userInterruptDelivery x) s = .next t ∧ (slotOf t x).st = .ready ∧
      (ctxOf t x).prv = .user ∧ (ctxOf t x).pc = k.handler.setWidth 57 ∧ (ctxOf t x).xferid = k.xid ∧
      (ctxOf t x).ints = rest ∧ levelRuns (ctxOf t x) .user = true ∧ (ctxOf t x).userBank.ecause = 0))

/-- Throttling, dropped messages and a line fetched again (R22, R46, R376, R379): a throttled context looks again when
it may; after a millisecond it faults QUOTA with its throttle cleared; the report of a dropped message makes the
waiting context take PROTECTION (partition); a line that reads good is held, one that a walk must find first is waited
for, and one with a fault traps at its PC. A cell that is no instruction faults ILLEGAL_OPCODE. -/
def Sys2Proof.Claims.CoreEvents : Prop :=
  (∀ (s : State) (x : CtxId) (since : Nat), isParked (slotOf s x).st = true →
    ((ctxOf s x).wait = .throttled since → exec (.throttleRetry x) s = .next (wake (catchCore s x.core) x 0)) ∧
    (throttledSince (ctxOf s x).wait = some since → (ctxOf s x).reply = none →
      (since + oneMs ≤ s.now → exec (.throttleTimeout x) s = .next
        (takeTrap (modCtx (withdraw s x) x fun c => { c with throttle := none }) x .quota 0 (ctxOf s x).pc
          false false)) ∧
      (s.now < since + oneMs → exec (.throttleTimeout x) s = .next s))) ∧
  (∀ (s : State) (x : CtxId) (i : W64), isParked (slotOf s x).st = true → (ctxOf s x).wait = .reply →
    (ctxOf s x).reply = none → exec (.dropReport x i) s = .next
      (takeTrap (restoreD (logDrop s x i) x) x .protectionPart i (ctxOf s x).pc false false)) ∧
  (∀ (s : State) (x : CtxId),
    let c := ctxOf s x
    (∀ l, fetchLine s x c.pc = .ok l →
      exec (.lineRefetch x) s = .next (modCtx (fetched s x c.pc) x fun c => { c with line := some l })) ∧
    (fetchLine s x c.pc = .miss → exec (.lineRefetch x) s = .next (parkWalkOf s x c.pc)) ∧
    (∀ k fm, fetchLine s x c.pc = .fault k fm → exec (.lineRefetch x) s = .next
      (takeTrap (fetched s x c.pc) x k (lineInfo k fm c.source c.pc) c.pc false false)) ∧
    (∀ e pa, fetchLine s x c.pc = .bad e pa →
      exec (.lineRefetch x) s = .next (parkBadLine (fetched s x c.pc) x e pa))) ∧
  (∀ (s : State) (w : Cell96), exec (.illegalOpcodeCell w) s = .next (faultHere .illegalOpcode s))

/-- An offer of obligations and the entries of a context that has exited (R74, R75): an offer that still stands at
its sender is judged at its target, its status lands, and the sender's entry loses the part only with status 0;
an offer that no longer stands has status 1; entries pass to an heir that lives, which takes ORPHAN, and are
discharged with poison where it does not. -/
def Sys2Proof.Claims.Offers : Prop :=
  (∀ (s : State) (n : Nat) (m : XferMsg), firstWhere (fun m => m.id == n) s.xfers = some m →
    (∀ c ∈ m.core :: (findCtx s m.part m.dst).toList.map (·.core), (coreOf s c).suspended = false) →
    let u := { s with xfers := listDel (fun q => q.id == n) s.xfers }
    let sent := (findCtx u m.part m.src).bind fun x => findObl (ctxOf u x) m.obl.kind m.obl.handle
    let stands := ∃ i e, sent = some (i, e) ∧ m.obl.count ≤ e.moving
    ∃ t, exec (.xferDelivery n) s = .next t ∧ t.xfers = u.xfers ∧
      (∀ a, m.dest = .reg a → (entryMarks t m.core a).present = true ∧
        (¬ stands → entryVal t m.core a = 1) ∧
        (stands → entryVal t m.core a = nat256 (offerStatus u m).1)) ∧
      (∀ x, findCtx u m.part m.src = some x → findCtx u m.part m.dst ≠ some x → stands →
        (ctxOf t x).tableBusy = (ctxOf s x).tableBusy - 1 ∧
        (let c := markMoving (ctxOf s x) m.obl.kind m.obl.handle (· - m.obl.count)
         (ctxOf t x).obls = if (offerStatus u m).1 = 0 then (dischargeObl c m.obl.kind m.obl.handle m.obl.count).obls
           else c.obls))) ∧
  (∀ (s : State) (n : Nat) (m : MergeMsg), firstWhere (fun m => m.id == n) s.merges = some m →
    (∀ x, findCtx s m.part m.heir = some x → (coreOf s x.core).suspended = false) →
    let u := { s with merges := listDel (fun q => q.id == n) s.merges }
    (refLive u m.part m.heir = true → exec (.heirMerge n) s =
      .next (mergeInto u m.part m.heir (m.obls.map fun o => ⟨m.who, m.from_, o⟩))) ∧
    (refLive u m.part m.heir = false → exec (.heirMerge n) s = .next (poisonEntries u m.part m.from_ m.who m.obls true)))
/-! ## Events of stores, seeds and prefetches -/

/-- What the home does with a plain store (R156, R278, R285): without a race the bytes of its range become those of
the store and no other byte changes, but in the stash where the address is bound (a sector that it displaces goes
home), and the store is performed; the second of a conflicting pair is dropped, and its context has a MEMORY_RACE to
take. The acknowledgement changes no byte, nor does the write-back of a stash sector that is dirty, which ends its
registration. -/
def Sys2Proof.Claims.StoreEvents : Prop :=
  (∀ (s : State) (n : Nat) (p : PStore), s.Inv → findStore s n = some p → p.len ≤ 32 →
    let x := (findCtx s p.part p.who).getD p.ctx
    let clash := firstWhere (clashPlain p.part p.who (ctxOf s x).regionAt true (p.key / 32)) s.recs
    let new := fun a => if p.key ≤ a ∧ a < p.key + p.len then
      BitVec.ofNat 8 (p.val.toNat / 256 ^ (a - p.key)) else readByte s a
    (p.unch = true ∨ clash = none → p.bind = none → ∃ t, exec (.storePerformed n) s = .next t ∧
      (∀ a, readByte t a = new a) ∧ (∀ a, feOf t a = feOf s a) ∧ SameRegs s t ∧
      findStore t n = some { p with performed := true } ∧ ∃ due, (due, .storeAcknowledged n) ∈ t.agenda) ∧
    (∀ c off, p.unch = true ∨ clash = none → p.bind = some (c, off) → off % 32 = p.key % 32 →
      p.key % 32 + p.len ≤ 32 → ∃ t, exec (.storePerformed n) s = .next t ∧
      (∀ a, a / 32 = p.key / 32 → readByte t a = new a) ∧ (∀ a, feOf t a = feOf s a) ∧ SameRegs s t ∧
      Map.get? t.dir (p.key / 32) = some ⟨c, off - p.key % 32, true⟩ ∧
      findStore t n = some { p with performed := true } ∧ ∃ due, (due, .storeAcknowledged n) ∈ t.agenda) ∧
    (∀ r, p.unch = false → clash = some r → ∃ t, exec (.storePerformed n) s = .next t ∧ findStore t n = none ∧
      t.stores = listDel (fun q => q.id == n) s.stores ∧
      (∀ y, findCtx s p.part p.who = some y →
        ⟨.memoryRace, raceInfo p.va r ||| p.lane, none⟩ ∈ (ctxOf t y).events)) ∧
    (∃ t, exec (.storeAcknowledged n) s = .next t ∧ SameMemory s t ∧ SameRegs s t ∧
      t.stores = listDel (fun q => q.id == n) s.stores)) ∧
  (∀ (s : State) (core off sec : Nat) (e : DirEnt), s.Inv → heldAt s core off = some sec →
    Map.get? s.dir sec = some e →
    (e.dirty = true → ∃ t, exec (.lazyWriteback core off) s = .next t ∧ SameMemory s t ∧ SameRegs s t ∧
      Map.get? t.dir sec = none) ∧
    (e.dirty = false → exec (.lazyWriteback core off) s = .next s)) ∧
  (∀ (s : State) (core off : Nat), heldAt s core off = none → exec (.lazyWriteback core off) s = .next s)

/-- A seed is performed in the order of its context's seeds to its home, replaces its word by the value that its
operation gives, and discharges the count that it carries; second in a race, or on an erroneous word, it changes no
byte and discharges with poison (R192). A prefetch fills its token with at most the number of bytes it asked for
(R185). -/
def Sys2Proof.Claims.SeedEvents : Prop :=
  (∀ (s : State) (n : Nat) (e0 : Seed), s.Inv → firstWhere (fun e => e.id == n) s.seeds = some e0 →
    let e := firstSeed s e0
    let bytes := atomBytes e.dbl
    let clash := firstWhere (clashSync e.part e.who true (e.key / 32)) s.recs
    let w := 8 * bytes
    let v := atomNew e.op w (readN s e.key bytes) (e.val.toNat % 2 ^ w) 0
    let after := fun (u : State) bad =>
      retryThrottled (wakeDrain (dischargeCarried u e.part e.who e.carried bad) e.ctx) onQuota
    (e.checked = false ∨ clash = none → badAt s e.key bytes = none →
      ∃ u, exec (.seedPerform n) s = .next (after u false) ∧ SameRegs s u ∧
        u.seeds = listDel (fun q => q.id == e.id) s.seeds ∧
        ∀ a, readByte u a = if e.key ≤ a ∧ a < e.key + bytes then
          BitVec.ofNat 8 (v / 256 ^ (a - e.key)) else readByte s a) ∧
    (∀ err, e.checked = false ∨ clash = none → badAt s e.key bytes = some err →
      ∃ u, SameMemory s u ∧ SameRegs s u ∧ u.seeds = listDel (fun q => q.id == e.id) s.seeds ∧
        exec (.seedPerform n) s = .next (after (captureData (veqPush u e.part 3 (if err = .media then 16 else 17)
          (vaInfo e.va) (refWord e.who) 0) e.key err (refWord e.who)) true)) ∧
    (∀ r, e.checked = true → clash = some r →
      ∃ u, SameMemory s u ∧ SameRegs s u ∧ u.seeds = listDel (fun q => q.id == e.id) s.seeds ∧
        exec (.seedPerform n) s = .next (after (postEvent (reportRace u e.part r) e.part e.who
          ⟨.memoryRace, raceInfo e.va r, none⟩ fun u => veqPush u e.part 4 0x15 (vaInfo e.va) (refWord e.who) 0) true))) ∧
  (∀ (s : State) (n : Nat) (p : Prefetch), firstWhere (fun p => p.id == n) s.prefetches = some p →
    ∃ u got bad, exec (.prefetchCompletion n) s = .next (fillWord u p.token (some (BitVec.ofNat 64 got)) bad) ∧
      got ≤ p.len ∧ SameRegs s u ∧ u.prefetches = listDel (fun q => q.id == n) s.prefetches)

/-- Plain stores, seeds and prefetches where they are performed (R156, R185, R192, R278, R285). -/
def Obligations.StoreEvents : Prop := Claims.StoreEvents ∧ Claims.SeedEvents

/-! ## Contexts under way -/

namespace Sys2Proof.Claims

/-- The context of a migration message is in slot `x` with window `base`: ready, or trapped if a trap sent it
home, at its PC, with its privilege, masks, obligations and place of origin; the message is gone. -/
def Placed (n : Nat) (f : Flight) (x : CtxId) (base : Nat) (t : State) : Prop :=
  findFlightId t n = none ∧
  (slotOf t x).st = (if f.ctx.trap.isSome then .trapped else .ready) ∧
  (ctxOf t x).pc = f.ctx.pc ∧ (ctxOf t x).prv = f.ctx.prv ∧ (ctxOf t x).obls = f.ctx.obls ∧
  (ctxOf t x).masks = f.ctx.masks ∧ (ctxOf t x).origin = f.ctx.origin ∧ (ctxOf t x).winBase = base

/-- The status `v` lands in the D of the instruction that sent the context now in `x`. -/
def Landed (f : Flight) (x : CtxId) (base : Nat) (v : Reg) (t : State) : Prop :=
  ∀ r, f.dest = .reg r → entryVal t x.core (base + r) = v

/-- The marks that a message carries of a register's: it is present and not armed. -/
def carriedMarks (m : Marks) : Marks := ⟨true, m.unread, m.poison, none⟩

end Sys2Proof.Claims

/-- The migration message (R100): what the receiver makes of it has the registers, unread and poison marks, masks and
run state of the context that was sent, and its obligations where they are at most eight, under numbers below eight. -/
def Sys2Proof.Claims.Messages : Prop :=
  ∀ (c : Ctx) (rs : List (Reg × Marks)), rs.length = 16 →
    let m := ofFlits (messageFlits c rs) c
    (messageFlits c rs).length = (if (upto 7).all fun k => Map.get c.masks (k + 1) 0 == 0 then 10 else 11) ∧
    m.1 = rs.map (fun r => (r.1, Claims.carriedMarks r.2)) ∧
    m.2.pc = c.pc ∧ m.2.rstpc = c.rstpc ∧ m.2.prv = c.prv ∧ m.2.xferid = c.xferid ∧
    m.2.status = c.status &&& 0x3FFF ∧ m.2.fpstat = c.fpstat &&& 0x3FFF ∧ m.2.pkey = c.pkey &&& 0xFFFFFFFF ∧
    (c.rklo < 2 ^ 16 → m.2.rklo = c.rklo) ∧ (c.rkhi < 2 ^ 17 → m.2.rkhi = c.rkhi) ∧
    (∀ k, 1 ≤ k → k ≤ 7 → Map.get m.2.masks k 0 = Map.get c.masks k 0) ∧
    (Map.sorted c.obls = true → (∀ e ∈ c.obls, e.1 < 8 ∧ e.2.rank < 2 ^ 16 ∧ e.2.count < 2 ^ 16 ∧
        unpackHandle e.2.kind (packHandle e.2.kind e.2.handle) = e.2.handle) →
      (∀ e ∈ c.obls, ∀ o ∈ c.obls, e.2.kind = o.2.kind → e.2.handle = o.2.handle → e = o) → m.2.obls = c.obls)

/-- Migration messages (R101 to R104, R191, R371): HOME's reach the origin slot with status 0; the others take the
lowest free visitor slot in the order in which they came, else a place in the inbox while it holds fewer than 32, else
they are refused; a suspended core keeps them. A refused context is back in the slot that sent it with status 5. An
ATOM travels with its context and is performed where the context is placed. A visitor that is returned travels with
VRET set. -/
def Sys2Proof.Claims.Arrivals : Prop :=
  (∀ (s : State) (n : Nat) (f : Flight), findFlightId s n = some f →
    let k := coreOf s f.target
    let room := decide (savedEntries s k.savedInbox + 10 ≤ 4096)
    let turn := k.inbox = [] ∨ k.inbox.head? = some n
    (k.suspended = true →
      (f.home = true ∨ room = true → ∃ t, exec (.migrationArrival n) s = .next t ∧
        (coreOf t f.target).savedInbox = k.savedInbox ++ [.migrationArrival n] ∧ t.flights = s.flights) ∧
      (f.home = false → room = false →
        exec (.migrationArrival n) s = .next (at_ s s.now (.migrationRefusal n)))) ∧
    (k.suspended = false →
      (f.home = true → ∃ t, exec (.migrationArrival n) s = .next t ∧
        Claims.Placed n f f.ctx.origin (slotOf s f.ctx.origin).ctx.winBase t ∧
        Claims.Landed f f.ctx.origin (slotOf s f.ctx.origin).ctx.winBase 0 t) ∧
      (∀ v, f.home = false → turn → freeVisitor s ⟨pkgOf f.target, f.ctx.part⟩ f.target = some v →
        let x : CtxId := ⟨f.target, v⟩
        let base := 1920 + 16 * (v - 56)
        56 ≤ v ∧ v < 64 ∧ (slotOf s x).st = .free ∧ ∃ u, Claims.Placed n f x base u ∧ SameMemory s u ∧
          exec (.migrationArrival n) s = .next (arriveAtom u x f) ∧
          (f.atom = none → Claims.Placed n f x base (arriveAtom u x f) ∧
            Claims.Landed f x base 0 (arriveAtom u x f))) ∧
      (f.home = false → ¬ turn ∨ freeVisitor s ⟨pkgOf f.target, f.ctx.part⟩ f.target = none →
        (n ∈ k.inbox → exec (.migrationArrival n) s = .next s) ∧
        (n ∉ k.inbox → k.inbox.length < 32 → ∃ t, exec (.migrationArrival n) s = .next t ∧
          (coreOf t f.target).inbox = k.inbox ++ [n] ∧ t.flights = s.flights) ∧
        (n ∉ k.inbox → 32 ≤ k.inbox.length →
          exec (.migrationArrival n) s = .next (at_ s s.now (.migrationRefusal n))))) ∧
    (let base := (slotOf s f.sender).ctx.winBase
     (f.atom = none → ∃ t, exec (.migrationRefusal n) s = .next t ∧ Claims.Placed n f f.sender base t ∧
       Claims.Landed f f.sender base 5 t) ∧
     (f.atom ≠ none → ∃ u, Claims.Placed n f f.sender base u ∧ SameMemory s u ∧
       exec (.migrationRefusal n) s = .next (arriveAtom u f.sender f)))) ∧
  (∀ (u : State) (x : CtxId) (f : Flight) (a : TravelAtom), u.Inv → f.atom = some a →
    let n := atomBytes a.dbl
    let key := memKey (pkgOf x.core) a.pa
    let h : Hit := ⟨a.pte, a.pa, spaceOf u (pkgOf x.core) a.pa⟩
    let m := readN u key n
    let v := atomNew a.op (8 * n) m (atomVal a.dbl a.val) (atomExpected a.dbl a.val)
    syncRace u x h true = none → badAt u a.pa n = none →
      (∀ b, readByte (arriveAtom u x f) b = if key ≤ b ∧ b < key + n then
        BitVec.ofNat 8 (v / 256 ^ (b - key)) else readByte u b) ∧
      Claims.Landed f x (ctxOf u x).winBase (atomOld a.dbl a.sx m) (arriveAtom u x f)) ∧
  (∀ (s : State) (x : CtxId), let u := leavePark s x
    ∃ t m, exec (.visitorReturn x) s = .next t ∧ t.flights = s.flights ++ [m] ∧
      m.home = true ∧ m.target = (originOf s x).core ∧ m.sender = x ∧ m.ctx.status.getLsbD stVRET = true ∧
      m.ctx.pc = (ctxOf u x).pc ∧ (slotOf t x).st = .away ∧
      ((ctxOf s x).winSize = 16 → m.regs = (windowRegs u x).map fun r => (r.1, Claims.carriedMarks r.2)))

/-- Cancellation (R77, R86, R334, R335): a context that a cancellation reaches loses its obligations, which are
discharged with poison, and takes CANCELLED, and the record no longer waits for it; one that travels is reached where
it is placed, one of a suspended core at the resumption; when the record waits for no core, CNCL's D lands. -/
def Sys2Proof.Claims.Cancellation : Prop :=
  (∀ (s : State) (x : CtxId),
    ((s.cancels.any fun k => k.left.contains x) = false → exec (.cancelArrival x) s = .next s) ∧
    ((s.cancels.any fun k => k.left.contains x) = true → (∀ k ∈ s.cancels, k.left.Nodup) →
      (bodyOf s x = none → (s.flights.any fun f => f.ctx.origin == x) = true → exec (.cancelArrival x) s = .next s) ∧
      (bodyOf s x = none → (s.flights.any fun f => f.ctx.origin == x) = false →
        ∃ t, exec (.cancelArrival x) s = .next t ∧ (∀ k ∈ t.cancels, x ∉ k.left) ∧ SameMemory s t ∧ SameRegs s t) ∧
      (∀ b, bodyOf s x = some b →
        ((coreOf s b.core).suspended = true → exec (.cancelArrival x) s = .next (saveFor s b.core (.cancelArrival x))) ∧
        ((coreOf s b.core).suspended = false → ∃ t, exec (.cancelArrival x) s = .next t ∧
          (∀ k ∈ t.cancels, x ∉ k.left) ∧ (ctxOf t b).obls = [] ∧ (ctxOf t b).ownDone = none ∧
          ((s.cancels.any fun k => k.issuer == some x && k.left.contains x) = false →
            ∃ e ∈ (ctxOf t b).events, e.cause = .cancelled))))) ∧
  (∀ (s : State) (n : Nat) (k : CancelRec), firstWhere (fun k => k.id == n) s.cancels = some k →
    let body := (k.issuer.bind (bodyOf s)).filter fun b => (coreOf s b.core).vd == k.vd
    let away := k.issuer.bind fun o => (savedCores s k.part.pkg).find? fun e => e.2.vd == k.vd &&
      e.2.slots.any fun t => isLive (effSt t.2) && t.2.ctx.origin == o && t.2.ctx.part == k.part.part
    (k.left ≠ [] → exec (.cancelAcknowledge n) s = .next s) ∧
    (k.left = [] →
      (∀ e, body = none → away = some e →
        exec (.cancelAcknowledge n) s = .next (saveInto s e.1 (.cancelAcknowledge n))) ∧
      (body ≠ none ∨ away = none → ∃ u, SameMemory s u ∧ u.cancels = listDel (fun e => e.id == n) s.cancels ∧
        exec (.cancelAcknowledge n) s = .next (k.groups.foldl (fun s g => settleGroup s k.part g) u) ∧
        ∀ b e, body = some b → k.dest = .reg e →
          entryVal u b.core e = nat256 (!k.any).toNat ∧ (entryMarks u b.core e).present = true)))

/-! ## System registers and control -/

namespace Sys2Proof.Claims

/-- The instructions that a level alone may issue (R43) in the formats FS and FR, with their least privilege. -/
def privilegedFS : List ((FS → Instr) × Prv) :=
  [(.eret, .guest), (.tlbiPage, .guest), (.tlbiAll, .guest), (.tlbiPart, .hyp), (.pgsnap, .guest), (.pgret, .hyp),
   (.ckpt, .guest), (.gmakeCreate, .hyp), (.gmakeRevoke, .hyp), (.gmakeSetacl, .hyp), (.gmakeFreeze, .hyp),
   (.gmakeThaw, .hyp), (.gmakeRead, .hyp)]

def privilegedFR : List ((FR → Instr) × Prv) := [(.kswap, .guest), (.gtblW, .guest)]

/-- The system registers that SYSR reads back as SYSW wrote them but for the reserved bits: number and mask. -/
def plainRegs : List (Nat × W64) :=
  [(0x0001, 0x3F3F), (0x0005, 0x1FFFFFFFFFFFFFF), (0x0006, 0xFFFFFFFFFFFFFFFF), (0x0007, 0xFFFFFFFF), (0x0010, 1),
   (0x0012, 0x3F), (0x0013, 0x3FFFF), (0x0020, 0xFFFFFFFFFFFC0), (0x0022, 0x1FFFFFFFFFFFFF8),
   (0x0023, 0x1FFFFFFFFFFFFC0), (0x0024, 0x1FFFFFFFFFFFFF0), (0x0025, 0x1FFFFFFFFFF003F), (0x0030, 0xFFFFFFFFFFFF8),
   (0x0031, 0xFFFFFFFFF), (0x0034, 0xFFFFFFF), (0x0108, 0x1FFFFFFFFFFFFFF), (0x0109, 0x1FFFFFFFFFFFFFF),
   (0x010A, 0x1FFFFFFFFFFFFFF), (0x010B, 0x00000DFEFFF47E00), (0x010C, 0x00001FFFFFFF7FFE), (0x0110, 0xFFFFFFFF00000),
   (0x0111, 0xFFFFFFFFFFFFF), (0x0112, 0x80000000FFFFFFFF), (0x0118, 0x1FFFFFFFFFFFFFF), (0x0119, 0x1FFFFFFFFFFFFFF),
   (0x011A, 0x1FFFFFFFFFFFFFF), (0x011B, 0x00000DFEFFF47E00), (0x011C, 0x00001FFFFFFF7FFE), (0x0120, 0x1FFFFFFFFFFFFCF),
   (0x0121, 0xFFFFFFFFFFFFFFFF), (0x0123, 0xFFFFFFFFFFFFFFFF), (0x0128, 0xFFFFFFFFFFFFF), (0x0129, 0xFFFFFFFFFFFFFFFF),
   (0x012A, 0xFFFFFFFFFFFFF), (0x01B0, 0xFFFFFFFFFFFC0), (0x01B1, 0xFFFFFFFFFFFFFFFF), (0x01C0, 0x1FFFFFFFFFFF01F),
   (0x01C1, 0xFFFF000003FF), (0x01C3, 0xFFFFFFFFFFFFFFFF), (0x0130, 0x1FFF), (0x01B9, 1)] ++
  [0x0100, 0x0140, 0x0180].flatMap (fun n =>
    [(n, 0xFF), (n + 1, 0x1FFFFFFFFFFFFFF), (n + 2, 0xFFFFFFFFFFFFFFFF), (n + 3, 0x3B3), (n + 4, 0x1FFFFFFFFFFFFFF),
     (n + 5, 0xFFFFFFFFFFFFFFFF)]) ++
  (upto 8).map (fun i => (0x01D0 + i, 0x13F)) ++ (upto 16).map (fun i => (0x01E0 + i, 0x13F))

end Sys2Proof.Claims

/-- SYSR and SYSW (R43, R103, R362, R365, R435, R442, R443): an instruction below its least privilege faults
PRIVILEGE; one that names a register without the view it needs faults ILLEGAL_ENCODING; D of SYSR receives the value
later, that of a visitor's extended state from its origin core, which a suspended core answers when it resumes; SYSW
writes the register of the number it names, and a plain register then reads as written but for its reserved
bits. A write to `sys.status` is kept until the next issue, and then clears sticky bits, replaces UIM and clears
handler bits of its own levels; one of zero to the LFSR stores 1; one to a fill mask replaces that mask. -/
def Obligations.SystemRegisters : Prop :=
  (∀ e ∈ Claims.privilegedFS, ∀ (f : FS) (s : State), (∀ o ∈ f.fields, badLiteral s o = false) →
    prvNo (myCtx s).prv < prvNo e.2 → exec (e.1 f) s = .next (faultHere .privilege s)) ∧
  (∀ e ∈ Claims.privilegedFR, ∀ (f : FR) (s : State), (∀ o ∈ f.fields, badLiteral s o = false) →
    prvNo (myCtx s).prv < prvNo e.2 → exec (e.1 f) s = .next (faultHere .privilege s)) ∧
  (∀ (f : FS) (s : State),
    let n := f.imm.toNat
    let far := extended n && visiting s (me s)
    let held := far && (coreOf s (originOf s (me s)).core).suspended
    (readLevel s n = none → exec (.sysr f) s = .next (faultHere .illegalEncoding s)) ∧
    (∀ l, readLevel s n = some l → (∀ o ∈ f.fields, badLiteral s o = false) → prvNo (myCtx s).prv < l →
      exec (.sysr f) s = .next (faultHere .privilege s)) ∧
    (∀ l, readLevel s n = some l → l ≤ prvNo (myCtx s).prv → Ready f.fields [] s →
      (held = false → ∃ t, exec (.sysr f) s = .next t ∧ MovedOn s t ∧ SameMemory s t ∧ SameRegs s t ∧
        ∀ k, f.d = .g k → (entryMarks t (me s).core (entryOf s (me s) k)).present = false ∧
          ∃ r ∈ (coreOf t (me s).core).vpend, r.dst = destOf s f.d ∧ r.val = w64 (sysValue s n) ∧ r.load = none ∧
            (far = false → r.due ≤ (myCore s).cyc + 4)) ∧
      (held = true → ∃ t, exec (.sysr f) s = .next t ∧ SameMemory s t ∧ SameRegs s t ∧
        (slotOf t (me s)).st = .parkedMemory ∧ (ctxOf t (me s)).waitNx = s.cur.nx ∧
        (ctxOf t (me s)).reply = some (.value (destOf s f.d) (w64 (sysValue s n))) ∧
        .syncWakeReply (me s) ∈ (coreOf t (originOf s (me s)).core).savedInbox))) ∧
  (∀ e ∈ [Instr.sysw, .syswStatus, .syswLfsr, .syswWmask], ∀ (f : FS) (s : State),
    (writeLevel f.imm.toNat = none → exec (e f) s = .next (faultHere .illegalEncoding s)) ∧
    (∀ l, writeLevel f.imm.toNat = some l → (∀ o ∈ f.fields, badLiteral s o = false) → prvNo (myCtx s).prv < l →
      exec (e f) s = .next (faultHere .privilege s))) ∧
  (∀ (f : FS) (s : State) (l : Nat), Ready f.fields [f.a] s → writeLevel f.imm.toNat = some l →
    l ≤ prvNo (myCtx s).prv →
    let s1 := markRead [f.a] s
    let v := src64u s1 f.a
    (selectDenied f.imm.toNat v s1 = false → exec (.sysw f) s = .next (advance (sysWrite f.imm.toNat v s1))) ∧
    (selectDenied f.imm.toNat v s1 = true →
      exec (.sysw f) s = .next (faultHere .privilege (Claims.unread [f.a] s))) ∧
    (∃ t, exec (.syswStatus f) s = .next t ∧ (ctxOf t (me s)).statusWr = some v ∧ (ctxOf t (me s)).pc = s.cur.nx ∧
      (ctxOf t (me s)).status = (myCtx s).status ∧ SameMemory s t ∧ SameRegs s t) ∧
    (∃ t, exec (.syswLfsr f) s = .next t ∧ MovedOn s t ∧ SameMemory s t ∧ SameRegs s t ∧
      (coreOf t (me s).core).lfsr = if v.setWidth 32 = (0 : W32) then 1 else v.setWidth 32) ∧
    (let pkg := pkgOf (me s).core
     let k := pkgAt s pkg
     ∃ t, exec (.syswWmask f) s = .next t ∧ MovedOn s t ∧ SameMemory s t ∧ SameRegs s t ∧
      maskOf t ⟨pkg, wmPart k⟩ (wmDie k) = v.setWidth 24)) ∧
  (∀ e ∈ Claims.plainRegs, ∀ (s : State) (v : W64), sysValue (sysWrite e.1 v s) e.1 = v &&& e.2) ∧
  (∀ (old v : W64) (p : Nat),
    let w := statusWritten old v p
    w.getLsbD stUIM = v.getLsbD stUIM ∧ w.getLsbD stUH = (old.getLsbD stUH && v.getLsbD stUH) ∧
    w.getLsbD stGH = (old.getLsbD stGH && (v.getLsbD stGH || decide (p < 1))) ∧
    w.getLsbD stHH = (old.getLsbD stHH && (v.getLsbD stHH || decide (p < 2))) ∧
    (∀ i, 8 ≤ i → i ≤ 13 → w.getLsbD i = (old.getLsbD i && !v.getLsbD i)) ∧
    (∀ i, 4 ≤ i → i < 8 ∨ 13 < i → w.getLsbD i = old.getLsbD i))

/-- UIMASK, WAITI, BKPT and TRMK (R366, R368, R432, R437, R438): UIMASK gives the old interrupt mask to D and sets it;
WAITI completes where an interrupt has been taken since the last one or a pending one cannot be taken now, and
else parks the context; BKPT waits for open windows and then traps with its own PC, or stops the context where the core
is told to; TRMK adds one record to a ring that takes its kind, with the value of A, or 0 where it has none. -/
def Sys2Proof.Claims.ControlIssue : Prop :=
  ∀ (f : FS) (s : State), Ready f.fields [] s →
    let c := myCtx s
    (∃ t, exec (.uimask f) s = .next t ∧ SameMemory s t ∧ SameRegs s t ∧
      ctxOf t (me s) = { c with
        pc := s.cur.nx
        entry := .flow
        source := s.cur.src
        status := putBit c.status stUIM (f.imm.getLsbD 0) } ∧
      ∀ k, f.d = .g k → ∃ r ∈ (coreOf t (me s).core).pend, r.dst = destOf s f.d ∧
        r.val = nat256 (c.status.getLsbD stUIM).toNat ∧ r.due = (myCore s).cyc + 2) ∧
    (c.uintTaken = true → ∃ t, exec (.waiti f) s = .next t ∧ (ctxOf t (me s)).pc = s.cur.nx ∧
      (slotOf t (me s)).st = (slotOf s (me s)).st ∧ (ctxOf t (me s)).uintTaken = false ∧
      (ctxOf t (me s)).uintOwed = c.uintOwed ∧ SameMemory s t ∧ SameRegs s t) ∧
    (c.uintTaken = false → c.uintOwed < c.ints.length ∧ intsOpen c = false →
      ∃ t, exec (.waiti f) s = .next t ∧ (ctxOf t (me s)).pc = s.cur.nx ∧ (slotOf t (me s)).st = (slotOf s (me s)).st ∧
        (ctxOf t (me s)).uintOwed = c.uintOwed + 1 ∧ SameMemory s t ∧ SameRegs s t) ∧
    (c.uintTaken = false → ¬ (c.uintOwed < c.ints.length ∧ intsOpen c = false) →
      ∃ t, exec (.waiti f) s = .next t ∧ (slotOf t (me s)).st = .parkedMessage ∧ (ctxOf t (me s)).wait = .waiti ∧
        (ctxOf t (me s)).waitNx = s.cur.nx ∧ SameMemory s t ∧ SameRegs s t) ∧
    (windowOpen s (me s) = true → s.cur.pair = false → exec (.bkpt f) s = .next
      (undo (mod s fun c => { c with nextIssue := Nat.max c.nextIssue (windowEnd s (me s)) }))) ∧
    (windowOpen s (me s) = false ∨ s.cur.pair = true →
      ((myCore s).bkstop = false → exec (.bkpt f) s =
        .next (undoTrap (takeTrap s (me s) .bkpt (f.imm.setWidth 64) s.cur.pc false true))) ∧
      ((myCore s).bkstop = false → windowOpen s (me s) = false → visiting s (me s) = false → exec (.bkpt f) s =
        .next (undoTrap (enterTrap (dropYield s (me s)) (me s) .bkpt (f.imm.setWidth 64) s.cur.pc false false))) ∧
      ((myCore s).bkstop = true → (slotOf s (me s)).st = .ready → c.held = none → ∃ t, exec (.bkpt f) s = .next t ∧
        (slotOf t (me s)).st = .stopped ∧ (slotOf t (me s)).prev = .ready ∧ (ctxOf t (me s)).pc = c.pc ∧
        (∀ l, bankOf (ctxOf t (me s)) l = bankOf c l) ∧ SameMemory s t ∧ SameRegs s t)) ∧
    (Ready f.fields [f.a] s →
      let v := if f.a = .z then 0 else src64u (markRead [f.a] s) f.a
      ∃ t, exec (.trmk f) s = .next t ∧ MovedOn s t ∧ SameMemory s t ∧ SameRegs s t ∧
        (traced (myCore s) 4 = true → (coreOf t (me s).core).trq = (myCore s).trq ++
          [⟨4, (me s).slot, f.imm.toNat % 4096, v, timeOf s (pkgOf (me s).core), c.lcoreHere⟩]) ∧
        (traced (myCore s) 4 = false → (coreOf t (me s).core).trq = (myCore s).trq))

/-- Debug stops, partition tags and samples (R375, R430 to R432): a stop is asked of the context that GEN still
names, and a release returns a stopped one to the state it held, the suspended one at its resumption; a tag is written
where the core holds nothing, and else PTAGR is set; a sample records the cell that its core issued last, or that it
issued none, and asks for the next one. -/
def Sys2Proof.Claims.ControlEvents : Prop :=
  (∀ (s : State) (x : CtxId) (g : BitVec 32), (slotOf s x).gen = g → isLive (effSt (slotOf s x)) = true →
    ∃ t, exec (.debugStop x g) s = .next t ∧ ctxOf t x = { ctxOf s x with stopReq := true } ∧
      (slotOf t x).st = (slotOf s x).st ∧ SameMemory s t ∧ SameRegs s t ∧ SameOthers s t x) ∧
  (∀ (s : State) (x : CtxId) (g : BitVec 32), (slotOf s x).gen ≠ g →
    exec (.debugStop x g) s = .next s ∧ exec (.debugRelease x g) s = .next s) ∧
  (∀ (s : State) (x : CtxId) (g : BitVec 32), (slotOf s x).gen = g →
    ((slotOf s x).st = .stopped →
      ∃ t, exec (.debugRelease x g) s = .next t ∧ (slotOf t x).st = (slotOf s x).prev ∧
        (ctxOf t x).pc = (ctxOf s x).pc ∧ (ctxOf t x).stopReq = false ∧ SameMemory s t ∧ SameRegs s t) ∧
    ((slotOf s x).st = .suspended → (slotOf s x).saved = .stopped →
      ∃ t, exec (.debugRelease x g) s = .next t ∧ (slotOf t x).st = .suspended ∧
        (slotOf t x).saved = (slotOf s x).prev ∧ (ctxOf t x).stopReq = false ∧ SameMemory s t ∧ SameRegs s t)) ∧
  (∀ (s : State) (x : CtxId) (v : W64),
    let site := pkgOf x.core * 4096 + bitsOf v.toNat 16 12
    let k := coreOf s site
    let key := fun tag => keyOf s (pkgOf site) tag
    ((∀ e ∈ k.slots, e.2.st = .free) → k.jobs = [] → k.inbox = [] →
      ∃ t, exec (.partitionTagWrite x v) s = .next t ∧ (siteOf t site).tag = v.toNat % 65536 ∧
        (∀ y, y ≠ site → siteOf t y = siteOf s y) ∧ SameRegs s t ∧
        t.mem = (recryptLines s (· == site) (key (siteOf s site).tag) (key (v.toNat % 65536))).mem ∧
        (key (siteOf s site).tag = key (v.toNat % 65536) → SameMemory s t)) ∧
    ((∃ e ∈ k.slots, e.2.st ≠ .free) ∨ k.jobs ≠ [] ∨ k.inbox ≠ [] →
      ∃ t, exec (.partitionTagWrite x v) s = .next t ∧ t.sites = s.sites ∧
        (ctxOf t x).status.getLsbD stPTAGR = true ∧ SameMemory s t ∧ SameRegs s t)) ∧
  (∀ (s : State) (core : Nat),
    let k := coreOf s core
    let us := bitsOf k.trctl.toNat 32 16
    let last : Nat × Nat × W64 := match k.issued with
      | some (sl, pc) => (sl, 0, pc.setWidth 64)
      | none => (0, 0xFFF, 0)
    (k.trctl.getLsbD 0 = true → us ≠ 0 → ∃ t, exec (.traceSampleTick core) s = .next t ∧
      (s.now + ns (1000 * us), Instr.traceSampleTick core) ∈ t.agenda ∧ SameMemory s t ∧ SameRegs s t ∧
      (k.gated = true ∨ traced k 0 = false → (coreOf t core).trq = k.trq) ∧
      (k.gated = false → traced k 0 = true → (coreOf t core).trq = k.trq ++ [⟨0, last.1, last.2.1, last.2.2,
        timeOf s (pkgOf core), (Map.get k.slots last.1 Slot.zero).ctx.lcoreHere⟩])) ∧
    (k.trctl.getLsbD 0 = false ∨ us = 0 → exec (.traceSampleTick core) s = .next s))
/-! ## Pages -/

namespace Sys2Proof.Claims

/-- TLBI: of the package's translations exactly those that `drop` names are gone. -/
def Dropped (s t : State) (pkg : Nat) (drop : TlbEntry → Bool) : Prop :=
  ∀ core, pkgOf core = pkg → (coreOf t core).tlb = listDel drop (coreOf s core).tlb ∧
    (dieAt t (dieKey core)).tlb = listDel drop (dieAt s (dieKey core)).tlb

/-- An entry that serves a whole page of 512 MiB is one of such a page. -/
def WholeIsWide (s : State) : Prop :=
  ∀ core, ∀ e ∈ (coreOf s core).tlb ++ (dieAt s (dieKey core)).tlb, e.whole = true → e.wide = true

/-- TLBI with the entries `drop` of partition `q`: it moves on at once where no walk and no access that used a dropped
entry is under way, and else waits for those that are. -/
def Invalidates (i : Instr) (s : State) (q : PartId) (drop : TlbEntry → Bool) : Prop :=
  ∃ t, exec i s = .next t ∧ SameMemory s t ∧ SameRegs s t ∧ Dropped s t q.pkg drop ∧
    (accessesOver s q s.ids = true → MovedOn s t) ∧
    (accessesOver s q s.ids = false → (slotOf t (me s)).st = .parkedMemory ∧
      (ctxOf t (me s)).wait = .tlbi q.part s.ids ∧ (ctxOf t (me s)).waitNx = s.cur.nx)

end Sys2Proof.Claims

/-- Walks, copies and TLBI (R251, R254 to R256, R259, R264): a walk that ends is served from the TLB afterwards and
changes no byte but those of its entry, one that meets a frame under move is made again, one that faults, or that
nothing made, lets the contexts look again; a copy gives the new frame the bytes and marks of the old, leaves no
translation of its entry and every context that waited for it ready; TLBI drops exactly the entries it names, and ends
when the accesses and walks that used them have. -/
def Sys2Proof.Claims.Translations : Prop :=
  (∀ (s : State) (core : Nat) (p : PartId) (va : VA) (write : Bool),
    let vpn := va.toNat / 65536
    let i := Instr.pageWalk core p va write
    let asked := firstWhere (fun (r : WalkReq) => r.part == p.part && r.va.toNat / 65536 == vpn)
      (dieAt s (dieKey core)).walks
    let woken := fun (t : State) => ∀ x, dieKey x.core = dieKey core → isParked (slotOf s x).st = true →
      (ctxOf s x).wait = .walk p.part vpn → (slotOf t x).st = .ready
    (asked = none → ∃ t, exec i s = .next t ∧ SameMemory s t ∧ SameRegs s t ∧ woken t) ∧
    (asked ≠ none →
      (walkHeld s p va = .moving → exec i s = .next (at_ s (s.now + ns 1000) i)) ∧
      (∀ fm, walkHeld s p va = .fault fm → ∃ t, exec i s = .next t ∧ SameMemory s t ∧ SameRegs s t ∧ woken t) ∧
      (∀ (e : Pte) g fr pa, walkHeld s p va = .ok e g fr pa → s.Inv → ∃ t x, exec i s = .next t ∧ woken t ∧
        tlbLook t core p.part va = some x ∧ x.part = p.part ∧ x.vpn = vpn ∧ x.frame = fr ∧ x.entry = pa ∧
        x.pte = putBit (if write && e.wr && !e.cow then putBit e 10 true else e) 9 true ∧
        SameRegs s t ∧ ∀ a, a < memKey p.pkg pa ∨ memKey p.pkg pa + 8 ≤ a → readByte t a = readByte s a))) ∧
  (∀ (s : State) (p : PartId) (va : VA), ∃ t, exec (.cowCopy p va) s = .next t ∧ SameRegs s t ∧
    (∀ x v, pkgOf x.core = p.pkg → isParked (slotOf s x).st = true → (ctxOf s x).wait = .copy v →
      (slotOf t x).st = .ready) ∧
    ((∀ (e : Pte) g fr pa, walk s p va = .ok e g fr pa → e.cow = false ∨ e.wr = false) ∨ poolCount s p = none ∨
      poolCount s p = some 0 → SameMemory s t) ∧
    (∀ (e q : Pte) g fr pa n g2 pf qa ga (u : State) new, s.Inv → walk s p va = .ok e g fr pa →
      e.cow = true → e.wr = true → poolCount s p = some n → 0 < n → poolPA s p n = some ga →
      walkMark s (p.pkg * 4096) p ((partOf s p).cowpool.setWidth 57) true = (.ok q g2 pf qa, u) →
      frameFor u p false (bitsOf (readPA u p.pkg ga 8) 0 36) = .ok new →
      (∀ core, pkgOf core = p.pkg → ∀ x ∈ (coreOf t core).tlb ++ (dieAt t (dieKey core)).tlb, x.entry ≠ pa) ∧
      (fr < 2 ^ 27 → new < 2 ^ 27 → fr ≠ new → (∀ k ∈ [pa / 65536, pf, qa / 65536], k ≠ fr ∧ k ≠ new) →
        (partOf s p).cowpool.toNat % 8 = 0 → ∀ o < 65536, readByte t (new * 65536 + o) = readByte s (fr * 65536 + o)))) ∧
  (∀ (f : FS) (s : State), Ready f.fields f.srcs s →
    let s1 := markRead f.srcs s
    let p := myPart s
    let vpn := (src64 s1 f.a).toNat % 2 ^ 57 / 65536
    let q : PartId := ⟨p.pkg, (src64 s1 f.a).toNat % 65536⟩
    (1 ≤ prvNo (myCtx s).prv →
      (drained s (me s) = false →
        exec (.tlbiPage f) s = .next (parkBefore .parkedMemory .drain (Claims.unread f.srcs s)) ∧
        exec (.tlbiAll f) s = .next (parkBefore .parkedMemory .drain (Claims.unread f.srcs s))) ∧
      (drained s (me s) = true →
        Claims.Invalidates (.tlbiPage f) s p (fun e => e.ofPage p.part vpn) ∧
        Claims.Invalidates (.tlbiAll f) s p (fun e => e.part == p.part) ∧
        (Claims.WholeIsWide s → ∀ t core (va : VA), exec (.tlbiPage f) s = .next t → pkgOf core = p.pkg →
          va.toNat / 65536 = vpn → tlbLook t core p.part va = none))) ∧
    (2 ≤ prvNo (myCtx s).prv →
      (drained s (me s) = false →
        exec (.tlbiPart f) s = .next (parkBefore .parkedMemory .drain (Claims.unread f.srcs s))) ∧
      (drained s (me s) = true → Claims.Invalidates (.tlbiPart f) s q (fun e => e.part == q.part))))

/-- PGSNAP (R265, R267): the order of its checks; what the steps meet that faults or waits; its statuses with the
index of the page, and the entries that a page's step writes. -/
def Sys2Proof.Claims.Snapshots : Prop :=
  (∀ (f : FS) (s : State), Ready f.fields f.srcs s → 1 ≤ prvNo (myCtx s).prv →
    let s1 := markRead f.srcs s
    let s0 := Claims.unread f.srcs s
    let p := myPart s
    let a := (src64 s1 f.a).toNat
    let b := (src64 s1 f.b).toNat
    let n := (src64 s1 f.c).toNat
    (drained s (me s) = false → exec (.pgsnap f) s = .next (parkBefore .parkedMemory .drain s0)) ∧
    (drained s (me s) = true →
      (8192 < n → exec (.pgsnap f) s = .next (faultHere .illegalEncoding s0)) ∧
      (n ≤ 8192 → a % 65536 ≠ 0 → exec (.pgsnap f) s = .next (fault .alignment (BitVec.ofNat 64 a) s0)) ∧
      (n ≤ 8192 → a % 65536 = 0 → b % 65536 ≠ 0 →
        exec (.pgsnap f) s = .next (fault .alignment (BitVec.ofNat 64 b) s0)) ∧
      (n ≤ 8192 → a % 65536 = 0 → b % 65536 = 0 →
        (∀ va fm, snapStop s1 p a b n 0 = some (.missing va fm) →
          exec (.pgsnap f) s = .next (fault .translation (trInfo va fm) s0)) ∧
        (∀ va, snapStop s1 p a b n 0 = some (.moving va) → exec (.pgsnap f) s = .next (parkWalk s0 va false)) ∧
        (∀ fr, snapStop s1 p a b n 0 = some (.writes fr) →
          exec (.pgsnap f) s = .next (parkBefore .parkedMemory (.frame fr) s0)) ∧
        (snapStop s1 p a b n 0 = none →
          let r := snapPages s1 (me s) a b n n 0
          ∃ t, t = result f.d (w64 r.1) r.2 ∧ exec (.pgsnap f) s = .next t ∧ MovedOn s t ∧ SameRegs s t)))) ∧
  (∀ (s : State) (x : CtxId) (a b n k i : Nat),
    let p := partId s x
    let src := slotWalk s p ((a + i * 65536) % 2 ^ 57)
    let dst := slotWalk s p ((b + i * 65536) % 2 ^ 57)
    snapPages s x a b n 0 i = (BitVec.ofNat 64 n, s) ∧
    ((∀ spa e, src = .slot spa e → leafOk e = false) → snapPages s x a b n (k + 1) i = (snapStatus 1 i, s)) ∧
    (∀ spa e, src = .slot spa e → leafOk e = true →
      ((∀ dpa t, dst = .slot dpa t → t.v = true) → snapPages s x a b n (k + 1) i = (snapStatus 2 i, s)) ∧
      (∀ dpa t, dst = .slot dpa t → t.v = false →
        (e.fe = true ∨ e.cps = true → snapPages s x a b n (k + 1) i = (snapStatus 3 i, s)) ∧
        (e.fe = false → e.cps = false → ∃ u, snapPages s x a b n (k + 1) i = snapPages u x a b n k (i + 1) ∧
          SameRegs s u ∧
          (∀ core, pkgOf core = p.pkg → ∀ y ∈ (coreOf u core).tlb ++ (dieAt u (dieKey core)).tlb, y.entry ≠ spa) ∧
          (s.Inv → memKey p.pkg spa + 8 ≤ memKey p.pkg dpa ∨ memKey p.pkg dpa + 8 ≤ memKey p.pkg spa →
            readPA u p.pkg spa 8 = (putBit e 5 true).toNat ∧
            readPA u p.pkg dpa 8 = (putBit (putBit (putBit e 5 true) 9 false) 10 false).toNat)))))

/-- PGRET (R252, R266): its statuses; a copy of the frame that is being made comes first; then the frame is under move,
no translation maps to it and D is absent; at the end of the move the new frame has the bytes of the old, the frame map
names it, and D receives two lost sectors for each line of the old frame that reads with an error. -/
def Sys2Proof.Claims.Moves : Prop :=
  (∀ (f : FS) (s : State), Ready f.fields f.srcs s → 2 ≤ prvNo (myCtx s).prv →
    let s1 := markRead f.srcs s
    let pkg := (myPart s).pkg
    let a := (src64 s1 f.a).toNat
    let b := (src64 s1 f.b).toNat
    let q : PartId := ⟨pkg, bitsOf a 48 16⟩
    let gfn := bitsOf a 0 36
    (bitsOf a 36 12 ≠ 0 ∨ (∀ fr, frameOf s q gfn ≠ .ok fr) →
      exec (.pgret f) s = .next (result f.d (nat256 (2 ^ 56)) s1)) ∧
    (∀ old, bitsOf a 36 12 = 0 → frameOf s q gfn = .ok old →
      (2 ^ 28 ≤ old → exec (.pgret f) s = .next (result f.d (nat256 (2 ^ 56)) s1)) ∧
      (old < 2 ^ 28 →
        (b % 65536 ≠ 0 ∨ 2 ^ 43 ≤ b ∨ bitsOf b 38 5 ≠ pkg →
          exec (.pgret f) s = .next (result f.d (nat256 (2 * 2 ^ 56)) s1)) ∧
        (b % 65536 = 0 → b < 2 ^ 43 → bitsOf b 38 5 = pkg →
          (∀ va, copyingOf s old = some va →
            exec (.pgret f) s = .next (parkBefore .parkedMemory (.copy va) (Claims.unread f.srcs s))) ∧
          (copyingOf s old = none → s.Inv → ∃ t, exec (.pgret f) s = .next t ∧ MovedOn s t ∧ SameRegs s t ∧
            t.moves = s.moves ++ [⟨pkg, q.part, gfn, old, b / 65536, (me s).core, (me s).slot, destOf s f.d⟩] ∧
            frameOf t q gfn = .moving old ∧
            (∀ k, f.d = .g k → (entryMarks t (me s).core (entryOf s (me s) k)).present = false) ∧
            (∀ core, pkgOf core = pkg → ∀ e ∈ (coreOf t core).tlb ++ (dieAt t (dieKey core)).tlb,
              e.maps old = false)))))) ∧
  (∀ (s : State) (m : FrameMove), s.Inv →
    let t := finishMove s m
    let key := memKey m.pkg (fmapEntryPA s ⟨m.pkg, m.part⟩ m.gfn)
    (∀ e, m.dest = .reg e → ∃ r ∈ (coreOf t m.core).vpend, r.dst = m.dest ∧
      r.val = nat256 (2 * (badLines s m.old).length)) ∧
    (badLines s m.old = [] → m.old ≠ m.new → m.old < 2 ^ 28 → m.new < 2 ^ 28 →
      (∀ k ∈ [key / 65536, (key + 7) / 65536], k ≠ m.old ∧ k ≠ m.new) →
      (∀ o < 65536, readByte t (m.new * 65536 + o) = readByte s (m.old * 65536 + o)) ∧
      (frameOf s ⟨m.pkg, m.part⟩ m.gfn = .moving m.old →
        frameOf t ⟨m.pkg, m.part⟩ m.gfn = .ok m.new)))

/-! ## Intervals, transactions and errors -/

/-- CKPT, TBEG, TCOM and TABT (R408, R414, R415, R418): the statuses without an effect; CKPT closes the interval
and gives the number of the next; TBEG joins the transaction that its group and TXID name; TCOM faults RANK_ORDER
while an obligation other than DONE is held and else, a release, waits, ready, for the commit; TABT asks for the abort. -/
def Sys2Proof.Claims.TransactionIssue : Prop :=
  ∀ (f : FS) (s : State), Ready f.fields [] s →
    let c := myCtx s
    let p := myPart s
    (1 ≤ prvNo c.prv →
      (ckEnabled s p = false → exec (.ckpt f) s = .next (result f.d 0 s)) ∧
      (ckEnabled s p = true → Claims.Settled false s → ∃ u,
        exec (.ckpt f) s = .next (result f.d (nat256 ((partOf s p).interval + 1).toNat) u) ∧
        (partOf u p).interval = (partOf s p).interval + 1 ∧ (partOf u p).oldLog = some (partOf s p).log ∧
        SameMemory s u ∧ SameRegs s u) ∧
      (ckEnabled s p = true → ¬ Claims.Settled false s →
        exec (.ckpt f) s = .next (parkBefore .parkedMemory .drain s))) ∧
    (s.cur.rstNext = false → exec (.tbeg f) s = .next (faultHere .illegalEncoding s)) ∧
    (s.cur.rstNext = true →
      (groupOf s p c.grp = none → exec (.tbeg f) s = .next (result f.d 1 s)) ∧
      (∀ g, groupOf s p c.grp = some g → g.st ≠ .running → exec (.tbeg f) s = .next (result f.d 1 s)) ∧
      (∀ g, groupOf s p c.grp = some g → g.st = .running →
        (c.tx.isSome = true → exec (.tbeg f) s = .next (result f.d (nat256 2) s)) ∧
        (c.tx = none → ckEnabled s p = false → exec (.tbeg f) s = .next (result f.d (nat256 3) s)) ∧
        (c.tx = none → ckEnabled s p = true →
          let id := txName g (f.imm.toNat % 65536)
          ∃ t e, exec (.tbeg f) s = .next t ∧ (ctxOf t (me s)).tx = some id ∧ (ctxOf t (me s)).pc = s.cur.nx ∧
            txFind t p.pkg id = some e ∧ e.st = .opened ∧ originOf s (me s) ∈ e.members ∧
            (∃ n ∈ (partOf t p).log.snaps, n.who = refOf s (me s) ∧ n.tx = some id ∧ n.pc = s.cur.nx) ∧
            SameMemory s t ∧ SameRegs s t))) ∧
    (c.tx = none → exec (.tcom f) s = .next (result f.d 1 s) ∧ exec (.tabt f) s = .next (advance s)) ∧
    (∀ id, c.tx = some id →
      ((∃ e ∈ c.obls, e.2.kind ≠ .done) →
        exec (.tcom f) s = .next (fault .rankOrder (BitVec.ofNat 64 (obminOf c * 65536)) s)) ∧
      ((∀ e ∈ c.obls, e.2.kind = .done) → Claims.Settled false s →
        ∃ t, exec (.tcom f) s = .next t ∧ (slotOf t (me s)).st = .parkedMessage ∧ (ctxOf t (me s)).wait = .txEnd ∧
          SameMemory s t ∧ SameRegs s t ∧
          (c.isUnit = true → ∀ e, txFind s p.pkg id = some e → ∃ e', txFind t p.pkg id = some e' ∧
            originOf s (me s) ∈ e'.ready)) ∧
      ((∀ e ∈ c.obls, e.2.kind = .done) → ¬ Claims.Settled false s →
        exec (.tcom f) s = .next (parkBefore .parkedMemory .drain s)) ∧
      (∃ t, exec (.tabt f) s = .next t ∧ (slotOf t (me s)).st = .parkedMessage ∧ (ctxOf t (me s)).wait = .txEnd ∧
        SameMemory s t ∧ SameRegs s t ∧ (∀ e, txFind s p.pkg id = some e → e.st = .opened →
          ∃ cause code, .txAbort id cause code ∈ (pkgAt t p.pkg).toSend)))

/-- Errors and intervals (R163, R165, R171, R406 to R413): what a sweep, a tag error, a failed bank, a rebuilt bank, the
consumption of bad data, a rollback, a switch of the log and a clearing of an error bank leave. Where the log holds
the line's undo entry and every member of the rollback set can go back, the consumer rolls back with them; else it
takes MACHINE_CHECK. -/
def Sys2Proof.Claims.ReliabilityEvents : Prop :=
  (∀ (s : State) (site : Nat), s.Inv → ∃ t, exec (.l2WaySweep site) s = .next t ∧ SameMemory s t ∧ SameRegs s t ∧
    (siteOf t site).sweepWay = ((siteOf s site).sweepWay + 1) % 24 ∧
    Map.get? (siteOf t site).history (siteOf s site).sweepWay =
      some (fillers s (pkgOf site) (dieOf site) (siteOf s site).sweepWay)) ∧
  (∀ (s : State) (site set way : Nat) (clean : Bool),
    (Map.get? (siteOf s site).l2 (set * 24 + way) = none → exec (.l2TagParityError site set way clean) s = .next s) ∧
    (∀ l, Map.get? (siteOf s site).l2 (set * 24 + way) = some l → Map.sorted (siteOf s site).l2 = true →
      (clean = true → ∃ t, exec (.l2TagParityError site set way clean) s = .next t ∧ SameMemory s t ∧ SameRegs s t ∧
        Map.get? (siteOf t site).l2 (set * 24 + way) = none ∧
        (ebankOf t (pkgOf site) (siteBank site)).cecnt =
          Nat.min 0xFFFF ((ebankOf s (pkgOf site) (siteBank site)).cecnt + 1)) ∧
      (clean = false → s.Inv → ∃ u, SameRegs s u ∧ Map.get? (siteOf u site).l2 (set * 24 + way) = none ∧
        (∀ a, l.dirty = 0 ∨ a / 64 ≠ l.key → readByte u a = readByte s a) ∧
        let v := captureUc u (pkgOf site) (siteBank site) 1 18 l.owner (some (64 * l.key)) way 0
        exec (.l2TagParityError site set way clean) s = .next ((historyOf v site way).foldl (fun s part =>
          let p : PartId := ⟨pkgOf site, part⟩
          let xs := (liveCtxs s p).filter fun x => dieOf x.core == dieOf site
          if ckEnabled s p then rollbackNow s p (xs.map (refOf s)) true
          else veqPush (xs.foldl (fun s x => machineCheck s x 4) s) p 5 18 0 0 0) v)))) ∧
  (∀ (s : State) (x : CtxId) (err : DataErr) (pa : Nat),
    let i := Instr.dataErrorConsumption x err pa
    let reg := (ctxOf s x).badRead
    let p := partId s x
    let l := (partOf s p).log
    let who := refOf s x
    let s1 := captureData (restoreD s x) pa err (refWord who)
    let set := rollbackSet l who (pa / 64)
    let logged := ckEnabled s p && l.undo.any fun u => u.line == pa / 64
    (isParked (slotOf s x).st = false ∨ (ctxOf s x).wait ≠ .reply → exec i s = .next s) ∧
    (isParked (slotOf s x).st = true → (ctxOf s x).wait = .reply →
      (logged = false → exec i s = .next (machineCheckIn s1 x (if err = .media then 1 else 2) reg)) ∧
      (logged = true → feasible s1 p set = false → ∃ u, exec i s = .next (machineCheckIn u x 3 reg)) ∧
      (logged = true → feasible s1 p set = true → ∃ t, exec i s = .next t ∧ SameRegs s1 t ∧
        (ctxOf t x).wait = .reply ∧ (s.now, Instr.rollback p (set.filterMap (findCtx s1 p))) ∈ t.agenda))) ∧
  (∀ (s : State) (p : PartId) (xs : List CtxId), ∃ t, exec (.rollback p xs) s = .next t ∧
    (partOf t p).rollbacks = (partOf s p).rollbacks + 1 ∧
    ∀ x ∈ xs, findCtx s p (refOf s x) = some x →
      ∃ e ∈ (ctxOf t x).events, e.cause = .rollback ∧ e.info = BitVec.ofNat 64 (partOf s p).interval.toNat) ∧
  (∀ (s : State) (p : PartId),
    ((∀ x ∈ liveCtxs s p, (ctxOf s x).snapAt = (partOf s p).interval.toNat) →
      ∃ t, exec (.checkpointLogRelease p) s = .next t ∧ (partOf t p).oldLog = none ∧
        (partOf t p).log = (partOf s p).log) ∧
    ((∃ x ∈ liveCtxs s p, (ctxOf s x).snapAt ≠ (partOf s p).interval.toNat) →
      exec (.checkpointLogRelease p) s = .next s)) ∧
  (∀ (s : State) (site bank : Nat) (arr : ArrayKind),
    let k := siteOf s site
    let others := (k.badBanks.filter fun b => b.1 == arr).length
    (18 ≤ bank ∨ (arr, bank) ∈ k.badBanks → exec (.bankFailure site arr bank) s = .next s) ∧
    (bank < 18 → (arr, bank) ∉ k.badBanks → ∃ t, exec (.bankFailure site arr bank) s = .next t ∧
      (arr, bank) ∈ (siteOf t site).badBanks ∧ SameMemory s t ∧ SameRegs s t ∧
      (∃ due, (due, .bankRebuildComplete site arr bank) ∈ t.agenda) ∧
      (others < 2 → t.bad = s.bad) ∧
      (2 ≤ others → Map.sorted s.bad = true →
        (arr = .l2 → ∀ l ∈ k.l2, l.2.dirty ≠ 0 → Map.get? t.bad l.2.key = some .media) ∧
        (arr ≠ .l2 → ∀ l ∈ k.llc, l.2.dirty = true → Map.get? t.bad l.2.key = some .media))) ∧
    (∃ t, exec (.bankRebuildComplete site arr bank) s = .next t ∧ (arr, bank) ∉ (siteOf t site).badBanks ∧
      SameMemory s t ∧ SameRegs s t ∧ ((arr, bank) ∈ k.badBanks → (arr, bank) ∈ (siteOf t site).retiredBanks))) ∧
  (∀ (s : State) (p : PartId) (v : W64),
    (∃ t, exec (.cklogEnable p v) s = .next t ∧ (partOf t p).cklog = v ∧ (partOf t p).interval = 1 ∧
      (partOf t p).log.undo = [] ∧ (partOf t p).log.snaps = [] ∧ (partOf t p).oldLog = none ∧
      SameMemory s t ∧ SameRegs s t) ∧
    (∃ t, exec (.cklogDisable p v) s = .next t ∧ (partOf t p).cklog = v ∧ (partOf t p).log = CkLog.zero ∧
      (partOf t p).oldLog = none ∧ (partOf t p).interval = (partOf s p).interval ∧ SameMemory s t ∧ SameRegs s t)) ∧
  (∀ (s : State) (pkg : Nat) (v : W64),
    let n := (pkgAt s pkg).ebsel.toNat
    let b := ebankOf s pkg n
    (v.getLsbD 63 = true → bitsOf v.toNat 8 8 = b.uccnt → ∃ t, exec (.ebstatClearRecord pkg v) s = .next t ∧
      ebankOf t pkg n = { b with
        val := false
        uc := false
        ovf := false
        addrv := false
        uccnt := 0 }) ∧
    (v.getLsbD 63 = false ∨ bitsOf v.toNat 8 8 ≠ b.uccnt → exec (.ebstatClearRecord pkg v) s = .next s) ∧
    (∃ t, exec (.ebstatClearCe pkg) s = .next t ∧ ebankOf t pkg n = { b with cecnt := 0 }))

/-! ## Gates -/

namespace Sys2Proof.Claims

/-- The context parks on a reply, `fs` being the frames that it leaves for the order plane; its gate takes `g`. -/
def AsksPlane (i : Instr) (s : State) (fs : List OBody) : Prop :=
  ∃ t, exec i s = .next t ∧ (slotOf t (me s)).st = .parkedMessage ∧ (ctxOf t (me s)).wait = .reply ∧
    (ctxOf t (me s)).waitNx = s.cur.nx ∧ SameMemory s t ∧ SameRegs s t ∧
    (pkgAt t (myPart s).pkg).toSend = (pkgAt s (myPart s).pkg).toSend ++ fs

/-- The four frames that carry an image of 128 bytes. -/
def imageFrames (s : State) (op : Nat) (h : W64) (img : Nat) : List OBody :=
  (upto 4).map fun i => .gate op h (myCtx s).part 0 i (BitVec.ofNat 256 (img / 2 ^ (256 * i))) (originOf s (me s)) .none

/-- The frame of a change without an image, for partition `part`. -/
def changeFrame (s : State) (op : Nat) (h : W64) (part : Nat) : OBody :=
  .gate op h part 0 0 0 (originOf s (me s)) .none

end Sys2Proof.Claims

/-- GSIG (R381, R384, R385, R389, R391, R396): the order of its checks and the fault of each; a signal raises SIG by its
count, takes its tokens and gives the new SIG, at a copse gate through the order plane; one of a frozen partition or
short of tokens is held. -/
def Sys2Proof.Claims.Signals : Prop :=
  ∀ (f : FR) (s : State), Ready f.fields f.srcs s →
    let s1 := markRead f.srcs s
    let s0 := Claims.unread f.srcs s
    let c := myCtx s
    let pkg := (myPart s).pkg
    let h := src64i s1 f.imm20 f.a
    let n := if f.b = .z then 1 else (src64i s1 f.imm20 f.b).toNat
    let held := fun since => ∃ t, exec (.gsig f) s = .next t ∧ (slotOf t (me s)).st = .parkedMessage ∧
      (ctxOf t (me s)).wait = .gateHold h false n since ∧ rawGate t pkg h = rawGate s pkg h
    (tableHeld s (me s) = true → exec (.gsig f) s = .next (parkBefore .parkedMessage .table s0)) ∧
    (tableHeld s (me s) = false →
      (n = 0 ∨ 65535 < n → exec (.gsig f) s = .next (fault .gateRate h s0)) ∧
      (∀ g, getGate s pkg h = some g → g.rate ≠ 0 → g.rate < n → exec (.gsig f) s = .next (fault .gateRate h s0)) ∧
      (0 < n → n ≤ 65535 → (∀ g, getGate s pkg h = some g → g.rate = 0 ∨ n ≤ g.rate) →
        (¬ Claims.Settled false s → exec (.gsig f) s = .next (parkBefore .parkedMemory .drain s0)) ∧
        (Claims.Settled false s →
          (getGate s pkg h = none → exec (.gsig f) s = .next (fault .gateStale h s0)) ∧
          (∀ g, getGate s pkg h = some g →
            (aclS g c.part = false → exec (.gsig f) s = .next (fault .gateDenied h s0)) ∧
            (aclS g c.part = true → g.frozen c.part = true → held none) ∧
            (aclS g c.part = true → g.frozen c.part = false → g.short c.part n = true →
              (g.strict = true → exec (.gsig f) s = .next (fault .gateRate h s0)) ∧
              (g.strict = false → held (some s.now))) ∧
            (aclS g c.part = true → g.frozen c.part = false → g.short c.part n = false →
              (handleCps h = true → Claims.AsksPlane (.gsig f) s [.gate 0 h c.part n 0 0 (originOf s (me s)) .none] ∧
                ∀ t, exec (.gsig f) s = .next t → (rawGate t pkg h).tokens c.part = (g.take c.part n).tokens c.part) ∧
              (handleCps h = false → ∃ u,
                exec (.gsig f) s = .next (result f.d (nat256 (g.sig + BitVec.ofNat 32 n).toNat) u) ∧
                (rawGate u pkg h).sig = g.sig + BitVec.ofNat 32 n ∧
                (rawGate u pkg h).phist = g.phist <<< Nat.min n 32 ∧
                (rawGate u pkg h).tokens c.part =
                  if g.rate = 0 then g.tokens c.part else g.tokens c.part - n))))))

/-- GWAIT and GQRY (R381, R386, R389, R392, R393): the order of their checks and the fault of each; a wait whose target
is reached returns SIG or traps POISONED, another parks as a waiter; GQRY writes the fields of the gate and of the
issuer's entry. -/
def Sys2Proof.Claims.Waits : Prop :=
  ∀ (f : FR) (s : State), Ready f.fields f.srcs s →
    let s1 := markRead f.srcs s
    let s0 := Claims.unread f.srcs s
    let c := myCtx s
    let pkg := (myPart s).pkg
    let h := src64i s1 f.imm20 f.a
    (tableHeld s (me s) = true → exec (.gwait f) s = .next (parkBefore .parkedMessage .table s0)) ∧
    (tableHeld s (me s) = false → ¬ Claims.Free s →
      exec (.gwait f) s = .next (parkBefore .parkedMemory .drain s0)) ∧
    (getGate s pkg h = none → exec (.gqry f) s = .next (fault .gateStale h s0) ∧
      (tableHeld s (me s) = false → Claims.Free s → exec (.gwait f) s = .next (fault .gateStale h s0))) ∧
    (∀ g, getGate s pkg h = some g →
      (tableHeld s (me s) = false → Claims.Free s →
        let t := if f.b = .z then g.sig + 1 else (src64i s1 f.imm20 f.b).setWidth 32
        (aclW g c.part = false → exec (.gwait f) s = .next (fault .gateDenied h s0)) ∧
        (aclW g c.part = true → obminOf c ≤ g.rank →
          exec (.gwait f) s = .next (fault .rankOrder (BitVec.ofNat 64 (obminOf c * 65536 + g.rank)) s0)) ∧
        (aclW g c.part = true → g.rank < obminOf c →
          (g.frozen c.part = true → ∃ u, exec (.gwait f) s = .next u ∧ (slotOf u (me s)).st = .parkedMessage ∧
            (ctxOf u (me s)).wait = .gateHold h true t.toNat none ∧ (ctxOf u (me s)).waitRank = some g.rank ∧
            rawGate u pkg h = g) ∧
          (g.frozen c.part = false → g.reached t = true → g.poisoned t = true →
            exec (.gwait f) s = .next (fault .poisoned 0 (markOutside s0 (me s)))) ∧
          (g.frozen c.part = false → g.reached t = true → g.poisoned t = false →
            exec (.gwait f) s = .next (result f.d (nat256 g.sig.toNat)
              (syncObj (markOutside s1 (me s)) (me s) (gateObj h) true false))) ∧
          (g.frozen c.part = false → g.reached t = false → ∃ u, exec (.gwait f) s = .next u ∧
            (slotOf u (me s)).st = .parkedSync ∧ (ctxOf u (me s)).wait = .gate h t ∧
            (ctxOf u (me s)).waitRank = some g.rank ∧ (rawGate u pkg h).waiters = g.waiters + 1))) ∧
      ((∀ a, g.aclFor c.part = some a → a.s = false ∧ a.w = false) →
        exec (.gqry f) s = .next (fault .gateDenied h s0)) ∧
      (∀ a, g.aclFor c.part = some a → (a.s = true ∨ a.w = true) →
        exec (.gqry f) s = .next (result f.d (nat256 (gqryWord g a (handleCps h))) (markOutside s1 (me s))) ∧
        (g.rank < 2 ^ 16 → a.tokens < 2 ^ 12 → g.rate < 2 ^ 16 → g.interval < 2 ^ 16 → g.buflen < 2 ^ 16 →
          let v := gqryWord g a (handleCps h)
          bitsOf v 0 32 = g.sig.toNat ∧ bitsOf v 32 16 = g.rank ∧ bitAt v 48 = a.s ∧ bitAt v 49 = a.w ∧
            bitAt v 50 = a.frz ∧ bitAt v 51 = g.strict ∧ bitAt v 52 = handleCps h ∧ bitsOf v 53 11 = 0 ∧
            bitsOf v 64 12 = a.tokens ∧ bitsOf v 76 4 = 0 ∧ bitsOf v 80 16 = g.rate ∧ bitsOf v 96 16 = g.interval ∧
            bitsOf v 112 16 = g.buflen ∧ v < 2 ^ 128)))

/-- GSIG, GWAIT and GQRY (R381, R384 to R386, R389, R391 to R393, R396). -/
def Obligations.Gates : Prop := Claims.Signals ∧ Claims.Waits

/-- GMAKE (R279, R381, R382, R387, R388, R394): a create takes the lowest free entry of the core's own sync unit, of the
home of the page that B names, or of the package's copse gates, and gives its handle; its statuses are 1 with no free
entry, 2 with an illegal image and 3 past a quota; on a stale handle every other operation has status 1; a revoked gate
is closed with a new GEN; setacl replaces ACL, RATE, INTERVAL and STRICT; freeze and thaw set FRZ of the partition's
entry, with status 2 where there is none; a read stores the descriptor as four stores of 32 bytes. A copse gate is
changed through the order plane. -/
def Sys2Proof.Claims.Making : Prop :=
  ∀ (f : FS) (s : State), Ready f.fields f.srcs s → 2 ≤ prvNo (myCtx s).prv →
    let s1 := markRead f.srcs s
    let s0 := Claims.unread f.srcs s
    let pkg := (myPart s).pkg
    let h := src64 s1 f.a
    let vb : VA := (src64 s1 f.b).setWidth 57
    let at1 := fun h => gatePoint h s1
    (drained s (me s) = false ∨ ¬ Claims.Free s →
      ∀ e ∈ [Instr.gmakeCreate, .gmakeRevoke, .gmakeSetacl, .gmakeFreeze, .gmakeThaw, .gmakeRead],
        exec (e f) s = .next (parkBefore .parkedMemory .drain s0)) ∧
    (drained s (me s) = true → Claims.Free s →
      (∀ hit, Claims.Clear s1 ((src64 s1 f.a).setWidth 57) (needOther 128 true false) hit →
        let img := readOwn s1 (me s) hit.pa 128
        (∀ site, f.imm.getLsbD 8 = false →
          ((f.b = .z ∧ site = (me s).core ∧ (siteOf s site).gated = false) ∨
            (f.b ≠ .z ∧ ∃ hb, Claims.Clear s1 vb (needOther 1 true false) hb ∧ hb.space = .dram site)) →
          (freeGate (siteOf s site).gates 16 = none →
            exec (.gmakeCreate f) s = .next (result f.d (spawnFail 1) (at1 (barHandle site 0 0)))) ∧
          (∀ i, freeGate (siteOf s site).gates 16 = some i →
            let u0 := at1 (barHandle site i 0)
            (imageBad img = true → exec (.gmakeCreate f) s = .next (result f.d (spawnFail 2) u0)) ∧
            (imageBad img = false → membersFull s (pkgOf site) img none = true →
              exec (.gmakeCreate f) s = .next (result f.d (spawnFail 3) u0)) ∧
            (imageBad img = false → membersFull s (pkgOf site) img none = false → site < 2 ^ 17 →
              let gen := (Map.get (siteOf s site).gates i Gate.zero).gen
              ∃ u, exec (.gmakeCreate f) s = .next (result f.d (w64 (barHandle site i gen)) u) ∧
                Map.get? (siteOf u site).gates i = some (gateFrom img false gen s.now) ∧ i < 16))) ∧
        (f.imm.getLsbD 8 = true →
          let gates := (pkgAt s pkg).gates
          let at2 := fun i => at1 (refillHandle (2 ^ 20 + pkg) i 0)
          (freeGate gates 1024 = none → exec (.gmakeCreate f) s = .next (result f.d (spawnFail 1) (at2 0))) ∧
          (∀ i, freeGate gates 1024 = some i →
            (imageBad img = true → exec (.gmakeCreate f) s = .next (result f.d (spawnFail 2) (at2 i))) ∧
            (imageBad img = false → membersFull s pkg img none = true →
              exec (.gmakeCreate f) s = .next (result f.d (spawnFail 3) (at2 i))) ∧
            (imageBad img = false → membersFull s pkg img none = false → Claims.AsksPlane (.gmakeCreate f) s
              (Claims.imageFrames s 2 (refillHandle (2 ^ 20 + pkg) i (Map.get gates i Gate.zero).gen) img))))) ∧
      (getGate s pkg h = none →
        let t := result f.d 1 (at1 h)
        exec (.gmakeRevoke f) s = .next t ∧ exec (.gmakeFreeze f) s = .next t ∧ exec (.gmakeThaw f) s = .next t ∧
        (∀ hit, Claims.Clear s1 vb (needOther 128 true false) hit → exec (.gmakeSetacl f) s = .next t) ∧
        (∀ hit, Claims.Clear s1 vb (needOther 128 false true) hit → exec (.gmakeRead f) s = .next t)) ∧
      (∀ g, getGate s pkg h = some g →
        let part := (src64 s1 f.b).toNat
        (handleCps h = true → Claims.AsksPlane (.gmakeRevoke f) s [Claims.changeFrame s 6 h 0]) ∧
        (handleCps h = false → ∃ u, exec (.gmakeRevoke f) s = .next (result f.d 0 u) ∧
          rawGate u pkg h = { Gate.zero with gen := genUp g.gen }) ∧
        (g.aclFor part = none → exec (.gmakeFreeze f) s = .next (result f.d (nat256 2) (at1 h)) ∧
          exec (.gmakeThaw f) s = .next (result f.d (nat256 2) (at1 h))) ∧
        ((g.aclFor part).isSome = true → handleCps h = true →
          Claims.AsksPlane (.gmakeFreeze f) s [Claims.changeFrame s 4 h part] ∧
          Claims.AsksPlane (.gmakeThaw f) s [Claims.changeFrame s 5 h part]) ∧
        ((g.aclFor part).isSome = true → handleCps h = false →
          (∃ u, exec (.gmakeFreeze f) s = .next (result f.d 0 u) ∧ (rawGate u pkg h).frozen part = true ∧
            (rawGate u pkg h).sig = g.sig) ∧
          exec (.gmakeThaw f) s = .next (result f.d 0 (freezeGate (at1 h) pkg h part false))) ∧
        (∀ hit, Claims.Clear s1 vb (needOther 128 true false) hit →
          let img := readOwn s1 (me s) hit.pa 128
          (imageBad img = true → exec (.gmakeSetacl f) s = .next (result f.d (nat256 2) (at1 h))) ∧
          (imageBad img = false → membersFull s pkg img (some g) = true →
            exec (.gmakeSetacl f) s = .next (result f.d (nat256 3) (at1 h))) ∧
          (imageBad img = false → membersFull s pkg img (some g) = false →
            (handleCps h = true → Claims.AsksPlane (.gmakeSetacl f) s (Claims.imageFrames s 3 h img)) ∧
            (handleCps h = false →
              exec (.gmakeSetacl f) s = .next (result f.d 0 (setaclGate (at1 h) pkg h img true))))) ∧
        (∀ hit, Claims.Clear s1 vb (needOther 128 false true) hit → ∃ u,
          exec (.gmakeRead f) s = .next (result f.d 0 u) ∧ ∃ l, u.stores = s.stores ++ l ∧
          l.map (fun p => (p.key, p.len, p.val)) = (upto 4).map fun i =>
            (hit.pa + 32 * i, 32, BitVec.ofNat 256 (gateImage g / 2 ^ (256 * i))))))

/-- GMAKE, and the events of gates (R239, R382, R383, R387 to R389, R394): what setacl replaces; every INTERVAL µs TOKENS
becomes RATE and what waited for tokens is tried again; at the reset of a sync unit its gates are closed and its
barriers break. -/
def Obligations.GateMaking : Prop :=
  Claims.Making ∧
  (∀ (g : Gate) (img : Nat),
    (g.setacl img).strict = bitAt img 2 ∧ (g.setacl img).rate = bitsOf img 192 16 ∧
    (g.setacl img).interval = bitsOf img 208 16 ∧ (g.setacl img).acl = imageAcl img ∧ (g.setacl img).sig = g.sig ∧
    (g.setacl img).gen = g.gen ∧ (g.setacl img).rank = g.rank ∧ (g.setacl img).opened = g.opened) ∧
  (∀ (s : State) (site entry : Nat),
    let pkg := if 2 ^ 20 ≤ site then site - 2 ^ 20 else pkgOf site
    let g := rawGate s pkg (refillHandle site entry 0)
    let h := refillHandle site entry g.gen
    (g.opened = false → exec (.gateRefillTick site entry) s = .next s) ∧
    (g.opened = true → ∃ u, exec (.gateRefillTick site entry) s = .next (scheduleRefill (tryHeld u pkg h) pkg h) ∧
      SameMemory s u ∧ SameRegs s u ∧
      rawGate u pkg h = { g with acl := g.acl.map fun a => { a with tokens := g.rate } })) ∧
  (∀ (s : State) (site : Nat), ∃ t, exec (.syncUnitReset site) s = .next t ∧ SameRegs s t ∧
    (site < 2 ^ 17 → (∀ i < 16, (Map.get (siteOf t site).gates i Gate.zero).opened = false) ∧
      ∀ i < 64, Map.sorted (siteOf s site).bars = true → ∀ b, Map.get? (siteOf s site).bars i = some b → b.st = 1 →
        ∃ b', Map.get? (siteOf t site).bars i = some b' ∧ b'.st = 2 ∧ b'.owed = b.owed ∧ b'.gen = b.gen))

/-! ## Engines -/

namespace Sys2Proof.Claims

/-- Every page of a tile is translated for the issuing context, which may access it; `fr` gives the frames (R329). -/
def TilesOk (s : State) (write : Bool) (vas : List Nat) (fr : Nat → Nat) : Prop :=
  ∀ a ∈ vas, ∃ h, checkAccess s (me s) (BitVec.ofNat 57 a) (needOther 1 (!write) write) = .hit h ∧
    reachesSpace s (me s) h.space = true ∧ h.pa / 65536 = fr a

/-- The job window has room for a job of the context (R310, R379). -/
def Room (s : State) : Prop :=
  (myCore s).jobs.length < 32 ∧
    ((myCore s).jobs.filter fun j => j.part == (myPart s).part).length < limitOf s (myPart s) 2 32

/-- The `n` lines from an aligned address can be read. -/
def LinesAt (s : State) (va : VA) (n : Nat) (hs : Nat → Hit) : Prop :=
  va.toNat % 64 = 0 ∧
    ∀ i, i < n → Clear s (va + BitVec.ofNat 57 (64 * i)) (needOther 64 true false) (hs i) ∧
      ((hs i).pte.unch = true ∨ (quotaOf s (myPart s) 7 = 0xFFFF ∧ racePlain s (me s) ((hs i).pa / 32) false = none ∧
        racePlain s (me s) ((hs i).pa / 32 + 1) false = none))

/-- The bytes of the lines. -/
def linesRead (s : State) (n : Nat) (hs : Nat → Hit) : Nat :=
  (upto n).foldl (fun v i => v + readOwn s (me s) (hs i).pa 64 * 2 ^ (512 * i)) 0

/-- The DONE handle that a job is to count names a counter of the partition or a word that may be counted. -/
def Countable (s : State) (cnt : Option W64) : Prop :=
  ∀ h, cnt = some h → (h.getLsbD 63 = true ∧ badCounter s (myPart s) h = false) ∨
    (h.getLsbD 63 = false ∧ ∃ hit, Clear s (h.setWidth 57) (needFe false true) hit)

/-- Nothing that an instruction of the engines does before its command is in the window has changed a byte, a mark, a
register or the issuing context, but for `f`. -/
def Kept (s u : State) (f : Ctx → Ctx) : Prop := SameMemory s u ∧ SameRegs s u ∧ myCtx u = f (myCtx s) ∧ u.cur = s.cur

/-- The copy of a block is a job of the window after the issue: queued, its request on the way to the streamer, or
due at its cycle where it is timed; its token is empty and held by the job (R311, R313, R332). -/
def CopyIssued (s : State) (b : Block) (card : Bool) (reads writes : List Region) (cnt : Option W64) (tok : Hit)
    (t : State) : Prop :=
  ∃ j, (coreOf t (me s).core).jobs = (myCore s).jobs ++ [j] ∧ j.id = s.ids ∧ j.kind = .copy ∧ j.block = b ∧
    j.st = .queued ∧ j.arrived = false ∧ j.who = refOf s (me s) ∧ j.part = (myCtx s).part ∧ j.card = card ∧
    j.reads = reads ∧ j.writes = writes ∧ j.cnt = cnt ∧ j.prv = (myCtx s).prv ∧ j.pkey = (myCtx s).pkey ∧
    j.count = sectorCount b (tidOf (myCore s) (bSrcTid b)) (walkOf b) none false 0 ∧
    (bTimed b = false → j.timedAt = none ∧ ∃ τ, s.now ≤ τ ∧ (τ, Instr.streamerRequest (me s).core s.ids) ∈ t.agenda) ∧
    (bTimed b = true → ∃ τ, timedStart s (bOffset b) = some τ ∧ j.timedAt = some (τ, bOffset b) ∧
      (τ, Instr.timedCommandStart (me s).core s.ids) ∈ t.agenda) ∧
    (bFlag b 3 = true → j.tokenKey = some tok.pa ∧ feOf t tok.pa = ⟨false, false, .job (me s).core s.ids⟩) ∧
    (∀ key, readByte t key = readByte s key ∧ (bFlag b 3 = false ∨ key / 8 ≠ tok.pa / 8 → feOf t key = feOf s key)) ∧
    (ctxOf t (me s)).pc = s.cur.nx ∧
    (ctxOf t (me s)).intsOut = (myCtx s).intsOut + (if bFlag b 2 then 1 else 0) ∧ SameRegs s t

/-- The obligations that a block names can be taken: its token is full and may be filled, its DONE counted (R313 step 3). -/
def ObligationsOk (s : State) (b : Block) (cnt : Option W64) (tok : Hit) : Prop :=
  (bFlag b 3 = true → Clear s (bToken b) (needFe false true) tok ∧ (feOf s tok.pa).full = true) ∧ Countable s cnt

/-- The streamer of a block is in reach: the home of its source, where the source translates (R311, R376). -/
def StreamerOk (s : State) (b : Block) : Prop :=
  ∀ (e : Pte) g fr pa, walk s (myPart s) (BitVec.ofNat 57 (bSrc b)) = .ok e g fr pa →
    reachesSpace s (me s) (spaceOf s (pkgOf (me s).core) (fr * 65536 + (bSrc b) % 2 ^ 57 % 65536)) = true

/-- What becomes of a block once its lines are read, as `run` issues it: the lowest code of a bad block, a token that is
not full, a DONE that is no counter of the partition, a ninth interrupt, a full window, a cycle that has passed, or the
job (R311, R313, R314, R320, R332). -/
def BlockIssued (run : State → Out) (rs : List Opnd) (s : State) (b : Block) (card : Option (List Region × List Region))
    (cnt : Option W64) : Prop :=
  let s1 := markRead rs s
  let s0 := unread rs s
  let k := myCore s
  let part := (myCtx s).part
  let ta := tidOf k (bTidA b)
  let tb := tidOf k (bTidB b)
  (∀ code a, blockFault s1 b (walkOf b) = some (code, a) → run s = .next (engFault code a s0)) ∧
  (∀ tok, blockFault s1 b (walkOf b) = none → bFlag b 3 = true → Clear s1 (bToken b) (needFe false true) tok →
    (feOf s1 tok.pa).full = false → run s = .next (fault .foreignFill (vaInfo (bToken b)) s0)) ∧
  (∀ h, blockFault s1 b (walkOf b) = none → bFlag b 3 = false → cnt = some h → h.getLsbD 63 = true →
    badCounter s1 (myPart s) h = true → run s = .next (fault .protectionPart h s0)) ∧
  (∀ tok, blockFault s1 b (walkOf b) = none → ObligationsOk s1 b cnt tok → StreamerOk s1 b →
    (bFlag b 2 = true → 8 ≤ (myCtx s).intsOut → run s = .next (parkBefore .parkedMessage .operand s0)) ∧
    ((bFlag b 2 = true → (myCtx s).intsOut < 8) →
      (¬ Room s1 → run s = .next (throttle .throttled true s1)) ∧
      (Room s1 → bTimed b = true → timedStart s1 (bOffset b) = none → ∃ u, Kept s u id ∧
        (coreOf u (me s).core).jobs = k.jobs ∧
        run s = .next (advance (raiseTiming u (me s).core (myPart s) (refOf s (me s)) (timingInfo (bOffset b) 0x77) []))) ∧
      (Room s1 → (bTimed b = true → (timedStart s1 (bOffset b)).isSome = true) → ∃ t, run s = .next t ∧
        CopyIssued s b card.isSome ((card.map (·.1)).getD (copyReads k part b ta tb))
          ((card.map (·.2)).getD (copyWrites k part b)) cnt tok t)))

/-- The command of an array instruction as it stands in the window. -/
def ArrayJob (s : State) (kind : JobKind) (a : Nat) (pos : W64) (pages : List (Nat × Nat)) (j : Job) : Prop :=
  j.id = s.ids ∧ j.kind = kind ∧ j.acc = a ∧ j.pos = pos ∧ j.st = .queued ∧ j.who = refOf s (me s) ∧
    j.part = (myCtx s).part ∧ j.pages = pages ∧ j.tokenKey = none ∧ j.cnt = none

end Sys2Proof.Claims

/-- TIDW, TIDR and TIDINV (R324, R341, R342): the partition's limit on TIDs, the check of a valid entry, the entry
written whole, read into D as a result of variable latency, and its V bit cleared with every other bit kept. -/
def Sys2Proof.Claims.TensorIds : Prop :=
  ∀ (f : FE) (s : State),
    let core := (me s).core
    let n := f.tida.toNat
    (Ready f.fields f.srcs s →
      let s1 := markRead f.srcs s
      let s0 := Claims.unread f.srcs s
      let v := src256 s1 0 f.a
      (limitOf s1 (myPart s) 3 256 ≤ n → exec (.tidw f) s = .next (fault .quota 0 s0)) ∧
      (n < limitOf s1 (myPart s) 3 256 → tV v = true → tidBad v = true →
        exec (.tidw f) s = .next (engFault 6 0 s0)) ∧
      (n < limitOf s1 (myPart s) 3 256 → (tV v = false ∨ tidBad v = false) → ∃ t, exec (.tidw f) s = .next t ∧
        MovedOn s t ∧ tidOf (coreOf t core) n = v ∧ (∀ m, m ≠ n → tidOf (coreOf t core) m = tidOf (myCore s) m) ∧
        SameMemory s t ∧ SameRegs s t) ∧
      (∃ t, exec (.tidr f) s = .next t ∧ MovedOn s t ∧ SameMemory s t ∧ SameRegs s t ∧
        (coreOf t core).tids = (myCore s).tids ∧
        (destOf s1 f.d ≠ .none → ∃ p, (coreOf t core).vpend = (myCore s).vpend ++ [p] ∧ p.slot = (me s).slot ∧
          p.dst = destOf s1 f.d ∧ p.val = tidOf (myCore s) n ∧ p.load = none))) ∧
    (Ready f.fields [] s → ∃ t, exec (.tidinv f) s = .next t ∧ MovedOn s t ∧ SameMemory s t ∧ SameRegs s t ∧
      (∀ m, m ≠ n → tidOf (coreOf t core) m = tidOf (myCore s) m) ∧
      ∀ i, (tidOf (coreOf t core) n).getLsbD i = (decide (i ≠ 72) && (tidOf (myCore s) n).getLsbD i))

/-- MZRO (R326, R340): the accumulator has the type once the queue is done, the others keep theirs; with an empty queue
it is zero at once. -/
def Sys2Proof.Claims.ArrayZero : Prop :=
  ∀ (f : FE) (s : State), Ready f.srcs [] s →
    let core := (me s).core
    let k := myCore s
    let a := accOf f
    let ty : AccTy := if f.min = 0 then .fp32 else .i32
    ∃ t, exec (.mzro f) s = .next t ∧ (ctxOf t (me s)).pc = s.cur.nx ∧ accType (coreOf t core) a = ty ∧
      (∀ b, b ≠ a → accType (coreOf t core) b = accType k b) ∧
      (k.mq = [] → Map.get (coreOf t core).accs a Acc.zero = { Acc.zero with ty := ty } ∧
        (∀ b, b ≠ a → Map.get (coreOf t core).accs b Acc.zero = Map.get k.accs b Acc.zero) ∧
        (coreOf t core).mq = [] ∧ SameMemory s t ∧ SameRegs s t ∧ MovedOn s t)

/-- MMA (R328, R329, R332, R338): the faults in their order; a full window throttles; else the command is the last of the
window, with the frames its operand pages had, and of the queue, on which the array then works; or it is due at its
cycle, and a cycle that has passed raises TIMING. -/
def Sys2Proof.Claims.ArrayMultiply : Prop :=
  ∀ (f : FE) (s : State), Ready f.srcs [f.a, f.b] s →
    let core := (me s).core
    let k := myCore s
    let a := accOf f
    let s1 := markRead [f.a, f.b] s
    let s0 := Claims.unread [f.a, f.b] s
    let pos := src64 s1 f.a
    let ta := tidOf k f.tida.toNat
    let tb := tidOf k f.tidb.toNat
    (posBad pos = true → exec (.mma f) s = .next (engFault 1 0 s0)) ∧
    (posBad pos = false → (tV ta = false ∨ tV tb = false) → exec (.mma f) s = .next (engFault 4 0 s0)) ∧
    (posBad pos = false → tV ta = true → tV tb = true → formatsOk (tFmt ta) (tFmt tb) (accType k a) = false →
      exec (.mma f) s = .next (engFault 5 0 s0)) ∧
    (posBad pos = false → tV ta = true → tV tb = true → formatsOk (tFmt ta) (tFmt tb) (accType k a) = true →
      (f.b ≠ .z → inTimedGroup s = false → exec (.mma f) s = .next (engFault 9 0 s0)) ∧
      (∀ fr, (f.b = .z ∨ inTimedGroup s = true) →
        let vas := pagesOf (tileRanges ta (32 * posRow pos) (posK pos) (posLen pos) ++
          tileRanges tb (32 * posCol pos) (posK pos) (posLen pos))
        let pages := vas.map fun v => (v / 65536, fr v)
        let o : BitVec 32 := (src64 s1 f.b).setWidth 32
        Claims.TilesOk s1 false vas fr →
        (¬ Claims.Room s1 → exec (.mma f) s = .next (throttle .throttled true s1)) ∧
        (Claims.Room s1 → f.b = .z → ∃ u j, exec (.mma f) s = .next (advance (pump u core)) ∧ Claims.Kept s u id ∧
          (coreOf u core).jobs = k.jobs ++ [j] ∧ (coreOf u core).mq = k.mq ++ [.mma s.ids a none] ∧
          (coreOf u core).accs = k.accs ∧ Claims.ArrayJob s .mma a pos pages j ∧ j.tidA = ta ∧ j.tidB = tb ∧
          j.timedAt = none ∧ j.rest = none) ∧
        (Claims.Room s1 → f.b ≠ .z → timedStart s1 o = none →
          exec (.mma f) s = .next (advance (raiseTiming s1 core (myPart s) (refOf s (me s)) (timingInfo o 0x78) []))) ∧
        (∀ τ, Claims.Room s1 → f.b ≠ .z → timedStart s1 o = some τ → ∃ u j,
          exec (.mma f) s = .next (advance (pump u core)) ∧ Claims.Kept s u id ∧
          (coreOf u core).jobs = k.jobs ++ [j] ∧ (coreOf u core).mq = k.mq ∧ (coreOf u core).accs = k.accs ∧
          Claims.ArrayJob s .mma a pos pages j ∧ j.tidA = ta ∧ j.tidB = tb ∧ j.timedAt = some (τ, o) ∧
          (τ, Instr.timedCommandStart core s.ids) ∈ u.agenda)))

/-- MDRN (R330, R332, R339): the faults in their order; timed, the context waits for the cycle, and TIMING where it has
passed; behind other commands of the array, it waits for its turn; with an empty queue the check is made at once: a
poisoned accumulator and an uncorrectable one trap, a correction is kept, and the writes are a job of the window. -/
def Sys2Proof.Claims.ArrayDrain : Prop :=
  ∀ (f : FE) (s : State), Ready f.srcs [f.a, f.b] s →
    let core := (me s).core
    let k := myCore s
    let a := accOf f
    let s1 := markRead [f.a, f.b] s
    let s0 := Claims.unread [f.a, f.b] s
    let pos := src64 s1 f.a
    let t := tidOf k f.tidc.toNat
    ((tV t = false ∨ drainOk (accType k a) (tFmt t) = false) → exec (.mdrn f) s = .next (engFault 4 0 s0)) ∧
    (tV t = true → drainOk (accType k a) (tFmt t) = true →
      (f.b ≠ .z → inTimedGroup s = false → exec (.mdrn f) s = .next (engFault 9 0 s0)) ∧
      (∀ fr, (f.b = .z ∨ inTimedGroup s = true) →
        let vas := pagesOf (tileRanges (dataOnly t) (32 * posRow pos) (32 * posCol pos) 32)
        let pages := vas.map fun v => (v / 65536, fr v)
        let o : BitVec 32 := (src64 s1 f.b).setWidth 32
        let c := Map.get k.accs a Acc.zero
        Claims.TilesOk s1 true vas fr →
        (¬ Claims.Room s1 → (f.b ≠ .z ∨ k.mq ≠ []) → exec (.mdrn f) s = .next (throttle .throttled true s1)) ∧
        (Claims.Room s1 → f.b ≠ .z → timedStart s1 o = none →
          exec (.mdrn f) s = .next (advance (raiseTiming s1 core (myPart s) (refOf s (me s)) (timingInfo o 0x79) []))) ∧
        (∀ τ, Claims.Room s1 → f.b ≠ .z → timedStart s1 o = some τ → ∃ u j,
          exec (.mdrn f) s = .next (parkOn .parkedMemory (.array s.ids) .none u) ∧ Claims.Kept s u id ∧
          (coreOf u core).jobs = k.jobs ++ [j] ∧ (coreOf u core).mq = k.mq ∧ (coreOf u core).accs = k.accs ∧
          Claims.ArrayJob s .drain a pos pages j ∧ j.tid = t ∧ j.timedAt = some (τ, o) ∧
          (τ, Instr.timedCommandStart core s.ids) ∈ u.agenda) ∧
        (Claims.Room s1 → f.b = .z → k.mq ≠ [] → ∃ u j,
          exec (.mdrn f) s = .next (parkOn .parkedMemory (.array s.ids) .none (pump u core)) ∧ Claims.Kept s u id ∧
          (coreOf u core).jobs = k.jobs ++ [j] ∧ (coreOf u core).mq = k.mq ++ [.mdrn s.ids a] ∧
          (coreOf u core).accs = k.accs ∧ Claims.ArrayJob s .drain a pos pages j ∧ j.tid = t ∧ j.arrived = false) ∧
        (∀ e, f.b = .z → k.mq = [] → c.poison = some e →
          exec (.mdrn f) s = .next (fault .machineCheck (errInfo e) s0)) ∧
        (∀ rows cols, f.b = .z → k.mq = [] → c.poison = none → checkAcc c k.abfttol.toNat = .bad rows cols →
          exec (.mdrn f) s = .next (fault .abftUncorrectable (abftInfo rows cols) s0)) ∧
        (∀ c' corrected, f.b = .z → k.mq = [] → c.poison = none → checkAcc c k.abfttol.toNat = .ok c' corrected →
          (¬ Claims.Room s1 → exec (.mdrn f) s = .next (throttle .throttled true s1)) ∧
          (Claims.Room s1 → ∃ u j, exec (.mdrn f) s = .next (advance (pump u core)) ∧
            Claims.Kept s u (fun x => if corrected then { x with status := putBit x.status stABFTC true } else x) ∧
            (coreOf u core).jobs = k.jobs ++ [j] ∧ (coreOf u core).mq = [] ∧
            Map.get (coreOf u core).accs a Acc.zero = c' ∧
            (∀ b, b ≠ a → Map.get (coreOf u core).accs b Acc.zero = Map.get k.accs b Acc.zero) ∧
            Claims.ArrayJob s .drain a pos [] j ∧ j.tid = t ∧ j.arrived = true ∧
            ∀ j0 : Job, j0.tid = t → j0.pos = pos → j0.pages = pages → j.rows = drainRows j0 c'))))

/-- CPY and JOBC (R311, R313, R314, R323, R337): alignment of the block and of the card; a bad card; what becomes of the
block; and the marker that a card without a block adds to the window. -/
def Sys2Proof.Claims.JobIssue : Prop :=
  ∀ (f : FE) (s : State), Ready f.fields f.srcs s →
    let s1 := markRead f.srcs s
    let s0 := Claims.unread f.srcs s
    let va : VA := (src64 s1 f.a).setWidth 57
    (va.toNat % 64 ≠ 0 → exec (.cpy f) s = .next (fault .alignment (va.setWidth 64) s0) ∧
      exec (.jobc f) s = .next (fault .alignment (va.setWidth 64) s0)) ∧
    (∀ hs, Claims.LinesAt s1 va 2 hs →
      Claims.BlockIssued (exec (.cpy f)) f.srcs s (BitVec.ofNat 1024 (Claims.linesRead s1 2 hs)) none
        (if f.c = .z then none else some (src64 s1 f.c))) ∧
    (∀ hs, Claims.LinesAt s1 va 3 hs →
      let core := (me s).core
      let v := Claims.linesRead s1 3 hs
      let h : W64 := BitVec.ofNat 64 (bitsOf v 128 64)
      let cnt := if h = 0 then none else some h
      let part := (myCtx s).part
      let reads := cardRegions (myCore s) part v 32 (bitsOf v 8 8)
      let writes := cardRegions (myCore s) part v 96 (bitsOf v 16 8)
      (cardBad v = true → exec (.jobc f) s = .next (engFault 1 0 s0)) ∧
      (cardBad v = false → bitsOf v 0 8 = 1 → Claims.Countable s1 cnt →
        (¬ Claims.Room s1 → exec (.jobc f) s = .next (throttle .throttled true s1)) ∧
        (Claims.Room s1 → ∃ u j, exec (.jobc f) s = .next (advance (pump u core)) ∧ Claims.Kept s u id ∧
          (coreOf u core).jobs = (myCore s).jobs ++ [j] ∧ (coreOf u core).mq = (myCore s).mq ∧ j.id = s.ids ∧
          j.kind = .marker ∧ j.st = .queued ∧ j.arrived = true ∧ j.who = refOf s (me s) ∧ j.reads = reads ∧
          j.writes = writes ∧ j.card = true ∧ j.cnt = cnt ∧ j.tokenKey = none)) ∧
      (cardBad v = false → bitsOf v 0 8 = 0 → (BitVec.ofNat 57 (bitsOf v 64 64)).toNat % 64 ≠ 0 →
        exec (.jobc f) s = .next (fault .alignment (vaInfo (BitVec.ofNat 57 (bitsOf v 64 64))) s0)) ∧
      (∀ hs', cardBad v = false → bitsOf v 0 8 = 0 → Claims.LinesAt s1 (BitVec.ofNat 57 (bitsOf v 64 64)) 2 hs' →
        Claims.BlockIssued (exec (.jobc f)) f.srcs s (BitVec.ofNat 1024 (Claims.linesRead s1 2 hs'))
          (some (reads, writes)) cnt))

/-- The eight engine instructions. -/
def Obligations.Matrix : Prop :=
  Claims.TensorIds ∧ Claims.ArrayZero ∧ Claims.ArrayMultiply ∧ Claims.ArrayDrain ∧ Claims.JobIssue

/-! ## Events of the engines -/

namespace Sys2Proof.Claims

/-- A job may begin: it waits, its request has arrived, and no earlier job of the window that is not complete
conflicts with it (R311, R322). -/
def MayStart (s : State) (core : Nat) (j : Job) : Prop :=
  j.st = .queued ∧ j.arrived = true ∧ j.kind ≠ .mma ∧ j.timedAt = none ∧ blocked s core j = false

/-- The outcome of a job's accesses: the acknowledgement comes later, or the job stops at an element. -/
def after (core n : Nat) : Except (JobStop × Nat × State) State → State
  | .ok s => at_ (nextLat s).2 ((nextLat s).2.now + (nextLat s).1) (.jobCompletion core n)
  | .error (w, va, s) => pump (stopFor s core n w va) core

/-- The sector count of a job is not the expected one (R319). -/
def off (j : Job) : Bool := j.kind == .copy && bExpect j.block != 0xFFFFFFFF && bExpect j.block != j.count

/-- A job walks, its accesses in the region that begins now. -/
def walking (s : State) (core n : Nat) : State :=
  modJob s core n fun j => { j with
    st := .walking
    regionAt := s.sOrder }

/-- The commands of a queue that do not name a job. -/
def others (n : Nat) (l : List MCmd) : List MCmd :=
  l.filter fun m => match m with
    | .mma i _ _ => i != n
    | .mdrn i _ => i != n
    | .mzro _ _ => true

/-- An accumulator with one bit of one element flipped, as `sys.abftinj` names it (R350). -/
def flipped (v : Nat) (c : Acc) : Acc :=
  let i := 32 * bitsOf v 10 5 + bitsOf v 5 5
  { c with e := Map.put c.e i (Map.get c.e i 0 ^^^ BitVec.ofNat 32 (2 ^ bitsOf v 0 5)) }

/-- The accumulator after the product of a command: poisoned where an operand had an error (R327, R331). -/
def multiplied (c : Acc) (j : Job) : Acc :=
  match j.bad with
  | some e => { c with poison := some (c.poison.getD e) }
  | none => product c j.tidA j.tidB (tileBytes j) j.pos

end Sys2Proof.Claims

/-- A job from its request to its acknowledgement (R311, R315, R322, R331, R345): its request arrives and the window looks
for work; it starts once it may, and only then; a copy touches its elements in walk order, a drain its rows, and either
stops at the first that fails; the acknowledgement of the last write starts a follow-on command or ends the job. -/
def Sys2Proof.Claims.JobLife : Prop :=
  (∀ (s : State) (core n : Nat),
    let u := modJob s core n fun j => { j with arrived := true }
    exec (.streamerRequest core n) s = .next (pump u core) ∧
    ∀ j, findJob s core n = some j → (coreOf s core).mq = [] → SameMemory s (pump u core) ∧ SameRegs s (pump u core) ∧
      findJob (pump u core) core n = some { j with arrived := true } ∧
      (Claims.MayStart s core { j with arrived := true } → (s.now, Instr.jobStart core n) ∈ (pump u core).agenda)) ∧
  (∀ (s : State) (core n : Nat),
    (findJob s core n = none → exec (.jobStart core n) s = .next s ∧ exec (.jobCompletion core n) s = .next s ∧
      exec (.followOnCommand core n) s = .next s ∧ exec (.timedCommandStart core n) s = .next s) ∧
    (∀ j, findJob s core n = some j →
      let u := Claims.walking s core n
      let j1 := { j with regionAt := s.sOrder }
      (¬ Claims.MayStart s core j → exec (.jobStart core n) s = .next s) ∧
      (Claims.MayStart s core j → j.kind = .marker →
        exec (.jobStart core n) s = .next (Claims.after core n (.ok u)) ∧ findJob u core n = some { j1 with st := .walking }) ∧
      (Claims.MayStart s core j → j.kind = .copy → walkMoving s core j = true →
        exec (.jobStart core n) s = .next (at_ s (s.now + ns 1000) (.jobStart core n))) ∧
      (Claims.MayStart s core j → j.kind = .copy → walkMoving s core j = false →
        exec (.jobStart core n) s = .next (Claims.after core n (copyWalk core j1 (walkOf j.block) u))) ∧
      (Claims.MayStart s core j → j.kind = .drain →
        exec (.jobStart core n) s = .next (Claims.after core n (drainWalk core j1 j.rows u))) ∧
      ((j.st ≠ .walking ∨ j.kind = .mma) → exec (.jobCompletion core n) s = .next s) ∧
      (j.st = .walking → j.kind = .copy → bKind j.block = 1 → ∃ t, exec (.jobCompletion core n) s = .next t ∧
        findJob t core n = some { j with st := .following } ∧ (s.now, Instr.followOnCommand core n) ∈ t.agenda ∧
        SameMemory s t ∧ SameRegs s t) ∧
      (j.st = .walking → j.kind ≠ .mma → ¬ (j.kind = .copy ∧ bKind j.block = 1) →
        exec (.jobCompletion core n) s = .next (pump (finishJob s core j) core)))) ∧
  (∀ (s : State) (core : Nat) (j : Job) (src dst : Nat) (h h' : Hit) (s1 s2 s3 s4 : State),
    let n := bytesOf j.block
    bStash j.block = false → declared (coreOf s core) j j.reads false src n = true →
    declared (coreOf s core) j j.writes false dst n = true → jobAccess s core j src n false = .ok h s1 →
    jobPlain s1 core j h src false = .ok s2 → jobAccess s2 core j dst n true = .ok h' s3 →
    jobPlain s3 core j h' dst true = .ok s4 →
    copyElem s core j src dst = .ok (jobWrite s4 core j h' n (readN s2 h.pa n)))

/-- What the completion of a job leaves (R319, R320, R345): the job is in its window no more and its region has ended;
without an obligation no byte and no mark changes; a job that reports no mismatch adds the interrupt that its block asks
for, and one that does posts COUNT_MISMATCH with its count and drops the interrupt. -/
def Sys2Proof.Claims.JobEnd : Prop :=
  ∀ (s : State) (core : Nat) (j : Job),
    let p := jobPart core j
    let t := finishJob s core j
    (∀ q ∈ (coreOf t core).jobs, q.id ≠ j.id) ∧ (∀ r ∈ t.recs, r.job = some (core, j.id) → r.ended ≠ none) ∧ SameRegs s t ∧
    (j.tokenKey = none → j.cnt = none → SameMemory s t ∧
      ∀ x, findCtx s p j.who = some x → j.tiles = [] →
        (Claims.off j = false → wantsInt j = true → j.mute = false → ∃ u, t = retireJob u core j ∧
          (ctxOf u x).ints = (ctxOf s x).ints ++ [⟨bXid j.block, bHandler j.block⟩] ∧
          (ctxOf u x).intsOut = (ctxOf s x).intsOut) ∧
        (Claims.off j = false → (wantsInt j = false ∨ j.mute = true) →
          t = retireJob (endJobRegion s core j.id) core j) ∧
        (Claims.off j = true → j.mute = false → ∃ u, t = retireJob u core j ∧
          (ctxOf u x).events = (ctxOf s x).events ++
            [⟨.countMismatch, BitVec.ofNat 64 (j.count % 2 ^ 32), some (bXid j.block)⟩] ∧
          (ctxOf u x).ints = (ctxOf s x).ints ∧
          (ctxOf u x).intsOut = (ctxOf s x).intsOut - (if wantsInt j then 1 else 0)))

/-- The follow-on command and the matrix array (R319, R326, R327, R331, R350): a follow-on of formats that do not fit stops
its job with code 5, one whose operands cannot be read with code 7, and it waits while one of their pages is moved; else it
enters the array's queue after its MZRO; a product is added to the accumulator when it is complete, an injected error
flips its bit, and the job of an MMA leaves the window. -/
def Sys2Proof.Claims.ArrayEvents : Prop :=
  (∀ (s : State) (core n : Nat) (j : Job), findJob s core n = some j →
    let op := bOp j.block
    let ty := if op = 1 then .fp32 else if op = 2 then .i32 else accType (coreOf s core) j.acc
    let vas := pagesOf (opA j ++ opB j)
    let moving := vas.any fun a => walkHeld s (jobPart core j) (BitVec.ofNat 57 a) == .moving
    (j.st ≠ .following → exec (.followOnCommand core n) s = .next s) ∧
    (j.st = .following → formatsOk (tFmt j.tidA) (tFmt j.tidB) ty = false →
      exec (.followOnCommand core n) s = .next (pump (stopJob s core j .engineFault (engInfo 5 0) 3) core)) ∧
    (j.st = .following → formatsOk (tFmt j.tidA) (tFmt j.tidB) ty = true →
      (moving = true → exec (.followOnCommand core n) s = .next (at_ s (s.now + ns 1000) (.followOnCommand core n))) ∧
      (∀ a, moving = false → followPages s core j vas [] = .error a →
        exec (.followOnCommand core n) s = .next (pump (stopJob s core j .engineFault (engInfo 7 a) 3) core)) ∧
      (∀ pages, moving = false → followPages s core j vas [] = .ok pages → ∃ u,
        exec (.followOnCommand core n) s = .next (pump u core) ∧ (coreOf u core).mq = (coreOf s core).mq ++
          (if op = 0 then [] else [.mzro j.acc ty]) ++ [.mma n j.acc none] ∧ accType (coreOf u core) j.acc = ty ∧
        findJob u core n = some { j with pages := pages } ∧ SameMemory s u ∧ SameRegs s u ∧ u.agenda = s.agenda))) ∧
  (∀ (s : State) (core : Nat),
    let k := coreOf s core
    (k.mq = [] → exec (.mmaCompletion core) s = .next s) ∧
    (∀ n a rest, k.mq = .mma n a none :: rest → exec (.mmaCompletion core) s = .next s) ∧
    (∀ n a due rest, k.mq = .mma n a (some due) :: rest →
      (s.now < due → exec (.mmaCompletion core) s = .next s) ∧
      (due ≤ s.now → findJob s core n = none →
        exec (.mmaCompletion core) s = .next (pump (modCore s core fun k => { k with mq := rest }) core)) ∧
      (∀ j, due ≤ s.now → findJob s core n = some j → ∃ u, exec (.mmaCompletion core) s = .next (refetch (pump u core) core) ∧
        (let c := Claims.multiplied (Map.get k.accs a Acc.zero) j
         let v := k.abftinj.toNat
         let hit := bitAt v 17 && bitsOf v 15 2 == a
         Map.get (coreOf u core).accs a Acc.zero = (if hit then Claims.flipped v c else c) ∧
         (coreOf u core).abftinj = (if hit then k.abftinj &&& 0x1FFFF else k.abftinj)) ∧
        (∀ b, b ≠ a → Map.get (coreOf u core).accs b Acc.zero = Map.get k.accs b Acc.zero) ∧
        (coreOf u core).mq = Claims.others n rest ∧ (∀ q ∈ (coreOf u core).jobs, q.id ≠ n) ∧ SameRegs s u ∧
        (j.kind = .mma → SameMemory s u))))

/-- Timed dispatch (R330, R332, R333): a timed command that cannot start at its cycle raises TIMING and the later ones of its
context that have not started are discarded with it; else it starts; a drain's check may trap its context; time zero is
the first whole microsecond at least 4 µs away, and every context of the group on a core takes the core's cycle at that
time for its %tstart. -/
def Sys2Proof.Claims.TimedEvents : Prop :=
  (∀ (s : State) (core n : Nat) (j : Job), findJob s core n = some j →
    (j.timedAt = none → exec (.timedCommandStart core n) s = .next s) ∧
    (j.st ≠ .queued → exec (.timedCommandStart core n) s = .next s) ∧
    (∀ c o, j.timedAt = some (c, o) → j.st = .queued →
      let late := blocked s core j || (j.kind == .mma && !tilesPresent s core j) ||
        (j.kind == .drain && accBusy (coreOf s core) j.acc)
      (late = true → exec (.timedCommandStart core n) s = .next (pump (raiseTiming s core (jobPart core j) j.who
        (timingInfo o (jobMaj j.kind)) (timedFrom s core j)) core)) ∧
      (late = false → j.kind = .mma → ∃ u, exec (.timedCommandStart core n) s = .next (pump u core) ∧
        (coreOf u core).mq = (coreOf s core).mq ++ [.mma n j.acc none] ∧
        findJob u core n = some { j with st := .walking } ∧ SameMemory s u ∧ SameRegs s u) ∧
      (late = false → j.kind = .drain →
        let acc := Map.get (coreOf s core).accs j.acc Acc.zero
        let x := findCtx s (jobPart core j) j.who
        let traps := fun (c : Cause) (info : W64) => ∃ t, exec (.timedCommandStart core n) s = .next t ∧
          (∀ q ∈ (coreOf t core).jobs, q.id ≠ n) ∧ (∀ y, x = some y → (ctxOf t y).reply = some (.trap c info)) ∧
          SameMemory s t ∧ SameRegs s t
        (∀ e, acc.poison = some e → traps .machineCheck (errInfo e)) ∧
        (∀ rows cols, acc.poison = none → checkAcc acc (coreOf s core).abfttol.toNat = .bad rows cols →
          traps .abftUncorrectable (abftInfo rows cols)) ∧
        exec (.timedCommandStart core n) s = .next (timedDrain s core j)) ∧
      (late = false → (j.kind = .copy ∨ j.kind = .marker) →
        exec (.timedCommandStart core n) s = .next (runJob s core j)))) ∧
  (∀ (s : State) (p : PartId) (gid : Nat),
    (groupOf s p gid = none → exec (.timeZeroFix p gid) s = .next s) ∧
    (∀ g, groupOf s p gid = some g → (g.timed = false ∨ g.t0 ≠ none) → exec (.timeZeroFix p gid) s = .next s) ∧
    (∀ g, groupOf s p gid = some g → g.timed = true → g.t0 = none →
      ∃ t T, exec (.timeZeroFix p gid) s = .next t ∧ T % 1000 = 0 ∧ timeOf s p.pkg + 4000 ≤ T ∧
        T < timeOf s p.pkg + 5000 ∧ SameMemory s t ∧ SameRegs s t ∧
        let at0 := s.now + (ns (T - timeOf s p.pkg) - s.now % 2574)
        groupOf t p gid = some { g with t0 := some at0 } ∧
        ∀ e ∈ slotsOf s p.pkg, isLive (effSt e.2) = true → e.2.ctx.part = p.part → e.2.ctx.grp = gid →
          (at0, Instr.timeZeroReached e.1.core p gid) ∈ t.agenda)) ∧
  (∀ (s : State) (core : Nat) (p : PartId) (gid : Nat), ∃ t, exec (.timeZeroReached core p gid) s = .next t ∧
    SameMemory s t ∧ SameRegs s t ∧
    ∀ slot, hasBody (effSt (slotOf s ⟨core, slot⟩)) = true → (ctxOf s ⟨core, slot⟩).part = p.part →
      (ctxOf s ⟨core, slot⟩).grp = gid →
      let k := coreOf (catchCore s core) core
      (ctxOf t ⟨core, slot⟩).tstart = BitVec.ofNat 64 (if k.nextAt = s.now then k.cyc else k.cyc - 1))

/-- What the engines do between instructions. -/
def Obligations.EngineEvents : Prop := Claims.JobLife ∧ Claims.JobEnd ∧ Claims.ArrayEvents ∧ Claims.TimedEvents

/-! ## Queues -/

/-- QSUB (R214): the statuses in their order, a queue table that does not translate or whose home is out of reach, and the
packet written to the slot at the tail, which advances; a slot whose page cannot take the packet faults. -/
def Sys2Proof.Claims.QueueSubmit : Prop :=
  ∀ (f : FR) (s : State) (h : Hit), Ready f.fields f.srcs s →
    let s1 := markRead f.srcs s
    let s0 := Claims.unread f.srcs s
    let p := myPart s
    let core := (me s).core
    let q := (src64i s1 f.imm20 f.a).toNat
    Claims.Clear s1 ((src64i s1 f.imm20 f.b).setWidth 57) (needOther 64 true false) h → Claims.Settled false s1 →
    ((255 < q ∨ (partOf s p).qtab = 0) → exec (.qsub f) s = .next (result f.d (nat256 1) s1)) ∧
    (q ≤ 255 → (partOf s p).qtab ≠ 0 →
      (qdKey s1 p q = none →
        exec (.qsub f) s = .next (fault .translation (trInfo (BitVec.ofNat 57 (qdVa s p q)) false) s0)) ∧
      (∀ key, qdKey s1 p q = some key →
        (reachesHome s1 (me s) (homeOf key) = false →
          exec (.qsub f) s = .next (dropped (BitVec.ofNat 64 (qdVa s p q)) s0)) ∧
        (reachesHome s1 (me s) (homeOf key) = true →
          let home := syncObj s1 (me s) (key / 8) true true
          let full := (qTail s1 p q + 2 ^ 32 - qHead s1 p q) % 2 ^ 32 = 2 ^ qLogn s1 p q
          (qState s1 p q ∈ [0, 5, 6, 7] → exec (.qsub f) s = .next (result f.d (nat256 1) home)) ∧
          (qState s1 p q ∉ [0, 5, 6, 7] →
            (qHostFed s1 p q = true → exec (.qsub f) s = .next (result f.d (nat256 3) home)) ∧
            (qHostFed s1 p q = false → full → exec (.qsub f) s = .next (result f.d (nat256 2) home)) ∧
            (qHostFed s1 p q = false → ¬ full →
              let va : VA := BitVec.ofNat 57 (slotVa s1 p q (qTail s1 p q))
              let look := fun (x : State) => walkMark (cowNow x core p va) core p va true
              (∀ fm, (look s1).1 = .fault fm → exec (.qsub f) s = .next (fault .translation (trInfo va fm) (look s0).2)) ∧
              ((look s1).1 = .moving → exec (.qsub f) s = .next (parkWalk (look s0).2 va true)) ∧
              (∀ (e : Pte) g fr pa, (look s1).1 = .ok e g fr pa →
                let u := (look s1).2
                let at_ := fr * 65536 + va.toNat % 65536
                let bad := e.wr = false ∨ e.cps = true ∨ isDram (spaceOf u p.pkg at_) = false
                (bad → exec (.qsub f) s = .next (fault .protection (vaInfo va) (look s0).2)) ∧
                (¬ bad → e.cow = true → exec (.qsub f) s = .next (fault .cowPool (vaInfo va) (look s0).2)) ∧
                (¬ bad → e.cow = false →
                  let y := syncObj u (me s) (key / 8) true true
                  let z := ctxWrite y p (refOf y (me s)) (myCtx y).tx e.disc (memKey p.pkg at_) 64 (readOwn s1 (me s) h.pa 64)
                  let w := logUndo z p (refOf z (me s)) (myCtx z).tx false key
                  exec (.qsub f) s = .next (result f.d (nat256 0)
                    (queueAdded (qput w p q 24 4 ((qTail w p q + 1) % 2 ^ 32)) p q)))))))))

/-- LAUNCH (R66, R215): an interval outside the context's own faults RANK_RANGE; a packet that R210 rejects, one whose
dependence is not met and one whose counter is poisoned answer their codes; a marker counts its counter, and an
accepted launch waits for placement, its issuer known. -/
def Sys2Proof.Claims.Launching : Prop :=
  ∀ (f : FR) (s : State) (h : Hit), Ready f.fields f.srcs s →
    let s1 := markRead f.srcs s
    let p := myPart s
    Claims.Clear s1 ((src64i s1 f.imm20 f.a).setWidth 57) (needOther 64 true false) h → Claims.Settled false s1 →
    let b : Packet := BitVec.ofNat 512 (readOwn s1 (me s) h.pa 64)
    let y := syncObj s1 (me s) (2 ^ 58) false true
    (ranksInside (myCtx s) b = false →
      exec (.launch f) s = .next (fault .rankRange 0 (Claims.unread f.srcs s))) ∧
    (ranksInside (myCtx s) b = true →
      (∀ code, packetCode s1 p b = some code → exec (.launch f) s = .next (result f.d (nat256 code) s1)) ∧
      (packetCode s1 p b = none → dependMet s1 p b = false → exec (.launch f) s = .next (result f.d (nat256 10) s1)) ∧
      (packetCode s1 p b = none → dependMet s1 p b = true → dependPoison s1 p b = true →
        exec (.launch f) s = .next (result f.d (nat256 9) s1)) ∧
      (packetCode s1 p b = none → dependMet s1 p b = true → dependPoison s1 p b = false →
        (pkType b = 1 → ∃ u, exec (.launch f) s = .next (result f.d (nat256 0) u) ∧
          (s.now, Instr.counterCount p (pkLcnt b) false) ∈ u.agenda ∧ u.launches = s.launches ∧
          SameMemory y u ∧ SameRegs y u) ∧
        (pkType b ≠ 1 → ∃ u l, exec (.launch f) s = .next (result f.d (nat256 0) u) ∧
          u.launches = s.launches ++ [l] ∧ l.packet = b ∧ l.pkg = p.pkg ∧ l.part = p.part ∧
          l.die = dieOf (me s).core ∧ l.queue = none ∧ l.issuer = .ctx (refOf s (me s)) ∧ l.next = 0 ∧
          SameMemory y u ∧ SameRegs y u)))

/-- CNTW and CNCL (R64, R77, R216, R217, R376): a counter that is not configured or not there faults PROTECTION, one whose
home is out of reach drops the request; a wait ends with the value where it has been reached, traps POISONED, faults
RANK_ORDER or parks; a cancel goes to every live context of every group at or below the counter, and the launches
there place no further unit. -/
def Sys2Proof.Claims.CounterWaits : Prop :=
  ∀ (f : FR) (s : State), Ready f.fields f.srcs s →
    let s1 := markRead f.srcs s
    let s0 := Claims.unread f.srcs s
    let p := myPart s
    let c := myCtx s
    let a := src64i s1 f.imm20 f.a
    let n := a.toNat
    let away := ∃ key, counterKey s1 p n = some key ∧ reachesHome s1 (me s) (homeOf key) = false
    let bad := 4095 < n ∨ (¬ away ∧ ctrOk s1 p n = false)
    let good := n ≤ 4095 ∧ ¬ away ∧ ctrOk s1 p n = true
    let e := counterEntry s1 p n
    let v : BitVec 32 := (src64i s1 f.imm20 f.b).setWidth 32
    (tableHeld s1 (me s) = false → Claims.Free s1 →
      (bad → exec (.cntw f) s = .next (fault .protectionPart a s0)) ∧
      (n ≤ 4095 → away → exec (.cntw f) s = .next (dropped a s0)) ∧
      (good →
        (v.toNat ≤ ctrValue e → ctrPoison e = true → exec (.cntw f) s = .next (fault .poisoned 0 s0)) ∧
        (v.toNat ≤ ctrValue e → ctrPoison e = false → exec (.cntw f) s = .next
          (result f.d (nat256 (ctrValue e)) (syncObj s1 (me s) (2 ^ 59 + n) true false))) ∧
        (ctrValue e < v.toNat → obminOf c ≤ ctrRank e → exec (.cntw f) s = .next
          (fault .rankOrder (BitVec.ofNat 64 (obminOf c * 65536 + ctrRank e)) s0)) ∧
        (ctrValue e < v.toNat → ctrRank e < obminOf c → ∃ t, exec (.cntw f) s = .next t ∧
          (slotOf t (me s)).st = .parkedSync ∧ (ctxOf t (me s)).wait = .counter n v ∧
          (ctxOf t (me s)).waitDest = destOf s1 f.d ∧ (ctxOf t (me s)).waitNx = s.cur.nx ∧
          (ctxOf t (me s)).waitRank = some (ctrRank e) ∧ SameMemory s t ∧ SameRegs s t))) ∧
    (bad → exec (.cncl f) s = .next (fault .protectionPart a s0)) ∧
    (n ≤ 4095 → away → exec (.cncl f) s = .next (dropped a s0)) ∧
    (good → ∃ t u, exec (.cncl f) s = .next t ∧ (ctxOf t (me s)).pc = s.cur.nx ∧
      t = advance (cancelCounter u p n (some (originOf s (me s))) (destOf s1 f.d)) ∧ SameMemory s u ∧ SameRegs s u ∧
      (∀ l ∈ s.launches, l.pkg = p.pkg → l.part = p.part → l.next ≠ 0 → belowCounter s p n 3 (pkLcnt l.packet) = true →
        ∀ e ∈ t.launches, e.id ≠ l.id) ∧
      ∃ k, k ∈ t.cancels ∧ k.issuer = some (originOf s (me s)) ∧ k.dest = destOf s1 f.d ∧ k.part = p ∧
        ∀ g ∈ s.groups, g.part = p → g.st ≠ .cancelling → belowCounter s p n 3 g.lcnt = true →
          g.gid ∈ k.groups ∧ ∀ o ∈ groupMembers s p g.gid, o ∈ k.left)

/-- KSWAP (R203 to R206): alignment, the statuses in their order, and the old kernel's successor named, retired at once where
no unit of it is live. -/
def Sys2Proof.Claims.KernelSwap : Prop :=
  ∀ (f : FR) (s : State) (h h' : Hit), Ready f.fields f.srcs s → 1 ≤ prvNo (myCtx s).prv →
    let s1 := markRead f.srcs s
    let s0 := Claims.unread f.srcs s
    let p := myPart s
    let va : VA := (src64i s1 f.imm20 f.a).setWidth 57
    let vb : VA := (src64i s1 f.imm20 f.b).setWidth 57
    let old := va.toNat
    let new := vb.toNat
    let live := fun k => kstate s p k = 2 ∨ kstate s p k = 3
    let u := syncObj s1 (me s) (h.pa / 8) true true
    (old % 64 ≠ 0 → exec (.kswap f) s = .next (fault .alignment (vaInfo va) s0)) ∧
    (old % 64 = 0 → Claims.Clear s1 va (needOther 8 true true) h →
      (new % 64 ≠ 0 → exec (.kswap f) s = .next (fault .alignment (vaInfo vb) s0)) ∧
      (new % 64 = 0 → Claims.Clear s1 vb (needOther 8 true true) h' → Claims.Settled false s1 →
        (¬ live old → exec (.kswap f) s = .next (result f.d (nat256 1) u)) ∧
        (live old → ¬ live new → exec (.kswap f) s = .next (result f.d (nat256 2) u)) ∧
        (live old → live new → readRange s p (new + 96) 32 ≠ readRange s p (old + 96) 32 →
          exec (.kswap f) s = .next (result f.d (nat256 3) u)) ∧
        (live old → live new → readRange s p (new + 96) 32 = readRange s p (old + 96) 32 → kswapSame s p old new = false →
          exec (.kswap f) s = .next (result f.d (nat256 4) u)) ∧
        (live old → live new → readRange s p (new + 96) 32 = readRange s p (old + 96) 32 → kswapSame s p old new = true →
          let log := fun (x : State) key => logUndo x p (refOf x (me s)) (myCtx x).tx false key
          let w := writeVa (log (log u h.pa) (h.pa + 64)) p (old + 88) 8 new
          exec (.kswap f) s = .next (result f.d (nat256 0) (modPart (setKstate w p old (if klive w p old = 0 then 5 else 4)) p
            fun q => { q with swapped := q.swapped ++ [old] })))))

/-- QSUB, LAUNCH, CNTW, CNCL and KSWAP. -/
def Obligations.Queues : Prop :=
  Claims.QueueSubmit ∧ Claims.Launching ∧ Claims.CounterWaits ∧ Claims.KernelSwap

/-- Queues and their dispatcher (R207 to R212, R398 to R401): each command is carried out in the states that admit
it and refused with 0xFF in every other; a head packet is rejected with its code, blocked, counted or taken for
placement; an aged head rises one level. -/
def Sys2Proof.Claims.QueueCommands : Prop :=
  (∀ (s : State) (p : PartId) (q : Nat),
    let st := qState s p q
    let s0 := putCmd s p q 0
    let refused := Host.Outcome.next (putCmd s p q 0xFF)
    let legal := 4 ≤ qLogn s p q ∧ qLogn s p q ≤ 16 ∧ qDie s p q < 4 ∧ 1 ≤ qget s p q 9 1 ∧ qget s p q 9 1 ≤ 16 ∧
      qRing s p q % 64 = 0 ∧ qRing s p q < 2 ^ 57 ∧ bitsOf (qget s p q 8 1) 2 5 = 0 ∧ q < limitOf s p 8 256
    ((st = 0 ∧ legal) → exec (.cmdConfigure p q) s =
      .next (setQState (qput (qput s0 p q 20 4 0) p q 24 4 0) p q 1)) ∧
    (¬ (st = 0 ∧ legal) → exec (.cmdConfigure p q) s = refused) ∧
    (st ∈ [1, 2, 3] → exec (.cmdSuspend p q) s = .next (headIdle (setQState s0 p q 4) p q)) ∧
    (st ∉ [1, 2, 3] → exec (.cmdSuspend p q) s = refused) ∧
    (st = 4 →
      ((headLaunch s0 p q).isSome = true → exec (.cmdResume p q) s =
        .next (kickQueue (headActive (setQState s0 p q 2) p q) p q)) ∧
      (headLaunch s0 p q = none → headWaits s0 p q = true → exec (.cmdResume p q) s = .next (setQState s0 p q 3)) ∧
      (headLaunch s0 p q = none → headWaits s0 p q = false → exec (.cmdResume p q) s = .next
        (if qHead s0 p q = qTail s0 p q then setQState s0 p q 1
         else kickQueue (headActive (setQState s0 p q 2) p q) p q))) ∧
    (st ≠ 4 → exec (.cmdResume p q) s = refused) ∧
    (st ∈ [1, 2, 3, 4] → ∃ u, exec (.cmdDrain p q) s = .next (kickQueue (settleQueue (setQState u p q 5) p q) p q) ∧
      (∀ l, headLaunch s0 p q = some l → l.next = 0 → u = { s0 with launches := listDel (fun e => e.id == l.id) s0.launches }) ∧
      ((∀ l, headLaunch s0 p q = some l → l.next ≠ 0) → u = s0)) ∧
    (st ∉ [1, 2, 3, 4] → exec (.cmdDrain p q) s = refused) ∧
    (st ∈ [1, 2, 3, 4, 5, 6, 7] → ∃ u, (∀ l, headLaunch s0 p q = some l → u = dropLaunch s0 l) ∧
      (headLaunch s0 p q = none → u = dropHead s0 p q) ∧
      exec (.cmdReset p q) s =
        .next (kick (dropQrt (qput (setQState u p q 0) p q 12 1 0) p q) p.pkg (qDie s0 p q))) ∧
    (st ∉ [1, 2, 3, 4, 5, 6, 7] → exec (.cmdReset p q) s = refused) ∧
    exec (.cmdRefused p q) s = refused) ∧
  (∀ (s : State) (p : PartId) (q : Nat),
    let done := fun t => exec (.packetValidation p q) s = .next (kick t p.pkg (qDie s p q))
    ((qState s p q ≠ 2 ∨ (headLaunch s p q).isSome = true) → done s) ∧
    (qState s p q = 2 → headLaunch s p q = none →
      let b := headPacket s p q
      let readable := vaReadable s p (slotVa s p q (qHead s p q)) 64
      (readable = false → done (rejectHead s p q 3)) ∧
      (∀ code, readable = true → packetCode s p b = some code → done (rejectHead s p q code)) ∧
      (readable = true → packetCode s p b = none →
        (dependMet s p b = false →
          done (endTurn (headIdle (setQState s p q 3) p q) p.pkg (qDie s p q))) ∧
        (dependMet s p b = true → dependPoison s p b = true → done (rejectHead s p q 9)) ∧
        (dependMet s p b = true → dependPoison s p b = false → pkType b = 1 →
          done (headDone (countOn (countTurn s p q) p (pkLcnt b) false) p q)) ∧
        (dependMet s p b = true → dependPoison s p b = false → pkType b ≠ 1 →
          ∃ t l, exec (.packetValidation p q) s = .next t ∧ t.launches = s.launches ++ [l] ∧ l.packet = b ∧
            l.queue = some q ∧ l.part = p.part ∧ l.pkg = p.pkg ∧ l.next = 0 ∧ l.issuer = .none ∧
            SameMemory s t ∧ SameRegs s t)))) ∧
  (∀ (s : State) (p : PartId) (b : Packet), packetCode s p b = none → pkType b = 0 →
    1 ≤ pkUnits b ∧ pkUnits b ≤ 2 ^ 24 ∧ pkLo b < pkHi b ∧ pkHi b ≤ 0x10000 ∧ pkPolicy b < 3 ∧
      (pkSteward b = 0xFFFF ∨ pkSteward b < pkUnits b) ∧ kernelBarred s p (placedKernel s p (pkKdesc b)) = false ∧
      legalSize (kRegs s p (placedKernel s p (pkKdesc b))) = true ∧
      kNeed s p (placedKernel s p (pkKdesc b)) ≤ pkHi b - pkLo b ∧ ctrOk s p (pkLcnt b) = true) ∧
  (∀ (s : State) (p : PartId) (q : Nat),
    (qState s p q = 3 → dependMet s p (headPacket s p q) = true →
      exec (.headDependenceMet p q) s = .next (kickQueue (headActive (setQState s p q 2) p q) p q)) ∧
    ((qState s p q ≠ 3 ∨ dependMet s p (headPacket s p q) = false) → exec (.headDependenceMet p q) s = .next s) ∧
    (let r := qrt s p q
     (r.since = none → exec (.queuePriorityAging p q) s = .next s) ∧
     (∀ t0, r.since = some t0 →
       (¬ (ns 100000 * (r.raised + 1) ≤ r.waited + (s.now - t0) ∧ effPrio s p q < 3) →
         exec (.queuePriorityAging p q) s = .next s) ∧
       (ns 100000 * (r.raised + 1) ≤ r.waited + (s.now - t0) → effPrio s p q < 3 →
         ∃ t, exec (.queuePriorityAging p q) s = .next t ∧ (qrt t p q).raised = r.raised + 1 ∧
           (qrt t p q).since = r.since ∧ (qrt t p q).waited = r.waited ∧
           effPrio t p q = effPrio s p q + 1 ∧ SameMemory s t ∧ SameRegs s t))))

/-- Placement (R155, R196, R213, R398 to R400): a unit is placed in a slot and a window with its number, the kernel of its
launch and its arguments in its first register; a kernel that none may launch rejects it; a launch that finds no room is
stuck until it is looked at again. -/
def Sys2Proof.Claims.Placement : Prop :=
  (∀ (s : State) (n : Nat), firstWhere (fun l => l.id == n) s.launches = none → exec (.unitPlacement n) s = .next s) ∧
  (∀ (s : State) (n : Nat) (l : Launch), firstWhere (fun l => l.id == n) s.launches = some l →
    let p : PartId := ⟨l.pkg, l.part⟩
    let k := placedKernel s p l.kdesc
    (∀ q, l.queue = some q → qState s p q ≠ 2 → qState s p q ≠ 5 →
      exec (.unitPlacement n) s = .next (kick s l.pkg l.die)) ∧
    ((∀ q, l.queue = some q → qState s p q = 2 ∨ qState s p q = 5) →
      (kernelBarred s p k = true →
        (∀ q, l.queue = some q → exec (.unitPlacement n) s = .next (kick (rejectHead (untakeHead s p q) p q 2) l.pkg l.die)) ∧
        (l.queue = none → exec (.unitPlacement n) s = .next (kick (dropLaunch s l) l.pkg l.die))) ∧
      (kernelBarred s p k = false → chooseCore s p l k = none →
        ∃ t, exec (.unitPlacement n) s = .next t ∧ SameMemory s t ∧ SameRegs s t ∧
          (∀ e ∈ t.launches, e.id = n → e.stuck = true) ∧
          (s.now + ns 1000, Instr.placementReconsider l.pkg l.die) ∈ t.agenda) ∧
      (∀ core slot base, kernelBarred s p k = false → chooseCore s p l k = some (core, slot, base) →
        ∃ t, exec (.unitPlacement n) s = .next t ∧ t = kick (placeUnit s l k core slot base) l.pkg l.die ∧
          let c := ctxOf t ⟨core, slot⟩
          c.isUnit = true ∧ c.unit = BitVec.ofNat 32 l.next ∧ c.nunits = BitVec.ofNat 32 (pkUnits l.packet) ∧
            c.kern = k ∧ c.part = p.part ∧ c.prv = .user ∧ c.winBase = base ∧
            entryVal t core base = BitVec.ofNat 256 (pkArgs l.packet)))) ∧
  (∀ (s : State) (core : Nat), ∃ t, exec (.placementCompletion core) s = .next t ∧ (coreOf t core).placing = none ∧
    SameMemory s t ∧ SameRegs s t ∧ ∀ slot, isParked (slotOf s ⟨core, slot⟩).st = true →
      (ctxOf s ⟨core, slot⟩).wait = .placement →
      (∀ g, groupOf s (partId s ⟨core, slot⟩) (ctxOf s ⟨core, slot⟩).grp = some g → g.timed = false) →
      (slotOf t ⟨core, slot⟩).st = .ready) ∧
  (∀ (s : State) (pkg die : Nat), ∃ t, exec (.placementReconsider pkg die) s = .next t ∧ SameMemory s t ∧ SameRegs s t ∧
    t.launches = s.launches.map fun l => if l.pkg = pkg ∧ l.die = die then { l with stuck := false } else l)

/-- Counters and watchdogs (R216, R221, R226, R227): a count adds one and poison sticks; a target that is reached counts the
parent of a higher level once; a watchdog counts each microsecond in which every live unit is parked, and fires at its
limit. -/
def Sys2Proof.Claims.Counting : Prop :=
  (∀ (s : State) (p : PartId) (c : Nat) (poisoned : Bool),
    (ctrOk s p c = false → exec (.counterCount p c poisoned) s = .next (veqPush s p 7 1 (BitVec.ofNat 64 c) 0 0)) ∧
    (ctrOk s p c = true → let e := counterEntry s p c
      ∃ e' u, ctrValue e' = (ctrValue e + 1) % 2 ^ 32 ∧ ctrPoison e' = (ctrPoison e || poisoned) ∧
        (∀ i, i ≠ 1 → (i < 32 ∨ 64 ≤ i) → bitAt e' i = bitAt e i) ∧ u = counterChanged (putCounter s p c e') p c ∧
        (∀ q, ctrParent e = some q → ctrTarget e ≠ 0 → ctrValue e' = ctrTarget e →
          ((ctrOk u p q = false ∨ ctrLevel e < ctrLevel (counterEntry u p q)) →
            exec (.counterCount p c poisoned) s = .next (countOn u p q (ctrPoison e'))) ∧
          (ctrOk u p q = true → ctrLevel (counterEntry u p q) ≤ ctrLevel e →
            exec (.counterCount p c poisoned) s = .next (veqPush u p 7 2 (BitVec.ofNat 64 c) 0 0))) ∧
        ((ctrParent e = none ∨ ctrTarget e = 0 ∨ ctrValue e' ≠ ctrTarget e) →
          exec (.counterCount p c poisoned) s = .next u))) ∧
  (∀ (s : State) (p : PartId) (gid : Nat),
    (groupOf s p gid = none → exec (.watchdogExpiry p gid) s = .next s) ∧
    (∀ g, groupOf s p gid = some g → g.wdog = 0 → exec (.watchdogExpiry p gid) s = .next s) ∧
    (∀ g, groupOf s p gid = some g → g.wdog ≠ 0 →
      let us := (slotsOf s p.pkg).filter fun e => isLive (effSt e.2) && e.2.ctx.part == p.part && e.2.ctx.grp == gid
      let s1 := at_ s (s.now + ns 1000) (.watchdogExpiry p gid)
      let asleep := (∃ e, e ∈ us) ∧ (∀ e ∈ us, isParked e.2.st = true ∧ trapService e.2 = false ∧
          (coreOf s e.1.core).suspended = false) ∧
        (∀ f ∈ s.flights, ¬ (pkgOf f.target = p.pkg ∧ f.ctx.part = p.part ∧ f.ctx.grp = gid)) ∧ savedMembers s p [gid] = []
      (¬ asleep → exec (.watchdogExpiry p gid) s = .next s1) ∧
      (asleep → g.wcount + 1 < g.wdog → ∃ t, exec (.watchdogExpiry p gid) s = .next t ∧
        groupOf t p gid = some { g with wcount := g.wcount + 1 } ∧ SameMemory s t ∧ SameRegs s t) ∧
      (asleep → g.wdog ≤ g.wcount + 1 → exec (.watchdogExpiry p gid) s = .next (watchFires s1 p g us))))

/-- What queues, dispatchers, counters and watchdogs do. -/
def Obligations.QueueEvents : Prop := Claims.QueueCommands ∧ Claims.Placement ∧ Claims.Counting

/-! ## Groups and collectives -/

namespace Sys2Proof.Claims

/-- A range that a collective reads or writes passes the checks of R171, page by page. -/
def RangeOk (s : State) (d : Reg) (va : VA) (n : Nat) (write : Bool) : Prop :=
  n = 0 ∨ (va.toNat % cdElem d = 0 ∧ ∀ e ∈ pieces (n / 65536 + 2) va.toNat n, ∃ h,
    checkAccess s (me s) (BitVec.ofNat 57 e.1) ⟨0, !write, write, false, false, false⟩ = .hit h ∧
    (∃ site, h.space = .dram site) ∧ reachesSpace s (me s) h.space = true ∧
    (write = true → guarded s (myPart s) (myCtx s).prv (BitVec.ofNat 57 e.1) h.pa 0 = false ∧
      guarded s (myPart s) (myCtx s).prv (BitVec.ofNat 57 e.1) h.pa e.2 = false) ∧
    (write = false → lostAt s h.pa e.2 = false ∧ badAt s h.pa e.2 = none))

/-- GRED, GBC and GAG with their numbers. -/
def collectives : List ((FR → Instr) × Nat) := [(.gred, 5), (.gbc, 6), (.gag, 7)]

end Sys2Proof.Claims

/-- GRED, GBC and GAG (R229, R230): the statuses of a bad descriptor and of one that no chunk can take; a fifth
chunk waits; a contribution that is accepted belongs to the chunk of its tree and sequence number, with the
elements read at A, which only the root of a GBC gives; D lands with the completion. -/
def Sys2Proof.Claims.CollectiveIssue : Prop :=
  ∀ e ∈ Claims.collectives, ∀ (f : FR) (s : State), Ready f.fields f.srcs s →
    let s1 := markRead f.srcs s
    let s0 := Claims.unread f.srcs s
    let p := myPart s
    let c := myCtx s
    let d := src256 s1 f.imm20 f.c
    let src : VA := (src64i s1 f.imm20 f.a).setWidth 57
    let dst : VA := (src64i s1 f.imm20 f.b).setWidth 57
    Claims.Settled false s1 →
    (cdBad e.2 d = true → exec (e.1 f) s = .next (result f.d (nat256 4) s1)) ∧
    (cdBad e.2 d = false →
      (groupOf s p c.grp = none → exec (e.1 f) s = .next (result f.d (nat256 3) s1)) ∧
      (∀ g, groupOf s p c.grp = some g →
        ((treeOf g (cdTree d) = none ∨ memberFrom p.pkg c.grp c.unit.toNat 0 g.ranges = none ∨ c.isUnit = false) →
          exec (e.1 f) s = .next (result f.d (nat256 3) s1)) ∧
        (∀ t m, treeOf g (cdTree d) = some t → memberFrom p.pkg c.grp c.unit.toNat 0 g.ranges = some m →
          c.isUnit = true →
          (seqOut s1 g m d = true → exec (e.1 f) s = .next (result f.d (nat256 3) s1)) ∧
          (seqOut s1 g m d = false → 4 ≤ c.collOut.length →
            exec (e.1 f) s = .next (parkBefore .parkedMessage .collective s0)) ∧
          (seqOut s1 g m d = false → c.collOut.length < 4 →
            let root := rootOf g t = some m
            let reads := if e.2 = 6 ∧ ¬ root then 0 else cdLen d
            let writes := if e.2 = 5 ∧ ¬ root then 0 else if e.2 = 7 then nmem g.ranges * cdLen d else cdLen d
            (reads ≠ 0 → src.toNat % cdElem d ≠ 0 → exec (e.1 f) s = .next (fault .alignment (vaInfo src) s0)) ∧
            (Claims.RangeOk s1 d src reads false → writes ≠ 0 → dst.toNat % cdElem d ≠ 0 →
              exec (e.1 f) s = .next (fault .alignment (vaInfo dst) s0)) ∧
            (Claims.RangeOk s1 d src reads false → Claims.RangeOk s1 d dst writes true →
            ∃ u k part, exec (e.1 f) s = .next u ∧ (ctxOf u (me s)).pc = s.cur.nx ∧ k ∈ u.chunks ∧
              k.part = p.part ∧ k.tree = cdTree d ∧ k.seq = cdSeq d ∧ (ctxOf u (me s)).collOut = c.collOut ++ [k.id] ∧ part ∈ k.parts ∧
              part.member = m ∧ part.kind = e.2 ∧ part.desc = d ∧ part.src = src ∧ part.dst = dst ∧
              part.who = refOf s (me s) ∧ part.pkg = p.pkg ∧ part.part = p.part ∧
              part.dest = destOf s1 f.d ∧ part.landed = false ∧ part.told = false ∧
              part.data = (if e.2 = 6 ∧ ¬ root then 0 else readRange s p src.toNat (cdLen d)) ∧
              SameMemory s u ∧ SameRegs s u)))))

/-- The elements of a reduction (R229, R230): sum, minimum, maximum, or, and the sum of FP32. -/
def Sys2Proof.Claims.Combines : Prop :=
  ∀ (d : Reg) (a b : Nat), let w := 8 * cdElem d
    let less := if cdUns d then a < b else signed w a < signed w b
    (cdOp d = 0 → combineElem d a b = (a + b) % 2 ^ w) ∧ (cdOp d = 1 → less → combineElem d a b = a) ∧
    (cdOp d = 1 → ¬ less → combineElem d a b = b) ∧ (cdOp d = 2 → less → combineElem d a b = b) ∧
    (cdOp d = 2 → ¬ less → combineElem d a b = a) ∧ (cdOp d = 3 → combineElem d a b = a ||| b) ∧
    (cdOp d = 4 → combineElem d a b = fadd32 a b) ∧
    ((∀ i, i < cdLen d / cdElem d → combineElem d (bitsOf a (w * i) w) (bitsOf b (w * i) w) < 2 ^ w) →
      ∀ i, i < cdLen d / cdElem d →
        bitsOf (combine d a b) (w * i) w = combineElem d (bitsOf a (w * i) w) (bitsOf b (w * i) w))

/-- GTBL and its write (R227, R232): a user reads its own group only; a read of a word or of a counter; the
statuses of a write with a reserved bit, of ranges that clash or hold more than 4096 members; a plan or a rank
outside its interval faults RANK_RANGE. -/
def Sys2Proof.Claims.GroupTables : Prop :=
  ∀ (f : FR) (s : State), Ready f.fields f.srcs s →
    let s1 := markRead f.srcs s
    let s0 := Claims.unread f.srcs s
    let p := myPart s
    let c := myCtx s
    let a := src64i s1 f.imm20 f.a
    let v := (src256 s1 f.imm20 f.b).toNat
    let n := if f.c = .z then c.grp else (src64i s1 f.imm20 f.c).toNat
    (c.prv = .user → f.c ≠ .z → n ≠ c.grp → exec (.gtbl f) s = .next (fault .protectionPart (src64i s1 f.imm20 f.c) s0)) ∧
    ((c.prv ≠ .user ∨ f.c = .z ∨ n = c.grp) →
      (groupOf s p n = none → (f.c ≠ .z ∨ a.toNat < 16) → exec (.gtbl f) s = .next (result f.d (nat256 0) s1)) ∧
      (∀ g, groupOf s p n = some g → a.toNat < 16 →
        exec (.gtbl f) s = .next (result f.d (nat256 (groupWord g a.toNat)) s1)) ∧
      (f.c = .z ∨ (groupOf s p n).isSome = true → a.toNat / 4096 = 1 →
        exec (.gtbl f) s = .next (result f.d (nat256 (counterEntry s p (a.toNat % 4096))) s1)) ∧
      (16 ≤ a.toNat → a.toNat / 4096 ≠ 1 → exec (.gtbl f) s = .next (result f.d (nat256 0) s1))) ∧
    (1 ≤ prvNo c.prv →
      (f.c ≠ .z → groupOf s p n = none → exec (.gtblW f) s = .next (result f.d (nat256 1) s1)) ∧
      (16 ≤ a.toNat → a.toNat / 4096 ≠ 1 → exec (.gtblW f) s = .next (result f.d (nat256 1) s1)) ∧
      (∀ g, groupOf s p n = some g → a.toNat < 16 → let w := a.toNat
        (groupReserved w v = true → exec (.gtblW f) s = .next (result f.d (nat256 1) s1)) ∧
        (groupReserved w v = false →
          (w = 1 → planOutside g (BitVec.ofNat 256 v) = true → exec (.gtblW f) s = .next (fault .rankRange 0 s0)) ∧
          (w = 1 → planOutside g (BitVec.ofNat 256 v) = false → ∃ u, exec (.gtblW f) s = .next (result f.d (nat256 0) u) ∧
            (groupOf u p n).map (·.plan) = some (BitVec.ofNat 256 v)) ∧
          (w = 0 → ∃ u, exec (.gtblW f) s = .next (result f.d (nat256 0) u) ∧
            (groupOf u p n).map (·.wdog) = some (bitsOf v 96 16) ∧ (groupOf u p n).map (·.wact) = some (bitAt v 112) ∧
            (groupOf u p n).map (·.plan) = some g.plan) ∧
          (2 ≤ w → w < 6 → let rs := (upto 8).map fun i =>
              if i / 2 + 2 = w then rangeFromWord s (rangeAt g i) (bitsOf v (128 * (i % 2)) 128) else rangeAt g i
            ((4096 < nmem rs ∨ rangesClash rs = true) → exec (.gtblW f) s = .next (result f.d (nat256 2) s1)) ∧
            (nmem rs ≤ 4096 → rangesClash rs = false →
              ∃ u, exec (.gtblW f) s = .next (result f.d (nat256 0) u) ∧ (groupOf u p n).map (·.ranges) = some rs)) ∧
          (6 ≤ w → w < 8 → exec (.gtblW f) s = .next (result f.d (nat256 0) s1)) ∧
          (8 ≤ w → ∃ u treb, exec (.gtblW f) s = .next (result f.d (nat256 0) u) ∧
            (groupOf u p n).map (fun g => treeAt g (w - 8)) = some ⟨bitAt v 0, bitsOf v 8 12, bitsOf v 4 4, treb⟩ ∧
            (chunkOut s g (w - 8) = false → treb = (treeAt g (w - 8)).treb)))) ∧
      (f.c = .z ∨ (groupOf s p n).isSome = true → a.toNat / 4096 = 1 → Claims.Free s1 →
        let k := a.toNat % 4096
        let bad := bitsOf v 4 28 ≠ 0 ∨ bitsOf v 92 3 ≠ 0 ∨ bitsOf v 128 128 ≠ 0
        let out := bitsOf v 64 16 < c.rklo ∨ c.rkhi ≤ bitsOf v 64 16
        (bad → exec (.gtblW f) s = .next (result f.d (nat256 1) s1)) ∧
        (¬ bad → out → exec (.gtblW f) s = .next (fault .rankRange 0 s0)) ∧
        (¬ bad → ¬ out → counterKey s p k = none →
          exec (.gtblW f) s = .next (fault .translation (trInfo (counterVa s p k) false) s0)) ∧
        (¬ bad → ¬ out → (counterKey s p k).isSome = true →
          (limitOf s p 9 4096 ≤ k → exec (.gtblW f) s = .next (result f.d (nat256 1) s1)) ∧
          (k < limitOf s p 9 4096 → exec (.gtblW f) s = .next (result f.d (nat256 0)
            (counterChanged (putCounter (syncObj s1 (me s) (2 ^ 59 + k) false false) p k v) p k))))))

/-- The last contribution to a chunk (R230, R231): nothing happens while one is missing; then every write of the collective
is made at every member, unless the members disagree, and the completions have their status: 2 where they disagree, 1
over survivors, else 0. The root writes a reduction, every member the root's bytes or all members' in order. -/
def Sys2Proof.Claims.ChunkEnd : Prop :=
  ∀ (s : State) (c : Chunk) (g : Group) (t : Tree) (root : Nat), findChunk s c.id = some c → rootView s c = some (g, t, root) →
    let l := survivors g
    let all := ∀ m ∈ l, ∃ e, partFor c m = some e ∧ e.landed = true
    let status := if disagree c l then 2 else if g.ranges.any (fun r => r.v && r.lost) then 1 else 0
    ((c.complete = true ∨ ¬ all) → finishChunk s c = s) ∧
    (c.complete = false → all → ∃ c', findChunk (finishChunk s c) c.id = some c' ∧ c'.complete = true ∧
      c'.status = status ∧ c'.parts = c.parts ∧ SameRegs s (finishChunk s c) ∧
      (status = 2 → SameMemory s (finishChunk s c)) ∧
      (status ≠ 2 → ∀ key, readByte (finishChunk s c) key = readByte (landAll s c l) key)) ∧
    (∀ e, e.kind = 5 → e.member ≠ root → memberData s c e = (0, 0)) ∧
    (∀ e, e.kind = 5 → e.member = root → (memberData s c e).1 = cdLen e.desc) ∧
    (∀ e, e.kind = 6 → memberData s c e = (cdLen e.desc, ((partFor c root).map (·.data)).getD 0)) ∧
    (∀ e, e.kind = 7 → memberData s c e = (l.length * cdLen e.desc,
      packLanes (8 * cdLen e.desc) (l.map fun m => ((partFor c m).map (·.data)).getD 0)))

/-- Chunk frames and fence reports (R230, R231, R419, R420): a frame of an older tree is discarded, one of a newer tree
waits for the notice, one of the present tree is counted; a completion lands its status in D once, or waits for a device
that is not resident; a fence is noticed once. -/
def Sys2Proof.Claims.ChunkFrames : Prop :=
  (∀ (s : State) (n : Nat), firstWhere (fun m => m.id == n) s.chunkMsgs = none →
    exec (.chunkFrameArrival n) s = .next s ∧ exec (.collectiveCompletion n) s = .next s) ∧
  (∀ (s : State) (n : Nat) (m : ChunkMsg), firstWhere (fun m => m.id == n) s.chunkMsgs = some m →
    let u := linkTake s (chunkHop s m.chunk m.member false).1 (chunkHop s m.chunk m.member false).2 n
    let w := linkTake s (chunkHop s m.chunk m.member true).1 (chunkHop s m.chunk m.member true).2 n
    let counted := dropChunkMsg (modContrib u m.chunk m.member fun e => { e with landed := true }) n
    (findChunk u m.chunk = none → exec (.chunkFrameArrival n) s = .next (dropChunkMsg u n)) ∧
    (∀ c, findChunk u m.chunk = some c →
      (rootView u c = none → exec (.chunkFrameArrival n) s = .next counted) ∧
      (∀ g t r, rootView u c = some (g, t, r) →
        (m.treb < t.treb → exec (.chunkFrameArrival n) s = .next (dropChunkMsg u n)) ∧
        (t.treb < m.treb → exec (.chunkFrameArrival n) s = .next u) ∧
        (m.treb = t.treb → ∃ c', findChunk counted m.chunk = some c' ∧
          exec (.chunkFrameArrival n) s = .next (finishChunk counted c')))) ∧
    (findChunk w m.chunk = none → exec (.collectiveCompletion n) s = .next (dropChunkMsg w n)) ∧
    (∀ c, findChunk w m.chunk = some c → partFor c m.member = none →
      exec (.collectiveCompletion n) s = .next (dropChunkMsg w n)) ∧
    (∀ c e, findChunk w m.chunk = some c → partFor c m.member = some e →
      let mine := (trebAt w e.pkg c).getD m.treb
      ((e.told = true ∨ m.treb < mine) → exec (.collectiveCompletion n) s = .next (dropChunkMsg w n)) ∧
      (e.told = false → mine < m.treb → exec (.collectiveCompletion n) s = .next w) ∧
      (e.told = false → m.treb = mine →
        (∀ k, memberCore w e = some k → (coreOf w k).suspended = true →
          exec (.collectiveCompletion n) s = .next (saveFor w k (.collectiveCompletion n))) ∧
        (∀ r, memberCore w e = none → memberSaved w e = some r →
          exec (.collectiveCompletion n) s = .next (saveInto w r (.collectiveCompletion n))) ∧
        ((∀ k, memberCore w e = some k → (coreOf w k).suspended = false) → memberSaved w e = none →
          let x := dropChunkMsg (modContrib (landStatus w ⟨e.pkg, e.part⟩ e c.id m.status) c.id m.member
            fun e => { e with told := true }) n
          SameMemory w x ∧
          ∃ t, exec (.collectiveCompletion n) s = .next t ∧
            (t = x ∨ t = { x with chunks := listDel (fun k => k.id == c.id) x.chunks }))))) ∧
  (∀ (s : State) (a b : Nat) (p : PartId) (gid : Nat),
    (groupOf s p gid = none → exec (.fenceReport a b p gid) s = .next s) ∧
    (∀ g, groupOf s p gid = some g →
      (g.noticed.contains (a, b) = true → exec (.fenceReport a b p gid) s = .next s) ∧
      (g.noticed.contains (a, b) = false → ∃ t, exec (.fenceReport a b p gid) s = .next t ∧ SameMemory s t ∧
        SameRegs s t ∧ (groupOf t p gid).map (·.noticed) = some (g.noticed ++ [(a, b)]))))

/-- What groups do together. -/
def Obligations.Collectives : Prop :=
  Claims.CollectiveIssue ∧ Claims.Combines ∧ Claims.GroupTables ∧ Claims.ChunkEnd ∧ Claims.ChunkFrames

/-! ## Links -/

namespace Sys2Proof.Claims

/-- A link between two packages has two ends, and every other link one. -/
def TwoEnded (l : LinkId) : Prop := ∀ a b, l = .peer a b → a ≠ b

end Sys2Proof.Claims

/-- The states of a link (R289, R290, R299, R300): each event takes each end that is not viral to the state that
its row gives, and does nothing from a state that its row does not name; where no transaction is open, no byte, mark or
register changes. -/
def Sys2Proof.Claims.LinkStates : Prop :=
  (∀ (s : State) (l : LinkId),
    let quiet := ∀ q, (pkgAt s q).txs = []
    let trains := fun (i : Instr) => ∃ t, exec i s = .next t ∧ (quiet → SameMemory s t ∧ SameRegs s t) ∧
      ∀ e ∈ linkEnds l, (linkOf s e).st ≠ .viral → (linkOf t e).st = .training ∧ (linkOf t e).ackSeq = 0 ∧
        (linkOf t e).recvSeq = 0 ∧ (linkOf t e).sendSeq = BitVec.ofNat 12 (linkOf t e).out.length ∧
        ∀ i, i < (linkOf t e).out.length → (linkOf t e).out[i]?.map (·.seq) = some (BitVec.ofNat 12 i)
    let fences := fun (i : Instr) => ∃ t, exec i s = .next t ∧ (quiet → SameMemory s t ∧ SameRegs s t) ∧
      ∀ e ∈ linkEnds l, (linkOf t e).st = if (linkOf s e).st = .viral then .viral else .fenced
    ((linkOf s l).st ≠ .down → exec (.linkOn l) s = .next (putStatus s (linkPkg l) 0)) ∧
    ((linkOf s l).st = .down → trains (.linkOn l)) ∧
    (∃ t, exec (.linkOff l) s = .next t ∧ (pkgAt t (linkPkg l)).pstatus = 0 ∧ SameMemory s t ∧ SameRegs s t ∧ ∀ e ∈ linkEnds l,
      (linkOf t e).st = if (linkOf s e).st = .viral then .viral else .down) ∧
    ((linkOf s l).st = .viral → exec (.linkFenceCommand l) s = .next s) ∧
    ((linkOf s l).st = .fenced → exec (.linkFenceCommand l) s = .next s) ∧
    ((linkOf s l).st ≠ .viral → (linkOf s l).st ≠ .fenced → fences (.linkFenceCommand l)) ∧
    ((linkOf s l).st ≠ .fenced → exec (.linkUnfenceCommand l) s = .next s) ∧
    ((linkOf s l).st = .fenced → trains (.linkUnfenceCommand l)) ∧
    ((linkOf s l).st ≠ .training → exec (.retrainTimeout l) s = .next s) ∧
    ((linkOf s l).st = .training → fences (.retrainTimeout l)) ∧
    (linkLive s l = false → exec (.replayThreshold l) s = .next s) ∧
    (linkLive s l = true → trains (.replayThreshold l) ∧ ∃ t, exec (.replayThreshold l) s = .next t ∧
      (s.now + ns 20000, Instr.retrainTimeout l) ∈ t.agenda) ∧
    (∀ lanes total,
      let takes := fun (i : Instr) (st : LinkSt) => ∃ t, exec i s = .next t ∧ SameMemory s t ∧ SameRegs s t ∧
        ∀ e ∈ linkEnds l, ((linkOf s e).st = .viral → (linkOf t e).st = .viral) ∧
          ((linkOf s e).st ≠ .viral → (linkOf t e).st = st ∧ (linkOf t e).lanes = lanes)
      ((linkOf s l).st ≠ .training → exec (.trainingComplete l lanes total) s = .next s) ∧
      ((linkOf s l).st = .training → 0 < lanes → total ≤ lanes → takes (.trainingComplete l lanes total) .up) ∧
      ((linkOf s l).st = .training → 0 < lanes → lanes < total → total ≤ 2 * lanes →
        takes (.trainingComplete l lanes total) .degraded) ∧
      ((linkOf s l).st = .training → (lanes = 0 ∨ 2 * lanes < total) →
        ((linkOf s l).attempts < 2 → Claims.TwoEnded l → ∃ t, exec (.trainingComplete l lanes total) s = .next t ∧
          linkOf t l = { linkOf s l with attempts := (linkOf s l).attempts + 1 } ∧ SameMemory s t ∧ SameRegs s t) ∧
        (2 ≤ (linkOf s l).attempts → fences (.trainingComplete l lanes total))) ∧
      (linkLive s l = false → exec (.laneLoss l lanes) s = .next s) ∧
      (linkLive s l = true → lanesOf l ≤ 2 * lanes → takes (.laneLoss l lanes) .degraded) ∧
      (linkLive s l = true → 2 * lanes < lanesOf l → fences (.laneLoss l lanes)))) ∧
  (∀ (s : State) (pkg dst : Nat),
    ((linkOf s (.peer pkg dst)).st = .viral → exec (.viralNoticeArrival pkg dst) s = .next s) ∧
    ((linkOf s (.peer pkg dst)).st ≠ .viral → ∃ t, exec (.viralNoticeArrival pkg dst) s = .next t ∧
      (linkOf t (.peer pkg dst)).st = .fenced ∧ ((∀ q, (pkgAt s q).txs = []) → SameMemory s t ∧ SameRegs s t))) ∧
  (∀ (s : State) (pkg : Nat),
    ((pkgAt s pkg).viral = true → exec (.packageViral pkg) s = .next s) ∧
    ((pkgAt s pkg).viral = false → ∃ t, exec (.packageViral pkg) s = .next t ∧ (pkgAt t pkg).viral = true ∧
      (pkgAt t pkg).holds = false ∧ (∀ e ∈ (pkgAt t pkg).links, e.2.st = .viral) ∧ SameRegs s t ∧
      (∀ b ∈ (pkgAt t pkg).toSend, isRed b = false) ∧
      ((∀ b ∈ (pkgAt s pkg).toSend, isRed b = false) → SameMemory s t) ∧
      ∀ c, c < 32 → c ≠ pkg → (linkLive s (.peer pkg c) = true ∨ (linkOf s (.peer pkg c)).st = .training) →
        ∃ τ, s.now ≤ τ ∧ (τ, Instr.viralNoticeArrival c pkg) ∈ t.agenda))

/-- Frames of links (R291 to R293, R298, R299): a frame goes out while its channel may carry it, and else waits at its
sender; a data frame is accepted in sequence only; any other makes the sender go back to the one expected, and the
sixteenth round within a millisecond has the link retrain; a sender with frames outstanding looks again after 4 µs, and
retrains when none has been acknowledged for 10 µs; a pause holds its channels until it ends; the ends of a fenced link
hand over what was not accepted, in order; a bulk slot delivers to every other member in the order sent. -/
def Sys2Proof.Claims.LinkFrames : Prop :=
  (∀ (s : State) (pkg dst vc body : Nat), let l : LinkId := .peer pkg dst
    let k := linkOf s l
    pkg ≠ dst → k.st ≠ .viral → k.st ≠ .fenced →
      (k.blocks vc = true → (linkOf (linkSend s pkg dst vc body) l) = { k with held := k.held ++ [(vc, body)] }) ∧
      (k.blocks vc = false → (linkOf (linkSend s pkg dst vc body) l).out = k.out ++ [⟨k.sendSeq, vc, body⟩] ∧
        (linkOf (linkSend s pkg dst vc body) l).sendSeq = k.sendSeq + 1)) ∧
  (∀ (s : State) (pkg dst : Nat),
    let l : LinkId := .peer pkg dst
    let k := linkOf s l
    (∀ seq good body, linkLive s l = false → exec (.dataFrameReceive pkg dst seq good body) s = .next s) ∧
    (∀ seq body, linkLive s l = true → ∃ t, exec (.dataFrameReceive pkg dst seq false body) s = .next t ∧
      linkOf t l = { k with errors := k.errors + 1 } ∧ SameMemory s t ∧ SameRegs s t) ∧
    (∀ body, linkLive s l = true → ∃ t, exec (.dataFrameReceive pkg dst k.recvSeq true body) s = .next t ∧
      linkOf t l = { k with
        recvSeq := k.recvSeq + 1
        accepted := k.accepted ++ [body] } ∧ SameMemory s t ∧ SameRegs s t) ∧
    (∀ seq body, linkLive s l = true → seq ≠ k.recvSeq → ∃ t, exec (.dataFrameReceive pkg dst seq true body) s = .next t ∧
      exec (.nakReceive dst pkg k.recvSeq) s = .next t ∧ (pkg ≠ dst → linkOf t l = k) ∧
      (linkOf t (.peer dst pkg)).out = (linkOf s (.peer dst pkg)).out.dropWhile (fun f => f.seq != k.recvSeq) ∧
      (linkOf t (.peer dst pkg)).replays = (linkOf s (.peer dst pkg)).replays + 1 ∧ SameMemory s t ∧ SameRegs s t) ∧
    (∀ ack, ∃ t, exec (.nakReceive pkg dst ack) s = .next t ∧ (linkOf t l).ackSeq = ack ∧
      (linkOf t l).out = k.out.dropWhile (fun f => f.seq != ack) ∧ (linkOf t l).replays = k.replays + 1 ∧
      (15 ≤ (k.rounds.filter fun r => decide (s.now < r + ns 1000000)).length → (s.now, Instr.replayThreshold l) ∈ t.agenda) ∧
      SameMemory s t ∧ SameRegs s t) ∧
    (let u := acked pkg dst s
     let k' := linkOf u l
     ((k'.out = [] ∨ k'.live = false) → exec (.resendTimeout pkg dst) s = .next u) ∧
     (k'.out ≠ [] → k'.live = true → ∃ t, exec (.resendTimeout pkg dst) s = .next t ∧ (linkOf t l).out = k'.out ∧
       (linkOf t l).replays = k'.replays + (if k'.ackSeq = k.ackSeq then 1 else 0) ∧ SameMemory s t ∧ SameRegs s t ∧
       (s.now < k'.progress + ns 10000 →
         (Nat.min (s.now + ns 4000) (k'.progress + ns 10000), Instr.resendTimeout pkg dst) ∈ t.agenda) ∧
       (k'.progress + ns 10000 ≤ s.now → (s.now, Instr.replayThreshold l) ∈ t.agenda))) ∧
    (∀ vcs, ∃ t, exec (.pauseFrame pkg dst vcs 0) s = .next t ∧ (linkOf t l).paused = k.paused &&& ~~~vcs ∧
      (k.held = [] → linkOf t l = { k with paused := k.paused &&& ~~~vcs }) ∧ SameMemory s t ∧ SameRegs s t) ∧
    (∀ vcs dur, dur ≠ 0 → ∃ t, exec (.pauseFrame pkg dst vcs dur) s = .next t ∧
      linkOf t l = { k with paused := k.paused ||| vcs } ∧ SameMemory s t ∧ SameRegs s t ∧
      ∀ i, i < 4 → vcs.getLsbD i = true → (s.now + ns (64 * dur.toNat), Instr.pauseExpiry pkg dst i) ∈ t.agenda) ∧
    (∀ vc, vc < 4 → ∃ t, exec (.pauseExpiry pkg dst vc) s = .next t ∧ SameMemory s t ∧ SameRegs s t ∧
      ∀ i, (linkOf t l).paused.getLsbD i = (k.paused.getLsbD i && decide (i ≠ vc))) ∧
    (k.relay = none → exec (.fenceHandshake pkg dst) s = .next s) ∧
    (∀ c, k.relay = some c → pkg ≠ dst → k.st = .fenced → (linkOf s (.peer dst pkg)).st = .fenced →
      ∃ t, exec (.fenceHandshake pkg dst) s = .next t ∧
      (linkOf t l).out = [] ∧ (linkOf t (.peer dst pkg)).out = [] ∧
      (linkOf t (.peer dst pkg)).accepted = (linkOf s (.peer dst pkg)).accepted ++
        (linkOf (acked pkg dst s) l).out.map (·.body) ∧
      (pkgAt t c).detours.contains (Nat.min pkg dst, Nat.max pkg dst) = true ∧ SameMemory s t ∧ SameRegs s t)) ∧
  (∀ (s : State) (l : LinkId), ∃ t, exec (.dieToDieReplay l) s = .next t ∧
    linkOf t l = { linkOf s l with
      errors := (linkOf s l).errors + 1
      replays := (linkOf s l).replays + 1 } ∧ SameMemory s t ∧ SameRegs s t) ∧
  (∀ (s : State) (pkg n : Nat), exec (.flitEscapeTimeout pkg n) s = .next s) ∧
  (∀ (s : State) (pkg : Nat),
    (((pkgAt s pkg).viral = true ∨ (pkgAt s pkg).bulkOut = []) → exec (.bulkSlot pkg) s = .next s) ∧
    ((pkgAt s pkg).viral = false → (pkgAt s pkg).bulkOut ≠ [] → (s.pkgs.map (·.1)).Nodup →
      ∃ t, exec (.bulkSlot pkg) s = .next t ∧ (pkgAt t pkg).bulkOut = [] ∧ SameMemory s t ∧ SameRegs s t ∧
      ∀ q ∈ s.pkgs.map (·.1), q ≠ pkg →
        let gets := (pkgAt s pkg).members.getLsbD q = true ∧ (pkgAt s q).viral = false
        (gets → (pkgAt t q).bulkIn = (pkgAt s q).bulkIn ++ (pkgAt s pkg).bulkOut.map (fun b => (pkg, b)) ∧
          Map.get (pkgAt t q).bulkSeq pkg 0 =
            Map.get (pkgAt s q).bulkSeq pkg 0 + BitVec.ofNat 12 (pkgAt s pkg).bulkOut.length) ∧
        (¬ gets → pkgAt t q = pkgAt s q)) ∧
    (∀ src good, ∃ t, exec (.bulkFrameReceive pkg src good) s = .next t ∧
      (pkgAt t pkg).bulkIn = (pkgAt s pkg).bulkIn ++ [(src, 0)] ∧
      Map.get (pkgAt t pkg).bulkSeq src 0 = Map.get (pkgAt s pkg).bulkSeq src 0 + 1 ∧ SameMemory s t ∧ SameRegs s t))

/-- What links do. -/
def Obligations.Links : Prop := Claims.LinkStates ∧ Claims.LinkFrames

/-! ## The order plane -/

namespace Sys2Proof.Claims

/-- `f` is the next frame that a package may apply (R295). -/
def Next (s : State) (pkg : Nat) (f : OFrame) (rest : List OFrame) : Prop :=
  (pkgAt s pkg).arrived = f :: rest ∧ (pkgAt s pkg).viral = false ∧ (pkgAt s pkg).gapAt = none ∧
    f.pseq = nextPseq (pkgAt s pkg).lastApplied

/-- The state in which a package has taken a frame off the plane and applies it. -/
def handed (s : State) (pkg : Nat) (f : OFrame) (rest : List OFrame) : State :=
  (upto 4).foldl (fun s d => pmDie s (pkg * 4096 + d * 1024) 0 0x22) (modPkg s pkg fun p => { p with
    arrived := rest
    lastApplied := f.pseq
    kept := (p.kept ++ [f]).drop (p.kept.length - 4095) })

/-- What an applied frame does to everything but the contexts that waited for it and the turn of R297. -/
def AppliedAs (t u : State) : Prop :=
  t.mem = u.mem ∧ t.dir = u.dir ∧ t.fe = u.fe ∧ t.pkgs = u.pkgs ∧ t.sites = u.sites ∧ t.groups = u.groups ∧
    t.parts = u.parts ∧ t.chunks = u.chunks

/-- The events that apply an order frame. -/
def planeEvents : List (Nat → Instr) :=
  [.tokenPass, .copseStore, .copseAtomic, .gateOperation, .copseBarrierOperation, .transactionReady,
   .transactionCommit, .transactionAbort, .groupTreeRebuildNotice]

end Sys2Proof.Claims

/-- Order frames (R240, R294 to R296, R387, R414, R420): a frame is applied in PSEQ order and in no other; a store or
atomic changes its word of the package's replica and no other byte; the frames of gates, barriers, transactions and
rebuilds have the effect of their kind; a token pass sets MEMBERS and the last holder, and the package that it
names holds the Thorn and passes it on in the same step. -/
def Sys2Proof.Claims.PlaneFrames : Prop :=
  (∀ e ∈ Claims.planeEvents, ∀ (s : State) (pkg : Nat),
    ((pkgAt s pkg).arrived = [] ∨ (pkgAt s pkg).viral = true ∨ (pkgAt s pkg).gapAt.isSome = true ∨
      (∀ f rest, (pkgAt s pkg).arrived = f :: rest → f.pseq ≠ nextPseq (pkgAt s pkg).lastApplied)) →
    exec (e pkg) s = .next s) ∧
  (∀ (s : State) (pkg : Nat) (f : OFrame) (rest : List OFrame), Claims.Next s pkg f rest →
    let u := Claims.handed s pkg f rest
    (pkgAt u pkg).lastApplied = nextPseq (pkgAt s pkg).lastApplied ∧ (pkgAt u pkg).arrived = rest ∧
    (∀ w part v who, f.body = .store w part v who → s.Inv → ∃ t, exec (.copseStore pkg) s = .next t ∧
      readPA t pkg (copseWordPA w) 8 = v.toNat ∧ (pkgAt t pkg).lastApplied = f.pseq ∧ SameRegs s t ∧
      ∀ a, a < memKey pkg (copseWordPA w) ∨ memKey pkg (copseWordPA w) + 8 ≤ a → readByte t a = readByte s a) ∧
    (∀ op w part v x who d sx, f.body = .atomic op w part v x who d sx → s.Inv →
      let new := atomNew op 64 (readPA s pkg (copseWordPA w) 8) v.toNat x.toNat
      ∃ t, exec (.copseAtomic pkg) s = .next t ∧ readPA t pkg (copseWordPA w) 8 = new % 2 ^ 64 ∧
        (pkgAt t pkg).lastApplied = f.pseq ∧ SameRegs s t ∧
        ∀ a, a < memKey pkg (copseWordPA w) ∨ memKey pkg (copseWordPA w) + 8 ≤ a → readByte t a = readByte s a) ∧
    (∀ op w part v who o, f.body = .red op w part v who o → s.Inv →
      let new := atomNew op 64 (readPA s pkg (copseWordPA w) 8) v.toNat 0
      ∃ t, exec (.copseAtomic pkg) s = .next t ∧ readPA t pkg (copseWordPA w) 8 = new % 2 ^ 64 ∧
        (pkgAt t pkg).lastApplied = f.pseq ∧ SameRegs s t ∧
        ∀ a, a < memKey pkg (copseWordPA w) ∨ memKey pkg (copseWordPA w) + 8 ≤ a → readByte t a = readByte s a) ∧
    (∀ op h part n i img who d, f.body = .gate op h part n i img who d → ∃ t, exec (.gateOperation pkg) s = .next t ∧
      Claims.AppliedAs t (applyGate u pkg (f.src == pkg) op h part n i img who)) ∧
    (∀ op h arg who d, f.body = .barrier op h arg who d → ∃ t, exec (.copseBarrierOperation pkg) s = .next t ∧
      Claims.AppliedAs t (applyBarrier u pkg op h arg who)) ∧
    (∀ x n, f.body = .txReady x n → ∃ t e, exec (.transactionReady pkg) s = .next t ∧ txFind t pkg x = some e ∧
      (e.st = .opened → f.src ∈ e.readyPkgs) ∧ SameMemory s t ∧ SameRegs s t) ∧
    (∀ x n e, f.body = .txCommit x n → txFind s pkg x = some e → e.st = .opened →
      ∃ t e', exec (.transactionCommit pkg) s = .next t ∧ txFind t pkg x = some e' ∧ e'.st = .committed ∧
        SameMemory s t ∧ SameRegs s t) ∧
    (∀ x cause code e, f.body = .txAbort x cause code → txFind s pkg x = some e → e.st = .opened →
      ∃ t, exec (.transactionAbort pkg) s = .next t ∧ Claims.AppliedAs t (applyAbort u pkg x cause code)) ∧
    (∀ part a b i lost treb, f.body = .rebuild part a b i lost treb → ∃ t,
      exec (.groupTreeRebuildNotice pkg) s = .next t ∧ Claims.AppliedAs t (applyRebuild u pkg part a b i lost treb)) ∧
    (∀ k, f.body = .reserved k → ∃ t, exec (.reservedOkindFrame pkg) s = .next t ∧
      (pkgAt t pkg).discarded = (pkgAt s pkg).discarded + 1 ∧ (pkgAt t pkg).lastApplied = f.pseq ∧
      SameMemory s t ∧ SameRegs s t) ∧
    (∀ members next, f.body = .token members next →
      (members.getLsbD pkg = false → ∃ t, exec (.tokenPass pkg) s = .next t ∧ (pkgAt t pkg).members = members ∧
        (s.now, Instr.packageViral pkg) ∈ t.agenda) ∧
      (members.getLsbD pkg = true → next ≠ pkg → ∃ t, exec (.tokenPass pkg) s = .next t ∧
        (pkgAt t pkg).members = members ∧ (pkgAt t pkg).lastHolder = next ∧ (pkgAt t pkg).holds = false ∧
        SameMemory s t ∧ SameRegs s t) ∧
      (members.getLsbD pkg = true → next = pkg → ∃ t l g, exec (.tokenPass pkg) s = .next t ∧
        (pkgAt t pkg).members = members ∧ (pkgAt t pkg).holds = false ∧ (pkgAt t pkg).arrived = l ++ [g] ∧
        g.body = .token members (nextMember members pkg) ∧ g.src = pkg)))

/-- Lost frames, the regeneration of the Thorn and the forming of a copse (R295, R297, R453). -/
def Sys2Proof.Claims.PlaneRecovery : Prop :=
  (∀ (s : State) (pkg : Nat),
    (((pkgAt s pkg).arrived = [] ∨ (pkgAt s pkg).gapAt.isSome = true ∨ (pkgAt s pkg).viral = true) →
      exec (.orderFrameGap pkg) s = .next s) ∧
    (∀ f rest, (pkgAt s pkg).arrived = f :: rest → (pkgAt s pkg).gapAt = none → (pkgAt s pkg).viral = false →
      ∃ t, exec (.orderFrameGap pkg) s = .next t ∧ (pkgAt t pkg).gapAt = some f.pseq ∧ (pkgAt t pkg).arrived = rest ∧
        (s.now + ns 100000, Instr.orderRecoveryTimeout pkg) ∈ t.agenda ∧ SameMemory s t ∧ SameRegs s t) ∧
    ((pkgAt s pkg).gapAt = none → exec (.orderRecoveryTimeout pkg) s = .next s ∧
      ∀ src, exec (.orderFrameRecovery pkg src) s = .next s) ∧
    (∀ n, (pkgAt s pkg).gapAt = some n →
      ((pkgAt s pkg).viral = false → ∃ t, exec (.orderRecoveryTimeout pkg) s = .next t ∧
        (s.now, Instr.packageViral pkg) ∈ t.agenda) ∧
      (∀ src f, (pkgAt s src).viral = false →
        firstWhere (fun f => f.pseq == n) ((pkgAt s src).kept ++ (pkgAt s src).arrived) = some f →
        ∃ t, exec (.orderFrameRecovery pkg src) s = .next t ∧ (pkgAt t pkg).gapAt = none ∧
          (pkgAt t pkg).arrived = f :: (pkgAt s pkg).arrived ∧ SameMemory s t ∧ SameRegs s t)) ∧
    (((pkgAt s pkg).viral = true ∨ (pkgAt s pkg).member = false ∨ (pkgAt s pkg).arrived ≠ []) →
      exec (.thornRegeneration pkg) s = .next s) ∧
    ((pkgAt s pkg).viral = false → (pkgAt s pkg).member = true → (pkgAt s pkg).arrived = [] →
      (pkgAt s pkg).members.getLsbD pkg = true → pkg ∈ s.pkgs.map (·.1) → ∃ t l g mask next,
        exec (.thornRegeneration pkg) s = .next t ∧ (pkgAt t pkg).arrived = l ++ [g] ∧
        g.pseq = nextPseq (pkgAt s pkg).lastApplied ∧ g.src = pkg ∧ g.body = .token mask next ∧
        next = nextMember mask (pkgAt s pkg).lastHolder ∧ SameMemory s t ∧ SameRegs s t ∧
        ∀ q, q < 32 → (mask.getLsbD q = true ↔
          ((pkgAt s pkg).members.getLsbD q = true ∧ q ≠ (pkgAt s pkg).lastHolder ∧ pkg ≤ q)))) ∧
  (∀ (s : State) (pkgs : List Nat), ∃ t, exec (.copseFormation pkgs) s = .next t ∧ ∀ a ∈ pkgs,
    (pkgAt t a).member = true ∧ (∀ q, q < 32 → ((pkgAt t a).members.getLsbD q = true ↔ q ∈ pkgs)) ∧
    (linkOf t (.orderPlane a)).st = .up ∧ (linkOf t (.bulkPlane a)).st = .up ∧
    ∀ b ∈ pkgs, b ≠ a → (linkOf t (.peer a b)).st = .up ∧ (linkOf t (.peer a b)).lanes = 256)

/-- What the order plane does. -/
def Obligations.OrderPlane : Prop := Claims.PlaneFrames ∧ Claims.PlaneRecovery

/-! ## The host -/

/-- The host (R306 to R309, R422 to R429): the flag window and BAR 2 are read and written at once, an access that a
function may not make is Unsupported Request, and a read of a bad line aborts; FLUSH writes its completion word;
a doorbell sets the tail of a host-fed queue or is reported; a function is bound; the loading of a key leaves every line alone that is not
a written line of the partition's sites; PTM slews from the time that stands; SPDM answers each measurement block. -/
def Obligations.Host : Prop :=
  (∀ (s : State) (pkg link : Nat) (vf : Option Nat) (off size : Nat),
    (∀ w, (barZero s pkg vf off size = none ∨ 8 < size) → ∃ t,
      exec (.hostFlagWindowAccess pkg link vf off size w) s = .next t ∧ (pkgAt t pkg).hostUr = (pkgAt s pkg).hostUr + 1 ∧
      SameMemory s t ∧ SameRegs s t) ∧
    (∀ o, barZero s pkg vf off size = some o → size ≤ 8 →
      let key := memKey pkg (windowPA o)
      (∃ t, exec (.hostFlagWindowAccess pkg link vf off size none) s = .next t ∧ SameMemory s t ∧ SameRegs s t ∧
        (pkgAt t pkg).hostOut = (pkgAt s pkg).hostOut ++ [BitVec.ofNat 64 (readN s key size)]) ∧
      (∀ v, bellAt s pkg o size = none → s.Inv → ∃ t,
        exec (.hostFlagWindowAccess pkg link vf off size (some v)) s = .next t ∧
        readN t key size = v.toNat % 256 ^ size ∧ SameRegs s t ∧
        ∀ a, a < key ∨ key + size ≤ a → readByte t a = readByte s a) ∧
      (∀ v u p q, u = writePA { s with sOrder := s.sOrder + 1 } pkg (windowPA o) size v.toNat →
        bellAt u pkg o size = some (p, q) →
        exec (.hostFlagWindowAccess pkg link vf off size (some v)) s = exec (.doorbell p q (v.setWidth 32)) u)) ∧
    (barZero s pkg none off size = if off + size ≤ 0x100000 then some off else none) ∧
    (∀ v, barZero s pkg (some v) off size = if v < 64 ∧ (vfPart s pkg v).isSome = true ∧ off + size ≤ 0x4000 then
      some (v * 0x4000 + off) else none) ∧
    (∀ w, (barTwo s pkg vf off = none ∨ 8 < size) → ∃ t, exec (.hostBarAccess pkg link vf off size w) s = .next t ∧
      (pkgAt t pkg).hostUr = (pkgAt s pkg).hostUr + 1 ∧ SameMemory s t ∧ SameRegs s t) ∧
    (∀ a, barTwo s pkg vf off = some a → size ≤ 8 →
      (∀ v, s.Inv → ∃ t, exec (.hostBarAccess pkg link vf off size (some v)) s = .next t ∧
        readN t a size = v.toNat % 256 ^ size ∧ SameRegs s t ∧
        ∀ k, k < a ∨ a + size ≤ k → readByte t k = readByte s k) ∧
      (badAt s a size = none → ∃ t, exec (.hostBarAccess pkg link vf off size none) s = .next t ∧ SameMemory s t ∧
        SameRegs s t ∧ (pkgAt t pkg).hostOut = (pkgAt s pkg).hostOut ++ [BitVec.ofNat 64 (readN s a size)]) ∧
      (∀ e, badAt s a size = some e → ∃ t, exec (.hostBarAccess pkg link vf off size none) s = .next t ∧
        (pkgAt t pkg).hostAbort = (pkgAt s pkg).hostAbort + 1 ∧ (pkgAt t pkg).hostOut = (pkgAt s pkg).hostOut)) ∧
    (∀ svc (val : BitVec 64),
      ((barZero s pkg vf off 8 = none ∨ off % 8 ≠ 0 ∨ 16 ≤ svc) → ∃ t,
        exec (.flush pkg link vf svc off val) s = .next t ∧ (pkgAt t pkg).flushLog = (pkgAt s pkg).flushLog ++ [(link, off)] ∧
        SameMemory s t ∧ SameRegs s t) ∧
      (∀ o, barZero s pkg vf off 8 = some o → off % 8 = 0 → svc < 16 → s.Inv → ∃ t,
        exec (.flush pkg link vf svc off val) s = .next t ∧ readPA t pkg (windowPA o) 8 = val.toNat ∧ SameRegs s t ∧
        t.sOrder = s.sOrder + 1 ∧
        ∀ a, a < memKey pkg (windowPA o) ∨ memKey pkg (windowPA o) + 8 ≤ a → readByte t a = readByte s a))) ∧
  (∀ (s : State) (p : PartId) (q : Nat) (v : BitVec 32),
    let refused := (partOf s p).qtab = 0 ∨ qHostFed s p q = false ∨ qState s p q ∈ [0, 5, 6, 7] ∨
      2 ^ qLogn s p q < (v.toNat + 2 ^ 32 - qHead s p q) % 2 ^ 32 ∨ 2 ^ 31 ≤ (v.toNat + 2 ^ 32 - qTail s p q) % 2 ^ 32
    (refused → exec (.doorbell p q v) s = .next (veqPush s p 12 0 (BitVec.ofNat 64 q) 0 v.toNat)) ∧
    (¬ refused → exec (.doorbell p q v) s =
      .next (queueAdded (qput { s with sOrder := s.sOrder + 1 } p q 24 4 v.toNat) p q))) ∧
  (∀ (s : State) (pkg vf part : Nat),
    (vf < 64 → ∃ t, exec (.vfBind pkg vf part) s = .next t ∧ vfPart t pkg vf = some part ∧
      (∀ w, w ≠ vf → vfPart t pkg w = vfPart s pkg w) ∧ SameMemory s t ∧ SameRegs s t) ∧
    (64 ≤ vf → exec (.vfBind pkg vf part) s = .next s)) ∧
  (∀ (s : State) (p : PartId) (key : BitVec 512), ∃ t, exec (.keyLoad p key) s = .next t ∧
    (partOf t p).key = some key ∧ (∀ q, q ≠ p → partOf t q = partOf s q) ∧ SameRegs s t ∧ t.fe = s.fe ∧
    t.lost = s.lost ∧ t.bad = s.bad ∧ t.dir = s.dir ∧
    (keyOf s p.pkg p.part = some key → t.mem = s.mem) ∧
    (s.Inv → ∀ a, (2 ^ 43 ≤ a ∨ pkgOf (homeOf a) ≠ p.pkg ∨ (siteOf s (homeOf a)).tag ≠ p.part ∨
      ∀ c ∈ s.mem, c.1 / 64 ≠ a / 64) → readByte t a = readByte s a)) ∧
  (∀ (s : State) (pkg hostTime : Nat), ∃ t, exec (.ptmExchange pkg hostTime) s = .next t ∧
    timeOf t pkg = timeOf s pkg ∧ (pkgAt t pkg).slewCorr = (hostTime : Int) - (timeOf s pkg : Int) ∧
    SameMemory s t ∧ SameRegs s t) ∧
  (∀ (s : State) (pkg blk : Nat),
    (1 ≤ blk → blk ≤ 4 → ∃ t sig, exec (.spdmRequest pkg blk) s = .next t ∧
      (pkgAt t pkg).spdmOut = (pkgAt s pkg).spdmOut ++ [sig] ∧ SameMemory s t ∧ SameRegs s t) ∧
    ((blk = 0 ∨ 4 < blk) → exec (.spdmRequest pkg blk) s = .next s))

/-! ## Reset and power -/

/-- Reset, boot and power (R452 to R457): package reset takes every core, site, die and register of the package
to its reset state and no other package's; a die's reset frees its slots; the boot sequence clears the DRAM of the
package, writes the map of the cores that are fused off and reaches step 5, or the step that failed is kept; the boot command places one hypervisor context
on each die that it names; a power command writes its status, and only with 0 takes its effect. -/
def Obligations.Power : Prop :=
  (∀ (s : State) (pkg : Nat), ∃ t, exec (.packageReset pkg) s = .next t ∧
    (∀ c, pkgOf c = pkg → coreOf t c = Core.zero) ∧
    (∀ c, pkgOf c ≠ pkg → (∀ e ∈ (coreOf s c).slots, ∀ site, e.2.ctx.wait ≠ .channel site) → coreOf t c = coreOf s c) ∧
    (∀ c, siteOf t c = if pkgOf c = pkg then Site.zero else siteOf s c) ∧
    (∀ q, pkgAt t q = if q = pkg then Pkg.zero else pkgAt s q) ∧ t.mem = s.mem ∧
    (∀ e ∈ t.stores, e.part.pkg ≠ pkg) ∧ (∀ g ∈ t.groups, g.part.pkg ≠ pkg) ∧
    ∀ e ∈ t.dir, pkgOf e.2.1 ≠ pkg) ∧
  (∀ (s : State) (pkg die : Nat), ∃ t, exec (.dieReset pkg die) s = .next t ∧ ∀ core, dieKey core = pkg * 4 + die →
    (coreOf t core).rf = Core.zero.rf ∧ ∀ i, (slotOf t ⟨core, i⟩).st = .free) ∧
  (∀ (s : State) (pkg : Nat),
    (∀ n, ∃ t, exec (.bootSequence pkg (some n)) s = .next t ∧ (pkgAt t pkg).bootFail = some n ∧
      (pkgAt t pkg).boot = (pkgAt s pkg).boot) ∧
    (s.Inv → ∃ t, exec (.bootSequence pkg none) s = .next t ∧ (pkgAt t pkg).boot = 5 ∧ SameRegs s t ∧
      ∀ a, a < 2 ^ 43 → a / 2 ^ 38 = pkg → Map.get? s.dir (a / 32) = none →
        readByte t a = 0 ∧ Map.get? t.lost (a / 32) = none ∧ Map.get? t.bad (a / 64) = none) ∧
    (s.Inv → (∀ e ∈ s.dir, e.1 < 2 ^ 38) → ∃ t, exec (.bootSequence pkg none) s = .next t ∧
      ∀ d < 4, readPA t pkg (windowPA (128 * d)) 128 = fuseMap s pkg d)) ∧
  (∀ (s : State) (pkg : Nat) (kdesc : List VA) (ptroot fmap fmlen : BitVec 64),
    (((pkgAt s pkg).boot < 5 ∨ (pkgAt s pkg).viral = true) → exec (.bootCommand pkg kdesc ptroot fmap fmlen) s = .next s) ∧
    (5 ≤ (pkgAt s pkg).boot → (pkgAt s pkg).viral = false → pkg < 32 →
      ∃ t, exec (.bootCommand pkg kdesc ptroot fmap fmlen) s = .next t ∧ (pkgAt t pkg).boot = 6 ∧
      ∀ d k, d < 4 → kdesc[d]? = some k → let x : CtxId := ⟨homeCore s (coreId pkg d 0), 0⟩
        (slotOf t x).st = .ready ∧ (ctxOf t x).prv = .hyp ∧ (ctxOf t x).kern = k.toNat ∧ (ctxOf t x).part = 0 ∧
        (ctxOf t x).grp = 1 ∧ (ctxOf t x).rklo = 0 ∧ (ctxOf t x).rkhi = 0x10000 ∧ (ctxOf t x).isUnit = true)) ∧
  (∀ (s : State) (pkg die site : Nat),
    let c := coreId pkg die site
    let status := fun (i : Instr) n => ∃ t, exec i s = .next t ∧ (pkgAt t pkg).pstatus = n ∧ SameMemory s t ∧ SameRegs s t ∧
      coreOf t c = coreOf s c ∧ siteOf t c = siteOf s c ∧ dieAt t (pkg * 4 + die) = dieAt s (pkg * 4 + die)
    (∀ setting,
      ((2 < setting ∨ 3 < die) → status (.setDieClock pkg die setting) 2) ∧
      (setting ≤ 2 → die ≤ 3 → timedOnDie s pkg die = true → status (.setDieClock pkg die setting) 1) ∧
      (setting ≤ 2 → die ≤ 3 → timedOnDie s pkg die = false → ∃ t, exec (.setDieClock pkg die setting) s = .next t ∧
        (pkgAt t pkg).pstatus = 0 ∧ (dieAt t (pkg * 4 + die)).clock = setting ∧
        (dieAt t (pkg * 4 + die)).stopped = false ∧ SameMemory s t ∧ SameRegs s t ∧
        ∀ k ∈ dieCores s pkg die, s.now ≤ (coreOf t k).nextAt ∧ (coreOf t k).nextAt < s.now + ns 2000)) ∧
    ((3 < die ∨ 1023 < site) → status (.gateCore pkg die site) 2 ∧ status (.ungateCore pkg die site) 2 ∧
      status (.gateChannel pkg die site) 2 ∧ status (.ungateChannel pkg die site) 2) ∧
    (die ≤ 3 → site ≤ 1023 →
      ((∃ e ∈ (coreOf s c).slots, e.2.st ≠ .free) → status (.gateCore pkg die site) 1) ∧
      ((∀ e ∈ (coreOf s c).slots, e.2.st = .free) → ∃ t, exec (.gateCore pkg die site) s = .next t ∧
        (pkgAt t pkg).pstatus = 0 ∧ (coreOf t c).gated = true ∧ SameMemory s t ∧ SameRegs s t) ∧
      (∃ t, exec (.ungateCore pkg die site) s = .next t ∧ (pkgAt t pkg).pstatus = 0 ∧ (coreOf t c).gated = false ∧
        SameMemory s t ∧ SameRegs s t) ∧
      (((∃ b ∈ (siteOf s c).bars, b.2.st ≠ 0) ∨ ∃ g ∈ (siteOf s c).gates, g.2.opened = true) →
        status (.gateChannel pkg die site) 1) ∧
      ((∀ b ∈ (siteOf s c).bars, b.2.st = 0) → (∀ g ∈ (siteOf s c).gates, g.2.opened = false) →
        ∃ t, exec (.gateChannel pkg die site) s = .next t ∧ (pkgAt t pkg).pstatus = 0 ∧ (siteOf t c).gated = true ∧
          SameMemory s t ∧ SameRegs s t) ∧
      (∃ t, exec (.ungateChannel pkg die site) s = .next t ∧ (pkgAt t pkg).pstatus = 0 ∧ (siteOf t c).gated = false ∧
        SameMemory s t ∧ SameRegs s t))) ∧
  (∀ (s : State) (pkg die : Nat), ∃ t, exec (.thermalTrip pkg die) s = .next t ∧
    (dieAt t (pkg * 4 + die)).stopped = true ∧ (pkgAt t pkg).msix = (pkgAt s pkg).msix ++ [(0, 64)] ∧ SameRegs s t)

/-! ## Pre-emption -/

namespace Sys2Proof.Claims

/-- A slot that pre-emption takes (R96, R370): one that holds no context, is suspended or is not at a boundary stays as
it is; another leaves its park, unless its wait is already answered or for a reply, and keeps the state that it then
has; a context that is ready with a window open is set back to its restart PC, with RSM set and SKN zero. -/
def Suspends : Prop := ∀ (s : State) (x : CtxId),
  let sl := slotOf s x
  let held := sl.st = .free ∨ sl.st = .suspended ∨ preemptHeld s x = true
  let v := if sl.ctx.wait ≠ .reply ∧ sl.ctx.wait ≠ .placement ∧ sl.ctx.reply = none then leavePark s x else s
  let t := suspendCtx s x
  let back := windowOpen v x = true ∧ (slotOf v x).st = .ready
  (held → t = s) ∧
  (¬ held → (slotOf t x).st = .suspended ∧ (slotOf t x).saved = (slotOf v x).st ∧ SameMemory v t ∧ SameRegs v t ∧
    (∀ y, y ≠ x → slotOf t y = slotOf v y) ∧
    (back → (ctxOf t x).pc = (ctxOf v x).rstpc ∧ (ctxOf t x).entry = .resume ∧ skn (ctxOf t x) = 0 ∧
      bitAt (ctxOf t x).status.toNat stRSM = true) ∧
    (¬ back → ctxOf t x = ctxOf v x))

/-- The slots of a core, each suspended in turn. -/
def suspendAll (s : State) (core : Nat) : State :=
  (coreOf s core).slots.foldl (fun s e => suspendCtx s ⟨core, e.1⟩) s

/-- Pre-emption of a core (R370, R334): it stops issuing, discards its timed commands that have not started and
suspends its contexts; while it waits for its local work or for a boundary it comes back a cycle later, and then the
bound sectors of its stash go home and its counters are kept. -/
def Preempts : Prop := ∀ (s : State) (core : Nat),
  let v := catchCore s core
  let u := suspendAll
    (if (coreOf v core).suspended then v else modCore (dropTimed v core) core fun k => { k with suspended := true }) core
  (coreOf u core).suspended = true ∧
  (preempting u core = true → exec (.preemption core) s = .next (inCycles u core 1 (.preemption core))) ∧
  (preempting u core = false → exec (.preemption core) s = .next (saveCounters (saveStash u core) core))

/-- The slots of a record take up, on the core, the state that was saved. -/
def Taken (r : Core) (t : State) (core : Nat) : Prop :=
  (coreOf t core).suspended = false ∧ (coreOf t core).rf = r.rf ∧ (coreOf t core).savedInbox = [] ∧
  ∀ i, let old := Map.get r.slots i Slot.zero
    (slotOf t ⟨core, i⟩).st = if old.st = .suspended then old.saved else old.st

/-- Resumption (R372, R373): a core that is not suspended is left alone, and one whose save is not complete is tried again a
cycle later. The device that stands on the core goes on with what came for it applied at once; another comes from its
record, or begins with free slots, and the record of the one that leaves is kept. -/
def Resumes : Prop := ∀ (s : State) (core vd : Nat),
  let k := coreOf s core
  let late := preempting s core = true ∨ ∃ e ∈ s.agenda, e.2 = .preemption core
  let key := fun d => saveKey s (corePart s core) d (logicalNo s (corePart s core) core)
  (k.suspended = false → exec (.resumption core vd) s = .next s) ∧
  (k.suspended = true → late → exec (.resumption core vd) s = .next (inCycles s core 1 (.resumption core vd))) ∧
  (k.suspended = true → ¬ late →
    (k.vd = vd → ∃ t, exec (.resumption core vd) s = .next t ∧ Taken k t core ∧
      ∀ i ∈ k.savedInbox, (s.now, i) ∈ t.agenda) ∧
    (k.vd ≠ vd → ∃ t, exec (.resumption core vd) s = .next t ∧ (coreOf t core).vd = vd ∧
      Map.get? t.saves (key k.vd) = some k ∧
      (∀ r, Map.get? s.saves (key vd) = some r → Taken r t core) ∧
      (Map.get? s.saves (key vd) = none → Taken (emptyCore k) t core)))

end Sys2Proof.Claims

open Sys2Proof.Claims in
/-- Pre-emption, resumption, the slot table, the removal of a core and the reset of a partition (R370 to R373,
R416): pre-emption suspends the contexts of a core and writes its record when its work is over; resumption gives each
suspended context the state that it had, or another device its record; at a boundary of the slot table each core of
the partition changes to the entry's device; a core that is removed is pre-empted, or with no slot occupied its record is
dropped; a partition's reset cancels every context and group of it. -/
def Obligations.Preemption : Prop :=
  Suspends ∧ Preempts ∧ Resumes ∧
  (∀ (s : State) (p : PartId),
    let cfg := (partOf s p).slotcfg.toNat
    let len := bitsOf cfg 0 32
    ((bitAt cfg 63 = false ∨ len = 0) → exec (.slotTableChange p) s = .next s) ∧
    (bitAt cfg 63 = true → len ≠ 0 →
      let e := readPA s p.pkg ((partOf s p).slottab.toNat + 2 * (timeOf s p.pkg / len % 64)) 2
      (bitAt e 15 = false → exec (.slotTableChange p) s = .next (scheduleSlots s p)) ∧
      (bitAt e 15 = true → ∃ t, exec (.slotTableChange p) s = .next t ∧ SameMemory s t ∧ SameRegs s t ∧
        ∀ c ∈ s.cores, corePart s c.1 = p → c.2.vd ≠ bitsOf e 0 8 → (s.now, Instr.preemption c.1) ∈ t.agenda ∧
          (s.now, Instr.resumption c.1 (bitsOf e 0 8)) ∈ t.agenda))) ∧
  (∀ (s : State) (p : PartId) (n : Nat),
    (logicalCore s p n = none → exec (.coreRemoval p n) s = .next s) ∧
    (∀ core, logicalCore s p n = some core →
      let a := (partOf s p).l2ptab.toNat + 2 * n
      let u := writePA s p.pkg a 2 (readPA s p.pkg a 2 % 2 ^ 15)
      ((∀ e ∈ (coreOf u core).slots, e.2.st = .free) → ∃ t, exec (.coreRemoval p n) s = .next t ∧
        coreOf t core = emptyCore (coreOf u core) ∧ t.mem = u.mem ∧
        (Map.sorted s.saves = true → Map.get? t.saves (saveKey u p (coreOf u core).vd n) = none)) ∧
      ((∃ e ∈ (coreOf u core).slots, e.2.st ≠ .free) →
        exec (.coreRemoval p n) s = exec (.preemption core) u))) ∧
  (∀ (s : State) (p : PartId), ∃ t k, exec (.perPartitionReset p) s = .next t ∧ k ∈ t.cancels ∧ k.part = p ∧
    k.issuer = none ∧ (partOf t p).log = CkLog.zero ∧ (partOf t p).cklog.getLsbD 63 = false ∧
    (∀ g ∈ s.groups, g.part = p → g.gid ∈ k.groups) ∧
    (∀ f ∈ s.flights, pkgOf f.target = p.pkg → f.ctx.part = p.part → f.ctx.origin ∈ k.left) ∧
    ∀ e ∈ slotsOf s p.pkg, isLive (effSt e.2) = true → e.2.ctx.part = p.part → e.2.ctx.origin ∈ k.left)

/-! # The decoder's words, the step, the invariant, reset -/

set_option exponentiation.threshold 500 in
/-- Words that the manual writes out (R14, R27, R31 to R37 and the worked encodings of the chapters) decode to the
instruction that it says they are. A check of the model's decoder on fixed words. -/
def Obligations.DecodeWords : Prop :=
  decode 0x00000000_0FFFFFFF_FFF00001 = .ok (.nop (FR.blank 0)) ∧
  decode 0xFFFFF198_2FFDCF00_80600002 =
    .ok (.add { FR.blank 0 with d := .g 6, a := .g 2, b := .i20, t := .i32x8, sat := true, negA := true, mask := 3, imm20 := 0xFFFFF }) ∧
  decode 0x00000000_0FFFFF64_40800017 = .ok (.mov { FR.blank 0 with d := .g 8, a := .sp .xferid }) ∧
  decode 0x80000140_0FFFFFFF_C0400098 = .ok (.li { FI.blank 1 with d := .g 4, imm := 0x80000140 }) ∧
  decode 0x00000120_700C0200_40400033 =
    .ok (.fma { FR.blank 0 with d := .g 4, a := .g 1, b := .g 2, c := .g 3, t := .f32x8, negB := true, mask := 2 }) ∧
  decode 0x00000000_C00C0200_404004C7 =
    .ok (.qnt { FR.blank 9 with d := .g 4, a := .g 1, b := .g 2, c := .g 3, t := .o4 }) ∧
  decode 0x00000000_0FFFFF02_3FF00024 = .ok (.bri { FB.blank 0 with a := .g 8 }) ∧
  decode 0x00000003_2FFFFFFF_C1400025 = .ok (.call { FB.blank 0 with d := .g 20, tcell := 2, loff := 3 }) ∧
  decode 0x00000003_3FFC0A00_40900050 =
    .ok (.ld { FM.blank 0 with d := .g 9, a := .g 1, b := .g 10, sz := .b64, scl := 3 }) ∧
  decode 0x00000000_000FFF00_BFF00058 = .ok (.stmap { FM.blank 0 with a := .g 2, c := .g 3 }) ∧
  decode 0x00000820_301BFF01_402004E0 =
    .ok (.atom { FM.blank 9 with d := .g 2, a := .g 5, c := .g 6, sz := .b64, scope := .part, off := 8 }) ∧
  decode 0x00000000_00041504_80A00065 =
    .ok (.spawnat { FR.blank 0 with d := .g 10, a := .g 18, b := .g 21, c := .g 1 }) ∧
  decode 0x00000000_0FFC0601_7FF00067 = .ok (.nwr { FR.blank 0 with a := .g 5, b := .g 6 }) ∧
  decode 0x00001000_0FFDCF01_00300269 = .ok (.obl { FR.blank 4 with d := .g 3, a := .g 4, b := .i20, imm20 := 1 }) ∧
  decode 0x00001000_0FFFFF73_C040006C = .ok (.obq { FR.blank 0 with d := .g 4, a := .i20, imm20 := 1 }) ∧
  decode 0x00105000_0FFDCF62_8040006E =
    .ok (.bnew { FR.blank 0 with d := .g 4, a := .sp .nunits, b := .i20, imm20 := 0x105 }) ∧
  decode 0x00000000_0FFC0601_40200074 = .ok (.gsig { FR.blank 0 with d := .g 2, a := .g 5, b := .g 6 }) ∧
  decode 0x00000000_0FFFFF20_3FF00077 = .ok (.cpy { FE.blank 0 with a := .k 0 }) ∧
  decode 0x00000040_3FFFFF01_40100078 = .ok (.mma { FE.blank 0 with d := .g 1, a := .g 5, tida := 3, tidb := 4 }) ∧
  decode 0x00000000_5FFFFF00_FFF0007C = .ok (.tidw { FE.blank 0 with a := .g 3, tida := 5 }) ∧
  decode 0x00000000_0FFC0601_4020007D = .ok (.qsub { FR.blank 0 with d := .g 2, a := .g 5, b := .g 6 }) ∧
  decode 0x00000000_0FFC0601_4020027D = .ok (.kswap { FR.blank 4 with d := .g 2, a := .g 5, b := .g 6 }) ∧
  decode 0x00000000_001C0601_402002FD = .ok (.gred { FR.blank 5 with d := .g 2, a := .g 5, b := .g 6, c := .g 7 }) ∧
  decode 0x00000000_0FFC0601_7FF1047D = .ok (.gtblW { FR.blank 8 with a := .g 5, b := .g 6, flg := 1 }) ∧
  decode 0x00000101_0FFFFFFF_C03001FE = .ok (.sysr { FS.blank 3 with d := .g 3, imm := 0x101 }) ∧
  decode 0x00000108_0FFFFF01_3FF0027E = .ok (.sysw { FS.blank 4 with a := .g 4, imm := 0x108 }) ∧
  decode 0x00000000_0FFFFF01_7FF0047E = .ok (.tlbiPage { FS.blank 8 with a := .g 5 }) ∧
  decode 0x00000011_0FFFFFFF_C020057E = .ok (.tbeg { FS.blank 10 with d := .g 2, imm := 0x11 }) ∧
  decode 0x00000000_0FFC0601_402007FE = .ok (.gmakeCreate { FS.blank 15 with d := .g 2, a := .g 5, b := .g 6 })

namespace Sys2Proof.Claims

/-- In `s` the next thing is the turn of context `x`: no event is due, the turn is its core's, the core has no
landing to see to; where it is suspended, `x` is the slot that must still come to a boundary, and otherwise there is
no request to be offered again, no stop and no event, and the rotation comes to `x`. -/
def HasTurn (s : State) (x : CtxId) : Prop :=
  let k := coreOf s x.core
  unbooted s = none ∧ takeDue s.now s.agenda = none ∧ s.turn.head? = some x.core ∧ clockRuns s x.core = true ∧
  dueLanding x.core k = none ∧
  (k.suspended = true →
    firstWhere (fun n => slotReady s ⟨x.core, n⟩ && preemptHeld s ⟨x.core, n⟩) (slotOrder k) = some x.slot) ∧
  (k.suspended = false → (slotIds s x.core).findSome? (offerDue s) = none ∧
    firstWhere (stopDue s) (slotIds s x.core) = none ∧ firstEvent s (slotIds s x.core) = none ∧
    pickSlot s x.core = some x.slot)

/-- The line is held for the context. -/
def holding (s : State) (x : CtxId) (l : Line) : State :=
  modCtx (if (ctxOf s x).line = some l then s else fetched s x (ctxOf s x).pc) x fun c => { c with line := some l }

/-- The context may enter cell `k` of line `l` as it enters it: an event only at a target, and neither an event
nor a return at a literal cell or the second member of a pair (R26, R46). -/
def mayEnter (c : Ctx) (l : Line) (k : Nat) : Prop :=
  match c.entry with
  | .flow => True
  | .event => l.lit k = false ∧ l.second k = false ∧ l.tgt k = true
  | .resume => l.lit k = false ∧ l.second k = false

/-- `x` has its turn and stands at cell `k` of line `l`: no TIMING trap waits, and there is no literal cell, no cell to
be annulled, no kernel to switch to. A write of `sys.status` that waited for this turn has been made. -/
def AtCell (s : State) (x : CtxId) (l : Line) (k : Nat) : Prop :=
  let v := applyStatus s x
  let c := ctxOf v x
  HasTurn s x ∧ dueTiming c = none ∧ skn c = 0 ∧ (c.entry = .flow ∨ badPc c.pc = false) ∧ heldLine v x c.pc = .ok l ∧
  k = cellNo c.pc ∧ l.lit k = false ∧ mayEnter c l k ∧ graftAt (holding v x l) x l k = none

/-- The state in which the cell is checked: the line is held, and `cur` names the cell. -/
def entered (s : State) (x : CtxId) (l : Line) (k : Nat) : State :=
  let t := holding (applyStatus s x) x l
  { t with cur := curFor x l k (issueWidth l k) }

/-- The fetch of a line (R22, R23, R44, R165, R252, R262, R272): translation, the rights of the page, data that is lost
or bad, the parity, the structure, in that order; the bytes are those that stand there, or those of one moment since
the context's last FENCE.CODE. -/
def LineFetch : Prop := ∀ (s : State) (x : CtxId) (pc : VA),
  let c := ctxOf s x
  (tlbLook s x.core c.part pc = none →
    (∀ fm, walkHeld s (partId s x) pc = .fault fm → fetchLine s x pc = .fault .translation fm) ∧
    ((∀ fm, walkHeld s (partId s x) pc ≠ .fault fm) → fetchLine s x pc = .miss)) ∧
  (∀ t, tlbLook s x.core c.part pc = some t →
    let e : Pte := t.pte
    let pa := t.frame * 65536 + (lineAddr pc).toNat % 65536
    let key := memKey (pkgOf x.core) pa
    let l := lineOf (lineAddr pc) (lineBytes s x key)
    let allowed := (∃ d, spaceOf s (pkgOf x.core) pa = .dram d) ∧ e.ex = true ∧ (c.prv = .user → e.usr = true) ∧ e.cps = false
    let there := (e.disc = true ∨ lostAt s pa 64 = false) ∧ lineGated s x pc t.frame = false
    (¬ allowed → fetchLine s x pc = .fault .protection false) ∧
    (allowed → lineGated s x pc t.frame = true → fetchLine s x pc = .miss) ∧
    (allowed → lineGated s x pc t.frame = false → e.disc = false → lostAt s pa 64 = true → fetchLine s x pc = .fault .pageLost false) ∧
    (allowed → there → ∀ b, badAt s pa 64 = some b → fetchLine s x pc = .bad b pa) ∧
    (allowed → there → badAt s pa 64 = none →
      (l.parityGood = false → fetchLine s x pc = .fault .instrParity false) ∧
      (l.parityGood = true → l.legal = false → fetchLine s x pc = .fault .illegalLine false) ∧
      (l.parityGood = true → l.legal = true → fetchLine s x pc = .ok l)) ∧
    (olderLines s x key = [] → Map.get? s.lost (key / 32) = none → Map.get? s.lost (key / 32 + 1) = none →
      lineBytes s x key = readN s key 64) ∧
    (Map.get? s.lost (key / 32) = none → Map.get? s.lost (key / 32 + 1) = none →
      lineBytes s x key = readN s key 64 ∨ ∃ w ∈ olderLines s x key, lineBytes s x key = w.toNat))

/-- Entering a line (R20, R22, R26, R44, R46, R39, R165, R202, R332): a TIMING trap that waits is taken first; a context
whose line cannot be entered traps or waits; a literal cell is passed over, an annulled cell issues nothing, and a
grafting kernel's restart point switches. -/
def Entries : Prop := LineFetch ∧ ∀ (s : State) (x : CtxId), HasTurn s x →
  let v := applyStatus s x
  let c := ctxOf v x
  let k := cellNo c.pc
  let f := fetched v x c.pc
  (∀ e, dueTiming c = some e → step s = follow (.next (takeTiming x e v))) ∧
  (dueTiming c = none →
    (c.entry = .event → badPc c.pc = true →
      step s = follow (.next (takeTrap v x .badPc (c.pc.setWidth 64) c.source false false))) ∧
    (c.entry = .resume → badPc c.pc = true →
      step s = follow (.next (takeTrap v x .badPc (c.source.setWidth 64) c.pc false false))) ∧
    (c.entry = .flow ∨ badPc c.pc = false →
      (heldLine v x c.pc = .miss → step s = follow (.next (parkWalkOf v x c.pc))) ∧
      (∀ m, heldLine v x c.pc = .fault .instrParity m → step s = follow (exec (.lineRefetch x) f)) ∧
      (∀ q m, q ≠ .instrParity → heldLine v x c.pc = .fault q m →
        step s = follow (.next (takeTrap f x q (lineInfo q m c.source c.pc) c.pc false false))) ∧
      (∀ e pa, heldLine v x c.pc = .bad e pa → step s = follow (.next (parkBadLine f x e pa))) ∧
      (∀ l, heldLine v x c.pc = .ok l →
        let h := holding v x l
        (¬ mayEnter c l k → step s = follow (.next (takeTrap h x .badTarget (c.source.setWidth 64) c.pc false false))) ∧
        (mayEnter c l k →
          (l.lit k = true → step s = follow (.next (modCtx h x fun c => { c with pc := nextPc l k }))) ∧
          (l.lit k = false → skn c ≠ 0 → step s = follow (.next (annul x l k h))) ∧
          (l.lit k = false → skn c = 0 → ∀ i, graftAt h x l k = some i →
            step s = follow (.next (modCtx (switchKernel h x i) x fun c => { c with entry := .flow })))))))

/-- What follows from an outcome in the same step: a stop stays; the CMD stores that are due are acted on in their
order (R209), then waits for accesses that are over end and a log that is full is closed (R264, R266, R409). -/
def Follows : Prop :=
  (∀ s, step s = follow (nextAct s)) ∧
  (∀ r : Out, (∀ t, r ≠ .next t) → follow r = r) ∧
  (∀ t, (∀ e ∈ t.agenda, e.1 ≤ t.now → isCommand e.2 = false) → follow (.next t) = .next (closeFull (settleAccesses t))) ∧
  (∀ t e, (t.agenda.filter fun e => isCommand e.2 && decide (e.1 ≤ t.now)) = [e] → ∀ u,
    exec e.2 { t with agenda := t.agenda.erase e } = .next u → follow (.next t) = .next (closeFull (settleAccesses u)))

end Sys2Proof.Claims

open Sys2Proof.Claims in
/-- A step enters the line at the PC, then runs the instruction that is decoded from the cell there (R25, R45,
R90). It decodes and checks the cell: an undefined opcode, a bad encoding and a missing privilege trap in that
order. An instruction that issues alone is performed by `exec`: one that parks or waits leaves its cycle to another
slot, and any other is performed, or traps, on the state that records the issue (next-issue cycle, restart PC,
pointer), after which the cycle ends. Of a pair the second member is decoded and checked after the first, and both
are performed by `runPair`. What follows within the same step is `follow`. -/
def Obligations.StepRuns : Prop := Follows ∧ Entries ∧
  ∀ (s : State) (x : CtxId) (l : Line) (k : Nat), AtCell s x l k →
  let s' := entered s x l k
  let w := commit l k 0 s'
  let ends : Out → Out := fun r => follow (endIssue x.core r)
  (decode (l.cell k) = .error .opcode → step s = ends (exec (.illegalOpcodeCell (l.cell k)) w)) ∧
  (decode (l.cell k) = .error .encoding → step s = ends (.next (faultHere .illegalEncoding w))) ∧
  (∀ i, decode (l.cell k) = .ok i →
    (∀ c, memberFault i s' = some c → step s = ends (.next (faultHere c w))) ∧
    (memberFault i s' = none →
      (l.pair k = false →
        (∀ t, prepare l k i s' = .error t → step s = follow (.next t)) ∧
        (∀ u, prepare l k i s' = .ok u →
          (∀ t, exec i u = .next t → unissued t = true → step s = follow (.next t)) ∧
          (∀ t, exec i u = .next t → unissued t = false → step s = ends (exec i (commit l k (stallOf i) u))))) ∧
      (l.pair k = true →
        let s2 := atSecond s'
        let w2 := commit l k 0 s2
        (decode (l.cell (k + 1)) = .error .opcode → step s = ends (exec (.illegalOpcodeCell (l.cell (k + 1))) w2)) ∧
        (decode (l.cell (k + 1)) = .error .encoding → step s = ends (.next (faultHere .illegalEncoding w2))) ∧
        (∀ j, decode (l.cell (k + 1)) = .ok j →
          (∀ c, memberFault j s2 = some c → step s = ends (.next (faultHere c w2))) ∧
          (memberFault j s2 = none → step s = follow (runPair l k i j s'))))))

/-- Every step keeps the canonical form: memory lists rising addresses and no zero byte, and the map of the
sectors that are dirty in a stash has rising keys. The form is the model's own. -/
def Obligations.InvKept : Prop := ∀ s t : State, s.Inv → step s = .next t → t.Inv

/-- What package reset leaves (R452, R441): every slot free with GEN 0, the pointer at slot 0, no stash, every
line, TLB entry, mapping and TID entry invalid, accumulators zero and FP32 without poison; at each site tag 0, no
barrier, gate, L2, LLC or directory entry; error banks clear; links down, no copse and no members; dies at 1.8 GHz
(setting 2), everything ungated; `sys.lfsr` 1, `sys.abfttol` 0x10, the fill masks all ones and the other registers
of the list zero. The canonical form holds. -/
def Obligations.ResetState : Prop :=
  (∀ x : CtxId, (slotOf State.reset x).st = .free ∧ (slotOf State.reset x).gen = 0) ∧
  (∀ c : Nat,
    let k := coreOf State.reset c
    k.ptr = 0 ∧ k.stashWays = 0 ∧ k.l1 = [] ∧ k.tlb = [] ∧ k.maps = [] ∧ k.tids = [] ∧ k.gated = false ∧
    k.schk = false ∧ k.lfsr = 1 ∧ k.abfttol = 0x10 ∧ k.abftinj = 0 ∧
    ∀ n i,
      let a := Map.get k.accs n Acc.zero
      a.ty = .fp32 ∧ a.poison = none ∧ Map.get a.e i 0 = 0 ∧ Map.get a.k i 0 = 0 ∧ Map.get a.l i 0 = 0) ∧
  (∀ c : Nat,
    let k := siteOf State.reset c
    k.tag = 0 ∧ k.bars = [] ∧ k.gates = [] ∧ k.l2 = [] ∧ k.llc = [] ∧ k.gated = false) ∧
  State.reset.dir = [] ∧
  (∀ d : Nat, (dieAt State.reset d).clock = 2 ∧ (dieAt State.reset d).stopped = false) ∧
  (∀ p : PartId,
    let r := partOf State.reset p
    r.ptroot = 0 ∧ r.cowpool = 0 ∧ r.qtab = 0 ∧ r.ctab = 0 ∧ r.rlog = 0 ∧ r.fmap = 0 ∧ r.fmlen = 0 ∧
    ∀ die, maskOf State.reset p die = 0xFFFFFF) ∧
  (∀ p : Nat,
    let k := pkgAt State.reset p
    k.members = 0 ∧ k.member = false ∧ k.wmsel = 0 ∧ k.ebanks = [] ∧ k.gates = [] ∧ k.copseBars = [] ∧
    k.plog = [] ∧ k.links = []) ∧
  (∀ id : LinkId, (linkOf State.reset id).st = .down) ∧
  State.reset.Inv

/-! ## Statements made of several parts -/

/-- The lanes of an integer result, and the results of the operations as operations on words (R117 to R119). -/
def Obligations.LaneResults : Prop := Claims.IntegerLanes ∧ Claims.LaneArithmetic ∧ Claims.FieldOperations

/-- The float operations where no raised flag is enabled, and the trap where one is (R55, R57, R134, R135). -/
def Obligations.FloatResults : Prop := Claims.FloatOperations ∧ Claims.FloatTraps

/-- Lane moves, mask operations and reductions (R141 to R143). -/
def Obligations.LaneMoves : Prop := Claims.LaneInstructions ∧ Claims.Reductions

/-- The conversions by lanes and by blocks (R145 to R151). -/
def Obligations.NumberConversions : Prop := Claims.Conversions ∧ Claims.Blocks

/-- The six branches, and the faults of their targets (R20, R26, R46, R126 to R128). -/
def Obligations.ControlTransfers : Prop := Claims.Branches ∧ Claims.BranchFaults

/-- Entry into a handler, and nesting (R352, R355, R356). -/
def Obligations.TrapEntries : Prop := Claims.HandlerEntry ∧ Claims.Nesting

/-- LD and ST of copse words and of the flag window (R240, R301, R303, R306). -/
def Obligations.WordsElsewhere : Prop := Claims.LoadsElsewhere ∧ Claims.StoresElsewhere

/-- PFR, WBK, INV and the fences (R177, R185 to R188). -/
def Obligations.CachesAndFences : Prop := Claims.CacheControl ∧ Claims.Fences

/-- ATOM and RED, and the operations they perform (R189 to R192). -/
def Obligations.AtomicAccess : Prop := Claims.AtomOperations ∧ Claims.Atomics

/-- The rank check of a wait, `sys.obmin`, and the obligation table (R63, R64, R68). -/
def Obligations.Ranks : Prop := Claims.WaitLegality ∧ Claims.ObligationTable

/-- MIGR and HOME, and the messages in which contexts travel (R100 to R104, R109, R191, R371). -/
def Obligations.Migrations : Prop := Claims.Migration ∧ Claims.Messages ∧ Claims.Arrivals

/-- NWR, ARM, YIELD and the arrival of deposits (R97, R98, R107, R114, R115, R276). -/
def Obligations.NeighbourWrites : Prop := Claims.Neighbours ∧ Claims.Deposits

/-- EXIT and its completion, offers and heirs (R74, R75, R87, R106). -/
def Obligations.Exits : Prop := Claims.Exit ∧ Claims.Offers

/-- The phases of a barrier and its instructions (R236, R237, R242 to R246). -/
def Obligations.Barriers : Prop := Claims.BarrierPhase ∧ Claims.BarrierNew ∧ Claims.BarrierInstructions

/-- Replies, withdrawals, throttles, dropped messages and cancellation (R22, R46, R77, R86, R94, R181, R334, R335, R376, R379). -/
def Obligations.ContextEvents : Prop := Claims.CoreEvents ∧ Claims.Replies ∧ Claims.Cancellation

/-- UIMASK, WAITI, BKPT, TRMK, debug stops, partition tags and trace samples (R366, R368, R375, R430 to R432, R437, R438). -/
def Obligations.ControlInstructions : Prop := Claims.ControlIssue ∧ Claims.ControlEvents

/-- Walks, copies on write, TLBI, PGSNAP and PGRET (R251, R252, R254 to R256, R259, R264 to R267). -/
def Obligations.Pages : Prop := Claims.Translations ∧ Claims.Snapshots ∧ Claims.Moves

/-- Intervals and transactions, and what errors leave (R163, R165, R171, R406 to R415, R418). -/
def Obligations.Transactions : Prop := Claims.TransactionIssue ∧ Claims.ReliabilityEvents
end

