-- ==== Sys2Proof/Laws/Map.lean ====
section
/-! SUPPORT. Reading a map after an update, the canonical order of keys, and memory as a canonical map. -/

namespace Sys2Proof

theorem Map.get?_put {V : Type} (m : Map V) (a b : Nat) (v : V) :
    Map.get? (Map.put m a v) b = if b = a then some v else Map.get? m b := by
  induction m with
  | nil => simp [Map.put, Map.get?, eq_comm]
  | cons e t ih =>
    obtain ⟨k, w⟩ := e
    simp only [Map.put]
    split
    · simp only [Map.get?, eq_comm]
    · split <;> simp only [Map.get?, ih]
      · subst_vars; split <;> simp_all [eq_comm]
      · split <;> split <;> simp_all

@[simp] theorem Map.get?_put_self {V : Type} (m : Map V) (a : Nat) (v : V) :
    Map.get? (Map.put m a v) a = some v := by simp [Map.get?_put]

theorem Map.get_put {V : Type} (m : Map V) (a b : Nat) (v d : V) :
    Map.get (Map.put m a v) b d = if b = a then v else Map.get m b d := by
  simp only [Map.get, Map.get?_put]; split <;> rfl

@[simp] theorem Map.get_put_self {V : Type} (m : Map V) (a : Nat) (v d : V) :
    Map.get (Map.put m a v) a d = v := by simp [Map.get_put]

theorem Map.get?_del_ne {V : Type} (m : Map V) (a b : Nat) (h : b ≠ a) :
    Map.get? (Map.del m a) b = Map.get? m b := by
  induction m with
  | nil => rfl
  | cons e t ih =>
    obtain ⟨k, w⟩ := e
    simp only [Map.del]
    split <;> simp only [Map.get?, ih]
    subst_vars; simp [Ne.symm h]

theorem Map.get?_of_rising {V : Type} (m : Map V) (lo a : Nat) (h : Map.risingFrom m lo = true) (ha : a ≤ lo) :
    Map.get? m a = none := by
  induction m generalizing lo with
  | nil => rfl
  | cons e t ih =>
    obtain ⟨k, w⟩ := e
    simp only [Map.risingFrom, Bool.and_eq_true, decide_eq_true_eq] at h
    simp only [Map.get?]
    rw [if_neg (by omega)]
    exact ih k h.2 (by omega)

theorem Map.risingFrom_mono {V : Type} (m : Map V) (lo lo' : Nat) (h : Map.risingFrom m lo = true) (hl : lo' ≤ lo) :
    Map.risingFrom m lo' = true := by
  cases m with
  | nil => rfl
  | cons e t =>
    obtain ⟨k, w⟩ := e
    simp only [Map.risingFrom, Bool.and_eq_true, decide_eq_true_eq] at h ⊢
    exact ⟨by omega, h.2⟩

theorem Map.sorted_of_rising {V : Type} (m : Map V) (lo : Nat) (h : Map.risingFrom m lo = true) :
    Map.sorted m = true := by
  cases m with
  | nil => rfl
  | cons e t =>
    obtain ⟨k, w⟩ := e
    simp only [Map.risingFrom, Bool.and_eq_true] at h
    exact h.2

theorem Map.rising_del {V : Type} (m : Map V) (lo a : Nat) (h : Map.risingFrom m lo = true) :
    Map.risingFrom (Map.del m a) lo = true := by
  induction m generalizing lo with
  | nil => rfl
  | cons e t ih =>
    obtain ⟨k, w⟩ := e
    simp only [Map.risingFrom, Bool.and_eq_true, decide_eq_true_eq] at h
    simp only [Map.del]
    split
    · exact Map.risingFrom_mono t k lo h.2 (by omega)
    · simp only [Map.risingFrom, Bool.and_eq_true, decide_eq_true_eq]
      exact ⟨h.1, ih k h.2⟩

theorem Map.rising_put {V : Type} (m : Map V) (lo a : Nat) (v : V) (h : Map.risingFrom m lo = true) (ha : lo < a) :
    Map.risingFrom (Map.put m a v) lo = true := by
  induction m generalizing lo with
  | nil => simp [Map.put, Map.risingFrom, ha]
  | cons e t ih =>
    obtain ⟨k, w⟩ := e
    simp only [Map.risingFrom, Bool.and_eq_true, decide_eq_true_eq] at h
    simp only [Map.put]
    split
    · simp [Map.risingFrom, *]
    · split
      · subst_vars; simp [Map.risingFrom, *]
      · simp only [Map.risingFrom, Bool.and_eq_true, decide_eq_true_eq]
        exact ⟨h.1, ih k h.2 (by omega)⟩

theorem Map.sorted_put {V : Type} (m : Map V) (a : Nat) (v : V) (h : Map.sorted m = true) :
    Map.sorted (Map.put m a v) = true := by
  cases m with
  | nil => rfl
  | cons e t =>
    obtain ⟨k, w⟩ := e
    simp only [Map.sorted] at h
    simp only [Map.put]
    split
    · simp [Map.sorted, Map.risingFrom, *]
    · split
      · subst_vars; exact h
      · exact Map.rising_put t k a v h (by omega)

theorem Map.sorted_del {V : Type} (m : Map V) (a : Nat) (h : Map.sorted m = true) :
    Map.sorted (Map.del m a) = true := by
  cases m with
  | nil => rfl
  | cons e t =>
    obtain ⟨k, w⟩ := e
    simp only [Map.sorted] at h
    simp only [Map.del]
    split
    · exact Map.sorted_of_rising t k h
    · exact Map.rising_del t k a h

theorem Map.rising_filter {V : Type} (m : Map V) (lo : Nat) (p : Nat × V → Bool) (h : Map.risingFrom m lo = true) :
    Map.risingFrom (m.filter p) lo = true := by
  induction m generalizing lo with
  | nil => rfl
  | cons e t ih =>
    obtain ⟨k, w⟩ := e
    simp only [Map.risingFrom, Bool.and_eq_true, decide_eq_true_eq] at h
    rw [List.filter_cons]
    split
    · simp only [Map.risingFrom, Bool.and_eq_true, decide_eq_true_eq]
      exact ⟨h.1, ih k h.2⟩
    · exact Map.risingFrom_mono _ k lo (ih k h.2) (by omega)

theorem Map.sorted_filter {V : Type} (m : Map V) (p : Nat × V → Bool) (h : Map.sorted m = true) :
    Map.sorted (m.filter p) = true := by
  cases m with
  | nil => rfl
  | cons e t =>
    obtain ⟨k, w⟩ := e
    simp only [Map.sorted] at h
    rw [List.filter_cons]
    split
    · exact Map.rising_filter t k p h
    · exact Map.sorted_of_rising _ k (Map.rising_filter t k p h)

theorem Map.get?_del_self {V : Type} (m : Map V) (a : Nat) (h : Map.sorted m = true) :
    Map.get? (Map.del m a) a = none := by
  induction m with
  | nil => rfl
  | cons e t ih =>
    obtain ⟨k, w⟩ := e
    simp only [Map.sorted] at h
    simp only [Map.del]
    split
    · subst_vars; exact Map.get?_of_rising t _ _ h (Nat.le_refl _)
    · simp only [Map.get?]
      rw [if_neg (by assumption)]
      exact ih (Map.sorted_of_rising t k h)

theorem Map.get?_del {V : Type} (m : Map V) (a b : Nat) (h : Map.sorted m = true) :
    Map.get? (Map.del m a) b = if b = a then none else Map.get? m b := by
  split
  · subst_vars; exact Map.get?_del_self m _ h
  · exact Map.get?_del_ne m a b (by assumption)

theorem Map.mem_put {V : Type} (m : Map V) (a : Nat) (v : V) (e : Nat × V) (h : e ∈ Map.put m a v) :
    e = (a, v) ∨ e ∈ m := by
  induction m with
  | nil => simpa [Map.put] using h
  | cons f t ih =>
    obtain ⟨k, w⟩ := f
    simp only [Map.put] at h
    split at h
    · simpa using h
    · split at h
      · simp only [List.mem_cons] at h ⊢
        exact h.imp id .inr
      · simp only [List.mem_cons] at h ⊢
        rcases h with h | h
        · exact .inr (.inl h)
        · exact (ih h).imp id .inr

theorem Map.mem_del {V : Type} (m : Map V) (a : Nat) (e : Nat × V) (h : e ∈ Map.del m a) : e ∈ m := by
  induction m with
  | nil => simp [Map.del] at h
  | cons f t ih =>
    obtain ⟨k, w⟩ := f
    simp only [Map.del] at h
    split at h
    · exact List.mem_cons_of_mem _ h
    · simp only [List.mem_cons] at h ⊢
      exact h.imp id ih

namespace Machine

theorem Memory.wf_iff (m : List Host.Cell) :
    Memory.wf m = true ↔ Map.sorted m = true ∧ ∀ e ∈ m, e.2 ≠ 0 := by
  simp [Memory.wf]

theorem memPut_wf (m : List Host.Cell) (a : Nat) (b : Byte) (h : Memory.wf m = true) :
    Memory.wf (memPut m a b) = true := by
  rw [Memory.wf_iff] at h ⊢
  unfold memPut
  split
  · exact ⟨Map.sorted_del m a h.1, fun e he => h.2 e (Map.mem_del m a e he)⟩
  · refine ⟨Map.sorted_put m a b h.1, fun e he => ?_⟩
    rcases Map.mem_put m a b e he with rfl | he
    · assumption
    · exact h.2 e he

theorem memGet_memPut (m : List Host.Cell) (a c : Nat) (b : Byte) (h : Memory.wf m = true) :
    memGet (memPut m a b) c = if c = a then b else memGet m c := by
  rw [Memory.wf_iff] at h
  unfold memGet memPut Map.get
  split
  · rw [Map.get?_del m a c h.1]; split <;> simp_all
  · rw [Map.get?_put]; split <;> rfl

theorem memWrite_wf (m : List Host.Cell) (a n v : Nat) (h : Memory.wf m = true) :
    Memory.wf (memWrite m a n v) = true := by
  induction n generalizing m a v with
  | zero => exact h
  | succ n ih => exact ih _ _ _ (memPut_wf m a _ h)

/-- Writing `n` bytes from `a`: each byte in range is its byte of the value, every other stands. -/
theorem memGet_memWrite (m : List Host.Cell) (a n v c : Nat) (h : Memory.wf m = true) :
    memGet (memWrite m a n v) c =
      if a ≤ c ∧ c < a + n then BitVec.ofNat 8 (v / 256 ^ (c - a)) else memGet m c := by
  induction n generalizing m a v with
  | zero => rw [if_neg (by omega)]; rfl
  | succ n ih =>
    simp only [memWrite]
    rw [ih _ _ _ (memPut_wf m a _ h), memGet_memPut m a c _ h]
    by_cases hc : c = a
    · subst hc
      rw [if_neg (by omega), if_pos rfl, if_pos (by omega), Nat.sub_self, Nat.pow_zero, Nat.div_one]
    · by_cases hr : a + 1 ≤ c ∧ c < a + 1 + n
      · rw [if_pos hr, if_pos (by omega), Nat.div_div_eq_div_mul, ← Nat.pow_succ']
        congr 3; omega
      · rw [if_neg hr, if_neg hc, if_neg (by omega)]

theorem memFilter_wf (m : List Host.Cell) (p : Host.Cell → Bool) (h : Memory.wf m = true) :
    Memory.wf (m.filter p) = true := by
  rw [Memory.wf_iff] at h ⊢
  exact ⟨Map.sorted_filter m p h.1, fun e he => h.2 e ((List.mem_filter.mp he).1)⟩

end Machine

end Sys2Proof
end

