-- ==== Sys2Proof/Laws/State.lean ====
section
/-! SUPPORT. What each update of the state leaves alone: one lemma per field per update, so that no proof
unfolds a record update. -/

namespace Sys2Proof.Machine

open Sys2Proof

@[simp] theorem setCore_now (s : State) (c : Nat) (k : Core) : (setCore s c k).now = s.now := rfl
@[simp] theorem setCore_agenda (s : State) (c : Nat) (k : Core) : (setCore s c k).agenda = s.agenda := rfl
@[simp] theorem setCore_turn (s : State) (c : Nat) (k : Core) : (setCore s c k).turn = s.turn := rfl
@[simp] theorem setCore_cur (s : State) (c : Nat) (k : Core) : (setCore s c k).cur = s.cur := rfl
@[simp] theorem setCore_latencies (s : State) (c : Nat) (k : Core) : (setCore s c k).latencies = s.latencies := rfl
@[simp] theorem setCore_free (s : State) (c : Nat) (k : Core) : (setCore s c k).free = s.free := rfl
@[simp] theorem setCore_fused (s : State) (c : Nat) (k : Core) : (setCore s c k).fused = s.fused := rfl
@[simp] theorem setCore_mem (s : State) (c : Nat) (k : Core) : (setCore s c k).mem = s.mem := rfl
@[simp] theorem setCore_fe (s : State) (c : Nat) (k : Core) : (setCore s c k).fe = s.fe := rfl
@[simp] theorem setCore_lost (s : State) (c : Nat) (k : Core) : (setCore s c k).lost = s.lost := rfl
@[simp] theorem setCore_bad (s : State) (c : Nat) (k : Core) : (setCore s c k).bad = s.bad := rfl
@[simp] theorem setCore_dir (s : State) (c : Nat) (k : Core) : (setCore s c k).dir = s.dir := rfl
@[simp] theorem setCore_lineOld (s : State) (c : Nat) (k : Core) : (setCore s c k).lineOld = s.lineOld := rfl
@[simp] theorem setCore_moves (s : State) (c : Nat) (k : Core) : (setCore s c k).moves = s.moves := rfl
@[simp] theorem setCore_recs (s : State) (c : Nat) (k : Core) : (setCore s c k).recs = s.recs := rfl
@[simp] theorem setCore_sOrder (s : State) (c : Nat) (k : Core) : (setCore s c k).sOrder = s.sOrder := rfl
@[simp] theorem setCore_stores (s : State) (c : Nat) (k : Core) : (setCore s c k).stores = s.stores := rfl
@[simp] theorem setCore_seeds (s : State) (c : Nat) (k : Core) : (setCore s c k).seeds = s.seeds := rfl
@[simp] theorem setCore_prefetches (s : State) (c : Nat) (k : Core) : (setCore s c k).prefetches = s.prefetches := rfl
@[simp] theorem setCore_deposits (s : State) (c : Nat) (k : Core) : (setCore s c k).deposits = s.deposits := rfl
@[simp] theorem setCore_flights (s : State) (c : Nat) (k : Core) : (setCore s c k).flights = s.flights := rfl
@[simp] theorem setCore_xfers (s : State) (c : Nat) (k : Core) : (setCore s c k).xfers = s.xfers := rfl
@[simp] theorem setCore_merges (s : State) (c : Nat) (k : Core) : (setCore s c k).merges = s.merges := rfl
@[simp] theorem setCore_cancels (s : State) (c : Nat) (k : Core) : (setCore s c k).cancels = s.cancels := rfl
@[simp] theorem setCore_chunks (s : State) (c : Nat) (k : Core) : (setCore s c k).chunks = s.chunks := rfl
@[simp] theorem setCore_chunkMsgs (s : State) (c : Nat) (k : Core) : (setCore s c k).chunkMsgs = s.chunkMsgs := rfl
@[simp] theorem setCore_groups (s : State) (c : Nat) (k : Core) : (setCore s c k).groups = s.groups := rfl
@[simp] theorem setCore_launches (s : State) (c : Nat) (k : Core) : (setCore s c k).launches = s.launches := rfl
@[simp] theorem setCore_queues (s : State) (c : Nat) (k : Core) : (setCore s c k).queues = s.queues := rfl
@[simp] theorem setCore_sites (s : State) (c : Nat) (k : Core) : (setCore s c k).sites = s.sites := rfl
@[simp] theorem setCore_dies (s : State) (c : Nat) (k : Core) : (setCore s c k).dies = s.dies := rfl
@[simp] theorem setCore_parts (s : State) (c : Nat) (k : Core) : (setCore s c k).parts = s.parts := rfl
@[simp] theorem setCore_pkgs (s : State) (c : Nat) (k : Core) : (setCore s c k).pkgs = s.pkgs := rfl
@[simp] theorem setCore_saves (s : State) (c : Nat) (k : Core) : (setCore s c k).saves = s.saves := rfl
@[simp] theorem setCore_ids (s : State) (c : Nat) (k : Core) : (setCore s c k).ids = s.ids := rfl

@[simp] theorem modCore_now (s : State) (c : Nat) (f : Core → Core) : (modCore s c f).now = s.now := rfl
@[simp] theorem modCore_agenda (s : State) (c : Nat) (f : Core → Core) : (modCore s c f).agenda = s.agenda := rfl
@[simp] theorem modCore_turn (s : State) (c : Nat) (f : Core → Core) : (modCore s c f).turn = s.turn := rfl
@[simp] theorem modCore_cur (s : State) (c : Nat) (f : Core → Core) : (modCore s c f).cur = s.cur := rfl
@[simp] theorem modCore_latencies (s : State) (c : Nat) (f : Core → Core) : (modCore s c f).latencies = s.latencies := rfl
@[simp] theorem modCore_free (s : State) (c : Nat) (f : Core → Core) : (modCore s c f).free = s.free := rfl
@[simp] theorem modCore_fused (s : State) (c : Nat) (f : Core → Core) : (modCore s c f).fused = s.fused := rfl
@[simp] theorem modCore_mem (s : State) (c : Nat) (f : Core → Core) : (modCore s c f).mem = s.mem := rfl
@[simp] theorem modCore_fe (s : State) (c : Nat) (f : Core → Core) : (modCore s c f).fe = s.fe := rfl
@[simp] theorem modCore_lost (s : State) (c : Nat) (f : Core → Core) : (modCore s c f).lost = s.lost := rfl
@[simp] theorem modCore_bad (s : State) (c : Nat) (f : Core → Core) : (modCore s c f).bad = s.bad := rfl
@[simp] theorem modCore_dir (s : State) (c : Nat) (f : Core → Core) : (modCore s c f).dir = s.dir := rfl
@[simp] theorem modCore_lineOld (s : State) (c : Nat) (f : Core → Core) : (modCore s c f).lineOld = s.lineOld := rfl
@[simp] theorem modCore_moves (s : State) (c : Nat) (f : Core → Core) : (modCore s c f).moves = s.moves := rfl
@[simp] theorem modCore_recs (s : State) (c : Nat) (f : Core → Core) : (modCore s c f).recs = s.recs := rfl
@[simp] theorem modCore_sOrder (s : State) (c : Nat) (f : Core → Core) : (modCore s c f).sOrder = s.sOrder := rfl
@[simp] theorem modCore_stores (s : State) (c : Nat) (f : Core → Core) : (modCore s c f).stores = s.stores := rfl
@[simp] theorem modCore_seeds (s : State) (c : Nat) (f : Core → Core) : (modCore s c f).seeds = s.seeds := rfl
@[simp] theorem modCore_prefetches (s : State) (c : Nat) (f : Core → Core) : (modCore s c f).prefetches = s.prefetches := rfl
@[simp] theorem modCore_deposits (s : State) (c : Nat) (f : Core → Core) : (modCore s c f).deposits = s.deposits := rfl
@[simp] theorem modCore_flights (s : State) (c : Nat) (f : Core → Core) : (modCore s c f).flights = s.flights := rfl
@[simp] theorem modCore_xfers (s : State) (c : Nat) (f : Core → Core) : (modCore s c f).xfers = s.xfers := rfl
@[simp] theorem modCore_merges (s : State) (c : Nat) (f : Core → Core) : (modCore s c f).merges = s.merges := rfl
@[simp] theorem modCore_cancels (s : State) (c : Nat) (f : Core → Core) : (modCore s c f).cancels = s.cancels := rfl
@[simp] theorem modCore_chunks (s : State) (c : Nat) (f : Core → Core) : (modCore s c f).chunks = s.chunks := rfl
@[simp] theorem modCore_chunkMsgs (s : State) (c : Nat) (f : Core → Core) : (modCore s c f).chunkMsgs = s.chunkMsgs := rfl
@[simp] theorem modCore_groups (s : State) (c : Nat) (f : Core → Core) : (modCore s c f).groups = s.groups := rfl
@[simp] theorem modCore_launches (s : State) (c : Nat) (f : Core → Core) : (modCore s c f).launches = s.launches := rfl
@[simp] theorem modCore_queues (s : State) (c : Nat) (f : Core → Core) : (modCore s c f).queues = s.queues := rfl
@[simp] theorem modCore_sites (s : State) (c : Nat) (f : Core → Core) : (modCore s c f).sites = s.sites := rfl
@[simp] theorem modCore_dies (s : State) (c : Nat) (f : Core → Core) : (modCore s c f).dies = s.dies := rfl
@[simp] theorem modCore_parts (s : State) (c : Nat) (f : Core → Core) : (modCore s c f).parts = s.parts := rfl
@[simp] theorem modCore_pkgs (s : State) (c : Nat) (f : Core → Core) : (modCore s c f).pkgs = s.pkgs := rfl
@[simp] theorem modCore_saves (s : State) (c : Nat) (f : Core → Core) : (modCore s c f).saves = s.saves := rfl
@[simp] theorem modCore_ids (s : State) (c : Nat) (f : Core → Core) : (modCore s c f).ids = s.ids := rfl

@[simp] theorem setSlot_now (s : State) (x : CtxId) (k : Slot) : (setSlot s x k).now = s.now := rfl
@[simp] theorem setSlot_agenda (s : State) (x : CtxId) (k : Slot) : (setSlot s x k).agenda = s.agenda := rfl
@[simp] theorem setSlot_turn (s : State) (x : CtxId) (k : Slot) : (setSlot s x k).turn = s.turn := rfl
@[simp] theorem setSlot_cur (s : State) (x : CtxId) (k : Slot) : (setSlot s x k).cur = s.cur := rfl
@[simp] theorem setSlot_latencies (s : State) (x : CtxId) (k : Slot) : (setSlot s x k).latencies = s.latencies := rfl
@[simp] theorem setSlot_free (s : State) (x : CtxId) (k : Slot) : (setSlot s x k).free = s.free := rfl
@[simp] theorem setSlot_fused (s : State) (x : CtxId) (k : Slot) : (setSlot s x k).fused = s.fused := rfl
@[simp] theorem setSlot_mem (s : State) (x : CtxId) (k : Slot) : (setSlot s x k).mem = s.mem := rfl
@[simp] theorem setSlot_fe (s : State) (x : CtxId) (k : Slot) : (setSlot s x k).fe = s.fe := rfl
@[simp] theorem setSlot_lost (s : State) (x : CtxId) (k : Slot) : (setSlot s x k).lost = s.lost := rfl
@[simp] theorem setSlot_bad (s : State) (x : CtxId) (k : Slot) : (setSlot s x k).bad = s.bad := rfl
@[simp] theorem setSlot_dir (s : State) (x : CtxId) (k : Slot) : (setSlot s x k).dir = s.dir := rfl
@[simp] theorem setSlot_lineOld (s : State) (x : CtxId) (k : Slot) : (setSlot s x k).lineOld = s.lineOld := rfl
@[simp] theorem setSlot_moves (s : State) (x : CtxId) (k : Slot) : (setSlot s x k).moves = s.moves := rfl
@[simp] theorem setSlot_recs (s : State) (x : CtxId) (k : Slot) : (setSlot s x k).recs = s.recs := rfl
@[simp] theorem setSlot_sOrder (s : State) (x : CtxId) (k : Slot) : (setSlot s x k).sOrder = s.sOrder := rfl
@[simp] theorem setSlot_stores (s : State) (x : CtxId) (k : Slot) : (setSlot s x k).stores = s.stores := rfl
@[simp] theorem setSlot_seeds (s : State) (x : CtxId) (k : Slot) : (setSlot s x k).seeds = s.seeds := rfl
@[simp] theorem setSlot_prefetches (s : State) (x : CtxId) (k : Slot) : (setSlot s x k).prefetches = s.prefetches := rfl
@[simp] theorem setSlot_deposits (s : State) (x : CtxId) (k : Slot) : (setSlot s x k).deposits = s.deposits := rfl
@[simp] theorem setSlot_flights (s : State) (x : CtxId) (k : Slot) : (setSlot s x k).flights = s.flights := rfl
@[simp] theorem setSlot_xfers (s : State) (x : CtxId) (k : Slot) : (setSlot s x k).xfers = s.xfers := rfl
@[simp] theorem setSlot_merges (s : State) (x : CtxId) (k : Slot) : (setSlot s x k).merges = s.merges := rfl
@[simp] theorem setSlot_cancels (s : State) (x : CtxId) (k : Slot) : (setSlot s x k).cancels = s.cancels := rfl
@[simp] theorem setSlot_chunks (s : State) (x : CtxId) (k : Slot) : (setSlot s x k).chunks = s.chunks := rfl
@[simp] theorem setSlot_chunkMsgs (s : State) (x : CtxId) (k : Slot) : (setSlot s x k).chunkMsgs = s.chunkMsgs := rfl
@[simp] theorem setSlot_groups (s : State) (x : CtxId) (k : Slot) : (setSlot s x k).groups = s.groups := rfl
@[simp] theorem setSlot_launches (s : State) (x : CtxId) (k : Slot) : (setSlot s x k).launches = s.launches := rfl
@[simp] theorem setSlot_queues (s : State) (x : CtxId) (k : Slot) : (setSlot s x k).queues = s.queues := rfl
@[simp] theorem setSlot_sites (s : State) (x : CtxId) (k : Slot) : (setSlot s x k).sites = s.sites := rfl
@[simp] theorem setSlot_dies (s : State) (x : CtxId) (k : Slot) : (setSlot s x k).dies = s.dies := rfl
@[simp] theorem setSlot_parts (s : State) (x : CtxId) (k : Slot) : (setSlot s x k).parts = s.parts := rfl
@[simp] theorem setSlot_pkgs (s : State) (x : CtxId) (k : Slot) : (setSlot s x k).pkgs = s.pkgs := rfl
@[simp] theorem setSlot_saves (s : State) (x : CtxId) (k : Slot) : (setSlot s x k).saves = s.saves := rfl
@[simp] theorem setSlot_ids (s : State) (x : CtxId) (k : Slot) : (setSlot s x k).ids = s.ids := rfl

@[simp] theorem modSlot_now (s : State) (x : CtxId) (f : Slot → Slot) : (modSlot s x f).now = s.now := rfl
@[simp] theorem modSlot_agenda (s : State) (x : CtxId) (f : Slot → Slot) : (modSlot s x f).agenda = s.agenda := rfl
@[simp] theorem modSlot_turn (s : State) (x : CtxId) (f : Slot → Slot) : (modSlot s x f).turn = s.turn := rfl
@[simp] theorem modSlot_cur (s : State) (x : CtxId) (f : Slot → Slot) : (modSlot s x f).cur = s.cur := rfl
@[simp] theorem modSlot_latencies (s : State) (x : CtxId) (f : Slot → Slot) : (modSlot s x f).latencies = s.latencies := rfl
@[simp] theorem modSlot_free (s : State) (x : CtxId) (f : Slot → Slot) : (modSlot s x f).free = s.free := rfl
@[simp] theorem modSlot_fused (s : State) (x : CtxId) (f : Slot → Slot) : (modSlot s x f).fused = s.fused := rfl
@[simp] theorem modSlot_mem (s : State) (x : CtxId) (f : Slot → Slot) : (modSlot s x f).mem = s.mem := rfl
@[simp] theorem modSlot_fe (s : State) (x : CtxId) (f : Slot → Slot) : (modSlot s x f).fe = s.fe := rfl
@[simp] theorem modSlot_lost (s : State) (x : CtxId) (f : Slot → Slot) : (modSlot s x f).lost = s.lost := rfl
@[simp] theorem modSlot_bad (s : State) (x : CtxId) (f : Slot → Slot) : (modSlot s x f).bad = s.bad := rfl
@[simp] theorem modSlot_dir (s : State) (x : CtxId) (f : Slot → Slot) : (modSlot s x f).dir = s.dir := rfl
@[simp] theorem modSlot_lineOld (s : State) (x : CtxId) (f : Slot → Slot) : (modSlot s x f).lineOld = s.lineOld := rfl
@[simp] theorem modSlot_moves (s : State) (x : CtxId) (f : Slot → Slot) : (modSlot s x f).moves = s.moves := rfl
@[simp] theorem modSlot_recs (s : State) (x : CtxId) (f : Slot → Slot) : (modSlot s x f).recs = s.recs := rfl
@[simp] theorem modSlot_sOrder (s : State) (x : CtxId) (f : Slot → Slot) : (modSlot s x f).sOrder = s.sOrder := rfl
@[simp] theorem modSlot_stores (s : State) (x : CtxId) (f : Slot → Slot) : (modSlot s x f).stores = s.stores := rfl
@[simp] theorem modSlot_seeds (s : State) (x : CtxId) (f : Slot → Slot) : (modSlot s x f).seeds = s.seeds := rfl
@[simp] theorem modSlot_prefetches (s : State) (x : CtxId) (f : Slot → Slot) : (modSlot s x f).prefetches = s.prefetches := rfl
@[simp] theorem modSlot_deposits (s : State) (x : CtxId) (f : Slot → Slot) : (modSlot s x f).deposits = s.deposits := rfl
@[simp] theorem modSlot_flights (s : State) (x : CtxId) (f : Slot → Slot) : (modSlot s x f).flights = s.flights := rfl
@[simp] theorem modSlot_xfers (s : State) (x : CtxId) (f : Slot → Slot) : (modSlot s x f).xfers = s.xfers := rfl
@[simp] theorem modSlot_merges (s : State) (x : CtxId) (f : Slot → Slot) : (modSlot s x f).merges = s.merges := rfl
@[simp] theorem modSlot_cancels (s : State) (x : CtxId) (f : Slot → Slot) : (modSlot s x f).cancels = s.cancels := rfl
@[simp] theorem modSlot_chunks (s : State) (x : CtxId) (f : Slot → Slot) : (modSlot s x f).chunks = s.chunks := rfl
@[simp] theorem modSlot_chunkMsgs (s : State) (x : CtxId) (f : Slot → Slot) : (modSlot s x f).chunkMsgs = s.chunkMsgs := rfl
@[simp] theorem modSlot_groups (s : State) (x : CtxId) (f : Slot → Slot) : (modSlot s x f).groups = s.groups := rfl
@[simp] theorem modSlot_launches (s : State) (x : CtxId) (f : Slot → Slot) : (modSlot s x f).launches = s.launches := rfl
@[simp] theorem modSlot_queues (s : State) (x : CtxId) (f : Slot → Slot) : (modSlot s x f).queues = s.queues := rfl
@[simp] theorem modSlot_sites (s : State) (x : CtxId) (f : Slot → Slot) : (modSlot s x f).sites = s.sites := rfl
@[simp] theorem modSlot_dies (s : State) (x : CtxId) (f : Slot → Slot) : (modSlot s x f).dies = s.dies := rfl
@[simp] theorem modSlot_parts (s : State) (x : CtxId) (f : Slot → Slot) : (modSlot s x f).parts = s.parts := rfl
@[simp] theorem modSlot_pkgs (s : State) (x : CtxId) (f : Slot → Slot) : (modSlot s x f).pkgs = s.pkgs := rfl
@[simp] theorem modSlot_saves (s : State) (x : CtxId) (f : Slot → Slot) : (modSlot s x f).saves = s.saves := rfl
@[simp] theorem modSlot_ids (s : State) (x : CtxId) (f : Slot → Slot) : (modSlot s x f).ids = s.ids := rfl

@[simp] theorem modCtx_now (s : State) (x : CtxId) (f : Ctx → Ctx) : (modCtx s x f).now = s.now := rfl
@[simp] theorem modCtx_agenda (s : State) (x : CtxId) (f : Ctx → Ctx) : (modCtx s x f).agenda = s.agenda := rfl
@[simp] theorem modCtx_turn (s : State) (x : CtxId) (f : Ctx → Ctx) : (modCtx s x f).turn = s.turn := rfl
@[simp] theorem modCtx_cur (s : State) (x : CtxId) (f : Ctx → Ctx) : (modCtx s x f).cur = s.cur := rfl
@[simp] theorem modCtx_latencies (s : State) (x : CtxId) (f : Ctx → Ctx) : (modCtx s x f).latencies = s.latencies := rfl
@[simp] theorem modCtx_free (s : State) (x : CtxId) (f : Ctx → Ctx) : (modCtx s x f).free = s.free := rfl
@[simp] theorem modCtx_fused (s : State) (x : CtxId) (f : Ctx → Ctx) : (modCtx s x f).fused = s.fused := rfl
@[simp] theorem modCtx_mem (s : State) (x : CtxId) (f : Ctx → Ctx) : (modCtx s x f).mem = s.mem := rfl
@[simp] theorem modCtx_fe (s : State) (x : CtxId) (f : Ctx → Ctx) : (modCtx s x f).fe = s.fe := rfl
@[simp] theorem modCtx_lost (s : State) (x : CtxId) (f : Ctx → Ctx) : (modCtx s x f).lost = s.lost := rfl
@[simp] theorem modCtx_bad (s : State) (x : CtxId) (f : Ctx → Ctx) : (modCtx s x f).bad = s.bad := rfl
@[simp] theorem modCtx_dir (s : State) (x : CtxId) (f : Ctx → Ctx) : (modCtx s x f).dir = s.dir := rfl
@[simp] theorem modCtx_lineOld (s : State) (x : CtxId) (f : Ctx → Ctx) : (modCtx s x f).lineOld = s.lineOld := rfl
@[simp] theorem modCtx_moves (s : State) (x : CtxId) (f : Ctx → Ctx) : (modCtx s x f).moves = s.moves := rfl
@[simp] theorem modCtx_recs (s : State) (x : CtxId) (f : Ctx → Ctx) : (modCtx s x f).recs = s.recs := rfl
@[simp] theorem modCtx_sOrder (s : State) (x : CtxId) (f : Ctx → Ctx) : (modCtx s x f).sOrder = s.sOrder := rfl
@[simp] theorem modCtx_stores (s : State) (x : CtxId) (f : Ctx → Ctx) : (modCtx s x f).stores = s.stores := rfl
@[simp] theorem modCtx_seeds (s : State) (x : CtxId) (f : Ctx → Ctx) : (modCtx s x f).seeds = s.seeds := rfl
@[simp] theorem modCtx_prefetches (s : State) (x : CtxId) (f : Ctx → Ctx) : (modCtx s x f).prefetches = s.prefetches := rfl
@[simp] theorem modCtx_deposits (s : State) (x : CtxId) (f : Ctx → Ctx) : (modCtx s x f).deposits = s.deposits := rfl
@[simp] theorem modCtx_flights (s : State) (x : CtxId) (f : Ctx → Ctx) : (modCtx s x f).flights = s.flights := rfl
@[simp] theorem modCtx_xfers (s : State) (x : CtxId) (f : Ctx → Ctx) : (modCtx s x f).xfers = s.xfers := rfl
@[simp] theorem modCtx_merges (s : State) (x : CtxId) (f : Ctx → Ctx) : (modCtx s x f).merges = s.merges := rfl
@[simp] theorem modCtx_cancels (s : State) (x : CtxId) (f : Ctx → Ctx) : (modCtx s x f).cancels = s.cancels := rfl
@[simp] theorem modCtx_chunks (s : State) (x : CtxId) (f : Ctx → Ctx) : (modCtx s x f).chunks = s.chunks := rfl
@[simp] theorem modCtx_chunkMsgs (s : State) (x : CtxId) (f : Ctx → Ctx) : (modCtx s x f).chunkMsgs = s.chunkMsgs := rfl
@[simp] theorem modCtx_groups (s : State) (x : CtxId) (f : Ctx → Ctx) : (modCtx s x f).groups = s.groups := rfl
@[simp] theorem modCtx_launches (s : State) (x : CtxId) (f : Ctx → Ctx) : (modCtx s x f).launches = s.launches := rfl
@[simp] theorem modCtx_queues (s : State) (x : CtxId) (f : Ctx → Ctx) : (modCtx s x f).queues = s.queues := rfl
@[simp] theorem modCtx_sites (s : State) (x : CtxId) (f : Ctx → Ctx) : (modCtx s x f).sites = s.sites := rfl
@[simp] theorem modCtx_dies (s : State) (x : CtxId) (f : Ctx → Ctx) : (modCtx s x f).dies = s.dies := rfl
@[simp] theorem modCtx_parts (s : State) (x : CtxId) (f : Ctx → Ctx) : (modCtx s x f).parts = s.parts := rfl
@[simp] theorem modCtx_pkgs (s : State) (x : CtxId) (f : Ctx → Ctx) : (modCtx s x f).pkgs = s.pkgs := rfl
@[simp] theorem modCtx_saves (s : State) (x : CtxId) (f : Ctx → Ctx) : (modCtx s x f).saves = s.saves := rfl
@[simp] theorem modCtx_ids (s : State) (x : CtxId) (f : Ctx → Ctx) : (modCtx s x f).ids = s.ids := rfl

@[simp] theorem mod_now (s : State) (f : Ctx → Ctx) : (mod s f).now = s.now := rfl
@[simp] theorem mod_agenda (s : State) (f : Ctx → Ctx) : (mod s f).agenda = s.agenda := rfl
@[simp] theorem mod_turn (s : State) (f : Ctx → Ctx) : (mod s f).turn = s.turn := rfl
@[simp] theorem mod_cur (s : State) (f : Ctx → Ctx) : (mod s f).cur = s.cur := rfl
@[simp] theorem mod_latencies (s : State) (f : Ctx → Ctx) : (mod s f).latencies = s.latencies := rfl
@[simp] theorem mod_free (s : State) (f : Ctx → Ctx) : (mod s f).free = s.free := rfl
@[simp] theorem mod_fused (s : State) (f : Ctx → Ctx) : (mod s f).fused = s.fused := rfl
@[simp] theorem mod_mem (s : State) (f : Ctx → Ctx) : (mod s f).mem = s.mem := rfl
@[simp] theorem mod_fe (s : State) (f : Ctx → Ctx) : (mod s f).fe = s.fe := rfl
@[simp] theorem mod_lost (s : State) (f : Ctx → Ctx) : (mod s f).lost = s.lost := rfl
@[simp] theorem mod_bad (s : State) (f : Ctx → Ctx) : (mod s f).bad = s.bad := rfl
@[simp] theorem mod_dir (s : State) (f : Ctx → Ctx) : (mod s f).dir = s.dir := rfl
@[simp] theorem mod_lineOld (s : State) (f : Ctx → Ctx) : (mod s f).lineOld = s.lineOld := rfl
@[simp] theorem mod_moves (s : State) (f : Ctx → Ctx) : (mod s f).moves = s.moves := rfl
@[simp] theorem mod_recs (s : State) (f : Ctx → Ctx) : (mod s f).recs = s.recs := rfl
@[simp] theorem mod_sOrder (s : State) (f : Ctx → Ctx) : (mod s f).sOrder = s.sOrder := rfl
@[simp] theorem mod_stores (s : State) (f : Ctx → Ctx) : (mod s f).stores = s.stores := rfl
@[simp] theorem mod_seeds (s : State) (f : Ctx → Ctx) : (mod s f).seeds = s.seeds := rfl
@[simp] theorem mod_prefetches (s : State) (f : Ctx → Ctx) : (mod s f).prefetches = s.prefetches := rfl
@[simp] theorem mod_deposits (s : State) (f : Ctx → Ctx) : (mod s f).deposits = s.deposits := rfl
@[simp] theorem mod_flights (s : State) (f : Ctx → Ctx) : (mod s f).flights = s.flights := rfl
@[simp] theorem mod_xfers (s : State) (f : Ctx → Ctx) : (mod s f).xfers = s.xfers := rfl
@[simp] theorem mod_merges (s : State) (f : Ctx → Ctx) : (mod s f).merges = s.merges := rfl
@[simp] theorem mod_cancels (s : State) (f : Ctx → Ctx) : (mod s f).cancels = s.cancels := rfl
@[simp] theorem mod_chunks (s : State) (f : Ctx → Ctx) : (mod s f).chunks = s.chunks := rfl
@[simp] theorem mod_chunkMsgs (s : State) (f : Ctx → Ctx) : (mod s f).chunkMsgs = s.chunkMsgs := rfl
@[simp] theorem mod_groups (s : State) (f : Ctx → Ctx) : (mod s f).groups = s.groups := rfl
@[simp] theorem mod_launches (s : State) (f : Ctx → Ctx) : (mod s f).launches = s.launches := rfl
@[simp] theorem mod_queues (s : State) (f : Ctx → Ctx) : (mod s f).queues = s.queues := rfl
@[simp] theorem mod_sites (s : State) (f : Ctx → Ctx) : (mod s f).sites = s.sites := rfl
@[simp] theorem mod_dies (s : State) (f : Ctx → Ctx) : (mod s f).dies = s.dies := rfl
@[simp] theorem mod_parts (s : State) (f : Ctx → Ctx) : (mod s f).parts = s.parts := rfl
@[simp] theorem mod_pkgs (s : State) (f : Ctx → Ctx) : (mod s f).pkgs = s.pkgs := rfl
@[simp] theorem mod_saves (s : State) (f : Ctx → Ctx) : (mod s f).saves = s.saves := rfl
@[simp] theorem mod_ids (s : State) (f : Ctx → Ctx) : (mod s f).ids = s.ids := rfl

@[simp] theorem setSite_now (s : State) (c : Nat) (k : Site) : (setSite s c k).now = s.now := rfl
@[simp] theorem setSite_agenda (s : State) (c : Nat) (k : Site) : (setSite s c k).agenda = s.agenda := rfl
@[simp] theorem setSite_turn (s : State) (c : Nat) (k : Site) : (setSite s c k).turn = s.turn := rfl
@[simp] theorem setSite_cur (s : State) (c : Nat) (k : Site) : (setSite s c k).cur = s.cur := rfl
@[simp] theorem setSite_latencies (s : State) (c : Nat) (k : Site) : (setSite s c k).latencies = s.latencies := rfl
@[simp] theorem setSite_free (s : State) (c : Nat) (k : Site) : (setSite s c k).free = s.free := rfl
@[simp] theorem setSite_fused (s : State) (c : Nat) (k : Site) : (setSite s c k).fused = s.fused := rfl
@[simp] theorem setSite_mem (s : State) (c : Nat) (k : Site) : (setSite s c k).mem = s.mem := rfl
@[simp] theorem setSite_fe (s : State) (c : Nat) (k : Site) : (setSite s c k).fe = s.fe := rfl
@[simp] theorem setSite_lost (s : State) (c : Nat) (k : Site) : (setSite s c k).lost = s.lost := rfl
@[simp] theorem setSite_bad (s : State) (c : Nat) (k : Site) : (setSite s c k).bad = s.bad := rfl
@[simp] theorem setSite_dir (s : State) (c : Nat) (k : Site) : (setSite s c k).dir = s.dir := rfl
@[simp] theorem setSite_lineOld (s : State) (c : Nat) (k : Site) : (setSite s c k).lineOld = s.lineOld := rfl
@[simp] theorem setSite_moves (s : State) (c : Nat) (k : Site) : (setSite s c k).moves = s.moves := rfl
@[simp] theorem setSite_recs (s : State) (c : Nat) (k : Site) : (setSite s c k).recs = s.recs := rfl
@[simp] theorem setSite_sOrder (s : State) (c : Nat) (k : Site) : (setSite s c k).sOrder = s.sOrder := rfl
@[simp] theorem setSite_stores (s : State) (c : Nat) (k : Site) : (setSite s c k).stores = s.stores := rfl
@[simp] theorem setSite_seeds (s : State) (c : Nat) (k : Site) : (setSite s c k).seeds = s.seeds := rfl
@[simp] theorem setSite_prefetches (s : State) (c : Nat) (k : Site) : (setSite s c k).prefetches = s.prefetches := rfl
@[simp] theorem setSite_deposits (s : State) (c : Nat) (k : Site) : (setSite s c k).deposits = s.deposits := rfl
@[simp] theorem setSite_flights (s : State) (c : Nat) (k : Site) : (setSite s c k).flights = s.flights := rfl
@[simp] theorem setSite_xfers (s : State) (c : Nat) (k : Site) : (setSite s c k).xfers = s.xfers := rfl
@[simp] theorem setSite_merges (s : State) (c : Nat) (k : Site) : (setSite s c k).merges = s.merges := rfl
@[simp] theorem setSite_cancels (s : State) (c : Nat) (k : Site) : (setSite s c k).cancels = s.cancels := rfl
@[simp] theorem setSite_chunks (s : State) (c : Nat) (k : Site) : (setSite s c k).chunks = s.chunks := rfl
@[simp] theorem setSite_chunkMsgs (s : State) (c : Nat) (k : Site) : (setSite s c k).chunkMsgs = s.chunkMsgs := rfl
@[simp] theorem setSite_groups (s : State) (c : Nat) (k : Site) : (setSite s c k).groups = s.groups := rfl
@[simp] theorem setSite_launches (s : State) (c : Nat) (k : Site) : (setSite s c k).launches = s.launches := rfl
@[simp] theorem setSite_queues (s : State) (c : Nat) (k : Site) : (setSite s c k).queues = s.queues := rfl
@[simp] theorem setSite_cores (s : State) (c : Nat) (k : Site) : (setSite s c k).cores = s.cores := rfl
@[simp] theorem setSite_dies (s : State) (c : Nat) (k : Site) : (setSite s c k).dies = s.dies := rfl
@[simp] theorem setSite_parts (s : State) (c : Nat) (k : Site) : (setSite s c k).parts = s.parts := rfl
@[simp] theorem setSite_pkgs (s : State) (c : Nat) (k : Site) : (setSite s c k).pkgs = s.pkgs := rfl
@[simp] theorem setSite_saves (s : State) (c : Nat) (k : Site) : (setSite s c k).saves = s.saves := rfl
@[simp] theorem setSite_ids (s : State) (c : Nat) (k : Site) : (setSite s c k).ids = s.ids := rfl

@[simp] theorem modSite_now (s : State) (c : Nat) (f : Site → Site) : (modSite s c f).now = s.now := rfl
@[simp] theorem modSite_agenda (s : State) (c : Nat) (f : Site → Site) : (modSite s c f).agenda = s.agenda := rfl
@[simp] theorem modSite_turn (s : State) (c : Nat) (f : Site → Site) : (modSite s c f).turn = s.turn := rfl
@[simp] theorem modSite_cur (s : State) (c : Nat) (f : Site → Site) : (modSite s c f).cur = s.cur := rfl
@[simp] theorem modSite_latencies (s : State) (c : Nat) (f : Site → Site) : (modSite s c f).latencies = s.latencies := rfl
@[simp] theorem modSite_free (s : State) (c : Nat) (f : Site → Site) : (modSite s c f).free = s.free := rfl
@[simp] theorem modSite_fused (s : State) (c : Nat) (f : Site → Site) : (modSite s c f).fused = s.fused := rfl
@[simp] theorem modSite_mem (s : State) (c : Nat) (f : Site → Site) : (modSite s c f).mem = s.mem := rfl
@[simp] theorem modSite_fe (s : State) (c : Nat) (f : Site → Site) : (modSite s c f).fe = s.fe := rfl
@[simp] theorem modSite_lost (s : State) (c : Nat) (f : Site → Site) : (modSite s c f).lost = s.lost := rfl
@[simp] theorem modSite_bad (s : State) (c : Nat) (f : Site → Site) : (modSite s c f).bad = s.bad := rfl
@[simp] theorem modSite_dir (s : State) (c : Nat) (f : Site → Site) : (modSite s c f).dir = s.dir := rfl
@[simp] theorem modSite_lineOld (s : State) (c : Nat) (f : Site → Site) : (modSite s c f).lineOld = s.lineOld := rfl
@[simp] theorem modSite_moves (s : State) (c : Nat) (f : Site → Site) : (modSite s c f).moves = s.moves := rfl
@[simp] theorem modSite_recs (s : State) (c : Nat) (f : Site → Site) : (modSite s c f).recs = s.recs := rfl
@[simp] theorem modSite_sOrder (s : State) (c : Nat) (f : Site → Site) : (modSite s c f).sOrder = s.sOrder := rfl
@[simp] theorem modSite_stores (s : State) (c : Nat) (f : Site → Site) : (modSite s c f).stores = s.stores := rfl
@[simp] theorem modSite_seeds (s : State) (c : Nat) (f : Site → Site) : (modSite s c f).seeds = s.seeds := rfl
@[simp] theorem modSite_prefetches (s : State) (c : Nat) (f : Site → Site) : (modSite s c f).prefetches = s.prefetches := rfl
@[simp] theorem modSite_deposits (s : State) (c : Nat) (f : Site → Site) : (modSite s c f).deposits = s.deposits := rfl
@[simp] theorem modSite_flights (s : State) (c : Nat) (f : Site → Site) : (modSite s c f).flights = s.flights := rfl
@[simp] theorem modSite_xfers (s : State) (c : Nat) (f : Site → Site) : (modSite s c f).xfers = s.xfers := rfl
@[simp] theorem modSite_merges (s : State) (c : Nat) (f : Site → Site) : (modSite s c f).merges = s.merges := rfl
@[simp] theorem modSite_cancels (s : State) (c : Nat) (f : Site → Site) : (modSite s c f).cancels = s.cancels := rfl
@[simp] theorem modSite_chunks (s : State) (c : Nat) (f : Site → Site) : (modSite s c f).chunks = s.chunks := rfl
@[simp] theorem modSite_chunkMsgs (s : State) (c : Nat) (f : Site → Site) : (modSite s c f).chunkMsgs = s.chunkMsgs := rfl
@[simp] theorem modSite_groups (s : State) (c : Nat) (f : Site → Site) : (modSite s c f).groups = s.groups := rfl
@[simp] theorem modSite_launches (s : State) (c : Nat) (f : Site → Site) : (modSite s c f).launches = s.launches := rfl
@[simp] theorem modSite_queues (s : State) (c : Nat) (f : Site → Site) : (modSite s c f).queues = s.queues := rfl
@[simp] theorem modSite_cores (s : State) (c : Nat) (f : Site → Site) : (modSite s c f).cores = s.cores := rfl
@[simp] theorem modSite_dies (s : State) (c : Nat) (f : Site → Site) : (modSite s c f).dies = s.dies := rfl
@[simp] theorem modSite_parts (s : State) (c : Nat) (f : Site → Site) : (modSite s c f).parts = s.parts := rfl
@[simp] theorem modSite_pkgs (s : State) (c : Nat) (f : Site → Site) : (modSite s c f).pkgs = s.pkgs := rfl
@[simp] theorem modSite_saves (s : State) (c : Nat) (f : Site → Site) : (modSite s c f).saves = s.saves := rfl
@[simp] theorem modSite_ids (s : State) (c : Nat) (f : Site → Site) : (modSite s c f).ids = s.ids := rfl

@[simp] theorem modDie_now (s : State) (c : Nat) (f : Die → Die) : (modDie s c f).now = s.now := rfl
@[simp] theorem modDie_agenda (s : State) (c : Nat) (f : Die → Die) : (modDie s c f).agenda = s.agenda := rfl
@[simp] theorem modDie_turn (s : State) (c : Nat) (f : Die → Die) : (modDie s c f).turn = s.turn := rfl
@[simp] theorem modDie_cur (s : State) (c : Nat) (f : Die → Die) : (modDie s c f).cur = s.cur := rfl
@[simp] theorem modDie_latencies (s : State) (c : Nat) (f : Die → Die) : (modDie s c f).latencies = s.latencies := rfl
@[simp] theorem modDie_free (s : State) (c : Nat) (f : Die → Die) : (modDie s c f).free = s.free := rfl
@[simp] theorem modDie_fused (s : State) (c : Nat) (f : Die → Die) : (modDie s c f).fused = s.fused := rfl
@[simp] theorem modDie_mem (s : State) (c : Nat) (f : Die → Die) : (modDie s c f).mem = s.mem := rfl
@[simp] theorem modDie_fe (s : State) (c : Nat) (f : Die → Die) : (modDie s c f).fe = s.fe := rfl
@[simp] theorem modDie_lost (s : State) (c : Nat) (f : Die → Die) : (modDie s c f).lost = s.lost := rfl
@[simp] theorem modDie_bad (s : State) (c : Nat) (f : Die → Die) : (modDie s c f).bad = s.bad := rfl
@[simp] theorem modDie_dir (s : State) (c : Nat) (f : Die → Die) : (modDie s c f).dir = s.dir := rfl
@[simp] theorem modDie_lineOld (s : State) (c : Nat) (f : Die → Die) : (modDie s c f).lineOld = s.lineOld := rfl
@[simp] theorem modDie_moves (s : State) (c : Nat) (f : Die → Die) : (modDie s c f).moves = s.moves := rfl
@[simp] theorem modDie_recs (s : State) (c : Nat) (f : Die → Die) : (modDie s c f).recs = s.recs := rfl
@[simp] theorem modDie_sOrder (s : State) (c : Nat) (f : Die → Die) : (modDie s c f).sOrder = s.sOrder := rfl
@[simp] theorem modDie_stores (s : State) (c : Nat) (f : Die → Die) : (modDie s c f).stores = s.stores := rfl
@[simp] theorem modDie_seeds (s : State) (c : Nat) (f : Die → Die) : (modDie s c f).seeds = s.seeds := rfl
@[simp] theorem modDie_prefetches (s : State) (c : Nat) (f : Die → Die) : (modDie s c f).prefetches = s.prefetches := rfl
@[simp] theorem modDie_deposits (s : State) (c : Nat) (f : Die → Die) : (modDie s c f).deposits = s.deposits := rfl
@[simp] theorem modDie_flights (s : State) (c : Nat) (f : Die → Die) : (modDie s c f).flights = s.flights := rfl
@[simp] theorem modDie_xfers (s : State) (c : Nat) (f : Die → Die) : (modDie s c f).xfers = s.xfers := rfl
@[simp] theorem modDie_merges (s : State) (c : Nat) (f : Die → Die) : (modDie s c f).merges = s.merges := rfl
@[simp] theorem modDie_cancels (s : State) (c : Nat) (f : Die → Die) : (modDie s c f).cancels = s.cancels := rfl
@[simp] theorem modDie_chunks (s : State) (c : Nat) (f : Die → Die) : (modDie s c f).chunks = s.chunks := rfl
@[simp] theorem modDie_chunkMsgs (s : State) (c : Nat) (f : Die → Die) : (modDie s c f).chunkMsgs = s.chunkMsgs := rfl
@[simp] theorem modDie_groups (s : State) (c : Nat) (f : Die → Die) : (modDie s c f).groups = s.groups := rfl
@[simp] theorem modDie_launches (s : State) (c : Nat) (f : Die → Die) : (modDie s c f).launches = s.launches := rfl
@[simp] theorem modDie_queues (s : State) (c : Nat) (f : Die → Die) : (modDie s c f).queues = s.queues := rfl
@[simp] theorem modDie_cores (s : State) (c : Nat) (f : Die → Die) : (modDie s c f).cores = s.cores := rfl
@[simp] theorem modDie_sites (s : State) (c : Nat) (f : Die → Die) : (modDie s c f).sites = s.sites := rfl
@[simp] theorem modDie_parts (s : State) (c : Nat) (f : Die → Die) : (modDie s c f).parts = s.parts := rfl
@[simp] theorem modDie_pkgs (s : State) (c : Nat) (f : Die → Die) : (modDie s c f).pkgs = s.pkgs := rfl
@[simp] theorem modDie_saves (s : State) (c : Nat) (f : Die → Die) : (modDie s c f).saves = s.saves := rfl
@[simp] theorem modDie_ids (s : State) (c : Nat) (f : Die → Die) : (modDie s c f).ids = s.ids := rfl

@[simp] theorem modPart_now (s : State) (p : PartId) (f : Part → Part) : (modPart s p f).now = s.now := rfl
@[simp] theorem modPart_agenda (s : State) (p : PartId) (f : Part → Part) : (modPart s p f).agenda = s.agenda := rfl
@[simp] theorem modPart_turn (s : State) (p : PartId) (f : Part → Part) : (modPart s p f).turn = s.turn := rfl
@[simp] theorem modPart_cur (s : State) (p : PartId) (f : Part → Part) : (modPart s p f).cur = s.cur := rfl
@[simp] theorem modPart_latencies (s : State) (p : PartId) (f : Part → Part) : (modPart s p f).latencies = s.latencies := rfl
@[simp] theorem modPart_free (s : State) (p : PartId) (f : Part → Part) : (modPart s p f).free = s.free := rfl
@[simp] theorem modPart_fused (s : State) (p : PartId) (f : Part → Part) : (modPart s p f).fused = s.fused := rfl
@[simp] theorem modPart_mem (s : State) (p : PartId) (f : Part → Part) : (modPart s p f).mem = s.mem := rfl
@[simp] theorem modPart_fe (s : State) (p : PartId) (f : Part → Part) : (modPart s p f).fe = s.fe := rfl
@[simp] theorem modPart_lost (s : State) (p : PartId) (f : Part → Part) : (modPart s p f).lost = s.lost := rfl
@[simp] theorem modPart_bad (s : State) (p : PartId) (f : Part → Part) : (modPart s p f).bad = s.bad := rfl
@[simp] theorem modPart_dir (s : State) (p : PartId) (f : Part → Part) : (modPart s p f).dir = s.dir := rfl
@[simp] theorem modPart_lineOld (s : State) (p : PartId) (f : Part → Part) : (modPart s p f).lineOld = s.lineOld := rfl
@[simp] theorem modPart_moves (s : State) (p : PartId) (f : Part → Part) : (modPart s p f).moves = s.moves := rfl
@[simp] theorem modPart_recs (s : State) (p : PartId) (f : Part → Part) : (modPart s p f).recs = s.recs := rfl
@[simp] theorem modPart_sOrder (s : State) (p : PartId) (f : Part → Part) : (modPart s p f).sOrder = s.sOrder := rfl
@[simp] theorem modPart_stores (s : State) (p : PartId) (f : Part → Part) : (modPart s p f).stores = s.stores := rfl
@[simp] theorem modPart_seeds (s : State) (p : PartId) (f : Part → Part) : (modPart s p f).seeds = s.seeds := rfl
@[simp] theorem modPart_prefetches (s : State) (p : PartId) (f : Part → Part) : (modPart s p f).prefetches = s.prefetches := rfl
@[simp] theorem modPart_deposits (s : State) (p : PartId) (f : Part → Part) : (modPart s p f).deposits = s.deposits := rfl
@[simp] theorem modPart_flights (s : State) (p : PartId) (f : Part → Part) : (modPart s p f).flights = s.flights := rfl
@[simp] theorem modPart_xfers (s : State) (p : PartId) (f : Part → Part) : (modPart s p f).xfers = s.xfers := rfl
@[simp] theorem modPart_merges (s : State) (p : PartId) (f : Part → Part) : (modPart s p f).merges = s.merges := rfl
@[simp] theorem modPart_cancels (s : State) (p : PartId) (f : Part → Part) : (modPart s p f).cancels = s.cancels := rfl
@[simp] theorem modPart_chunks (s : State) (p : PartId) (f : Part → Part) : (modPart s p f).chunks = s.chunks := rfl
@[simp] theorem modPart_chunkMsgs (s : State) (p : PartId) (f : Part → Part) : (modPart s p f).chunkMsgs = s.chunkMsgs := rfl
@[simp] theorem modPart_groups (s : State) (p : PartId) (f : Part → Part) : (modPart s p f).groups = s.groups := rfl
@[simp] theorem modPart_launches (s : State) (p : PartId) (f : Part → Part) : (modPart s p f).launches = s.launches := rfl
@[simp] theorem modPart_queues (s : State) (p : PartId) (f : Part → Part) : (modPart s p f).queues = s.queues := rfl
@[simp] theorem modPart_cores (s : State) (p : PartId) (f : Part → Part) : (modPart s p f).cores = s.cores := rfl
@[simp] theorem modPart_sites (s : State) (p : PartId) (f : Part → Part) : (modPart s p f).sites = s.sites := rfl
@[simp] theorem modPart_dies (s : State) (p : PartId) (f : Part → Part) : (modPart s p f).dies = s.dies := rfl
@[simp] theorem modPart_pkgs (s : State) (p : PartId) (f : Part → Part) : (modPart s p f).pkgs = s.pkgs := rfl
@[simp] theorem modPart_saves (s : State) (p : PartId) (f : Part → Part) : (modPart s p f).saves = s.saves := rfl
@[simp] theorem modPart_ids (s : State) (p : PartId) (f : Part → Part) : (modPart s p f).ids = s.ids := rfl

@[simp] theorem setPkg_now (s : State) (c : Nat) (k : Pkg) : (setPkg s c k).now = s.now := rfl
@[simp] theorem setPkg_agenda (s : State) (c : Nat) (k : Pkg) : (setPkg s c k).agenda = s.agenda := rfl
@[simp] theorem setPkg_turn (s : State) (c : Nat) (k : Pkg) : (setPkg s c k).turn = s.turn := rfl
@[simp] theorem setPkg_cur (s : State) (c : Nat) (k : Pkg) : (setPkg s c k).cur = s.cur := rfl
@[simp] theorem setPkg_latencies (s : State) (c : Nat) (k : Pkg) : (setPkg s c k).latencies = s.latencies := rfl
@[simp] theorem setPkg_free (s : State) (c : Nat) (k : Pkg) : (setPkg s c k).free = s.free := rfl
@[simp] theorem setPkg_fused (s : State) (c : Nat) (k : Pkg) : (setPkg s c k).fused = s.fused := rfl
@[simp] theorem setPkg_mem (s : State) (c : Nat) (k : Pkg) : (setPkg s c k).mem = s.mem := rfl
@[simp] theorem setPkg_fe (s : State) (c : Nat) (k : Pkg) : (setPkg s c k).fe = s.fe := rfl
@[simp] theorem setPkg_lost (s : State) (c : Nat) (k : Pkg) : (setPkg s c k).lost = s.lost := rfl
@[simp] theorem setPkg_bad (s : State) (c : Nat) (k : Pkg) : (setPkg s c k).bad = s.bad := rfl
@[simp] theorem setPkg_dir (s : State) (c : Nat) (k : Pkg) : (setPkg s c k).dir = s.dir := rfl
@[simp] theorem setPkg_lineOld (s : State) (c : Nat) (k : Pkg) : (setPkg s c k).lineOld = s.lineOld := rfl
@[simp] theorem setPkg_moves (s : State) (c : Nat) (k : Pkg) : (setPkg s c k).moves = s.moves := rfl
@[simp] theorem setPkg_recs (s : State) (c : Nat) (k : Pkg) : (setPkg s c k).recs = s.recs := rfl
@[simp] theorem setPkg_sOrder (s : State) (c : Nat) (k : Pkg) : (setPkg s c k).sOrder = s.sOrder := rfl
@[simp] theorem setPkg_stores (s : State) (c : Nat) (k : Pkg) : (setPkg s c k).stores = s.stores := rfl
@[simp] theorem setPkg_seeds (s : State) (c : Nat) (k : Pkg) : (setPkg s c k).seeds = s.seeds := rfl
@[simp] theorem setPkg_prefetches (s : State) (c : Nat) (k : Pkg) : (setPkg s c k).prefetches = s.prefetches := rfl
@[simp] theorem setPkg_deposits (s : State) (c : Nat) (k : Pkg) : (setPkg s c k).deposits = s.deposits := rfl
@[simp] theorem setPkg_flights (s : State) (c : Nat) (k : Pkg) : (setPkg s c k).flights = s.flights := rfl
@[simp] theorem setPkg_xfers (s : State) (c : Nat) (k : Pkg) : (setPkg s c k).xfers = s.xfers := rfl
@[simp] theorem setPkg_merges (s : State) (c : Nat) (k : Pkg) : (setPkg s c k).merges = s.merges := rfl
@[simp] theorem setPkg_cancels (s : State) (c : Nat) (k : Pkg) : (setPkg s c k).cancels = s.cancels := rfl
@[simp] theorem setPkg_chunks (s : State) (c : Nat) (k : Pkg) : (setPkg s c k).chunks = s.chunks := rfl
@[simp] theorem setPkg_chunkMsgs (s : State) (c : Nat) (k : Pkg) : (setPkg s c k).chunkMsgs = s.chunkMsgs := rfl
@[simp] theorem setPkg_groups (s : State) (c : Nat) (k : Pkg) : (setPkg s c k).groups = s.groups := rfl
@[simp] theorem setPkg_launches (s : State) (c : Nat) (k : Pkg) : (setPkg s c k).launches = s.launches := rfl
@[simp] theorem setPkg_queues (s : State) (c : Nat) (k : Pkg) : (setPkg s c k).queues = s.queues := rfl
@[simp] theorem setPkg_cores (s : State) (c : Nat) (k : Pkg) : (setPkg s c k).cores = s.cores := rfl
@[simp] theorem setPkg_sites (s : State) (c : Nat) (k : Pkg) : (setPkg s c k).sites = s.sites := rfl
@[simp] theorem setPkg_dies (s : State) (c : Nat) (k : Pkg) : (setPkg s c k).dies = s.dies := rfl
@[simp] theorem setPkg_parts (s : State) (c : Nat) (k : Pkg) : (setPkg s c k).parts = s.parts := rfl
@[simp] theorem setPkg_saves (s : State) (c : Nat) (k : Pkg) : (setPkg s c k).saves = s.saves := rfl
@[simp] theorem setPkg_ids (s : State) (c : Nat) (k : Pkg) : (setPkg s c k).ids = s.ids := rfl

@[simp] theorem modPkg_now (s : State) (c : Nat) (f : Pkg → Pkg) : (modPkg s c f).now = s.now := rfl
@[simp] theorem modPkg_agenda (s : State) (c : Nat) (f : Pkg → Pkg) : (modPkg s c f).agenda = s.agenda := rfl
@[simp] theorem modPkg_turn (s : State) (c : Nat) (f : Pkg → Pkg) : (modPkg s c f).turn = s.turn := rfl
@[simp] theorem modPkg_cur (s : State) (c : Nat) (f : Pkg → Pkg) : (modPkg s c f).cur = s.cur := rfl
@[simp] theorem modPkg_latencies (s : State) (c : Nat) (f : Pkg → Pkg) : (modPkg s c f).latencies = s.latencies := rfl
@[simp] theorem modPkg_free (s : State) (c : Nat) (f : Pkg → Pkg) : (modPkg s c f).free = s.free := rfl
@[simp] theorem modPkg_fused (s : State) (c : Nat) (f : Pkg → Pkg) : (modPkg s c f).fused = s.fused := rfl
@[simp] theorem modPkg_mem (s : State) (c : Nat) (f : Pkg → Pkg) : (modPkg s c f).mem = s.mem := rfl
@[simp] theorem modPkg_fe (s : State) (c : Nat) (f : Pkg → Pkg) : (modPkg s c f).fe = s.fe := rfl
@[simp] theorem modPkg_lost (s : State) (c : Nat) (f : Pkg → Pkg) : (modPkg s c f).lost = s.lost := rfl
@[simp] theorem modPkg_bad (s : State) (c : Nat) (f : Pkg → Pkg) : (modPkg s c f).bad = s.bad := rfl
@[simp] theorem modPkg_dir (s : State) (c : Nat) (f : Pkg → Pkg) : (modPkg s c f).dir = s.dir := rfl
@[simp] theorem modPkg_lineOld (s : State) (c : Nat) (f : Pkg → Pkg) : (modPkg s c f).lineOld = s.lineOld := rfl
@[simp] theorem modPkg_moves (s : State) (c : Nat) (f : Pkg → Pkg) : (modPkg s c f).moves = s.moves := rfl
@[simp] theorem modPkg_recs (s : State) (c : Nat) (f : Pkg → Pkg) : (modPkg s c f).recs = s.recs := rfl
@[simp] theorem modPkg_sOrder (s : State) (c : Nat) (f : Pkg → Pkg) : (modPkg s c f).sOrder = s.sOrder := rfl
@[simp] theorem modPkg_stores (s : State) (c : Nat) (f : Pkg → Pkg) : (modPkg s c f).stores = s.stores := rfl
@[simp] theorem modPkg_seeds (s : State) (c : Nat) (f : Pkg → Pkg) : (modPkg s c f).seeds = s.seeds := rfl
@[simp] theorem modPkg_prefetches (s : State) (c : Nat) (f : Pkg → Pkg) : (modPkg s c f).prefetches = s.prefetches := rfl
@[simp] theorem modPkg_deposits (s : State) (c : Nat) (f : Pkg → Pkg) : (modPkg s c f).deposits = s.deposits := rfl
@[simp] theorem modPkg_flights (s : State) (c : Nat) (f : Pkg → Pkg) : (modPkg s c f).flights = s.flights := rfl
@[simp] theorem modPkg_xfers (s : State) (c : Nat) (f : Pkg → Pkg) : (modPkg s c f).xfers = s.xfers := rfl
@[simp] theorem modPkg_merges (s : State) (c : Nat) (f : Pkg → Pkg) : (modPkg s c f).merges = s.merges := rfl
@[simp] theorem modPkg_cancels (s : State) (c : Nat) (f : Pkg → Pkg) : (modPkg s c f).cancels = s.cancels := rfl
@[simp] theorem modPkg_chunks (s : State) (c : Nat) (f : Pkg → Pkg) : (modPkg s c f).chunks = s.chunks := rfl
@[simp] theorem modPkg_chunkMsgs (s : State) (c : Nat) (f : Pkg → Pkg) : (modPkg s c f).chunkMsgs = s.chunkMsgs := rfl
@[simp] theorem modPkg_groups (s : State) (c : Nat) (f : Pkg → Pkg) : (modPkg s c f).groups = s.groups := rfl
@[simp] theorem modPkg_launches (s : State) (c : Nat) (f : Pkg → Pkg) : (modPkg s c f).launches = s.launches := rfl
@[simp] theorem modPkg_queues (s : State) (c : Nat) (f : Pkg → Pkg) : (modPkg s c f).queues = s.queues := rfl
@[simp] theorem modPkg_cores (s : State) (c : Nat) (f : Pkg → Pkg) : (modPkg s c f).cores = s.cores := rfl
@[simp] theorem modPkg_sites (s : State) (c : Nat) (f : Pkg → Pkg) : (modPkg s c f).sites = s.sites := rfl
@[simp] theorem modPkg_dies (s : State) (c : Nat) (f : Pkg → Pkg) : (modPkg s c f).dies = s.dies := rfl
@[simp] theorem modPkg_parts (s : State) (c : Nat) (f : Pkg → Pkg) : (modPkg s c f).parts = s.parts := rfl
@[simp] theorem modPkg_saves (s : State) (c : Nat) (f : Pkg → Pkg) : (modPkg s c f).saves = s.saves := rfl
@[simp] theorem modPkg_ids (s : State) (c : Nat) (f : Pkg → Pkg) : (modPkg s c f).ids = s.ids := rfl

@[simp] theorem at__now (s : State) (t : Nat) (i : Instr) : (at_ s t i).now = s.now := rfl
@[simp] theorem at__turn (s : State) (t : Nat) (i : Instr) : (at_ s t i).turn = s.turn := rfl
@[simp] theorem at__cur (s : State) (t : Nat) (i : Instr) : (at_ s t i).cur = s.cur := rfl
@[simp] theorem at__latencies (s : State) (t : Nat) (i : Instr) : (at_ s t i).latencies = s.latencies := rfl
@[simp] theorem at__free (s : State) (t : Nat) (i : Instr) : (at_ s t i).free = s.free := rfl
@[simp] theorem at__fused (s : State) (t : Nat) (i : Instr) : (at_ s t i).fused = s.fused := rfl
@[simp] theorem at__mem (s : State) (t : Nat) (i : Instr) : (at_ s t i).mem = s.mem := rfl
@[simp] theorem at__fe (s : State) (t : Nat) (i : Instr) : (at_ s t i).fe = s.fe := rfl
@[simp] theorem at__lost (s : State) (t : Nat) (i : Instr) : (at_ s t i).lost = s.lost := rfl
@[simp] theorem at__bad (s : State) (t : Nat) (i : Instr) : (at_ s t i).bad = s.bad := rfl
@[simp] theorem at__dir (s : State) (t : Nat) (i : Instr) : (at_ s t i).dir = s.dir := rfl
@[simp] theorem at__lineOld (s : State) (t : Nat) (i : Instr) : (at_ s t i).lineOld = s.lineOld := rfl
@[simp] theorem at__moves (s : State) (t : Nat) (i : Instr) : (at_ s t i).moves = s.moves := rfl
@[simp] theorem at__recs (s : State) (t : Nat) (i : Instr) : (at_ s t i).recs = s.recs := rfl
@[simp] theorem at__sOrder (s : State) (t : Nat) (i : Instr) : (at_ s t i).sOrder = s.sOrder := rfl
@[simp] theorem at__stores (s : State) (t : Nat) (i : Instr) : (at_ s t i).stores = s.stores := rfl
@[simp] theorem at__seeds (s : State) (t : Nat) (i : Instr) : (at_ s t i).seeds = s.seeds := rfl
@[simp] theorem at__prefetches (s : State) (t : Nat) (i : Instr) : (at_ s t i).prefetches = s.prefetches := rfl
@[simp] theorem at__deposits (s : State) (t : Nat) (i : Instr) : (at_ s t i).deposits = s.deposits := rfl
@[simp] theorem at__flights (s : State) (t : Nat) (i : Instr) : (at_ s t i).flights = s.flights := rfl
@[simp] theorem at__xfers (s : State) (t : Nat) (i : Instr) : (at_ s t i).xfers = s.xfers := rfl
@[simp] theorem at__merges (s : State) (t : Nat) (i : Instr) : (at_ s t i).merges = s.merges := rfl
@[simp] theorem at__cancels (s : State) (t : Nat) (i : Instr) : (at_ s t i).cancels = s.cancels := rfl
@[simp] theorem at__chunks (s : State) (t : Nat) (i : Instr) : (at_ s t i).chunks = s.chunks := rfl
@[simp] theorem at__chunkMsgs (s : State) (t : Nat) (i : Instr) : (at_ s t i).chunkMsgs = s.chunkMsgs := rfl
@[simp] theorem at__groups (s : State) (t : Nat) (i : Instr) : (at_ s t i).groups = s.groups := rfl
@[simp] theorem at__launches (s : State) (t : Nat) (i : Instr) : (at_ s t i).launches = s.launches := rfl
@[simp] theorem at__queues (s : State) (t : Nat) (i : Instr) : (at_ s t i).queues = s.queues := rfl
@[simp] theorem at__cores (s : State) (t : Nat) (i : Instr) : (at_ s t i).cores = s.cores := rfl
@[simp] theorem at__sites (s : State) (t : Nat) (i : Instr) : (at_ s t i).sites = s.sites := rfl
@[simp] theorem at__dies (s : State) (t : Nat) (i : Instr) : (at_ s t i).dies = s.dies := rfl
@[simp] theorem at__parts (s : State) (t : Nat) (i : Instr) : (at_ s t i).parts = s.parts := rfl
@[simp] theorem at__pkgs (s : State) (t : Nat) (i : Instr) : (at_ s t i).pkgs = s.pkgs := rfl
@[simp] theorem at__saves (s : State) (t : Nat) (i : Instr) : (at_ s t i).saves = s.saves := rfl
@[simp] theorem at__ids (s : State) (t : Nat) (i : Instr) : (at_ s t i).ids = s.ids := rfl

@[simp] theorem atOnce_now (s : State) (t : Nat) (i : Instr) : (atOnce s t i).now = s.now := rfl
@[simp] theorem atOnce_turn (s : State) (t : Nat) (i : Instr) : (atOnce s t i).turn = s.turn := rfl
@[simp] theorem atOnce_cur (s : State) (t : Nat) (i : Instr) : (atOnce s t i).cur = s.cur := rfl
@[simp] theorem atOnce_latencies (s : State) (t : Nat) (i : Instr) : (atOnce s t i).latencies = s.latencies := rfl
@[simp] theorem atOnce_free (s : State) (t : Nat) (i : Instr) : (atOnce s t i).free = s.free := rfl
@[simp] theorem atOnce_fused (s : State) (t : Nat) (i : Instr) : (atOnce s t i).fused = s.fused := rfl
@[simp] theorem atOnce_mem (s : State) (t : Nat) (i : Instr) : (atOnce s t i).mem = s.mem := rfl
@[simp] theorem atOnce_fe (s : State) (t : Nat) (i : Instr) : (atOnce s t i).fe = s.fe := rfl
@[simp] theorem atOnce_lost (s : State) (t : Nat) (i : Instr) : (atOnce s t i).lost = s.lost := rfl
@[simp] theorem atOnce_bad (s : State) (t : Nat) (i : Instr) : (atOnce s t i).bad = s.bad := rfl
@[simp] theorem atOnce_dir (s : State) (t : Nat) (i : Instr) : (atOnce s t i).dir = s.dir := rfl
@[simp] theorem atOnce_lineOld (s : State) (t : Nat) (i : Instr) : (atOnce s t i).lineOld = s.lineOld := rfl
@[simp] theorem atOnce_moves (s : State) (t : Nat) (i : Instr) : (atOnce s t i).moves = s.moves := rfl
@[simp] theorem atOnce_recs (s : State) (t : Nat) (i : Instr) : (atOnce s t i).recs = s.recs := rfl
@[simp] theorem atOnce_sOrder (s : State) (t : Nat) (i : Instr) : (atOnce s t i).sOrder = s.sOrder := rfl
@[simp] theorem atOnce_stores (s : State) (t : Nat) (i : Instr) : (atOnce s t i).stores = s.stores := rfl
@[simp] theorem atOnce_seeds (s : State) (t : Nat) (i : Instr) : (atOnce s t i).seeds = s.seeds := rfl
@[simp] theorem atOnce_prefetches (s : State) (t : Nat) (i : Instr) : (atOnce s t i).prefetches = s.prefetches := rfl
@[simp] theorem atOnce_deposits (s : State) (t : Nat) (i : Instr) : (atOnce s t i).deposits = s.deposits := rfl
@[simp] theorem atOnce_flights (s : State) (t : Nat) (i : Instr) : (atOnce s t i).flights = s.flights := rfl
@[simp] theorem atOnce_xfers (s : State) (t : Nat) (i : Instr) : (atOnce s t i).xfers = s.xfers := rfl
@[simp] theorem atOnce_merges (s : State) (t : Nat) (i : Instr) : (atOnce s t i).merges = s.merges := rfl
@[simp] theorem atOnce_cancels (s : State) (t : Nat) (i : Instr) : (atOnce s t i).cancels = s.cancels := rfl
@[simp] theorem atOnce_chunks (s : State) (t : Nat) (i : Instr) : (atOnce s t i).chunks = s.chunks := rfl
@[simp] theorem atOnce_chunkMsgs (s : State) (t : Nat) (i : Instr) : (atOnce s t i).chunkMsgs = s.chunkMsgs := rfl
@[simp] theorem atOnce_groups (s : State) (t : Nat) (i : Instr) : (atOnce s t i).groups = s.groups := rfl
@[simp] theorem atOnce_launches (s : State) (t : Nat) (i : Instr) : (atOnce s t i).launches = s.launches := rfl
@[simp] theorem atOnce_queues (s : State) (t : Nat) (i : Instr) : (atOnce s t i).queues = s.queues := rfl
@[simp] theorem atOnce_cores (s : State) (t : Nat) (i : Instr) : (atOnce s t i).cores = s.cores := rfl
@[simp] theorem atOnce_sites (s : State) (t : Nat) (i : Instr) : (atOnce s t i).sites = s.sites := rfl
@[simp] theorem atOnce_dies (s : State) (t : Nat) (i : Instr) : (atOnce s t i).dies = s.dies := rfl
@[simp] theorem atOnce_parts (s : State) (t : Nat) (i : Instr) : (atOnce s t i).parts = s.parts := rfl
@[simp] theorem atOnce_pkgs (s : State) (t : Nat) (i : Instr) : (atOnce s t i).pkgs = s.pkgs := rfl
@[simp] theorem atOnce_saves (s : State) (t : Nat) (i : Instr) : (atOnce s t i).saves = s.saves := rfl
@[simp] theorem atOnce_ids (s : State) (t : Nat) (i : Instr) : (atOnce s t i).ids = s.ids := rfl

@[simp] theorem advance_now (s : State) : (advance s).now = s.now := rfl
@[simp] theorem advance_agenda (s : State) : (advance s).agenda = s.agenda := rfl
@[simp] theorem advance_turn (s : State) : (advance s).turn = s.turn := rfl
@[simp] theorem advance_cur (s : State) : (advance s).cur = s.cur := rfl
@[simp] theorem advance_latencies (s : State) : (advance s).latencies = s.latencies := rfl
@[simp] theorem advance_free (s : State) : (advance s).free = s.free := rfl
@[simp] theorem advance_fused (s : State) : (advance s).fused = s.fused := rfl
@[simp] theorem advance_mem (s : State) : (advance s).mem = s.mem := rfl
@[simp] theorem advance_fe (s : State) : (advance s).fe = s.fe := rfl
@[simp] theorem advance_lost (s : State) : (advance s).lost = s.lost := rfl
@[simp] theorem advance_bad (s : State) : (advance s).bad = s.bad := rfl
@[simp] theorem advance_dir (s : State) : (advance s).dir = s.dir := rfl
@[simp] theorem advance_lineOld (s : State) : (advance s).lineOld = s.lineOld := rfl
@[simp] theorem advance_moves (s : State) : (advance s).moves = s.moves := rfl
@[simp] theorem advance_recs (s : State) : (advance s).recs = s.recs := rfl
@[simp] theorem advance_sOrder (s : State) : (advance s).sOrder = s.sOrder := rfl
@[simp] theorem advance_stores (s : State) : (advance s).stores = s.stores := rfl
@[simp] theorem advance_seeds (s : State) : (advance s).seeds = s.seeds := rfl
@[simp] theorem advance_prefetches (s : State) : (advance s).prefetches = s.prefetches := rfl
@[simp] theorem advance_deposits (s : State) : (advance s).deposits = s.deposits := rfl
@[simp] theorem advance_flights (s : State) : (advance s).flights = s.flights := rfl
@[simp] theorem advance_xfers (s : State) : (advance s).xfers = s.xfers := rfl
@[simp] theorem advance_merges (s : State) : (advance s).merges = s.merges := rfl
@[simp] theorem advance_cancels (s : State) : (advance s).cancels = s.cancels := rfl
@[simp] theorem advance_chunks (s : State) : (advance s).chunks = s.chunks := rfl
@[simp] theorem advance_chunkMsgs (s : State) : (advance s).chunkMsgs = s.chunkMsgs := rfl
@[simp] theorem advance_groups (s : State) : (advance s).groups = s.groups := rfl
@[simp] theorem advance_launches (s : State) : (advance s).launches = s.launches := rfl
@[simp] theorem advance_queues (s : State) : (advance s).queues = s.queues := rfl
@[simp] theorem advance_sites (s : State) : (advance s).sites = s.sites := rfl
@[simp] theorem advance_dies (s : State) : (advance s).dies = s.dies := rfl
@[simp] theorem advance_parts (s : State) : (advance s).parts = s.parts := rfl
@[simp] theorem advance_pkgs (s : State) : (advance s).pkgs = s.pkgs := rfl
@[simp] theorem advance_saves (s : State) : (advance s).saves = s.saves := rfl
@[simp] theorem advance_ids (s : State) : (advance s).ids = s.ids := rfl

@[simp] theorem setMarks_now (s : State) (c e : Nat) (f : Marks → Marks) : (setMarks s c e f).now = s.now := rfl
@[simp] theorem setMarks_agenda (s : State) (c e : Nat) (f : Marks → Marks) : (setMarks s c e f).agenda = s.agenda := rfl
@[simp] theorem setMarks_turn (s : State) (c e : Nat) (f : Marks → Marks) : (setMarks s c e f).turn = s.turn := rfl
@[simp] theorem setMarks_cur (s : State) (c e : Nat) (f : Marks → Marks) : (setMarks s c e f).cur = s.cur := rfl
@[simp] theorem setMarks_latencies (s : State) (c e : Nat) (f : Marks → Marks) : (setMarks s c e f).latencies = s.latencies := rfl
@[simp] theorem setMarks_free (s : State) (c e : Nat) (f : Marks → Marks) : (setMarks s c e f).free = s.free := rfl
@[simp] theorem setMarks_fused (s : State) (c e : Nat) (f : Marks → Marks) : (setMarks s c e f).fused = s.fused := rfl
@[simp] theorem setMarks_mem (s : State) (c e : Nat) (f : Marks → Marks) : (setMarks s c e f).mem = s.mem := rfl
@[simp] theorem setMarks_fe (s : State) (c e : Nat) (f : Marks → Marks) : (setMarks s c e f).fe = s.fe := rfl
@[simp] theorem setMarks_lost (s : State) (c e : Nat) (f : Marks → Marks) : (setMarks s c e f).lost = s.lost := rfl
@[simp] theorem setMarks_bad (s : State) (c e : Nat) (f : Marks → Marks) : (setMarks s c e f).bad = s.bad := rfl
@[simp] theorem setMarks_dir (s : State) (c e : Nat) (f : Marks → Marks) : (setMarks s c e f).dir = s.dir := rfl
@[simp] theorem setMarks_lineOld (s : State) (c e : Nat) (f : Marks → Marks) : (setMarks s c e f).lineOld = s.lineOld := rfl
@[simp] theorem setMarks_moves (s : State) (c e : Nat) (f : Marks → Marks) : (setMarks s c e f).moves = s.moves := rfl
@[simp] theorem setMarks_recs (s : State) (c e : Nat) (f : Marks → Marks) : (setMarks s c e f).recs = s.recs := rfl
@[simp] theorem setMarks_sOrder (s : State) (c e : Nat) (f : Marks → Marks) : (setMarks s c e f).sOrder = s.sOrder := rfl
@[simp] theorem setMarks_stores (s : State) (c e : Nat) (f : Marks → Marks) : (setMarks s c e f).stores = s.stores := rfl
@[simp] theorem setMarks_seeds (s : State) (c e : Nat) (f : Marks → Marks) : (setMarks s c e f).seeds = s.seeds := rfl
@[simp] theorem setMarks_prefetches (s : State) (c e : Nat) (f : Marks → Marks) : (setMarks s c e f).prefetches = s.prefetches := rfl
@[simp] theorem setMarks_deposits (s : State) (c e : Nat) (f : Marks → Marks) : (setMarks s c e f).deposits = s.deposits := rfl
@[simp] theorem setMarks_flights (s : State) (c e : Nat) (f : Marks → Marks) : (setMarks s c e f).flights = s.flights := rfl
@[simp] theorem setMarks_xfers (s : State) (c e : Nat) (f : Marks → Marks) : (setMarks s c e f).xfers = s.xfers := rfl
@[simp] theorem setMarks_merges (s : State) (c e : Nat) (f : Marks → Marks) : (setMarks s c e f).merges = s.merges := rfl
@[simp] theorem setMarks_cancels (s : State) (c e : Nat) (f : Marks → Marks) : (setMarks s c e f).cancels = s.cancels := rfl
@[simp] theorem setMarks_chunks (s : State) (c e : Nat) (f : Marks → Marks) : (setMarks s c e f).chunks = s.chunks := rfl
@[simp] theorem setMarks_chunkMsgs (s : State) (c e : Nat) (f : Marks → Marks) : (setMarks s c e f).chunkMsgs = s.chunkMsgs := rfl
@[simp] theorem setMarks_groups (s : State) (c e : Nat) (f : Marks → Marks) : (setMarks s c e f).groups = s.groups := rfl
@[simp] theorem setMarks_launches (s : State) (c e : Nat) (f : Marks → Marks) : (setMarks s c e f).launches = s.launches := rfl
@[simp] theorem setMarks_queues (s : State) (c e : Nat) (f : Marks → Marks) : (setMarks s c e f).queues = s.queues := rfl
@[simp] theorem setMarks_sites (s : State) (c e : Nat) (f : Marks → Marks) : (setMarks s c e f).sites = s.sites := rfl
@[simp] theorem setMarks_dies (s : State) (c e : Nat) (f : Marks → Marks) : (setMarks s c e f).dies = s.dies := rfl
@[simp] theorem setMarks_parts (s : State) (c e : Nat) (f : Marks → Marks) : (setMarks s c e f).parts = s.parts := rfl
@[simp] theorem setMarks_pkgs (s : State) (c e : Nat) (f : Marks → Marks) : (setMarks s c e f).pkgs = s.pkgs := rfl
@[simp] theorem setMarks_saves (s : State) (c e : Nat) (f : Marks → Marks) : (setMarks s c e f).saves = s.saves := rfl
@[simp] theorem setMarks_ids (s : State) (c e : Nat) (f : Marks → Marks) : (setMarks s c e f).ids = s.ids := rfl

@[simp] theorem setStatus_now (s : State) (x : CtxId) (i : Nat) (b : Bool) : (setStatus s x i b).now = s.now := rfl
@[simp] theorem setStatus_agenda (s : State) (x : CtxId) (i : Nat) (b : Bool) : (setStatus s x i b).agenda = s.agenda := rfl
@[simp] theorem setStatus_turn (s : State) (x : CtxId) (i : Nat) (b : Bool) : (setStatus s x i b).turn = s.turn := rfl
@[simp] theorem setStatus_cur (s : State) (x : CtxId) (i : Nat) (b : Bool) : (setStatus s x i b).cur = s.cur := rfl
@[simp] theorem setStatus_latencies (s : State) (x : CtxId) (i : Nat) (b : Bool) : (setStatus s x i b).latencies = s.latencies := rfl
@[simp] theorem setStatus_free (s : State) (x : CtxId) (i : Nat) (b : Bool) : (setStatus s x i b).free = s.free := rfl
@[simp] theorem setStatus_fused (s : State) (x : CtxId) (i : Nat) (b : Bool) : (setStatus s x i b).fused = s.fused := rfl
@[simp] theorem setStatus_mem (s : State) (x : CtxId) (i : Nat) (b : Bool) : (setStatus s x i b).mem = s.mem := rfl
@[simp] theorem setStatus_fe (s : State) (x : CtxId) (i : Nat) (b : Bool) : (setStatus s x i b).fe = s.fe := rfl
@[simp] theorem setStatus_lost (s : State) (x : CtxId) (i : Nat) (b : Bool) : (setStatus s x i b).lost = s.lost := rfl
@[simp] theorem setStatus_bad (s : State) (x : CtxId) (i : Nat) (b : Bool) : (setStatus s x i b).bad = s.bad := rfl
@[simp] theorem setStatus_dir (s : State) (x : CtxId) (i : Nat) (b : Bool) : (setStatus s x i b).dir = s.dir := rfl
@[simp] theorem setStatus_lineOld (s : State) (x : CtxId) (i : Nat) (b : Bool) : (setStatus s x i b).lineOld = s.lineOld := rfl
@[simp] theorem setStatus_moves (s : State) (x : CtxId) (i : Nat) (b : Bool) : (setStatus s x i b).moves = s.moves := rfl
@[simp] theorem setStatus_recs (s : State) (x : CtxId) (i : Nat) (b : Bool) : (setStatus s x i b).recs = s.recs := rfl
@[simp] theorem setStatus_sOrder (s : State) (x : CtxId) (i : Nat) (b : Bool) : (setStatus s x i b).sOrder = s.sOrder := rfl
@[simp] theorem setStatus_stores (s : State) (x : CtxId) (i : Nat) (b : Bool) : (setStatus s x i b).stores = s.stores := rfl
@[simp] theorem setStatus_seeds (s : State) (x : CtxId) (i : Nat) (b : Bool) : (setStatus s x i b).seeds = s.seeds := rfl
@[simp] theorem setStatus_prefetches (s : State) (x : CtxId) (i : Nat) (b : Bool) : (setStatus s x i b).prefetches = s.prefetches := rfl
@[simp] theorem setStatus_deposits (s : State) (x : CtxId) (i : Nat) (b : Bool) : (setStatus s x i b).deposits = s.deposits := rfl
@[simp] theorem setStatus_flights (s : State) (x : CtxId) (i : Nat) (b : Bool) : (setStatus s x i b).flights = s.flights := rfl
@[simp] theorem setStatus_xfers (s : State) (x : CtxId) (i : Nat) (b : Bool) : (setStatus s x i b).xfers = s.xfers := rfl
@[simp] theorem setStatus_merges (s : State) (x : CtxId) (i : Nat) (b : Bool) : (setStatus s x i b).merges = s.merges := rfl
@[simp] theorem setStatus_cancels (s : State) (x : CtxId) (i : Nat) (b : Bool) : (setStatus s x i b).cancels = s.cancels := rfl
@[simp] theorem setStatus_chunks (s : State) (x : CtxId) (i : Nat) (b : Bool) : (setStatus s x i b).chunks = s.chunks := rfl
@[simp] theorem setStatus_chunkMsgs (s : State) (x : CtxId) (i : Nat) (b : Bool) : (setStatus s x i b).chunkMsgs = s.chunkMsgs := rfl
@[simp] theorem setStatus_groups (s : State) (x : CtxId) (i : Nat) (b : Bool) : (setStatus s x i b).groups = s.groups := rfl
@[simp] theorem setStatus_launches (s : State) (x : CtxId) (i : Nat) (b : Bool) : (setStatus s x i b).launches = s.launches := rfl
@[simp] theorem setStatus_queues (s : State) (x : CtxId) (i : Nat) (b : Bool) : (setStatus s x i b).queues = s.queues := rfl
@[simp] theorem setStatus_sites (s : State) (x : CtxId) (i : Nat) (b : Bool) : (setStatus s x i b).sites = s.sites := rfl
@[simp] theorem setStatus_dies (s : State) (x : CtxId) (i : Nat) (b : Bool) : (setStatus s x i b).dies = s.dies := rfl
@[simp] theorem setStatus_parts (s : State) (x : CtxId) (i : Nat) (b : Bool) : (setStatus s x i b).parts = s.parts := rfl
@[simp] theorem setStatus_pkgs (s : State) (x : CtxId) (i : Nat) (b : Bool) : (setStatus s x i b).pkgs = s.pkgs := rfl
@[simp] theorem setStatus_saves (s : State) (x : CtxId) (i : Nat) (b : Bool) : (setStatus s x i b).saves = s.saves := rfl
@[simp] theorem setStatus_ids (s : State) (x : CtxId) (i : Nat) (b : Bool) : (setStatus s x i b).ids = s.ids := rfl

@[simp] theorem setSt_now (s : State) (x : CtxId) (st : SlotSt) : (setSt s x st).now = s.now := rfl
@[simp] theorem setSt_agenda (s : State) (x : CtxId) (st : SlotSt) : (setSt s x st).agenda = s.agenda := rfl
@[simp] theorem setSt_turn (s : State) (x : CtxId) (st : SlotSt) : (setSt s x st).turn = s.turn := rfl
@[simp] theorem setSt_cur (s : State) (x : CtxId) (st : SlotSt) : (setSt s x st).cur = s.cur := rfl
@[simp] theorem setSt_latencies (s : State) (x : CtxId) (st : SlotSt) : (setSt s x st).latencies = s.latencies := rfl
@[simp] theorem setSt_free (s : State) (x : CtxId) (st : SlotSt) : (setSt s x st).free = s.free := rfl
@[simp] theorem setSt_fused (s : State) (x : CtxId) (st : SlotSt) : (setSt s x st).fused = s.fused := rfl
@[simp] theorem setSt_mem (s : State) (x : CtxId) (st : SlotSt) : (setSt s x st).mem = s.mem := rfl
@[simp] theorem setSt_fe (s : State) (x : CtxId) (st : SlotSt) : (setSt s x st).fe = s.fe := rfl
@[simp] theorem setSt_lost (s : State) (x : CtxId) (st : SlotSt) : (setSt s x st).lost = s.lost := rfl
@[simp] theorem setSt_bad (s : State) (x : CtxId) (st : SlotSt) : (setSt s x st).bad = s.bad := rfl
@[simp] theorem setSt_dir (s : State) (x : CtxId) (st : SlotSt) : (setSt s x st).dir = s.dir := rfl
@[simp] theorem setSt_lineOld (s : State) (x : CtxId) (st : SlotSt) : (setSt s x st).lineOld = s.lineOld := rfl
@[simp] theorem setSt_moves (s : State) (x : CtxId) (st : SlotSt) : (setSt s x st).moves = s.moves := rfl
@[simp] theorem setSt_recs (s : State) (x : CtxId) (st : SlotSt) : (setSt s x st).recs = s.recs := rfl
@[simp] theorem setSt_sOrder (s : State) (x : CtxId) (st : SlotSt) : (setSt s x st).sOrder = s.sOrder := rfl
@[simp] theorem setSt_stores (s : State) (x : CtxId) (st : SlotSt) : (setSt s x st).stores = s.stores := rfl
@[simp] theorem setSt_seeds (s : State) (x : CtxId) (st : SlotSt) : (setSt s x st).seeds = s.seeds := rfl
@[simp] theorem setSt_prefetches (s : State) (x : CtxId) (st : SlotSt) : (setSt s x st).prefetches = s.prefetches := rfl
@[simp] theorem setSt_deposits (s : State) (x : CtxId) (st : SlotSt) : (setSt s x st).deposits = s.deposits := rfl
@[simp] theorem setSt_flights (s : State) (x : CtxId) (st : SlotSt) : (setSt s x st).flights = s.flights := rfl
@[simp] theorem setSt_xfers (s : State) (x : CtxId) (st : SlotSt) : (setSt s x st).xfers = s.xfers := rfl
@[simp] theorem setSt_merges (s : State) (x : CtxId) (st : SlotSt) : (setSt s x st).merges = s.merges := rfl
@[simp] theorem setSt_cancels (s : State) (x : CtxId) (st : SlotSt) : (setSt s x st).cancels = s.cancels := rfl
@[simp] theorem setSt_chunks (s : State) (x : CtxId) (st : SlotSt) : (setSt s x st).chunks = s.chunks := rfl
@[simp] theorem setSt_chunkMsgs (s : State) (x : CtxId) (st : SlotSt) : (setSt s x st).chunkMsgs = s.chunkMsgs := rfl
@[simp] theorem setSt_groups (s : State) (x : CtxId) (st : SlotSt) : (setSt s x st).groups = s.groups := rfl
@[simp] theorem setSt_launches (s : State) (x : CtxId) (st : SlotSt) : (setSt s x st).launches = s.launches := rfl
@[simp] theorem setSt_queues (s : State) (x : CtxId) (st : SlotSt) : (setSt s x st).queues = s.queues := rfl
@[simp] theorem setSt_sites (s : State) (x : CtxId) (st : SlotSt) : (setSt s x st).sites = s.sites := rfl
@[simp] theorem setSt_dies (s : State) (x : CtxId) (st : SlotSt) : (setSt s x st).dies = s.dies := rfl
@[simp] theorem setSt_parts (s : State) (x : CtxId) (st : SlotSt) : (setSt s x st).parts = s.parts := rfl
@[simp] theorem setSt_pkgs (s : State) (x : CtxId) (st : SlotSt) : (setSt s x st).pkgs = s.pkgs := rfl
@[simp] theorem setSt_saves (s : State) (x : CtxId) (st : SlotSt) : (setSt s x st).saves = s.saves := rfl
@[simp] theorem setSt_ids (s : State) (x : CtxId) (st : SlotSt) : (setSt s x st).ids = s.ids := rfl

@[simp] theorem writeEntry_now (s : State) (c e : Nat) (v : Reg) : (writeEntry s c e v).now = s.now := rfl
@[simp] theorem writeEntry_agenda (s : State) (c e : Nat) (v : Reg) : (writeEntry s c e v).agenda = s.agenda := rfl
@[simp] theorem writeEntry_turn (s : State) (c e : Nat) (v : Reg) : (writeEntry s c e v).turn = s.turn := rfl
@[simp] theorem writeEntry_cur (s : State) (c e : Nat) (v : Reg) : (writeEntry s c e v).cur = s.cur := rfl
@[simp] theorem writeEntry_latencies (s : State) (c e : Nat) (v : Reg) : (writeEntry s c e v).latencies = s.latencies := rfl
@[simp] theorem writeEntry_free (s : State) (c e : Nat) (v : Reg) : (writeEntry s c e v).free = s.free := rfl
@[simp] theorem writeEntry_fused (s : State) (c e : Nat) (v : Reg) : (writeEntry s c e v).fused = s.fused := rfl
@[simp] theorem writeEntry_mem (s : State) (c e : Nat) (v : Reg) : (writeEntry s c e v).mem = s.mem := rfl
@[simp] theorem writeEntry_fe (s : State) (c e : Nat) (v : Reg) : (writeEntry s c e v).fe = s.fe := rfl
@[simp] theorem writeEntry_lost (s : State) (c e : Nat) (v : Reg) : (writeEntry s c e v).lost = s.lost := rfl
@[simp] theorem writeEntry_bad (s : State) (c e : Nat) (v : Reg) : (writeEntry s c e v).bad = s.bad := rfl
@[simp] theorem writeEntry_dir (s : State) (c e : Nat) (v : Reg) : (writeEntry s c e v).dir = s.dir := rfl
@[simp] theorem writeEntry_lineOld (s : State) (c e : Nat) (v : Reg) : (writeEntry s c e v).lineOld = s.lineOld := rfl
@[simp] theorem writeEntry_moves (s : State) (c e : Nat) (v : Reg) : (writeEntry s c e v).moves = s.moves := rfl
@[simp] theorem writeEntry_recs (s : State) (c e : Nat) (v : Reg) : (writeEntry s c e v).recs = s.recs := rfl
@[simp] theorem writeEntry_sOrder (s : State) (c e : Nat) (v : Reg) : (writeEntry s c e v).sOrder = s.sOrder := rfl
@[simp] theorem writeEntry_stores (s : State) (c e : Nat) (v : Reg) : (writeEntry s c e v).stores = s.stores := rfl
@[simp] theorem writeEntry_seeds (s : State) (c e : Nat) (v : Reg) : (writeEntry s c e v).seeds = s.seeds := rfl
@[simp] theorem writeEntry_prefetches (s : State) (c e : Nat) (v : Reg) : (writeEntry s c e v).prefetches = s.prefetches := rfl
@[simp] theorem writeEntry_deposits (s : State) (c e : Nat) (v : Reg) : (writeEntry s c e v).deposits = s.deposits := rfl
@[simp] theorem writeEntry_flights (s : State) (c e : Nat) (v : Reg) : (writeEntry s c e v).flights = s.flights := rfl
@[simp] theorem writeEntry_xfers (s : State) (c e : Nat) (v : Reg) : (writeEntry s c e v).xfers = s.xfers := rfl
@[simp] theorem writeEntry_merges (s : State) (c e : Nat) (v : Reg) : (writeEntry s c e v).merges = s.merges := rfl
@[simp] theorem writeEntry_cancels (s : State) (c e : Nat) (v : Reg) : (writeEntry s c e v).cancels = s.cancels := rfl
@[simp] theorem writeEntry_chunks (s : State) (c e : Nat) (v : Reg) : (writeEntry s c e v).chunks = s.chunks := rfl
@[simp] theorem writeEntry_chunkMsgs (s : State) (c e : Nat) (v : Reg) : (writeEntry s c e v).chunkMsgs = s.chunkMsgs := rfl
@[simp] theorem writeEntry_groups (s : State) (c e : Nat) (v : Reg) : (writeEntry s c e v).groups = s.groups := rfl
@[simp] theorem writeEntry_launches (s : State) (c e : Nat) (v : Reg) : (writeEntry s c e v).launches = s.launches := rfl
@[simp] theorem writeEntry_queues (s : State) (c e : Nat) (v : Reg) : (writeEntry s c e v).queues = s.queues := rfl
@[simp] theorem writeEntry_sites (s : State) (c e : Nat) (v : Reg) : (writeEntry s c e v).sites = s.sites := rfl
@[simp] theorem writeEntry_dies (s : State) (c e : Nat) (v : Reg) : (writeEntry s c e v).dies = s.dies := rfl
@[simp] theorem writeEntry_parts (s : State) (c e : Nat) (v : Reg) : (writeEntry s c e v).parts = s.parts := rfl
@[simp] theorem writeEntry_pkgs (s : State) (c e : Nat) (v : Reg) : (writeEntry s c e v).pkgs = s.pkgs := rfl
@[simp] theorem writeEntry_saves (s : State) (c e : Nat) (v : Reg) : (writeEntry s c e v).saves = s.saves := rfl
@[simp] theorem writeEntry_ids (s : State) (c e : Nat) (v : Reg) : (writeEntry s c e v).ids = s.ids := rfl

@[simp] theorem writeFixed_now (s : State) (c e : Nat) (v : Reg) : (writeFixed s c e v).now = s.now := rfl
@[simp] theorem writeFixed_agenda (s : State) (c e : Nat) (v : Reg) : (writeFixed s c e v).agenda = s.agenda := rfl
@[simp] theorem writeFixed_turn (s : State) (c e : Nat) (v : Reg) : (writeFixed s c e v).turn = s.turn := rfl
@[simp] theorem writeFixed_cur (s : State) (c e : Nat) (v : Reg) : (writeFixed s c e v).cur = s.cur := rfl
@[simp] theorem writeFixed_latencies (s : State) (c e : Nat) (v : Reg) : (writeFixed s c e v).latencies = s.latencies := rfl
@[simp] theorem writeFixed_free (s : State) (c e : Nat) (v : Reg) : (writeFixed s c e v).free = s.free := rfl
@[simp] theorem writeFixed_fused (s : State) (c e : Nat) (v : Reg) : (writeFixed s c e v).fused = s.fused := rfl
@[simp] theorem writeFixed_mem (s : State) (c e : Nat) (v : Reg) : (writeFixed s c e v).mem = s.mem := rfl
@[simp] theorem writeFixed_fe (s : State) (c e : Nat) (v : Reg) : (writeFixed s c e v).fe = s.fe := rfl
@[simp] theorem writeFixed_lost (s : State) (c e : Nat) (v : Reg) : (writeFixed s c e v).lost = s.lost := rfl
@[simp] theorem writeFixed_bad (s : State) (c e : Nat) (v : Reg) : (writeFixed s c e v).bad = s.bad := rfl
@[simp] theorem writeFixed_dir (s : State) (c e : Nat) (v : Reg) : (writeFixed s c e v).dir = s.dir := rfl
@[simp] theorem writeFixed_lineOld (s : State) (c e : Nat) (v : Reg) : (writeFixed s c e v).lineOld = s.lineOld := rfl
@[simp] theorem writeFixed_moves (s : State) (c e : Nat) (v : Reg) : (writeFixed s c e v).moves = s.moves := rfl
@[simp] theorem writeFixed_recs (s : State) (c e : Nat) (v : Reg) : (writeFixed s c e v).recs = s.recs := rfl
@[simp] theorem writeFixed_sOrder (s : State) (c e : Nat) (v : Reg) : (writeFixed s c e v).sOrder = s.sOrder := rfl
@[simp] theorem writeFixed_stores (s : State) (c e : Nat) (v : Reg) : (writeFixed s c e v).stores = s.stores := rfl
@[simp] theorem writeFixed_seeds (s : State) (c e : Nat) (v : Reg) : (writeFixed s c e v).seeds = s.seeds := rfl
@[simp] theorem writeFixed_prefetches (s : State) (c e : Nat) (v : Reg) : (writeFixed s c e v).prefetches = s.prefetches := rfl
@[simp] theorem writeFixed_deposits (s : State) (c e : Nat) (v : Reg) : (writeFixed s c e v).deposits = s.deposits := rfl
@[simp] theorem writeFixed_flights (s : State) (c e : Nat) (v : Reg) : (writeFixed s c e v).flights = s.flights := rfl
@[simp] theorem writeFixed_xfers (s : State) (c e : Nat) (v : Reg) : (writeFixed s c e v).xfers = s.xfers := rfl
@[simp] theorem writeFixed_merges (s : State) (c e : Nat) (v : Reg) : (writeFixed s c e v).merges = s.merges := rfl
@[simp] theorem writeFixed_cancels (s : State) (c e : Nat) (v : Reg) : (writeFixed s c e v).cancels = s.cancels := rfl
@[simp] theorem writeFixed_chunks (s : State) (c e : Nat) (v : Reg) : (writeFixed s c e v).chunks = s.chunks := rfl
@[simp] theorem writeFixed_chunkMsgs (s : State) (c e : Nat) (v : Reg) : (writeFixed s c e v).chunkMsgs = s.chunkMsgs := rfl
@[simp] theorem writeFixed_groups (s : State) (c e : Nat) (v : Reg) : (writeFixed s c e v).groups = s.groups := rfl
@[simp] theorem writeFixed_launches (s : State) (c e : Nat) (v : Reg) : (writeFixed s c e v).launches = s.launches := rfl
@[simp] theorem writeFixed_queues (s : State) (c e : Nat) (v : Reg) : (writeFixed s c e v).queues = s.queues := rfl
@[simp] theorem writeFixed_sites (s : State) (c e : Nat) (v : Reg) : (writeFixed s c e v).sites = s.sites := rfl
@[simp] theorem writeFixed_dies (s : State) (c e : Nat) (v : Reg) : (writeFixed s c e v).dies = s.dies := rfl
@[simp] theorem writeFixed_parts (s : State) (c e : Nat) (v : Reg) : (writeFixed s c e v).parts = s.parts := rfl
@[simp] theorem writeFixed_pkgs (s : State) (c e : Nat) (v : Reg) : (writeFixed s c e v).pkgs = s.pkgs := rfl
@[simp] theorem writeFixed_saves (s : State) (c e : Nat) (v : Reg) : (writeFixed s c e v).saves = s.saves := rfl
@[simp] theorem writeFixed_ids (s : State) (c e : Nat) (v : Reg) : (writeFixed s c e v).ids = s.ids := rfl

@[simp] theorem writeDeposit_now (s : State) (d : Deposit) (e : Nat) : (writeDeposit s d e).now = s.now := rfl
@[simp] theorem writeDeposit_agenda (s : State) (d : Deposit) (e : Nat) : (writeDeposit s d e).agenda = s.agenda := rfl
@[simp] theorem writeDeposit_turn (s : State) (d : Deposit) (e : Nat) : (writeDeposit s d e).turn = s.turn := rfl
@[simp] theorem writeDeposit_cur (s : State) (d : Deposit) (e : Nat) : (writeDeposit s d e).cur = s.cur := rfl
@[simp] theorem writeDeposit_latencies (s : State) (d : Deposit) (e : Nat) : (writeDeposit s d e).latencies = s.latencies := rfl
@[simp] theorem writeDeposit_free (s : State) (d : Deposit) (e : Nat) : (writeDeposit s d e).free = s.free := rfl
@[simp] theorem writeDeposit_fused (s : State) (d : Deposit) (e : Nat) : (writeDeposit s d e).fused = s.fused := rfl
@[simp] theorem writeDeposit_mem (s : State) (d : Deposit) (e : Nat) : (writeDeposit s d e).mem = s.mem := rfl
@[simp] theorem writeDeposit_fe (s : State) (d : Deposit) (e : Nat) : (writeDeposit s d e).fe = s.fe := rfl
@[simp] theorem writeDeposit_lost (s : State) (d : Deposit) (e : Nat) : (writeDeposit s d e).lost = s.lost := rfl
@[simp] theorem writeDeposit_bad (s : State) (d : Deposit) (e : Nat) : (writeDeposit s d e).bad = s.bad := rfl
@[simp] theorem writeDeposit_dir (s : State) (d : Deposit) (e : Nat) : (writeDeposit s d e).dir = s.dir := rfl
@[simp] theorem writeDeposit_lineOld (s : State) (d : Deposit) (e : Nat) : (writeDeposit s d e).lineOld = s.lineOld := rfl
@[simp] theorem writeDeposit_moves (s : State) (d : Deposit) (e : Nat) : (writeDeposit s d e).moves = s.moves := rfl
@[simp] theorem writeDeposit_recs (s : State) (d : Deposit) (e : Nat) : (writeDeposit s d e).recs = s.recs := rfl
@[simp] theorem writeDeposit_sOrder (s : State) (d : Deposit) (e : Nat) : (writeDeposit s d e).sOrder = s.sOrder := rfl
@[simp] theorem writeDeposit_stores (s : State) (d : Deposit) (e : Nat) : (writeDeposit s d e).stores = s.stores := rfl
@[simp] theorem writeDeposit_seeds (s : State) (d : Deposit) (e : Nat) : (writeDeposit s d e).seeds = s.seeds := rfl
@[simp] theorem writeDeposit_prefetches (s : State) (d : Deposit) (e : Nat) : (writeDeposit s d e).prefetches = s.prefetches := rfl
@[simp] theorem writeDeposit_deposits (s : State) (d : Deposit) (e : Nat) : (writeDeposit s d e).deposits = s.deposits := rfl
@[simp] theorem writeDeposit_flights (s : State) (d : Deposit) (e : Nat) : (writeDeposit s d e).flights = s.flights := rfl
@[simp] theorem writeDeposit_xfers (s : State) (d : Deposit) (e : Nat) : (writeDeposit s d e).xfers = s.xfers := rfl
@[simp] theorem writeDeposit_merges (s : State) (d : Deposit) (e : Nat) : (writeDeposit s d e).merges = s.merges := rfl
@[simp] theorem writeDeposit_cancels (s : State) (d : Deposit) (e : Nat) : (writeDeposit s d e).cancels = s.cancels := rfl
@[simp] theorem writeDeposit_chunks (s : State) (d : Deposit) (e : Nat) : (writeDeposit s d e).chunks = s.chunks := rfl
@[simp] theorem writeDeposit_chunkMsgs (s : State) (d : Deposit) (e : Nat) : (writeDeposit s d e).chunkMsgs = s.chunkMsgs := rfl
@[simp] theorem writeDeposit_groups (s : State) (d : Deposit) (e : Nat) : (writeDeposit s d e).groups = s.groups := rfl
@[simp] theorem writeDeposit_launches (s : State) (d : Deposit) (e : Nat) : (writeDeposit s d e).launches = s.launches := rfl
@[simp] theorem writeDeposit_queues (s : State) (d : Deposit) (e : Nat) : (writeDeposit s d e).queues = s.queues := rfl
@[simp] theorem writeDeposit_sites (s : State) (d : Deposit) (e : Nat) : (writeDeposit s d e).sites = s.sites := rfl
@[simp] theorem writeDeposit_dies (s : State) (d : Deposit) (e : Nat) : (writeDeposit s d e).dies = s.dies := rfl
@[simp] theorem writeDeposit_parts (s : State) (d : Deposit) (e : Nat) : (writeDeposit s d e).parts = s.parts := rfl
@[simp] theorem writeDeposit_pkgs (s : State) (d : Deposit) (e : Nat) : (writeDeposit s d e).pkgs = s.pkgs := rfl
@[simp] theorem writeDeposit_saves (s : State) (d : Deposit) (e : Nat) : (writeDeposit s d e).saves = s.saves := rfl
@[simp] theorem writeDeposit_ids (s : State) (d : Deposit) (e : Nat) : (writeDeposit s d e).ids = s.ids := rfl

@[simp] theorem dropYield_now (s : State) (x : CtxId) : (dropYield s x).now = s.now := rfl
@[simp] theorem dropYield_agenda (s : State) (x : CtxId) : (dropYield s x).agenda = s.agenda := rfl
@[simp] theorem dropYield_turn (s : State) (x : CtxId) : (dropYield s x).turn = s.turn := rfl
@[simp] theorem dropYield_cur (s : State) (x : CtxId) : (dropYield s x).cur = s.cur := rfl
@[simp] theorem dropYield_latencies (s : State) (x : CtxId) : (dropYield s x).latencies = s.latencies := rfl
@[simp] theorem dropYield_free (s : State) (x : CtxId) : (dropYield s x).free = s.free := rfl
@[simp] theorem dropYield_fused (s : State) (x : CtxId) : (dropYield s x).fused = s.fused := rfl
@[simp] theorem dropYield_mem (s : State) (x : CtxId) : (dropYield s x).mem = s.mem := rfl
@[simp] theorem dropYield_fe (s : State) (x : CtxId) : (dropYield s x).fe = s.fe := rfl
@[simp] theorem dropYield_lost (s : State) (x : CtxId) : (dropYield s x).lost = s.lost := rfl
@[simp] theorem dropYield_bad (s : State) (x : CtxId) : (dropYield s x).bad = s.bad := rfl
@[simp] theorem dropYield_dir (s : State) (x : CtxId) : (dropYield s x).dir = s.dir := rfl
@[simp] theorem dropYield_lineOld (s : State) (x : CtxId) : (dropYield s x).lineOld = s.lineOld := rfl
@[simp] theorem dropYield_moves (s : State) (x : CtxId) : (dropYield s x).moves = s.moves := rfl
@[simp] theorem dropYield_recs (s : State) (x : CtxId) : (dropYield s x).recs = s.recs := rfl
@[simp] theorem dropYield_sOrder (s : State) (x : CtxId) : (dropYield s x).sOrder = s.sOrder := rfl
@[simp] theorem dropYield_stores (s : State) (x : CtxId) : (dropYield s x).stores = s.stores := rfl
@[simp] theorem dropYield_seeds (s : State) (x : CtxId) : (dropYield s x).seeds = s.seeds := rfl
@[simp] theorem dropYield_prefetches (s : State) (x : CtxId) : (dropYield s x).prefetches = s.prefetches := rfl
@[simp] theorem dropYield_deposits (s : State) (x : CtxId) : (dropYield s x).deposits = s.deposits := rfl
@[simp] theorem dropYield_flights (s : State) (x : CtxId) : (dropYield s x).flights = s.flights := rfl
@[simp] theorem dropYield_xfers (s : State) (x : CtxId) : (dropYield s x).xfers = s.xfers := rfl
@[simp] theorem dropYield_merges (s : State) (x : CtxId) : (dropYield s x).merges = s.merges := rfl
@[simp] theorem dropYield_cancels (s : State) (x : CtxId) : (dropYield s x).cancels = s.cancels := rfl
@[simp] theorem dropYield_chunks (s : State) (x : CtxId) : (dropYield s x).chunks = s.chunks := rfl
@[simp] theorem dropYield_chunkMsgs (s : State) (x : CtxId) : (dropYield s x).chunkMsgs = s.chunkMsgs := rfl
@[simp] theorem dropYield_groups (s : State) (x : CtxId) : (dropYield s x).groups = s.groups := rfl
@[simp] theorem dropYield_launches (s : State) (x : CtxId) : (dropYield s x).launches = s.launches := rfl
@[simp] theorem dropYield_queues (s : State) (x : CtxId) : (dropYield s x).queues = s.queues := rfl
@[simp] theorem dropYield_sites (s : State) (x : CtxId) : (dropYield s x).sites = s.sites := rfl
@[simp] theorem dropYield_dies (s : State) (x : CtxId) : (dropYield s x).dies = s.dies := rfl
@[simp] theorem dropYield_parts (s : State) (x : CtxId) : (dropYield s x).parts = s.parts := rfl
@[simp] theorem dropYield_pkgs (s : State) (x : CtxId) : (dropYield s x).pkgs = s.pkgs := rfl
@[simp] theorem dropYield_saves (s : State) (x : CtxId) : (dropYield s x).saves = s.saves := rfl
@[simp] theorem dropYield_ids (s : State) (x : CtxId) : (dropYield s x).ids = s.ids := rfl

@[simp] theorem wake_now (s : State) (x : CtxId) (a : Nat) : (wake s x a).now = s.now := rfl
@[simp] theorem wake_agenda (s : State) (x : CtxId) (a : Nat) : (wake s x a).agenda = s.agenda := rfl
@[simp] theorem wake_turn (s : State) (x : CtxId) (a : Nat) : (wake s x a).turn = s.turn := rfl
@[simp] theorem wake_cur (s : State) (x : CtxId) (a : Nat) : (wake s x a).cur = s.cur := rfl
@[simp] theorem wake_latencies (s : State) (x : CtxId) (a : Nat) : (wake s x a).latencies = s.latencies := rfl
@[simp] theorem wake_free (s : State) (x : CtxId) (a : Nat) : (wake s x a).free = s.free := rfl
@[simp] theorem wake_fused (s : State) (x : CtxId) (a : Nat) : (wake s x a).fused = s.fused := rfl
@[simp] theorem wake_mem (s : State) (x : CtxId) (a : Nat) : (wake s x a).mem = s.mem := rfl
@[simp] theorem wake_fe (s : State) (x : CtxId) (a : Nat) : (wake s x a).fe = s.fe := rfl
@[simp] theorem wake_lost (s : State) (x : CtxId) (a : Nat) : (wake s x a).lost = s.lost := rfl
@[simp] theorem wake_bad (s : State) (x : CtxId) (a : Nat) : (wake s x a).bad = s.bad := rfl
@[simp] theorem wake_dir (s : State) (x : CtxId) (a : Nat) : (wake s x a).dir = s.dir := rfl
@[simp] theorem wake_lineOld (s : State) (x : CtxId) (a : Nat) : (wake s x a).lineOld = s.lineOld := rfl
@[simp] theorem wake_moves (s : State) (x : CtxId) (a : Nat) : (wake s x a).moves = s.moves := rfl
@[simp] theorem wake_recs (s : State) (x : CtxId) (a : Nat) : (wake s x a).recs = s.recs := rfl
@[simp] theorem wake_sOrder (s : State) (x : CtxId) (a : Nat) : (wake s x a).sOrder = s.sOrder := rfl
@[simp] theorem wake_stores (s : State) (x : CtxId) (a : Nat) : (wake s x a).stores = s.stores := rfl
@[simp] theorem wake_seeds (s : State) (x : CtxId) (a : Nat) : (wake s x a).seeds = s.seeds := rfl
@[simp] theorem wake_prefetches (s : State) (x : CtxId) (a : Nat) : (wake s x a).prefetches = s.prefetches := rfl
@[simp] theorem wake_deposits (s : State) (x : CtxId) (a : Nat) : (wake s x a).deposits = s.deposits := rfl
@[simp] theorem wake_flights (s : State) (x : CtxId) (a : Nat) : (wake s x a).flights = s.flights := rfl
@[simp] theorem wake_xfers (s : State) (x : CtxId) (a : Nat) : (wake s x a).xfers = s.xfers := rfl
@[simp] theorem wake_merges (s : State) (x : CtxId) (a : Nat) : (wake s x a).merges = s.merges := rfl
@[simp] theorem wake_cancels (s : State) (x : CtxId) (a : Nat) : (wake s x a).cancels = s.cancels := rfl
@[simp] theorem wake_chunks (s : State) (x : CtxId) (a : Nat) : (wake s x a).chunks = s.chunks := rfl
@[simp] theorem wake_chunkMsgs (s : State) (x : CtxId) (a : Nat) : (wake s x a).chunkMsgs = s.chunkMsgs := rfl
@[simp] theorem wake_groups (s : State) (x : CtxId) (a : Nat) : (wake s x a).groups = s.groups := rfl
@[simp] theorem wake_launches (s : State) (x : CtxId) (a : Nat) : (wake s x a).launches = s.launches := rfl
@[simp] theorem wake_queues (s : State) (x : CtxId) (a : Nat) : (wake s x a).queues = s.queues := rfl
@[simp] theorem wake_sites (s : State) (x : CtxId) (a : Nat) : (wake s x a).sites = s.sites := rfl
@[simp] theorem wake_dies (s : State) (x : CtxId) (a : Nat) : (wake s x a).dies = s.dies := rfl
@[simp] theorem wake_parts (s : State) (x : CtxId) (a : Nat) : (wake s x a).parts = s.parts := rfl
@[simp] theorem wake_pkgs (s : State) (x : CtxId) (a : Nat) : (wake s x a).pkgs = s.pkgs := rfl
@[simp] theorem wake_saves (s : State) (x : CtxId) (a : Nat) : (wake s x a).saves = s.saves := rfl
@[simp] theorem wake_ids (s : State) (x : CtxId) (a : Nat) : (wake s x a).ids = s.ids := rfl

@[simp] theorem logPhys_now (s : State) (pkg ty code : Nat) (addr who : W64) : (logPhys s pkg ty code addr who).now = s.now := rfl
@[simp] theorem logPhys_agenda (s : State) (pkg ty code : Nat) (addr who : W64) : (logPhys s pkg ty code addr who).agenda = s.agenda := rfl
@[simp] theorem logPhys_turn (s : State) (pkg ty code : Nat) (addr who : W64) : (logPhys s pkg ty code addr who).turn = s.turn := rfl
@[simp] theorem logPhys_cur (s : State) (pkg ty code : Nat) (addr who : W64) : (logPhys s pkg ty code addr who).cur = s.cur := rfl
@[simp] theorem logPhys_latencies (s : State) (pkg ty code : Nat) (addr who : W64) : (logPhys s pkg ty code addr who).latencies = s.latencies := rfl
@[simp] theorem logPhys_free (s : State) (pkg ty code : Nat) (addr who : W64) : (logPhys s pkg ty code addr who).free = s.free := rfl
@[simp] theorem logPhys_fused (s : State) (pkg ty code : Nat) (addr who : W64) : (logPhys s pkg ty code addr who).fused = s.fused := rfl
@[simp] theorem logPhys_mem (s : State) (pkg ty code : Nat) (addr who : W64) : (logPhys s pkg ty code addr who).mem = s.mem := rfl
@[simp] theorem logPhys_fe (s : State) (pkg ty code : Nat) (addr who : W64) : (logPhys s pkg ty code addr who).fe = s.fe := rfl
@[simp] theorem logPhys_lost (s : State) (pkg ty code : Nat) (addr who : W64) : (logPhys s pkg ty code addr who).lost = s.lost := rfl
@[simp] theorem logPhys_bad (s : State) (pkg ty code : Nat) (addr who : W64) : (logPhys s pkg ty code addr who).bad = s.bad := rfl
@[simp] theorem logPhys_dir (s : State) (pkg ty code : Nat) (addr who : W64) : (logPhys s pkg ty code addr who).dir = s.dir := rfl
@[simp] theorem logPhys_lineOld (s : State) (pkg ty code : Nat) (addr who : W64) : (logPhys s pkg ty code addr who).lineOld = s.lineOld := rfl
@[simp] theorem logPhys_moves (s : State) (pkg ty code : Nat) (addr who : W64) : (logPhys s pkg ty code addr who).moves = s.moves := rfl
@[simp] theorem logPhys_recs (s : State) (pkg ty code : Nat) (addr who : W64) : (logPhys s pkg ty code addr who).recs = s.recs := rfl
@[simp] theorem logPhys_sOrder (s : State) (pkg ty code : Nat) (addr who : W64) : (logPhys s pkg ty code addr who).sOrder = s.sOrder := rfl
@[simp] theorem logPhys_stores (s : State) (pkg ty code : Nat) (addr who : W64) : (logPhys s pkg ty code addr who).stores = s.stores := rfl
@[simp] theorem logPhys_seeds (s : State) (pkg ty code : Nat) (addr who : W64) : (logPhys s pkg ty code addr who).seeds = s.seeds := rfl
@[simp] theorem logPhys_prefetches (s : State) (pkg ty code : Nat) (addr who : W64) : (logPhys s pkg ty code addr who).prefetches = s.prefetches := rfl
@[simp] theorem logPhys_deposits (s : State) (pkg ty code : Nat) (addr who : W64) : (logPhys s pkg ty code addr who).deposits = s.deposits := rfl
@[simp] theorem logPhys_flights (s : State) (pkg ty code : Nat) (addr who : W64) : (logPhys s pkg ty code addr who).flights = s.flights := rfl
@[simp] theorem logPhys_xfers (s : State) (pkg ty code : Nat) (addr who : W64) : (logPhys s pkg ty code addr who).xfers = s.xfers := rfl
@[simp] theorem logPhys_merges (s : State) (pkg ty code : Nat) (addr who : W64) : (logPhys s pkg ty code addr who).merges = s.merges := rfl
@[simp] theorem logPhys_cancels (s : State) (pkg ty code : Nat) (addr who : W64) : (logPhys s pkg ty code addr who).cancels = s.cancels := rfl
@[simp] theorem logPhys_chunks (s : State) (pkg ty code : Nat) (addr who : W64) : (logPhys s pkg ty code addr who).chunks = s.chunks := rfl
@[simp] theorem logPhys_chunkMsgs (s : State) (pkg ty code : Nat) (addr who : W64) : (logPhys s pkg ty code addr who).chunkMsgs = s.chunkMsgs := rfl
@[simp] theorem logPhys_groups (s : State) (pkg ty code : Nat) (addr who : W64) : (logPhys s pkg ty code addr who).groups = s.groups := rfl
@[simp] theorem logPhys_launches (s : State) (pkg ty code : Nat) (addr who : W64) : (logPhys s pkg ty code addr who).launches = s.launches := rfl
@[simp] theorem logPhys_queues (s : State) (pkg ty code : Nat) (addr who : W64) : (logPhys s pkg ty code addr who).queues = s.queues := rfl
@[simp] theorem logPhys_cores (s : State) (pkg ty code : Nat) (addr who : W64) : (logPhys s pkg ty code addr who).cores = s.cores := rfl
@[simp] theorem logPhys_sites (s : State) (pkg ty code : Nat) (addr who : W64) : (logPhys s pkg ty code addr who).sites = s.sites := rfl
@[simp] theorem logPhys_dies (s : State) (pkg ty code : Nat) (addr who : W64) : (logPhys s pkg ty code addr who).dies = s.dies := rfl
@[simp] theorem logPhys_parts (s : State) (pkg ty code : Nat) (addr who : W64) : (logPhys s pkg ty code addr who).parts = s.parts := rfl
@[simp] theorem logPhys_saves (s : State) (pkg ty code : Nat) (addr who : W64) : (logPhys s pkg ty code addr who).saves = s.saves := rfl
@[simp] theorem logPhys_ids (s : State) (pkg ty code : Nat) (addr who : W64) : (logPhys s pkg ty code addr who).ids = s.ids := rfl

@[simp] theorem undo_now (s : State) : (undo s).now = s.now := rfl
@[simp] theorem undo_agenda (s : State) : (undo s).agenda = s.agenda := rfl
@[simp] theorem undo_turn (s : State) : (undo s).turn = s.turn := rfl
@[simp] theorem undo_latencies (s : State) : (undo s).latencies = s.latencies := rfl
@[simp] theorem undo_free (s : State) : (undo s).free = s.free := rfl
@[simp] theorem undo_fused (s : State) : (undo s).fused = s.fused := rfl
@[simp] theorem undo_mem (s : State) : (undo s).mem = s.mem := rfl
@[simp] theorem undo_fe (s : State) : (undo s).fe = s.fe := rfl
@[simp] theorem undo_lost (s : State) : (undo s).lost = s.lost := rfl
@[simp] theorem undo_bad (s : State) : (undo s).bad = s.bad := rfl
@[simp] theorem undo_dir (s : State) : (undo s).dir = s.dir := rfl
@[simp] theorem undo_lineOld (s : State) : (undo s).lineOld = s.lineOld := rfl
@[simp] theorem undo_moves (s : State) : (undo s).moves = s.moves := rfl
@[simp] theorem undo_recs (s : State) : (undo s).recs = s.recs := rfl
@[simp] theorem undo_sOrder (s : State) : (undo s).sOrder = s.sOrder := rfl
@[simp] theorem undo_stores (s : State) : (undo s).stores = s.stores := rfl
@[simp] theorem undo_seeds (s : State) : (undo s).seeds = s.seeds := rfl
@[simp] theorem undo_prefetches (s : State) : (undo s).prefetches = s.prefetches := rfl
@[simp] theorem undo_deposits (s : State) : (undo s).deposits = s.deposits := rfl
@[simp] theorem undo_flights (s : State) : (undo s).flights = s.flights := rfl
@[simp] theorem undo_xfers (s : State) : (undo s).xfers = s.xfers := rfl
@[simp] theorem undo_merges (s : State) : (undo s).merges = s.merges := rfl
@[simp] theorem undo_cancels (s : State) : (undo s).cancels = s.cancels := rfl
@[simp] theorem undo_chunks (s : State) : (undo s).chunks = s.chunks := rfl
@[simp] theorem undo_chunkMsgs (s : State) : (undo s).chunkMsgs = s.chunkMsgs := rfl
@[simp] theorem undo_groups (s : State) : (undo s).groups = s.groups := rfl
@[simp] theorem undo_launches (s : State) : (undo s).launches = s.launches := rfl
@[simp] theorem undo_queues (s : State) : (undo s).queues = s.queues := rfl
@[simp] theorem undo_cores (s : State) : (undo s).cores = s.cores := rfl
@[simp] theorem undo_sites (s : State) : (undo s).sites = s.sites := rfl
@[simp] theorem undo_dies (s : State) : (undo s).dies = s.dies := rfl
@[simp] theorem undo_parts (s : State) : (undo s).parts = s.parts := rfl
@[simp] theorem undo_pkgs (s : State) : (undo s).pkgs = s.pkgs := rfl
@[simp] theorem undo_saves (s : State) : (undo s).saves = s.saves := rfl
@[simp] theorem undo_ids (s : State) : (undo s).ids = s.ids := rfl

@[simp] theorem setFe_now (s : State) (key : Nat) (w : FeWord) : (setFe s key w).now = s.now := rfl
@[simp] theorem setFe_agenda (s : State) (key : Nat) (w : FeWord) : (setFe s key w).agenda = s.agenda := rfl
@[simp] theorem setFe_turn (s : State) (key : Nat) (w : FeWord) : (setFe s key w).turn = s.turn := rfl
@[simp] theorem setFe_cur (s : State) (key : Nat) (w : FeWord) : (setFe s key w).cur = s.cur := rfl
@[simp] theorem setFe_latencies (s : State) (key : Nat) (w : FeWord) : (setFe s key w).latencies = s.latencies := rfl
@[simp] theorem setFe_free (s : State) (key : Nat) (w : FeWord) : (setFe s key w).free = s.free := rfl
@[simp] theorem setFe_fused (s : State) (key : Nat) (w : FeWord) : (setFe s key w).fused = s.fused := rfl
@[simp] theorem setFe_mem (s : State) (key : Nat) (w : FeWord) : (setFe s key w).mem = s.mem := rfl
@[simp] theorem setFe_lost (s : State) (key : Nat) (w : FeWord) : (setFe s key w).lost = s.lost := rfl
@[simp] theorem setFe_bad (s : State) (key : Nat) (w : FeWord) : (setFe s key w).bad = s.bad := rfl
@[simp] theorem setFe_dir (s : State) (key : Nat) (w : FeWord) : (setFe s key w).dir = s.dir := rfl
@[simp] theorem setFe_lineOld (s : State) (key : Nat) (w : FeWord) : (setFe s key w).lineOld = s.lineOld := rfl
@[simp] theorem setFe_moves (s : State) (key : Nat) (w : FeWord) : (setFe s key w).moves = s.moves := rfl
@[simp] theorem setFe_recs (s : State) (key : Nat) (w : FeWord) : (setFe s key w).recs = s.recs := rfl
@[simp] theorem setFe_sOrder (s : State) (key : Nat) (w : FeWord) : (setFe s key w).sOrder = s.sOrder := rfl
@[simp] theorem setFe_stores (s : State) (key : Nat) (w : FeWord) : (setFe s key w).stores = s.stores := rfl
@[simp] theorem setFe_seeds (s : State) (key : Nat) (w : FeWord) : (setFe s key w).seeds = s.seeds := rfl
@[simp] theorem setFe_prefetches (s : State) (key : Nat) (w : FeWord) : (setFe s key w).prefetches = s.prefetches := rfl
@[simp] theorem setFe_deposits (s : State) (key : Nat) (w : FeWord) : (setFe s key w).deposits = s.deposits := rfl
@[simp] theorem setFe_flights (s : State) (key : Nat) (w : FeWord) : (setFe s key w).flights = s.flights := rfl
@[simp] theorem setFe_xfers (s : State) (key : Nat) (w : FeWord) : (setFe s key w).xfers = s.xfers := rfl
@[simp] theorem setFe_merges (s : State) (key : Nat) (w : FeWord) : (setFe s key w).merges = s.merges := rfl
@[simp] theorem setFe_cancels (s : State) (key : Nat) (w : FeWord) : (setFe s key w).cancels = s.cancels := rfl
@[simp] theorem setFe_chunks (s : State) (key : Nat) (w : FeWord) : (setFe s key w).chunks = s.chunks := rfl
@[simp] theorem setFe_chunkMsgs (s : State) (key : Nat) (w : FeWord) : (setFe s key w).chunkMsgs = s.chunkMsgs := rfl
@[simp] theorem setFe_groups (s : State) (key : Nat) (w : FeWord) : (setFe s key w).groups = s.groups := rfl
@[simp] theorem setFe_launches (s : State) (key : Nat) (w : FeWord) : (setFe s key w).launches = s.launches := rfl
@[simp] theorem setFe_queues (s : State) (key : Nat) (w : FeWord) : (setFe s key w).queues = s.queues := rfl
@[simp] theorem setFe_cores (s : State) (key : Nat) (w : FeWord) : (setFe s key w).cores = s.cores := rfl
@[simp] theorem setFe_sites (s : State) (key : Nat) (w : FeWord) : (setFe s key w).sites = s.sites := rfl
@[simp] theorem setFe_dies (s : State) (key : Nat) (w : FeWord) : (setFe s key w).dies = s.dies := rfl
@[simp] theorem setFe_parts (s : State) (key : Nat) (w : FeWord) : (setFe s key w).parts = s.parts := rfl
@[simp] theorem setFe_pkgs (s : State) (key : Nat) (w : FeWord) : (setFe s key w).pkgs = s.pkgs := rfl
@[simp] theorem setFe_saves (s : State) (key : Nat) (w : FeWord) : (setFe s key w).saves = s.saves := rfl
@[simp] theorem setFe_ids (s : State) (key : Nat) (w : FeWord) : (setFe s key w).ids = s.ids := rfl

@[simp] theorem sendFrame_now (s : State) (pkg : Nat) (b : OBody) : (sendFrame s pkg b).now = s.now := rfl
@[simp] theorem sendFrame_agenda (s : State) (pkg : Nat) (b : OBody) : (sendFrame s pkg b).agenda = s.agenda := rfl
@[simp] theorem sendFrame_turn (s : State) (pkg : Nat) (b : OBody) : (sendFrame s pkg b).turn = s.turn := rfl
@[simp] theorem sendFrame_cur (s : State) (pkg : Nat) (b : OBody) : (sendFrame s pkg b).cur = s.cur := rfl
@[simp] theorem sendFrame_latencies (s : State) (pkg : Nat) (b : OBody) : (sendFrame s pkg b).latencies = s.latencies := rfl
@[simp] theorem sendFrame_free (s : State) (pkg : Nat) (b : OBody) : (sendFrame s pkg b).free = s.free := rfl
@[simp] theorem sendFrame_fused (s : State) (pkg : Nat) (b : OBody) : (sendFrame s pkg b).fused = s.fused := rfl
@[simp] theorem sendFrame_mem (s : State) (pkg : Nat) (b : OBody) : (sendFrame s pkg b).mem = s.mem := rfl
@[simp] theorem sendFrame_fe (s : State) (pkg : Nat) (b : OBody) : (sendFrame s pkg b).fe = s.fe := rfl
@[simp] theorem sendFrame_lost (s : State) (pkg : Nat) (b : OBody) : (sendFrame s pkg b).lost = s.lost := rfl
@[simp] theorem sendFrame_bad (s : State) (pkg : Nat) (b : OBody) : (sendFrame s pkg b).bad = s.bad := rfl
@[simp] theorem sendFrame_dir (s : State) (pkg : Nat) (b : OBody) : (sendFrame s pkg b).dir = s.dir := rfl
@[simp] theorem sendFrame_lineOld (s : State) (pkg : Nat) (b : OBody) : (sendFrame s pkg b).lineOld = s.lineOld := rfl
@[simp] theorem sendFrame_moves (s : State) (pkg : Nat) (b : OBody) : (sendFrame s pkg b).moves = s.moves := rfl
@[simp] theorem sendFrame_recs (s : State) (pkg : Nat) (b : OBody) : (sendFrame s pkg b).recs = s.recs := rfl
@[simp] theorem sendFrame_sOrder (s : State) (pkg : Nat) (b : OBody) : (sendFrame s pkg b).sOrder = s.sOrder := rfl
@[simp] theorem sendFrame_stores (s : State) (pkg : Nat) (b : OBody) : (sendFrame s pkg b).stores = s.stores := rfl
@[simp] theorem sendFrame_seeds (s : State) (pkg : Nat) (b : OBody) : (sendFrame s pkg b).seeds = s.seeds := rfl
@[simp] theorem sendFrame_prefetches (s : State) (pkg : Nat) (b : OBody) : (sendFrame s pkg b).prefetches = s.prefetches := rfl
@[simp] theorem sendFrame_deposits (s : State) (pkg : Nat) (b : OBody) : (sendFrame s pkg b).deposits = s.deposits := rfl
@[simp] theorem sendFrame_flights (s : State) (pkg : Nat) (b : OBody) : (sendFrame s pkg b).flights = s.flights := rfl
@[simp] theorem sendFrame_xfers (s : State) (pkg : Nat) (b : OBody) : (sendFrame s pkg b).xfers = s.xfers := rfl
@[simp] theorem sendFrame_merges (s : State) (pkg : Nat) (b : OBody) : (sendFrame s pkg b).merges = s.merges := rfl
@[simp] theorem sendFrame_cancels (s : State) (pkg : Nat) (b : OBody) : (sendFrame s pkg b).cancels = s.cancels := rfl
@[simp] theorem sendFrame_chunks (s : State) (pkg : Nat) (b : OBody) : (sendFrame s pkg b).chunks = s.chunks := rfl
@[simp] theorem sendFrame_chunkMsgs (s : State) (pkg : Nat) (b : OBody) : (sendFrame s pkg b).chunkMsgs = s.chunkMsgs := rfl
@[simp] theorem sendFrame_groups (s : State) (pkg : Nat) (b : OBody) : (sendFrame s pkg b).groups = s.groups := rfl
@[simp] theorem sendFrame_launches (s : State) (pkg : Nat) (b : OBody) : (sendFrame s pkg b).launches = s.launches := rfl
@[simp] theorem sendFrame_queues (s : State) (pkg : Nat) (b : OBody) : (sendFrame s pkg b).queues = s.queues := rfl
@[simp] theorem sendFrame_cores (s : State) (pkg : Nat) (b : OBody) : (sendFrame s pkg b).cores = s.cores := rfl
@[simp] theorem sendFrame_sites (s : State) (pkg : Nat) (b : OBody) : (sendFrame s pkg b).sites = s.sites := rfl
@[simp] theorem sendFrame_dies (s : State) (pkg : Nat) (b : OBody) : (sendFrame s pkg b).dies = s.dies := rfl
@[simp] theorem sendFrame_parts (s : State) (pkg : Nat) (b : OBody) : (sendFrame s pkg b).parts = s.parts := rfl
@[simp] theorem sendFrame_saves (s : State) (pkg : Nat) (b : OBody) : (sendFrame s pkg b).saves = s.saves := rfl
@[simp] theorem sendFrame_ids (s : State) (pkg : Nat) (b : OBody) : (sendFrame s pkg b).ids = s.ids := rfl

end Sys2Proof.Machine
end

