-- ==== Sys2Proof/Laws/Access.lean ====
section
/-! SUPPORT. Reading a component of the state after an update of it, and what the shared operations of issue
leave alone. -/

namespace Sys2Proof.Machine

open Sys2Proof

theorem coreOf_setCore (s : State) (c d : Nat) (k : Core) :
    coreOf (setCore s c k) d = if d = c then k else coreOf s d := Map.get_put _ _ _ _ _

theorem coreOf_modCore (s : State) (c d : Nat) (f : Core → Core) :
    coreOf (modCore s c f) d = if d = c then f (coreOf s c) else coreOf s d := coreOf_setCore _ _ _ _

@[simp] theorem coreOf_modCore_self (s : State) (c : Nat) (f : Core → Core) :
    coreOf (modCore s c f) c = f (coreOf s c) := by simp [coreOf_modCore]

theorem coreOf_modCore_ne (s : State) (c d : Nat) (f : Core → Core) (h : d ≠ c) :
    coreOf (modCore s c f) d = coreOf s d := by simp [coreOf_modCore, h]

/-- A slot update replaces one slot of one core. -/
theorem coreOf_modSlot (s : State) (x : CtxId) (f : Slot → Slot) (d : Nat) :
    coreOf (modSlot s x f) d =
      if d = x.core then { coreOf s x.core with slots := Map.put (coreOf s x.core).slots x.slot (f (slotOf s x)) }
      else coreOf s d := coreOf_modCore _ _ _ _

theorem slotOf_modSlot (s : State) (x y : CtxId) (f : Slot → Slot) :
    slotOf (modSlot s x f) y = if y = x then f (slotOf s x) else slotOf s y := by
  obtain ⟨xc, xs⟩ := x
  obtain ⟨yc, ys⟩ := y
  simp only [slotOf, coreOf_modSlot, CtxId.mk.injEq]
  by_cases h : yc = xc
  · subst h
    simp only [if_true, Map.get_put, true_and]
  · simp [h]

@[simp] theorem slotOf_modSlot_self (s : State) (x : CtxId) (f : Slot → Slot) :
    slotOf (modSlot s x f) x = f (slotOf s x) := by simp [slotOf_modSlot]

theorem slotOf_modSlot_ne (s : State) (x y : CtxId) (f : Slot → Slot) (h : y ≠ x) :
    slotOf (modSlot s x f) y = slotOf s y := by simp [slotOf_modSlot, h]

theorem ctxOf_modSlot (s : State) (x y : CtxId) (f : Slot → Slot) :
    ctxOf (modSlot s x f) y = if y = x then (f (slotOf s x)).ctx else ctxOf s y := by
  simp only [ctxOf, slotOf_modSlot]; split <;> rfl

theorem ctxOf_modCtx (s : State) (x y : CtxId) (f : Ctx → Ctx) :
    ctxOf (modCtx s x f) y = if y = x then f (ctxOf s x) else ctxOf s y := ctxOf_modSlot _ _ _ _

@[simp] theorem ctxOf_modCtx_self (s : State) (x : CtxId) (f : Ctx → Ctx) :
    ctxOf (modCtx s x f) x = f (ctxOf s x) := by simp [ctxOf_modCtx]

theorem slotOf_modCtx (s : State) (x y : CtxId) (f : Ctx → Ctx) :
    slotOf (modCtx s x f) y = if y = x then { slotOf s x with ctx := f (slotOf s x).ctx } else slotOf s y :=
  slotOf_modSlot _ _ _ _

/-- A core update that leaves the slots alone leaves every context alone. -/
theorem slotOf_modCore (s : State) (c : Nat) (f : Core → Core) (h : ∀ k, (f k).slots = k.slots) (x : CtxId) :
    slotOf (modCore s c f) x = slotOf s x := by
  simp only [slotOf, coreOf_modCore]
  split
  · rename_i e; rw [h, e]
  · rfl

theorem ctxOf_modCore (s : State) (c : Nat) (f : Core → Core) (h : ∀ k, (f k).slots = k.slots) (x : CtxId) :
    ctxOf (modCore s c f) x = ctxOf s x := by rw [ctxOf, slotOf_modCore s c f h x]; rfl

/-- A context update leaves a core's other parts alone: stated through any function of a core that does not
look at the slots. -/
theorem coreOf_modCtx {α : Type} (g : Core → α) (hg : ∀ k l, g { k with slots := l } = g k) (s : State) (x : CtxId)
    (f : Ctx → Ctx) (d : Nat) : g (coreOf (modCtx s x f) d) = g (coreOf s d) := by
  rw [modCtx, coreOf_modSlot]
  split
  · rename_i e; rw [hg, e]
  · rfl

@[simp] theorem siteOf_modSite_self (s : State) (c : Nat) (f : Site → Site) :
    siteOf (modSite s c f) c = f (siteOf s c) := Map.get_put_self _ _ _ _

theorem siteOf_modSite (s : State) (c d : Nat) (f : Site → Site) :
    siteOf (modSite s c f) d = if d = c then f (siteOf s c) else siteOf s d := Map.get_put _ _ _ _ _

@[simp] theorem pkgAt_modPkg_self (s : State) (c : Nat) (f : Pkg → Pkg) :
    pkgAt (modPkg s c f) c = f (pkgAt s c) := Map.get_put_self _ _ _ _

theorem pkgAt_modPkg (s : State) (c d : Nat) (f : Pkg → Pkg) :
    pkgAt (modPkg s c f) d = if d = c then f (pkgAt s c) else pkgAt s d := Map.get_put _ _ _ _ _

@[simp] theorem partOf_modPart_self (s : State) (p : PartId) (f : Part → Part) :
    partOf (modPart s p f) p = f (partOf s p) := Map.get_put_self _ _ _ _

@[simp] theorem dieAt_modDie_self (s : State) (c : Nat) (f : Die → Die) :
    dieAt (modDie s c f) c = f (dieAt s c) := Map.get_put_self _ _ _ _

/-! ### Components that other updates leave alone -/

@[simp] theorem coreOf_modSite (s : State) (c d : Nat) (f : Site → Site) : coreOf (modSite s c f) d = coreOf s d := rfl
@[simp] theorem coreOf_modPkg (s : State) (c d : Nat) (f : Pkg → Pkg) : coreOf (modPkg s c f) d = coreOf s d := rfl
@[simp] theorem coreOf_modPart (s : State) (c : PartId) (d : Nat) (f : Part → Part) :
    coreOf (modPart s c f) d = coreOf s d := rfl
@[simp] theorem coreOf_modDie (s : State) (c d : Nat) (f : Die → Die) : coreOf (modDie s c f) d = coreOf s d := rfl
@[simp] theorem coreOf_at (s : State) (t : Nat) (i : Instr) (d : Nat) : coreOf (at_ s t i) d = coreOf s d := rfl
@[simp] theorem ctxOf_modSite (s : State) (c : Nat) (f : Site → Site) (x : CtxId) :
    ctxOf (modSite s c f) x = ctxOf s x := rfl
@[simp] theorem ctxOf_modPkg (s : State) (c : Nat) (f : Pkg → Pkg) (x : CtxId) :
    ctxOf (modPkg s c f) x = ctxOf s x := rfl
@[simp] theorem ctxOf_modPart (s : State) (c : PartId) (f : Part → Part) (x : CtxId) :
    ctxOf (modPart s c f) x = ctxOf s x := rfl
@[simp] theorem ctxOf_modDie (s : State) (c : Nat) (f : Die → Die) (x : CtxId) :
    ctxOf (modDie s c f) x = ctxOf s x := rfl
@[simp] theorem ctxOf_at (s : State) (t : Nat) (i : Instr) (x : CtxId) : ctxOf (at_ s t i) x = ctxOf s x := rfl

@[simp] theorem me_modCore (s : State) (c : Nat) (f : Core → Core) : me (modCore s c f) = me s := rfl
@[simp] theorem me_modCtx (s : State) (x : CtxId) (f : Ctx → Ctx) : me (modCtx s x f) = me s := rfl
@[simp] theorem me_modSlot (s : State) (x : CtxId) (f : Slot → Slot) : me (modSlot s x f) = me s := rfl
@[simp] theorem me_modPkg (s : State) (c : Nat) (f : Pkg → Pkg) : me (modPkg s c f) = me s := rfl
@[simp] theorem me_modSite (s : State) (c : Nat) (f : Site → Site) : me (modSite s c f) = me s := rfl
@[simp] theorem me_modDie (s : State) (c : Nat) (f : Die → Die) : me (modDie s c f) = me s := rfl
@[simp] theorem me_modPart (s : State) (c : PartId) (f : Part → Part) : me (modPart s c f) = me s := rfl
@[simp] theorem me_at (s : State) (t : Nat) (i : Instr) : me (at_ s t i) = me s := rfl

/-! ### Moving on -/

/-- ADVANCE: the issuing context stands at the sequential successor; every other context stands as it did. -/
theorem ctxOf_advance (s : State) (x : CtxId) :
    ctxOf (advance s) x =
      if x = me s then { myCtx s with pc := s.cur.nx, entry := .flow, source := s.cur.src } else ctxOf s x :=
  ctxOf_modCtx _ _ _ _

theorem slotOf_advance (s : State) (x : CtxId) :
    slotOf (advance s) x =
      if x = me s then { slotOf s (me s) with ctx := { myCtx s with pc := s.cur.nx, entry := .flow, source := s.cur.src } }
      else slotOf s x :=
  slotOf_modCtx _ _ _ _

/-! ### The checks of every issue -/

/-- The checks pass exactly where the instruction is ready. -/
theorem holdOf_eq_go (os rs : List Opnd) (s : State) (h : holdOf os rs s = .go) :
    s.cur.pair = true ∨ (os.any (badLiteral s) = false ∧ os.any (outsideWindow (myCtx s)) = false ∧
      absent s os = none ∧ ((myCore s).schk && os.any (inWindow s)) = false ∧
      rs.any (fun o => (marksOf s o).poison) = false) := by
  unfold holdOf at h
  split at h
  · exact .inl ‹_›
  · split at h
    · exact Hold.noConfusion h
    · split at h
      · exact Hold.noConfusion h
      · split at h
        · split at h
          · split at h
            · exact Hold.noConfusion h
            · split at h <;> exact Hold.noConfusion h
          · exact Hold.noConfusion h
        · split at h
          · exact Hold.noConfusion h
          · split at h
            · exact Hold.noConfusion h
            · refine .inr ⟨?_, ?_, ?_, ?_, ?_⟩ <;> simp_all

/-- The effect of an instruction that passes its checks, its operands read or, where it is not performed after all,
unread. -/
theorem readThen_cases (rs : List Opnd) (k : State → State) (s : State) :
    readThen rs k s = k (markRead rs s) ∨ readThen rs k s = k s := by
  unfold readThen
  dsimp only
  split
  · exact .inr rfl
  · exact .inl rfl

/-- An instruction that is performed has read its operands. -/
theorem readThen_done (rs : List Opnd) (k : State → State) (s : State) (h : (k (markRead rs s)).cur.undone = false) :
    readThen rs k s = k (markRead rs s) := by simp [readThen, h]

/-- What an issue answers: always a next state, of the effect, of a fault or of a park. -/
theorem issue_cases (os rs : List Opnd) (k : State → State) (s : State) :
    (holdOf os rs s = .go ∧ issue os rs k s = .next (readThen rs k s)) ∨
    (∃ c i, holdOf os rs s = .fault c i ∧ issue os rs k s = .next (fault c i s)) ∨
    (∃ st w, holdOf os rs s = .park st w ∧ issue os rs k s = .next (parkBefore st w s)) := by
  unfold issue
  cases h : holdOf os rs s with
  | go => exact .inl ⟨rfl, rfl⟩
  | fault c i => exact .inr (.inl ⟨c, i, rfl, rfl⟩)
  | park st w => exact .inr (.inr ⟨st, w, rfl, rfl⟩)

theorem issue_go (os rs : List Opnd) (k : State → State) (s : State) (h : holdOf os rs s = .go) :
    issue os rs k s = .next (readThen rs k s) := by simp [issue, h]

/-- A first element that a test accepts is accepted, is in the list, and none before it is accepted. -/
theorem firstWhere_some {α : Type} (p : α → Bool) (l : List α) (a : α) (h : firstWhere p l = some a) :
    a ∈ l ∧ p a = true := by
  induction l with
  | nil => simp [firstWhere] at h
  | cons b t ih =>
    simp only [firstWhere] at h
    split at h
    · cases h; exact ⟨List.mem_cons_self, ‹_›⟩
    · exact ⟨List.mem_cons_of_mem _ (ih h).1, (ih h).2⟩

theorem firstWhere_none {α : Type} (p : α → Bool) (l : List α) :
    firstWhere p l = none ↔ ∀ a ∈ l, p a = false := by
  induction l with
  | nil => simp [firstWhere]
  | cons b t ih =>
    simp only [firstWhere]
    split <;> simp_all

end Sys2Proof.Machine
end

