-- ==== Sys2Proof/Laws/Memory.lean ====
section
/-! SUPPORT. Memory as contexts read it: writes at home, the recall of dirty stash sectors, and that each
operation keeps the canonical form. -/

namespace Sys2Proof.Machine

open Sys2Proof

/-- A lane of packed lanes. -/
theorem packLanes_lane (w : Nat) (l : List Nat) (i : Nat) :
    packLanes w l / 2 ^ (w * i) % 2 ^ w = (l.getD i 0) % 2 ^ w := by
  induction l generalizing i with
  | nil => simp [packLanes]
  | cons v t ih =>
    simp only [packLanes]
    cases i with
    | zero => simp [Nat.add_mul_mod_self_left]
    | succ i =>
      have h := ih i
      rw [show w * (i + 1) = w + w * i by rw [Nat.mul_add]; omega, Nat.pow_add, ← Nat.div_div_eq_div_mul,
        Nat.add_mul_div_left _ _ (Nat.two_pow_pos w), Nat.div_eq_of_lt (Nat.mod_lt _ (Nat.two_pow_pos w)), Nat.zero_add, h]
      simp

theorem readByte_of_mem (s t : State) (hm : t.mem = s.mem) (hd : t.dir = s.dir)
    (hs : ∀ c, (coreOf t c).stash = (coreOf s c).stash) (key : Nat) : readByte t key = readByte s key := by
  simp only [readByte, hm, hd, hs]

@[simp] theorem recall_cores (s : State) (sec : Nat) : (recallSector s sec).cores = s.cores := by
  unfold recallSector; split <;> rfl
@[simp] theorem coreOf_recall (s : State) (sec c : Nat) : coreOf (recallSector s sec) c = coreOf s c := by
  simp [coreOf]
@[simp] theorem recall_fe (s : State) (sec : Nat) : (recallSector s sec).fe = s.fe := by
  unfold recallSector; split <;> rfl

theorem recall_inv (s : State) (sec : Nat) (h : s.Inv) : (recallSector s sec).Inv := by
  unfold recallSector
  split
  · exact ⟨memWrite_wf _ _ _ _ h.1, Map.sorted_del _ _ h.2⟩
  · exact h

theorem recall_dir (s : State) (sec k : Nat) (h : s.Inv) :
    Map.get? (recallSector s sec).dir k = if k = sec then none else Map.get? s.dir k := by
  unfold recallSector
  split
  · exact Map.get?_del _ _ _ h.2
  · split <;> simp_all

/-- A recalled sector reads as it did. -/
theorem readByte_recall (s : State) (sec key : Nat) (h : s.Inv) : readByte (recallSector s sec) key = readByte s key := by
  cases hd : Map.get? s.dir sec with
  | none => simp [recallSector, hd]
  | some e =>
    obtain ⟨core, off⟩ := e
    have hr : recallSector s sec = { s with
        mem := memWrite s.mem (sec * 32) 32
          (packLanes 8 ((upto 32).map fun i => (Map.get (coreOf s core).stash (off + i) 0).toNat))
        dir := Map.del s.dir sec } := by simp [recallSector, hd]
    rw [hr]
    simp only [readByte, Map.get?_del _ _ _ h.2]
    by_cases hk : key / 32 = sec
    · subst hk
      simp only [if_true, hd]
      rw [memGet_memWrite _ _ _ _ _ h.1, if_pos (by omega)]
      have hl := packLanes_lane 8 ((upto 32).map fun i => (Map.get (coreOf s core).stash (off + i) 0).toNat) (key - key / 32 * 32)
      apply BitVec.eq_of_toNat_eq
      rw [BitVec.toNat_ofNat, show (256 : Nat) = 2 ^ 8 from rfl, ← Nat.pow_mul, hl]
      have h32 : key - key / 32 * 32 = key % 32 := by omega
      rw [h32]
      have hlt : key % 32 < 32 := Nat.mod_lt _ (by decide)
      simp only [upto, List.getD_eq_getElem?_getD, List.getElem?_map, List.getElem?_range hlt, Option.map_some,
        Option.getD_some]
      exact Nat.mod_eq_of_lt (BitVec.isLt _)
    · simp only [hk, if_false]
      cases hg : Map.get? s.dir (key / 32) with
      | some e => rfl
      | none =>
        simp only []
        rw [memGet_memWrite _ _ _ _ _ h.1, if_neg (by omega)]

theorem recall_same (s : State) (sec : Nat) (h : s.Inv) : SameMemory s (recallSector s sec) := fun key =>
  ⟨readByte_recall s sec key h, by simp [feOf]⟩

/-- Keeping what an executable line was changes nothing that an access sees. -/
theorem keepLine_same (s : State) (key : Nat) :
    (keepLine s key).mem = s.mem ∧ (keepLine s key).dir = s.dir ∧ (keepLine s key).fe = s.fe ∧
      (keepLine s key).cores = s.cores := by
  unfold keepLine
  split <;> exact ⟨rfl, rfl, rfl, rfl⟩

@[simp] theorem keepLine_cores (s : State) (key : Nat) : (keepLine s key).cores = s.cores := (keepLine_same s key).2.2.2
@[simp] theorem keepLine_fe (s : State) (key : Nat) : (keepLine s key).fe = s.fe := (keepLine_same s key).2.2.1

theorem keepLine_inv (s : State) (key : Nat) (h : s.Inv) : (keepLine s key).Inv := by
  rw [State.Inv, (keepLine_same s key).1, (keepLine_same s key).2.1]; exact h

theorem readByte_keepLine (s : State) (key a : Nat) : readByte (keepLine s key) a = readByte s a :=
  readByte_of_mem _ _ (keepLine_same s key).1 (keepLine_same s key).2.1 (fun c => by simp [coreOf]) a

theorem writeN_inv (s : State) (key n v : Nat) (h : s.Inv) : (writeN s key n v).Inv := by
  have h2 := recall_inv _ ((key + n - 1) / 32) (recall_inv _ (key / 32) (keepLine_inv s key h))
  exact ⟨memWrite_wf _ _ _ _ h2.1, h2.2⟩

/-- `n ≤ 33` bytes written at home: each byte in range reads as its byte of the value, every other as it did. -/
theorem readByte_writeN (s : State) (key n v a : Nat) (h : s.Inv) (hn : n ≤ 33) :
    readByte (writeN s key n v) a =
      if key ≤ a ∧ a < key + n then BitVec.ofNat 8 (v / 256 ^ (a - key)) else readByte s a := by
  have h0 := keepLine_inv s key h
  have h1 := recall_inv _ (key / 32) h0
  have h2 := recall_inv _ ((key + n - 1) / 32) h1
  have hb : readByte (recallSector (recallSector (keepLine s key) (key / 32)) ((key + n - 1) / 32)) a = readByte s a := by
    rw [readByte_recall _ _ _ h1, readByte_recall _ _ _ h0, readByte_keepLine]
  by_cases hr : key ≤ a ∧ a < key + n
  · rw [if_pos hr]
    have hd : Map.get? (recallSector (recallSector (keepLine s key) (key / 32)) ((key + n - 1) / 32)).dir (a / 32) =
        none := by
      rw [recall_dir _ _ _ h1, recall_dir _ _ _ h0]
      by_cases e1 : a / 32 = (key + n - 1) / 32
      · rw [if_pos e1]
      · rw [if_neg e1, if_pos (by omega)]
    simp only [readByte, writeN, hd]
    rw [memGet_memWrite _ _ _ _ _ h2.1, if_pos hr]
  · rw [if_neg hr, ← hb]
    simp only [readByte, writeN, coreOf]
    split
    · rfl
    · rw [memGet_memWrite _ _ _ _ _ h2.1, if_neg hr]

@[simp] theorem writeN_cores (s : State) (key n v : Nat) : (writeN s key n v).cores = s.cores := by simp [writeN]
@[simp] theorem coreOf_writeN (s : State) (key n v c : Nat) : coreOf (writeN s key n v) c = coreOf s c := by
  simp [coreOf]
@[simp] theorem writeN_fe (s : State) (key n v : Nat) : (writeN s key n v).fe = s.fe := by simp [writeN]

/-- The canonical form depends on memory and the map of dirty sectors alone. -/
theorem inv_of_eq {s t : State} (hm : t.mem = s.mem) (hd : t.dir = s.dir) (h : s.Inv) : t.Inv := by
  rw [State.Inv, hm, hd]; exact h

theorem reset_inv : State.reset.Inv := by constructor <;> rfl

end Sys2Proof.Machine
end

