-- ==== Sys2Proof/Laws/Quiet.lean ====
section
/-! SUPPORT. Operations that leave memory, full/empty marks, register files and stashes alone: one lemma per
operation, and how they compose. -/

namespace Sys2Proof.Machine

open Sys2Proof

/-- Memory, full/empty marks, every register file and every stash stand as they did. -/
def Quiet (s t : State) : Prop :=
  t.mem = s.mem ∧ t.dir = s.dir ∧ t.fe = s.fe ∧
    ∀ c, (coreOf t c).rf = (coreOf s c).rf ∧ (coreOf t c).stash = (coreOf s c).stash

theorem Quiet.refl (s : State) : Quiet s s := ⟨rfl, rfl, rfl, fun _ => ⟨rfl, rfl⟩⟩

theorem Quiet.trans {s t u : State} (h : Quiet s t) (g : Quiet t u) : Quiet s u :=
  ⟨g.1.trans h.1, g.2.1.trans h.2.1, g.2.2.1.trans h.2.2.1, fun c =>
    ⟨(g.2.2.2 c).1.trans (h.2.2.2 c).1, (g.2.2.2 c).2.trans (h.2.2.2 c).2⟩⟩

theorem Quiet.memory {s t : State} (h : Quiet s t) : SameMemory s t := fun key =>
  ⟨readByte_of_mem s t h.1 h.2.1 (fun c => (h.2.2.2 c).2) key, by simp only [feOf, h.2.2.1]⟩

theorem Quiet.byte {s t : State} (h : Quiet s t) (a : Nat) : readByte t a = readByte s a := (h.memory a).1

theorem Quiet.mark {s t : State} (h : Quiet s t) (a : Nat) : feOf t a = feOf s a := (h.memory a).2

theorem Quiet.regs {s t : State} (h : Quiet s t) : SameRegs s t := fun c e => by
  simp only [entryVal, (h.2.2.2 c).1]

theorem Quiet.inv {s t : State} (h : Quiet s t) (i : s.Inv) : t.Inv := inv_of_eq h.1 h.2.1 i

/-- An update of anything but memory, marks and cores. -/
theorem Quiet.of_eq {s t : State} (hm : t.mem = s.mem) (hd : t.dir = s.dir) (hf : t.fe = s.fe)
    (hc : t.cores = s.cores) : Quiet s t :=
  ⟨hm, hd, hf, fun c => by simp only [coreOf, hc]; exact ⟨trivial, trivial⟩⟩

/-- A core update that leaves the register file and the stash alone. -/
theorem quiet_modCore (s : State) (c : Nat) (f : Core → Core)
    (h : ∀ k, (f k).rf = k.rf ∧ (f k).stash = k.stash) : Quiet s (modCore s c f) :=
  ⟨rfl, rfl, rfl, fun d => by
    rw [coreOf_modCore]; split
    · rename_i e; rw [e]; exact h _
    · exact ⟨rfl, rfl⟩⟩

theorem quiet_setCore (s : State) (c : Nat) (k : Core)
    (h : k.rf = (coreOf s c).rf ∧ k.stash = (coreOf s c).stash) : Quiet s (setCore s c k) :=
  ⟨rfl, rfl, rfl, fun d => by
    rw [coreOf_setCore]; split
    · rename_i e; rw [e]; exact h
    · exact ⟨rfl, rfl⟩⟩

/-- Every core replaced by one with the same register file and stash. -/
theorem coreOf_map (s : State) (f : Nat → Core → Core) (m : Map Core) (hm : m = s.cores.map fun e => (e.1, f e.1 e.2))
    (h : ∀ c k, (f c k).rf = k.rf ∧ (f c k).stash = k.stash) (c : Nat) :
    (Map.get m c Core.zero).rf = (coreOf s c).rf ∧ (Map.get m c Core.zero).stash = (coreOf s c).stash := by
  subst hm
  simp only [coreOf, Map.get]
  induction s.cores with
  | nil => exact ⟨rfl, rfl⟩
  | cons e t ih =>
    obtain ⟨k, w⟩ := e
    simp only [List.map_cons, Map.get?]
    split
    · exact h _ _
    · exact ih

theorem quiet_foldl {α : Type} (l : List α) (f : State → α → State) (h : ∀ s a, Quiet s (f s a)) (s : State) :
    Quiet s (l.foldl f s) := by
  induction l generalizing s with
  | nil => exact Quiet.refl s
  | cons a t ih => exact (h s a).trans (ih _)

theorem quiet_modSlot (s : State) (x : CtxId) (f : Slot → Slot) : Quiet s (modSlot s x f) :=
  quiet_modCore _ _ _ fun _ => ⟨rfl, rfl⟩
theorem quiet_setSlot (s : State) (x : CtxId) (k : Slot) : Quiet s (setSlot s x k) :=
  quiet_modCore _ _ _ fun _ => ⟨rfl, rfl⟩
theorem quiet_modCtx (s : State) (x : CtxId) (f : Ctx → Ctx) : Quiet s (modCtx s x f) := quiet_modSlot _ _ _
theorem quiet_mod (s : State) (f : Ctx → Ctx) : Quiet s (mod s f) := quiet_modSlot _ _ _
theorem quiet_setStatus (s : State) (x : CtxId) (i : Nat) (b : Bool) : Quiet s (setStatus s x i b) := quiet_modSlot _ _ _
theorem quiet_setSt (s : State) (x : CtxId) (st : SlotSt) : Quiet s (setSt s x st) := quiet_modSlot _ _ _
theorem quiet_advance (s : State) : Quiet s (advance s) := quiet_modSlot _ _ _
theorem quiet_jump (t : VA) (s : State) : Quiet s (jump t s) := quiet_modSlot _ _ _
theorem quiet_dropYield (s : State) (x : CtxId) : Quiet s (dropYield s x) := quiet_modCore _ _ _ fun _ => ⟨rfl, rfl⟩
theorem quiet_setMarks (s : State) (c e : Nat) (f : Marks → Marks) : Quiet s (setMarks s c e f) :=
  quiet_modCore _ _ _ fun _ => ⟨rfl, rfl⟩
theorem quiet_modSite (s : State) (c : Nat) (f : Site → Site) : Quiet s (modSite s c f) := .of_eq rfl rfl rfl rfl
theorem quiet_modDie (s : State) (c : Nat) (f : Die → Die) : Quiet s (modDie s c f) := .of_eq rfl rfl rfl rfl
theorem quiet_modPart (s : State) (p : PartId) (f : Part → Part) : Quiet s (modPart s p f) := .of_eq rfl rfl rfl rfl
theorem quiet_modPkg (s : State) (c : Nat) (f : Pkg → Pkg) : Quiet s (modPkg s c f) := .of_eq rfl rfl rfl rfl
theorem quiet_at (s : State) (t : Nat) (i : Instr) : Quiet s (at_ s t i) := .of_eq rfl rfl rfl rfl
theorem quiet_atOnce (s : State) (t : Nat) (i : Instr) : Quiet s (atOnce s t i) := .of_eq rfl rfl rfl rfl
theorem quiet_logPhys (s : State) (pkg ty code : Nat) (addr who : W64) : Quiet s (logPhys s pkg ty code addr who) :=
  quiet_modPkg _ _ _
theorem quiet_sendFrame (s : State) (pkg : Nat) (b : OBody) : Quiet s (sendFrame s pkg b) := quiet_modPkg _ _ _
theorem quiet_modLog (s : State) (p : PartId) (f : CkLog → CkLog) : Quiet s (modLog s p f) := quiet_modPart _ _ _
theorem quiet_modGroup (s : State) (p : PartId) (g : Nat) (f : Group → Group) : Quiet s (modGroup s p g f) :=
  .of_eq rfl rfl rfl rfl
theorem quiet_undo (s : State) : Quiet s (undo s) := .of_eq rfl rfl rfl rfl
theorem quiet_clearLost (s : State) (k n : Nat) : Quiet s (clearLost s k n) := .of_eq rfl rfl rfl rfl

theorem quiet_fresh (s : State) : Quiet s (fresh s).2 := .of_eq rfl rfl rfl rfl
theorem quiet_nextLat (s : State) : Quiet s (nextLat s).2 := by
  unfold nextLat; split <;> exact .of_eq rfl rfl rfl rfl
theorem quiet_nextChoice (s : State) : Quiet s (nextChoice s).2 := .of_eq rfl rfl rfl rfl

theorem quiet_pmCore (s : State) (c ev n : Nat) : Quiet s (pmCore s c ev n) := by
  unfold pmCore; split
  · exact .refl s
  · exact quiet_modCore _ _ _ fun _ => ⟨rfl, rfl⟩
theorem quiet_pmDie (s : State) (c p ev : Nat) : Quiet s (pmDie s c p ev) := by
  unfold pmDie; split
  · exact .refl s
  · exact quiet_modDie _ _ _
theorem quiet_note (s : State) (c k sl sub : Nat) (p : W64) : Quiet s (note s c k sl sub p) := by
  unfold note; split
  · exact quiet_modCore _ _ _ fun _ => ⟨rfl, rfl⟩
  · exact .refl s

theorem quiet_countCycles (s : State) (c n : Nat) (l : List Nat) : Quiet s (countCycles s c n l) := by
  unfold countCycles
  dsimp only
  split
  · exact .refl s
  · refine .trans ((quiet_pmCore _ _ _ _).trans (quiet_pmCore _ _ _ _)) (quiet_foldl _ _ (fun s i => ?_) _)
    split
    · exact quiet_pmCore _ _ _ _
    · exact .refl s

theorem catchUp_rf (k : Core) (len now : Nat) :
    (Core.catchUp k len now).rf = k.rf ∧ (Core.catchUp k len now).stash = k.stash := by
  unfold Core.catchUp; split <;> exact ⟨rfl, rfl⟩

theorem quiet_catchCore (s : State) (c : Nat) : Quiet s (catchCore s c) := by
  have h : Quiet s (setCore s c (Core.catchUp (coreOf s c) (cyc s c) s.now)) := quiet_setCore _ _ _ (catchUp_rf _ _ _)
  unfold catchCore
  dsimp only
  split
  · exact h
  · exact h.trans (quiet_countCycles _ _ _ _)

theorem quiet_wake (s : State) (x : CtxId) (a : Nat) : Quiet s (wake s x a) := quiet_modSlot _ _ _
theorem quiet_wakeOperands (s : State) (c a : Nat) (p : WaitOn → Bool) : Quiet s (wakeOperands s c a p) :=
  quiet_modCore _ _ _ fun _ => ⟨rfl, rfl⟩
theorem quiet_wakeDrain (s : State) (o : CtxId) : Quiet s (wakeDrain s o) :=
  quiet_foldl _ _ (fun _ _ => quiet_wake _ _ _) _
theorem quiet_wakeMemory (s : State) (c : Nat) (p : WaitOn → Bool) : Quiet s (wakeMemory s c p) :=
  (quiet_catchCore _ _).trans (quiet_wakeOperands _ _ _ _)
theorem quiet_retryThrottled (s : State) (q : WaitOn → Bool) : Quiet s (retryThrottled s q) :=
  quiet_foldl _ _ (fun _ _ => quiet_at _ _ _) _
theorem quiet_reply (s : State) (x : CtxId) (r : Reply) : Quiet s (reply s x r) :=
  (quiet_modCtx _ _ _).trans (quiet_at _ _ _)

theorem quiet_markRead (rs : List Opnd) (s : State) : Quiet s (markRead rs s) := by
  refine quiet_foldl _ _ (fun s o => ?_) s
  split
  · split
    · exact quiet_setMarks _ _ _ _
    · exact .refl s
  · exact .refl s

theorem quiet_clearPresence (s : State) (d : Dest) : Quiet s (clearPresence s d) := by
  unfold clearPresence; split
  · exact quiet_setMarks _ _ _ _
  · exact .refl s

theorem quiet_openWindow (s : State) (L : Nat) (d : Dest) (v : Reg) : Quiet s (openWindow s L d v) := by
  unfold openWindow; split
  · exact .refl s
  · exact quiet_modCore _ _ _ fun _ => ⟨rfl, rfl⟩

theorem quiet_openVar (s : State) (L : Nat) (d : Dest) (v : Reg) (l : Option Unbound) : Quiet s (openVar s L d v l) := by
  unfold openVar; split
  · exact .refl s
  · exact (quiet_clearPresence _ _).trans (quiet_modCore _ _ _ fun _ => ⟨rfl, rfl⟩)

theorem quiet_openResult (s : State) (d : Dest) (v : Reg) : Quiet s (openResult s d v) :=
  (quiet_nextLat s).trans (quiet_openVar _ _ _ _ _)
theorem quiet_result (d : Opnd) (v : Reg) (s : State) : Quiet s (result d v s) :=
  (quiet_openResult _ _ _).trans (quiet_advance _)
theorem quiet_resultOf (d : Opnd) (v : Reg) (l : List LoadPart) (s : State) : Quiet s (resultOf d v l s) :=
  (quiet_fresh s).trans ((quiet_nextLat _).trans ((quiet_openVar _ _ _ _ _).trans (quiet_advance _)))

theorem quiet_parkBefore (st : SlotSt) (w : WaitOn) (s : State) : Quiet s (parkBefore st w s) :=
  (quiet_modSlot _ _ _).trans ((quiet_dropYield _ _).trans (quiet_undo _))
theorem quiet_parkOn (st : SlotSt) (w : WaitOn) (d : Dest) (s : State) : Quiet s (parkOn st w d s) :=
  (quiet_clearPresence s d).trans ((quiet_modSlot _ _ _).trans ((quiet_dropYield _ _).trans (.of_eq rfl rfl rfl rfl)))

theorem quiet_stopCtx (s : State) (x : CtxId) (k : Cause) (e : VA) : Quiet s (stopCtx s x k e) :=
  (quiet_logPhys _ _ _ _ _ _).trans ((quiet_foldl _ _ (fun _ _ => quiet_logPhys _ _ _ _ _ _) _).trans
    ((quiet_modSlot _ _ _).trans (quiet_dropYield _ _)))

theorem quiet_withoutBad (s : State) (x : CtxId) (l : Prv) : Quiet s (withoutBad s x l) := by
  unfold withoutBad; split
  · exact .refl s
  · exact (quiet_setMarks _ _ _ _).trans (quiet_modCtx _ _ _)

theorem quiet_enterTrap (s : State) (x : CtxId) (k : Cause) (i : W64) (e : VA) (a r : Bool) :
    Quiet s (enterTrap s x k i e a r) := by
  unfold enterTrap
  dsimp only
  split
  · exact quiet_stopCtx _ _ _ _
  · exact (quiet_pmCore _ _ _ _).trans ((quiet_note _ _ _ _ _ _).trans
      ((quiet_withoutBad _ _ _).trans (quiet_modSlot _ _ _)))

theorem quiet_takeTrap (s : State) (x : CtxId) (k : Cause) (i : W64) (e : VA) (a r : Bool) :
    Quiet s (takeTrap s x k i e a r) := by
  unfold takeTrap
  dsimp only
  split
  · exact (quiet_dropYield _ _).trans (quiet_modSlot _ _ _)
  · exact (quiet_dropYield _ _).trans (quiet_enterTrap _ _ _ _ _ _ _)

theorem quiet_fault (k : Cause) (i : W64) (s : State) : Quiet s (fault k i s) :=
  (quiet_takeTrap _ _ _ _ _ _ _).trans (quiet_undo _)
theorem quiet_faultAt (k : Cause) (i : W64) (e : VA) (s : State) : Quiet s (faultAt k i e s) :=
  (quiet_takeTrap _ _ _ _ _ _ _).trans (quiet_undo _)
theorem quiet_faultHere (k : Cause) (s : State) : Quiet s (faultHere k s) := quiet_fault _ _ _
theorem quiet_withBad (s : State) (x : CtxId) (l : Prv) : Quiet s (withBad s x l) := by
  unfold withBad; dsimp only; split
  · exact .refl s
  · exact (quiet_foldl _ _ (fun _ _ => quiet_setMarks _ _ _ _) _).trans
      ((quiet_modCtx _ _ _).trans (quiet_wakeOperands _ _ _ _))

theorem quiet_returnTrap (s : State) (x : CtxId) (l p : Prv) (t : VA) : Quiet s (returnTrap s x l p t) :=
  (quiet_withBad s x l).trans (quiet_modCtx _ _ _)

theorem quiet_bindLoads (s : State) (c : Nat) (f : Unbound → Bool) : Quiet s (bindLoads s c f) := by
  unfold bindLoads; split
  · exact quiet_modCore _ _ _ fun _ => ⟨rfl, rfl⟩
  · exact .refl s
theorem quiet_bindOwn (s : State) (x : CtxId) : Quiet s (bindOwn s x) := quiet_bindLoads _ _ _
theorem quiet_syncPoint (s : State) (x : CtxId) : Quiet s (syncPoint s x) :=
  Quiet.trans (t := { s with
    sOrder := s.sOrder + 1
    recs := s.recs.map fun r =>
      if r.who = refOf s x && r.part = partId s x && !r.sync && r.job.isNone && r.ended.isNone then
        { r with ended := some (s.sOrder + 1) } else r }) (.of_eq rfl rfl rfl rfl) (quiet_modCtx _ _ _)
theorem quiet_newRegion (s : State) (x : CtxId) : Quiet s (newRegion s x) :=
  (quiet_bindOwn s x).trans (quiet_syncPoint _ _)

theorem quiet_trail (s : State) (x : CtxId) (o : Nat) (a r : Bool) : Quiet s (trail s x o a r) := by
  unfold trail; dsimp only; split
  · exact quiet_modLog _ _ _
  · exact .refl s
theorem quiet_syncObj (s : State) (x : CtxId) (o : Nat) (a r : Bool) : Quiet s (syncObj s x o a r) :=
  (quiet_newRegion s x).trans ((quiet_retryThrottled _ _).trans (quiet_trail _ _ _ _ _))
theorem quiet_recSync (s : State) (x : CtxId) (n : Nat) (w : Bool) (p v : VA) : Quiet s (recSync s x n w p v) :=
  .of_eq rfl rfl rfl rfl
theorem quiet_recPlain (s : State) (x : CtxId) (n : Nat) (w : Bool) (p v : VA) : Quiet s (recPlain s x n w p v) :=
  .of_eq rfl rfl rfl rfl
theorem quiet_syncWord (s : State) (x : CtxId) (h : Hit) (a r w : Bool) (p v : VA) :
    Quiet s (syncWord s x h a r w p v) := by
  unfold syncWord; dsimp only; split
  · split
    · exact quiet_syncObj _ _ _ _ _
    · exact (quiet_syncObj _ _ _ _ _).trans (quiet_recSync _ _ _ _ _ _)
  · exact quiet_syncObj _ _ _ _ _
theorem quiet_markOutside (s : State) (x : CtxId) : Quiet s (markOutside s x) := by
  unfold markOutside; dsimp only; split
  · exact quiet_modLog _ _ _
  · exact .refl s

theorem quiet_logUndo (s : State) (p : PartId) (w : CRef) (tx : Option TxId) (d : Bool) (k : Nat) :
    Quiet s (logUndo s p w tx d k) := by
  have add : ∀ (s : State) (t : Option TxId), Quiet s
      (if (partOf s p).log.undo.any (fun u => u.who == w && u.line == k / 64 && u.tx == t) then s
      else modLog s p fun l => { l with undo := l.undo ++ [⟨w, k / 64, t, lineCells s (k / 64), lineMarks s (k / 64)⟩] }) := by
    intro s t; split
    · exact .refl s
    · exact quiet_modLog _ _ _
  unfold logUndo
  split
  · exact .refl s
  · cases tx with
    | none => exact (add s none).trans (quiet_modLog _ _ _)
    | some t => exact (add s none).trans ((add _ _).trans (quiet_modLog _ _ _))

theorem quiet_cmdHook (s : State) (k n : Nat) : Quiet s (cmdHook s k n) := by
  unfold cmdHook
  split
  · exact .refl s
  · refine quiet_foldl _ _ (fun s e => ?_) s
    dsimp only
    split
    · split
      · exact quiet_at _ _ _
      · exact .refl s
    · exact .refl s

theorem quiet_invalidateOthers (s : State) (c k : Nat) : Quiet s (invalidateOthers s c k) :=
  ⟨rfl, rfl, rfl, coreOf_map s
    (fun d m => if d = c then m else { m with l1 := l1Without m.l1 (k / 64) (sectorBit k) }) _
    (by simp only [invalidateOthers]; congr 1; funext e; split <;> rfl)
    (fun d m => by split <;> exact ⟨rfl, rfl⟩)⟩

/-- A write on behalf of a context changes the bytes written and no other. -/
theorem readByte_ctxWrite (s : State) (p : PartId) (w : CRef) (tx : Option TxId) (d : Bool) (key n v a : Nat)
    (h : s.Inv) (hn : n ≤ 33) : readByte (ctxWrite s p w tx d key n v) a =
      if key ≤ a ∧ a < key + n then BitVec.ofNat 8 (v / 256 ^ (a - key)) else readByte s a := by
  have q := quiet_logUndo s p w tx d key
  rw [ctxWrite, (quiet_cmdHook _ _ _).byte, readByte_writeN _ _ _ _ _ (q.inv h) hn, q.byte]

theorem entryVal_ctxWrite (s : State) (p : PartId) (w : CRef) (tx : Option TxId) (d : Bool) (key n v : Nat) :
    SameRegs s (ctxWrite s p w tx d key n v) := fun c e => by
  rw [ctxWrite, (quiet_cmdHook _ _ _).regs]
  show (Map.get (coreOf (writeN (logUndo s p w tx d key) key n v) c).rf e 0) = _
  rw [coreOf_writeN]
  exact (quiet_logUndo s p w tx d key).regs c e

end Sys2Proof.Machine
end

