-- ==== Sys2Proof/Tests/Slice0.lean ====
section
/-! SUPPORT. The model's own tests: words of the manual decoded, ill-formed terms refused, single steps with
results that the manual states, and states that meet the hypotheses of the statements. -/

namespace Sys2Proof.Tests

open Sys2Proof Sys2Proof.Machine Sys2Proof.Claims

/-! ## Words that the manual writes out

Each word stands in the manual's text beside its fields (R14, R27, R362 and the worked encodings). -/

set_option maxRecDepth 10000 in
set_option exponentiation.threshold 500 in
theorem test_decode_bnew : decodeTableWord 96 0x00105000_0FFDCF62_8040006E =
    some (.bnew { FR.blank 0 with d := .g 4, a := .sp .nunits, b := .i20, imm20 := 0x105 }) := by decide

set_option maxRecDepth 10000 in
set_option exponentiation.threshold 500 in
theorem test_decode_nop : decodeTableWord 96 0x00000000_0FFFFFFF_FFF00001 =
    some (.nop (FR.blank 0)) := by decide

set_option maxRecDepth 10000 in
set_option exponentiation.threshold 500 in
theorem test_decode_obl_done : decodeTableWord 96 0x00001000_0FFDCF01_00300269 =
    some (.obl { FR.blank 4 with d := .g 3, a := .g 4, b := .i20, imm20 := 1 }) := by decide

set_option maxRecDepth 10000 in
set_option exponentiation.threshold 500 in
theorem test_decode_nwr : decodeTableWord 96 0x00000000_0FFC0601_7FF00067 =
    some (.nwr { FR.blank 0 with a := .g 5, b := .g 6 }) := by decide

set_option maxRecDepth 10000 in
set_option exponentiation.threshold 500 in
theorem test_decode_add_sat : decodeTableWord 96 0xFFFFF198_2FFDCF00_80600002 =
    some (.add { FR.blank 0 with d := .g 6, a := .g 2, b := .i20, t := .i32x8, sat := true, negA := true, mask := 3, imm20 := 0xFFFFF }) := by decide

set_option maxRecDepth 10000 in
set_option exponentiation.threshold 500 in
theorem test_decode_call : decodeTableWord 96 0x00000003_2FFFFFFF_C1400025 =
    some (.call { FB.blank 0 with d := .g 20, tcell := 2, loff := 3 }) := by decide

set_option maxRecDepth 10000 in
set_option exponentiation.threshold 500 in
theorem test_decode_fma_masked : decodeTableWord 96 0x00000120_700C0200_40400033 =
    some (.fma { FR.blank 0 with d := .g 4, a := .g 1, b := .g 2, c := .g 3, t := .f32x8, negB := true, mask := 2 }) := by decide

set_option maxRecDepth 10000 in
set_option exponentiation.threshold 500 in
theorem test_decode_fma_imm : decodeTableWord 96 0x3F800000_7FFDCF00_40202033 =
    some (.fma { FR.blank 0 with d := .g 2, a := .g 1, b := .i20, stall := 2, t := .f32x8, imm20 := 0x3F800 }) := by decide

set_option maxRecDepth 10000 in
set_option exponentiation.threshold 500 in
theorem test_decode_fma_c_imm : decodeTableWord 96 0x3DCCC000_773C0100_80202033 =
    some (.fma { FR.blank 0 with d := .g 2, a := .g 2, b := .g 1, c := .i20, stall := 2, t := .f32x8, imm20 := 0x3DCCC }) := by decide

set_option maxRecDepth 10000 in
set_option exponentiation.threshold 500 in
theorem test_decode_fma_lit : decodeTableWord 96 0x00000000_77180100_C0302033 =
    some (.fma { FR.blank 0 with d := .g 3, a := .g 3, b := .g 1, c := .lit 2 0, stall := 2, t := .f32x8 }) := by decide

set_option maxRecDepth 10000 in
set_option exponentiation.threshold 500 in
theorem test_decode_fma_const : decodeTableWord 96 0x00000000_72100101_00402033 =
    some (.fma { FR.blank 0 with d := .g 4, a := .g 4, b := .g 1, c := .k 4, stall := 2, t := .f32x8 }) := by decide

set_option maxRecDepth 10000 in
set_option exponentiation.threshold 500 in
theorem test_decode_bri : decodeTableWord 96 0x00000000_0FFFFF02_3FF00024 =
    some (.bri { FB.blank 0 with a := .g 8 }) := by decide

set_option maxRecDepth 10000 in
set_option exponentiation.threshold 500 in
theorem test_decode_qnt : decodeTableWord 96 0x00000000_C00C0200_404004C7 =
    some (.qnt { FR.blank 9 with d := .g 4, a := .g 1, b := .g 2, c := .g 3, t := .o4 }) := by decide

set_option maxRecDepth 10000 in
set_option exponentiation.threshold 500 in
theorem test_decode_atom_cas : decodeTableWord 96 0x00000820_301BFF01_402004E0 =
    some (.atom { FM.blank 9 with d := .g 2, a := .g 5, c := .g 6, sz := .b64, scope := .part, off := 8 }) := by decide

set_option maxRecDepth 10000 in
set_option exponentiation.threshold 500 in
theorem test_decode_kswap : decodeTableWord 96 0x00000000_0FFC0601_4020027D =
    some (.kswap { FR.blank 4 with d := .g 2, a := .g 5, b := .g 6 }) := by decide

set_option maxRecDepth 10000 in
set_option exponentiation.threshold 500 in
theorem test_decode_qsub : decodeTableWord 96 0x00000000_0FFC0601_4020007D =
    some (.qsub { FR.blank 0 with d := .g 2, a := .g 5, b := .g 6 }) := by decide

set_option maxRecDepth 10000 in
set_option exponentiation.threshold 500 in
theorem test_decode_launch : decodeTableWord 96 0x00000000_0FFFFF01_402000FD =
    some (.launch { FR.blank 1 with d := .g 2, a := .g 5 }) := by decide

set_option maxRecDepth 10000 in
set_option exponentiation.threshold 500 in
theorem test_decode_cntw : decodeTableWord 96 0x00000000_0FFC0601_4020017D =
    some (.cntw { FR.blank 2 with d := .g 2, a := .g 5, b := .g 6 }) := by decide

set_option maxRecDepth 10000 in
set_option exponentiation.threshold 500 in
theorem test_decode_cncl : decodeTableWord 96 0x00000000_0FFFFF01_402001FD =
    some (.cncl { FR.blank 3 with d := .g 2, a := .g 5 }) := by decide

set_option maxRecDepth 10000 in
set_option exponentiation.threshold 500 in
theorem test_decode_gred : decodeTableWord 96 0x00000000_001C0601_402002FD =
    some (.gred { FR.blank 5 with d := .g 2, a := .g 5, b := .g 6, c := .g 7 }) := by decide

set_option maxRecDepth 10000 in
set_option exponentiation.threshold 500 in
theorem test_decode_gbc : decodeTableWord 96 0x00000000_001C0601_4020037D =
    some (.gbc { FR.blank 6 with d := .g 2, a := .g 5, b := .g 6, c := .g 7 }) := by decide

set_option maxRecDepth 10000 in
set_option exponentiation.threshold 500 in
theorem test_decode_gag : decodeTableWord 96 0x00000000_001C0601_402003FD =
    some (.gag { FR.blank 7 with d := .g 2, a := .g 5, b := .g 6, c := .g 7 }) := by decide

set_option maxRecDepth 10000 in
set_option exponentiation.threshold 500 in
theorem test_decode_gtbl : decodeTableWord 96 0x00000000_0FFFFF01_4020047D =
    some (.gtbl { FR.blank 8 with d := .g 2, a := .g 5 }) := by decide

set_option maxRecDepth 10000 in
set_option exponentiation.threshold 500 in
theorem test_decode_gtbl_w : decodeTableWord 96 0x00000000_0FFC0601_7FF1047D =
    some (.gtblW { FR.blank 8 with a := .g 5, b := .g 6, flg := 1 }) := by decide

set_option maxRecDepth 10000 in
set_option exponentiation.threshold 500 in
theorem test_decode_tlbi_page : decodeTableWord 96 0x00000000_0FFFFF01_7FF0047E =
    some (.tlbiPage { FS.blank 8 with a := .g 5 }) := by decide

set_option maxRecDepth 10000 in
set_option exponentiation.threshold 500 in
theorem test_decode_pgsnap : decodeTableWord 96 0x00000000_001C0601_4020087E =
    some (.pgsnap { FS.blank 16 with d := .g 2, a := .g 5, b := .g 6, c := .g 7 }) := by decide

set_option maxRecDepth 10000 in
set_option exponentiation.threshold 500 in
theorem test_decode_pgret : decodeTableWord 96 0x00000000_0FFC0601_402008FE =
    some (.pgret { FS.blank 17 with d := .g 2, a := .g 5, b := .g 6 }) := by decide

set_option maxRecDepth 10000 in
set_option exponentiation.threshold 500 in
theorem test_decode_cpy : decodeTableWord 96 0x00000000_0FFFFF20_3FF00077 =
    some (.cpy { FE.blank 0 with a := .k 0 }) := by decide

set_option maxRecDepth 10000 in
set_option exponentiation.threshold 500 in
theorem test_decode_mma : decodeTableWord 96 0x00000040_3FFFFF01_40100078 =
    some (.mma { FE.blank 0 with d := .g 1, a := .g 5, tida := 3, tidb := 4 }) := by decide

set_option maxRecDepth 10000 in
set_option exponentiation.threshold 500 in
theorem test_decode_mdrn : decodeTableWord 96 0x00007000_0FFFFF01_80100079 =
    some (.mdrn { FE.blank 0 with d := .g 1, a := .g 6, tidc := 7 }) := by decide

set_option maxRecDepth 10000 in
set_option exponentiation.threshold 500 in
theorem test_decode_mzro : decodeTableWord 96 0x00000000_0FFFFFFF_C020007A =
    some (.mzro { FE.blank 0 with d := .g 2 }) := by decide

set_option maxRecDepth 10000 in
set_option exponentiation.threshold 500 in
theorem test_decode_jobc : decodeTableWord 96 0x00000000_0FFFFF01_3FF0007B =
    some (.jobc { FE.blank 0 with a := .g 4 }) := by decide

set_option maxRecDepth 10000 in
set_option exponentiation.threshold 500 in
theorem test_decode_tidw : decodeTableWord 96 0x00000000_5FFFFF00_FFF0007C =
    some (.tidw { FE.blank 0 with a := .g 3, tida := 5 }) := by decide

set_option maxRecDepth 10000 in
set_option exponentiation.threshold 500 in
theorem test_decode_tidr : decodeTableWord 96 0x00000000_5FFFFFFF_C07000FC =
    some (.tidr { FE.blank 1 with d := .g 7, tida := 5 }) := by decide

set_option maxRecDepth 10000 in
set_option exponentiation.threshold 500 in
theorem test_decode_tidinv : decodeTableWord 96 0x00000000_5FFFFFFF_FFF0017C =
    some (.tidinv { FE.blank 2 with tida := 5 }) := by decide

set_option maxRecDepth 10000 in
set_option exponentiation.threshold 500 in
theorem test_decode_svc : decodeTableWord 96 0x00000005_0FFFFFFF_FFF0007E =
    some (.svc { FS.blank 0 with imm := 5 }) := by decide

set_option maxRecDepth 10000 in
set_option exponentiation.threshold 500 in
theorem test_decode_hvc : decodeTableWord 96 0x00000000_0FFFFFFF_FFF000FE =
    some (.hvc (FS.blank 1)) := by decide

set_option maxRecDepth 10000 in
set_option exponentiation.threshold 500 in
theorem test_decode_eret : decodeTableWord 96 0x00000000_0FFFFFFF_FFF0017E =
    some (.eret (FS.blank 2)) := by decide

set_option maxRecDepth 10000 in
set_option exponentiation.threshold 500 in
theorem test_decode_sysr : decodeTableWord 96 0x00000101_0FFFFFFF_C03001FE =
    some (.sysr { FS.blank 3 with d := .g 3, imm := 0x101 }) := by decide

set_option maxRecDepth 10000 in
set_option exponentiation.threshold 500 in
theorem test_decode_sysw : decodeTableWord 96 0x00000108_0FFFFF01_3FF0027E =
    some (.sysw { FS.blank 4 with a := .g 4, imm := 0x108 }) := by decide

set_option maxRecDepth 10000 in
set_option exponentiation.threshold 500 in
theorem test_decode_waiti : decodeTableWord 96 0x00000000_0FFFFFFF_FFF003FE =
    some (.waiti (FS.blank 7)) := by decide

set_option maxRecDepth 10000 in
set_option exponentiation.threshold 500 in
theorem test_decode_uiret : decodeTableWord 96 0x00000000_0FFFFFFF_FFF006FE =
    some (.uiret (FS.blank 13)) := by decide

set_option maxRecDepth 10000 in
set_option exponentiation.threshold 500 in
theorem test_decode_uimask : decodeTableWord 96 0x00000001_0FFFFFFF_C020077E =
    some (.uimask { FS.blank 14 with d := .g 2, imm := 1 }) := by decide

set_option maxRecDepth 10000 in
set_option exponentiation.threshold 500 in
theorem test_decode_bkpt : decodeTableWord 96 0x00000003_0FFFFFFF_FFF002FE =
    some (.bkpt { FS.blank 5 with imm := 3 }) := by decide

set_option maxRecDepth 10000 in
set_option exponentiation.threshold 500 in
theorem test_decode_trmk : decodeTableWord 96 0x00000007_0FFFFF01_3FF0037E =
    some (.trmk { FS.blank 6 with a := .g 4, imm := 7 }) := by decide

set_option maxRecDepth 10000 in
set_option exponentiation.threshold 500 in
theorem test_decode_ckpt : decodeTableWord 96 0x00000000_0FFFFFFF_C02004FE =
    some (.ckpt { FS.blank 9 with d := .g 2 }) := by decide

set_option maxRecDepth 10000 in
set_option exponentiation.threshold 500 in
theorem test_decode_tbeg : decodeTableWord 96 0x00000011_0FFFFFFF_C020057E =
    some (.tbeg { FS.blank 10 with d := .g 2, imm := 0x11 }) := by decide

set_option maxRecDepth 10000 in
set_option exponentiation.threshold 500 in
theorem test_decode_tcom : decodeTableWord 96 0x00000000_0FFFFFFF_C03005FE =
    some (.tcom { FS.blank 11 with d := .g 3 }) := by decide

set_option maxRecDepth 10000 in
set_option exponentiation.threshold 500 in
theorem test_decode_tabt : decodeTableWord 96 0x00000007_0FFFFFFF_FFF0067E =
    some (.tabt { FS.blank 12 with imm := 7 }) := by decide

set_option maxRecDepth 10000 in
set_option exponentiation.threshold 500 in
theorem test_decode_gsig : decodeTableWord 96 0x00000000_0FFC0601_40200074 =
    some (.gsig { FR.blank 0 with d := .g 2, a := .g 5, b := .g 6 }) := by decide

set_option maxRecDepth 10000 in
set_option exponentiation.threshold 500 in
theorem test_decode_gwait : decodeTableWord 96 0x00000000_0FFC0501_00300075 =
    some (.gwait { FR.blank 0 with d := .g 3, a := .g 4, b := .g 5 }) := by decide

set_option maxRecDepth 10000 in
set_option exponentiation.threshold 500 in
theorem test_decode_gqry : decodeTableWord 96 0x00000000_0FFFFF01_00700076 =
    some (.gqry { FR.blank 0 with d := .g 7, a := .g 4 }) := by decide

set_option maxRecDepth 10000 in
set_option exponentiation.threshold 500 in
theorem test_decode_gmake : decodeTableWord 96 0x00000000_0FFC0601_402007FE =
    some (.gmakeCreate { FS.blank 15 with d := .g 2, a := .g 5, b := .g 6 }) := by decide

set_option maxRecDepth 10000 in
set_option exponentiation.threshold 500 in
theorem test_decode_spawn_wide : decodeTableWord 96 0x00000000_00041504_80A00065 =
    some (.spawnat { FR.blank 0 with d := .g 10, a := .g 18, b := .g 21, c := .g 1 }) := by decide

set_option maxRecDepth 10000 in
set_option exponentiation.threshold 500 in
theorem test_decode_arm_load : decodeTableWord 96 0x00000000_0FFFFF04_00400068 =
    some (.arm { FR.blank 0 with d := .g 4, a := .g 16 }) := by decide

set_option maxRecDepth 10000 in
set_option exponentiation.threshold 500 in
theorem test_decode_ld_scaled : decodeTableWord 96 0x00000003_3FFC0A00_40900050 =
    some (.ld { FM.blank 0 with d := .g 9, a := .g 1, b := .g 10, sz := .b64, scl := 3 }) := by decide

set_option maxRecDepth 10000 in
set_option exponentiation.threshold 500 in
theorem test_decode_stmap : decodeTableWord 96 0x00000000_000FFF00_BFF00058 =
    some (.stmap { FM.blank 0 with a := .g 2, c := .g 3 }) := by decide

set_option maxRecDepth 10000 in
set_option exponentiation.threshold 500 in
theorem test_decode_stmap_at : decodeTableWord 96 0x01800000_0007FF00_3FF00058 =
    some (.stmap { FM.blank 0 with a := .g 0, c := .g 1, off := 0x18000 }) := by decide

set_option maxRecDepth 10000 in
set_option exponentiation.threshold 500 in
theorem test_decode_li_zero_extended : decodeTableWord 96 0x80000140_0FFFFFFF_C0400098 =
    some (.li { FI.blank 1 with d := .g 4, imm := 0x80000140 }) := by decide

set_option maxRecDepth 10000 in
set_option exponentiation.threshold 500 in
theorem test_decode_lih : decodeTableWord 96 0x00000001_0FFFFFFF_C0400019 =
    some (.lih { FI.blank 0 with d := .g 4, imm := 1 }) := by decide

set_option maxRecDepth 10000 in
set_option exponentiation.threshold 500 in
theorem test_decode_obq : decodeTableWord 96 0x00001000_0FFFFF73_C040006C =
    some (.obq { FR.blank 0 with d := .g 4, a := .i20, imm20 := 1 }) := by decide

set_option maxRecDepth 10000 in
set_option exponentiation.threshold 500 in
theorem test_decode_extl : decodeTableWord 96 0x00003000_2FFDCF01_005010BF =
    some (.extl { FR.blank 1 with d := .g 5, a := .g 4, b := .i20, stall := 1, t := .i32x8, imm20 := 3 }) := by decide

set_option maxRecDepth 10000 in
set_option exponentiation.threshold 500 in
theorem test_decode_insl : decodeTableWord 96 0x00002000_2FFDCF01_00301040 =
    some (.insl { FR.blank 0 with d := .g 3, a := .g 4, b := .i20, stall := 1, t := .i32x8, imm20 := 2 }) := by decide

set_option maxRecDepth 10000 in
set_option exponentiation.threshold 500 in
theorem test_decode_br : decodeTableWord 96 0xFFFFFFFF_2FFFFF01_BFF00123 =
    some (.br { FB.blank 2 with a := .g 6, tcell := 2, loff := 0xFFFFFFFF }) := by decide

set_option maxRecDepth 10000 in
set_option exponentiation.threshold 500 in
theorem test_decode_bwait : decodeTableWord 96 0x00000000_0FFFFF01_00600071 =
    some (.bwait { FR.blank 0 with d := .g 6, a := .g 4 }) := by decide

set_option maxRecDepth 10000 in
set_option exponentiation.threshold 500 in
theorem test_decode_xfer : decodeTableWord 96 0x00000000_0FFC03FF_C090006A =
    some (.xfer { FR.blank 0 with d := .g 9, b := .g 3 }) := by decide

set_option maxRecDepth 10000 in
set_option exponentiation.threshold 500 in
theorem test_decode_mov_special : decodeTableWord 96 0x00000000_0FFFFF64_40800017 =
    some (.mov { FR.blank 0 with d := .g 8, a := .sp .xferid }) := by decide


/-! ## Small states -/

/-- A leaf entry with flag bits `fl` and SRANK `rank`. -/
def pte (fl : Nat) (rank : Nat) : W64 := BitVec.ofNat 64 (fl + rank * 2 ^ 52)

/-- Pages 1 (code), 2 (data), 3 (full/empty words of rank 80), 4 (copse words), 5 (flag window). -/
def pages : List TlbEntry :=
  [(1, pte 0x61F 0, 1), (2, pte 0x61F 0, 2), (3, pte 0x717 5, 3), (4, pte 0xE17 0, 2 ^ 28), (5, pte 0x617 0, 2 ^ 27),
    (6, pte 0x717 5, 2 ^ 10 + 6)].map fun (e : Nat × W64 × Nat) => ⟨0, e.1, e.2.1, e.2.2, 0, false, false⟩

/-- A hypervisor context at cell 0 of a line, with the widest window and every rank. -/
def ctx0 : Ctx :=
  { Ctx.zero with
    winSize := 128
    prv := .hyp
    pc := 0x10000
    rstpc := 0x10000
    source := BitVec.allOnes 57
    rkhi := 0x10000 }

/-- Core 0 with those pages, and addresses in its registers: g5 data, g6 a full/empty word, g7 a copse word, g8 a
word of the flag window. -/
def core0 : Core :=
  { Core.zero with
    tlb := pages
    rf := [(1, 3), (2, 7), (5, 0x20000), (6, 0x30000), (7, 0x40000), (8, 0x50008)] }

/-- Context `c` issues from slot 0 of core 0, which is otherwise `k`. -/
def issuing (c : Ctx) (k : Core) : State :=
  { State.reset with
    pkgs := [(0, { Pkg.zero with boot := 6 })]
    cores := [(0, { k with slots := [(0, ⟨.ready, .ready, .ready, 0, c⟩)] })]
    cur := { Cur.zero with
      pc := 0x10000
      pc0 := 0x10000
      nx := 0x10001
      src := BitVec.allOnes 57 } }

def s0 : State := issuing ctx0 core0

/-- Its context at another level. -/
def at_level (p : Prv) : State := issuing { ctx0 with prv := p } core0

def fr (d a b c : Opnd) : FR := { FR.blank 0 with
  d := d
  a := a
  b := b
  c := c }
def fs (d a b c : Opnd) (imm : BitVec 32) : FS := { FS.blank 0 with
  d := d
  a := a
  b := b
  c := c
  imm := imm }
def fm (d a : Opnd) (sz : Sz) : FM := { FM.blank 0 with
  d := d
  a := a
  sz := sz
  scope := .part }
def fe (d a b c : Opnd) : FE := { FE.blank 0 with
  d := d
  a := a
  b := b
  c := c }

/-- The passing of every issue check, as a Bool. -/
def passes (os rs : List Opnd) (s : State) : Bool :=
  s.cur.pair || (os.all (fun o => !badLiteral s o && !outsideWindow (myCtx s) o && (marksOf s o).present &&
    (!(myCore s).schk || !inWindow s o)) && rs.all fun o => !(marksOf s o).poison)

theorem ready_of (os rs : List Opnd) (s : State) (h : passes os rs s = true) : Ready os rs s := by
  simp only [passes, Bool.or_eq_true, Bool.and_eq_true, List.all_eq_true, Bool.not_eq_true'] at h
  rcases h with h | ⟨h, g⟩
  · exact .inl h
  · refine .inr ⟨fun o ho => (h o ho).1.1.1, fun o ho => (h o ho).1.1.2, fun o ho => (h o ho).1.2, ?_, g⟩
    by_cases hk : (myCore s).schk = true
    · right
      intro o ho
      have := (h o ho).2
      rw [hk] at this
      simpa using this
    · left
      simpa using hk

/-- `Clear`, as a Bool. -/
def clearB (s : State) (va : VA) (n : Need) (h : Hit) : Bool :=
  (checkAccess s (me s) va n == .hit h) && reachesSpace s (me s) h.space &&
    !(n.write && guarded s (myPart s) (myCtx s).prv va h.pa n.size) && (match h.space with | .dram site => !(siteOf s site).gated | _ => false) &&
    !lostAt s h.pa n.size && (badAt s h.pa n.size).isNone

theorem clear_of (s : State) (va : VA) (n : Need) (h : Hit) (e : clearB s va n h = true) : Clear s va n h := by
  simp only [clearB, Bool.and_eq_true, beq_iff_eq, Bool.not_eq_true', Option.isNone_iff_eq_none] at e
  obtain ⟨⟨⟨⟨⟨a, b⟩, c⟩, d⟩, f⟩, g⟩ := e
  refine ⟨⟨a, b, fun w => by simpa [w] using c⟩, ?_, f, fun _ => g⟩
  split at d
  · exact ⟨_, ‹_›, by simpa using d⟩
  · exact absurd d (by decide)

/-- `Free` and `Settled`, as Bools. -/
def freeB (s : State) : Bool := (pkgAt s (pkgOf (me s).core)).toSend.all fun b => !ownFrame (originOf s (me s)) b
def settledB (copse : Bool) (s : State) : Bool :=
  drained s (me s) && freeB s &&
    (!copse || (unapplied s (pkgOf (me s).core)).all fun f => !ownWrite (originOf s (me s)) f.body)

theorem free_of (s : State) (h : freeB s = true) : Free s := by
  simpa only [Free, freeB, List.all_eq_true, Bool.not_eq_true'] using h

theorem settled_of (copse : Bool) (s : State) (h : settledB copse s = true) : Settled copse s := by
  simp only [settledB, Bool.and_eq_true, Bool.or_eq_true, List.all_eq_true, Bool.not_eq_true'] at h
  obtain ⟨⟨a, b⟩, c⟩ := h
  refine ⟨a, free_of s b, fun hc f hf => ?_⟩
  rcases c with c | c
  · rw [hc] at c; exact absurd c (by decide)
  · exact c f hf

/-- A tensor of one row of 32 FP8 elements at 0x2_0000. -/
def tensor0 : Reg := BitVec.ofNat 256 (0x20000 + 10 * 2 ^ 64 + 2 ^ 72 + 2 ^ 80 + 32 * 2 ^ 100 + 64 * 2 ^ 128)
/-- A copy of eight bytes from 0x2_0200 to 0x2_0300 at once. -/
def copy0 : Nat := 3 * 2 ^ 24 + 0x20200 * 2 ^ 64 + 0x20300 * 2 ^ 128 + 0xFFFFFFFF * 2 ^ 192 +
  2 ^ 256 + 2 ^ 336 + 2 ^ 416 + 2 ^ 496 + 2 ^ 576 + 2 ^ 656 + 0xFFFFFFFF * 2 ^ 736
/-- A job that waits, its request arrived. -/
def job0 : Job where
  id := 7
  kind := .copy
  ctx := ⟨0, 0⟩
  who := ⟨0, 0, 0⟩
  part := 0
  st := .queued
  arrived := true
  block := BitVec.ofNat 1024 copy0
  tid := 0
  tidA := tensor0
  tidB := tensor0
  pos := BitVec.ofNat 64 (32 * 2 ^ 48)
  acc := 0
  pages := [(2, 2)]
  reads := []
  writes := []
  card := false
  cnt := none
  tokenKey := none
  count := 0
  tiles := []
  rows := []
  timedAt := none
  regionAt := 0
  prv := .hyp
  pkey := 0
  tx := none
  mute := false
  rest := none
  pinned := []
  got := []
  bad := none

/-! ## Ill-formed terms -/

/-- The fields of each check of format FR: a type, SAT, a rounding mode, the three NEG bits, a mask with a scalar type,
a D that is no register, a mask as source, a source that is not used, FLG (R28, R32, R117, R118). -/
theorem test_illformed_FR : ([.add { fr (.g 1) (.g 2) (.g 3) .z with t := .f32 },
    .mulh { fr (.g 1) (.g 2) (.g 3) .z with sat := true }, .add { fr (.g 1) (.g 2) (.g 3) .z with rm := .rz },
    .and { fr (.g 1) (.g 2) (.g 3) .z with negA := true }, .and { fr (.g 1) (.g 2) (.g 3) .z with negB := true },
    .add { fr (.g 1) (.g 2) (.g 3) .z with negC := true }, .add { fr (.g 1) (.g 2) (.g 3) .z with mask := 1 },
    .add (fr (.k 0) (.g 2) (.g 3) .z), .add (fr (.g 1) (.m 1) (.g 3) .z), .add (fr (.g 1) (.g 2) (.g 3) (.g 4)),
    .add { fr (.g 1) (.g 2) (.g 3) .z with flg := 1 }, .add { fr (.g 1) (.g 2) (.g 3) .z with min := 2 },
    .nop { FR.blank 0 with imm20 := 1 }, .migr (fr (.g 1) (.g 2) (.g 3) .z), .arm (fr .z (.g 2) .z .z),
    .bnew (fr .z (.g 2) (.g 3) .z), .gqry (fr .z (.g 2) .z .z), .gtblW (fr .z (.g 2) (.g 3) .z),
    .gred (fr .z (.g 2) (.g 3) .z), .spawn (fr .z (.g 2) .z .z)] : List Instr).all (fun i => !WellFormed i) = true := by
  decide

/-- A compare: VEC with a scalar type, SKIP with a D or with VEC, a mask as D without VEC, a condition that is not
defined (R38, R124, R133); a select by what is no mask; a move to m0; a shuffle of a scalar type (R141, R143). -/
theorem test_illformed_compare : ([.cmp { fr (.m 1) (.g 2) (.g 3) .z with flg := 8 },
    .cmp { fr (.g 1) (.g 2) (.g 3) .z with flg := 1 }, .cmp { fr (.m 1) (.g 2) (.g 3) .z with flg := 9, t := .i32x8 },
    .cmp (fr (.m 1) (.g 2) (.g 3) .z), .cmp { fr (.g 1) (.g 2) (.g 3) .z with min := 12 },
    .cmp { fr (.m 0) (.g 2) (.g 3) .z with flg := 8, t := .i32x8 },
    .fcmp { fr (.g 1) (.g 2) (.g 3) .z with t := .f32, min := 1 }, .sel { fr (.g 1) (.g 2) (.g 3) (.g 4) with t := .i32x8 },
    .mmov (fr (.m 0) (.g 2) .z .z), .shuf (fr (.g 1) (.g 2) (.g 3) .z), .mlog (fr (.g 1) (.m 2) (.m 3) .z),
    .redl { fr (.g 1) (.g 2) .z .z with t := .f32x8, min := 6 }] : List Instr).all (fun i => !WellFormed i) = true := by
  decide

/-- A conversion: lanes that do not pair, a source type that is reserved, DU with a float type, STRICT with no QNT, a
source of UNPK that is no register, a block type that is not O4 (R144 to R150). -/
theorem test_illformed_conversion : ([.cvt { fr (.g 1) (.g 2) .z .z with min := 2, t := .f32 },
    .cvt { fr (.g 1) (.g 2) .z .z with min := 13, t := .f32 },
    .cvt { fr (.g 1) (.g 2) .z .z with min := 6, t := .f32, flg := 2 },
    .cvt { fr (.g 1) (.g 2) .z .z with min := 6, t := .f32, flg := 4 },
    .pack { fr (.g 1) (.g 2) (.g 3) .z with min := 7, t := .f32x8 },
    .unpk { fr (.g 1) (.k 2) .i20 .z with min := 3, t := .f32x8 },
    .qnt { fr (.g 1) (.g 2) (.g 3) (.g 4) with min := 9, t := .f32x8 },
    .dqnt { fr (.g 1) (.g 2) .i20 .z with min := 9, t := .f32x8 }] : List Instr).all (fun i => !WellFormed i) = true := by
  decide

/-- FM: a size, SX with 8 bytes, NT, REL and ACQ where none is defined, a scope without ACQ or REL, a scope that is
required, operands, an offset or scale that must be zero (R34, R169, R170). -/
theorem test_illformed_FM : ([.gth { fm (.g 1) (.g 2) .b8 with scope := .ctx, b := .g 3, c := .m 1 },
    .ld { fm (.g 1) (.g 2) .b64 with scope := .ctx, flg := 8 }, .ldfe { fm (.g 1) (.g 2) .b64 with flg := 4 },
    .ld { fm (.g 1) (.g 2) .b64 with flg := 2 }, .st { fm (.g 1) (.g 2) .b64 with flg := 1 },
    .ld (fm (.g 1) (.g 2) .b64), .ldfe { fm (.g 1) (.g 2) .b64 with scope := .ctx },
    .ld { fm (.k 1) (.g 2) .b64 with scope := .ctx }, .ld { fm (.g 1) .i20 .b64 with scope := .ctx },
    .ld { fm (.g 1) (.g 2) .b64 with scope := .ctx, c := .g 1 },
    .atom { fm (.g 1) (.g 2) .b64 with min := 9 }, .atom { fm (.g 1) (.g 2) .b64 with min := 10, c := .g 3 },
    .stunmap { fm .z .z .b8 with scope := .ctx, c := .g 1, off := 1 },
    .stmap { fm .z (.g 1) .b8 with scope := .ctx, c := .g 1, scl := 1 }] : List Instr).all (fun i => !WellFormed i) = true := by
  decide

/-- FI, FB, FS and FE: D, sources, types, displacements, immediates, STALL of a trap, accumulators and TID fields that
are not allowed (R33, R35 to R37, R123, R126, R335, R362). -/
theorem test_illformed_others : ([.li { FI.blank 0 with t := .f32, d := .g 1 }, .lih { FI.blank 0 with t := .i32, d := .g 1 },
    .li { FI.blank 0 with d := .m 1 }, .br { FB.blank 0 with a := .g 1 }, .br (FB.blank 1), .bri { FB.blank 0 with a := .g 1, loff := 1 },
    .bri { FB.blank 0 with a := .g 1, tcell := 1 }, .loop { FB.blank 0 with a := .k 1 }, .call { FB.blank 0 with d := .k 1 },
    .exit (fs .z .z .z .z 1), .yield (fs .z .z .z .z 0x10000), .trap { FS.blank 0 with stall := 1 },
    .fence (fs .z .z .z .z 0), .fence (fs .z .z .z .z 6), .fenceCode (fs .z .z .z .z 0),
    .tabt (fs .z .z .z .z 0x100), .uimask (fs .z .z .z .z 2), .trmk { fs .z (.g 1) .z .z 0x1000 with min := 6 },
    .gmakeCreate { fs (.g 1) (.g 2) (.g 3) .z 256 with min := 15 }, .mma { fe (.g 4) (.g 1) .z .z with tida := 1 },
    .cpy { fe .z (.g 1) .z .z with tida := 1 }, .cpy { fe .z (.g 1) .z .z with tidb := 1 }, .cpy { fe .z (.g 1) .z .z with tidc := 1 },
    .tidw { fe .z (.k 1) .z .z with tida := 1 }, .mzro { fe (.g 1) (.g 1) .z .z with tida := 0 },
    .sysw { fs .z .z .z .z 0x108 with min := 4 }, .sysr { fs .z .z .z .z 0x108 with min := 3 }] : List Instr).all
      (fun i => !WellFormed i) = true := by
  decide

set_option maxRecDepth 10000 in
set_option exponentiation.threshold 500 in
/-- A zero cell has no opcode (R27), and an operand code between 403 and 447 is reserved (R28). -/
theorem test_refused_words : decodeTableWord 96 0 = none ∧
    decodeTableWord 96 0x00000000_0FFFFFFF_C0300001 = none ∧
    (decode 0 matches .error .opcode) = true := by
  decide

/-! ## Single steps -/

/-- The result in the youngest write window of core 0 after a step. -/
def windowValue (o : Out) : Option (Nat × Nat) :=
  match o with
  | .next t => (coreOf t 0).pend.getLast?.map fun p => (p.due, p.val.toNat)
  | _ => none

/-- Registers of core 0, in place of those of `core0`. -/
def withRegs (rf : Map Reg) (masks : Map W64) : State :=
  issuing { ctx0 with masks := masks } { core0 with rf := rf }

set_option maxRecDepth 20000 in
/-- The worked add of the manual: lanes 0 and 1 of g6 are 0xFFFF_FFFA and 0x8000_0000, the others keep 7. -/
theorem test_add_saturates :
    windowValue (exec (.add { FR.blank 0 with d := .g 6, a := .g 2, b := .i20, imm20 := 0xFFFFF, mask := 3, negA := true, sat := true, t := .i32x8 })
      (withRegs [(2, 0x80000000_00000005), (6, 7 * 2 ^ 64)] [(3, 3)])) =
      some (2, 0x7_80000000_FFFFFFFA) := by
  decide

set_option maxRecDepth 20000 in
/-- The worked FMA of the manual: lane 0 is -5, lane 1 keeps 9, lane 2 overflows to infinity. -/
theorem test_fma_masked :
    windowValue (exec (.fma { FR.blank 0 with d := .g 4, a := .g 1, b := .g 2, c := .g 3, mask := 2, negB := true, t := .f32x8 })
      (withRegs [(1, 0x7F000000_00000000_40400000), (2, 0xC0800000_00000000_40000000), (3, 0x3F800000),
        (4, 0x00000009_00000000)] [(2, 5)])) =
      some (4, 0x7F800000_00000009_C0A00000) := by
  decide

/-- The sixteen elements of the manual's block: 1.5, -1, 12, 0, 0, -6, 0, 0.5 and zeros, as BF16. -/
def blockRegs : Map Reg := [(1, 0x3F00_0000_C0C0_0000_0000_4140_BF80_3FC0), (3, 0x7D), (4, 0xD67D_000000000000000000000000_208C48C6)]

set_option maxRecDepth 20000 in
/-- The worked block of the manual: with k = 2 the scale is 0x7D. -/
theorem test_sclx_block :
    windowValue (exec (.sclx { FR.blank 9 with d := .g 3, a := .g 1, b := .g 2, c := .i20, imm20 := 2, t := .o4 })
      (withRegs blockRegs [])) = some (6, 0x7D) := by
  decide

set_option maxRecDepth 20000 in
/-- The worked block of the manual: bytes C6 48 8C 20, twelve zero bytes, 7D D6. -/
theorem test_qnt_block :
    windowValue (exec (.qnt { FR.blank 9 with d := .g 4, a := .g 1, b := .g 2, c := .g 3, t := .o4 })
      (withRegs blockRegs [])) = some (6, 0xD67D_000000000000000000000000_208C48C6) := by
  decide

set_option maxRecDepth 20000 in
/-- The worked block of the manual, decoded: lanes 1.5, -1, 12, 0, 0, -6, 0, 0.5. -/
theorem test_dqnt_block :
    windowValue (exec (.dqnt { FR.blank 12 with d := .g 5, a := .g 4, b := .i20, t := .f32x8 })
      (withRegs blockRegs [])) =
      some (6, 0x3F000000_00000000_C0C00000_00000000_00000000_41400000_BF800000_3FC00000) := by
  decide

set_option maxRecDepth 20000 in
/-- INT_MIN by -1 truncates to 2^63, which wraps (R120); a divide takes 34 cycles. -/
theorem test_div_wraps :
    (match exec (.div (fr (.g 3) (.g 1) (.g 2) .z)) (withRegs [(1, 2 ^ 63), (2, 2 ^ 64 - 1)] []) with
      | .next t => (coreOf t 0).divq.head?.map fun q => (q.due, q.val.toNat)
      | _ => none) = some (34, 2 ^ 63) := by
  decide

/-- The state with a line of zero cells at an address of page 2, `w` its line word, which every context has seen. -/
def withLine (s : State) (line : Nat) (w : Nat) : State :=
  { writePA s 0 (0x20000 + line) 64 (2 ^ 480 * w) with lineOld := [] }

/-- A call in cell 1 of the line at 0x2_0040, as the manual places it; cell 2 of the target's line is a target. -/
def callState : State :=
  let s := withLine s0 0x100 (4 + 2 ^ 29)
  { s with cur := { s.cur with
      pc := 0x20041
      pc0 := 0x20041
      nx := 0x20042 } }

set_option exponentiation.threshold 500 in
set_option maxRecDepth 20000 in
/-- The worked call of the manual: g20 receives 0x0002_0042 at issue + 2 and the target is 0x0002_0102. -/
theorem test_call_links :
    (match exec (.call { FB.blank 0 with d := .g 20, tcell := 2, loff := 3 }) callState with
      | .next t => (windowValue (.next t), (ctxOf t ⟨0, 0⟩).pc)
      | _ => (none, 0)) = (some (2, 0x20042), 0x20102) := by
  decide

/-- The word at `g5 + 8` holds `v`; g6 holds new 9 and expected 5. -/
def casState (v : Nat) : State :=
  writePA (withRegs [(5, 0x20000), (6, 5 * 2 ^ 64 + 9)] []) 0 0x20008 8 v

def casWord (v : Nat) : Nat :=
  match exec (.atom { FM.blank 9 with d := .g 2, a := .g 5, c := .g 6, sz := .b64, scope := .part, off := 8 }) (casState v) with
  | .next t => readPA t 0 0x20008 8
  | _ => 0

set_option maxRecDepth 20000 in
/-- The worked compare-and-swap of the manual: a 5 becomes 9, a 6 stays. -/
theorem test_cas_word : casWord 5 = 9 ∧ casWord 6 = 6 := by
  decide

set_option maxRecDepth 20000 in
/-- A store posts its bytes and changes no memory before it is performed (R175, R278). -/
theorem test_st_posts :
    (match exec (.st { fm (.g 1) (.g 5) .b64 with scope := .ctx }) s0 with
      | .next t => (t.stores.map fun p => (p.key, p.len, p.val.toNat), t.mem)
      | _ => ([], [])) = ([(0x20000, 8, 3)], []) := by
  decide

set_option maxRecDepth 20000 in
/-- A load of 4 bytes at an odd address faults ALIGNMENT (0x12) before translation (R171). -/
theorem test_ld_alignment :
    (match exec (.ld { fm (.g 3) (.g 5) .b32 with off := 1, scope := .ctx }) s0 with
      | .next t => ((ctxOf t ⟨0, 0⟩).hypBank.ecause, (ctxOf t ⟨0, 0⟩).hypBank.einfo)
      | _ => (0, 0)) = (0x12, 0x20001) := by
  decide

set_option maxRecDepth 20000 in
/-- `svc #5` at a context with no open window enters the guest's handler with cause 0x28 and the code (R361, R363). -/
theorem test_svc_enters :
    (match exec (.svc (fs .z .z .z .z 5)) (issuing { ctx0 with prv := .user, gvec := 0x30000 } core0) with
      | .next t => let c := ctxOf t ⟨0, 0⟩
        (c.prv, c.pc, c.guestBank.einfo, c.guestBank.epc, c.status.getLsbD stGH)
      | _ => (.maker, 0, 0, 0, false)) = (.guest, 0x30000, 5, 0x10001, true) := by
  decide

set_option maxRecDepth 20000 in
/-- `rksplit` outside the interval faults RANK_RANGE, inside it gives `hi << 16 | lo` (R84). -/
theorem test_rksplit :
    windowValue (exec (.rksplit (fr (.g 3) (.g 1) (.g 2) .z)) s0) = some (2, 0x70003) ∧
    (match exec (.rksplit (fr (.g 3) (.g 2) (.g 1) .z)) s0 with
      | .next t => (ctxOf t ⟨0, 0⟩).hypBank.ecause
      | _ => 0) = 0x19 := by
  decide

set_option exponentiation.threshold 500 in
set_option maxRecDepth 20000 in
/-- A placed NOP is the first instruction after reset, and the context goes on to cell 1. -/
theorem test_nop_steps :
    (match step (State.reset.withFetchWord 96 0x0FFFFFFFFFF00001) with
      | .next t => (ctxOf t ⟨0, 0⟩).pc
      | _ => 0) = 0x10001 := by
  decide

/-! ## States that meet the hypotheses of the statements

Each theorem is named after its statement and shows a state and operands that meet the hypotheses together, and
for the clauses that need more, a state for each. -/

/-- An instruction of the family, its cell, and that the cell is that of the instruction. -/
theorem witness_DecodeEncode : WellFormed (.add (fr (.g 1) (.g 2) (.g 127) .z)) = true ∧
    (encode (.add (fr (.g 1) (.g 2) (.g 127) .z))).isSome = true := by
  decide

def f0 : FR := fr (.g 3) (.g 1) (.g 2) .z
def r0 : List Opnd := FR.reads f0 s0

theorem witness_IntegerOperations : Ready f0.fields r0 s0 := ready_of _ _ _ (by decide)

theorem witness_LaneResults_IntegerLanes : (0 < f0.t.lanes ∧ (lanesOn f0 s0).getLsbD 0 = true ∧ f0.t.isScalar = true) ∧
    (let f := { f0 with t := .i32x8, mask := 1 }; 7 < f.t.lanes ∧ (lanesOn f s0).getLsbD 7 = false) := by
  decide

theorem witness_LaneResults_LaneArithmetic : 0 < 1 := by decide

theorem witness_LaneResults_FieldOperations : (0 < 1 ∧ 64 ≤ 64) ∧ wrapNat 8 256 = 0 ∧ wrapNat 8 (-1) ≠ 0 := by decide

theorem witness_Division : Ready f0.fields r0 s0 ∧ zeroLane f0 (markRead r0 s0) = none ∧
    Ready ({ f0 with b := .g 9 } : FR).fields (FR.reads { f0 with b := .g 9 } s0) s0 ∧
    zeroLane { f0 with b := .g 9 } (markRead (FR.reads { f0 with b := .g 9 } s0) s0) = some 0 :=
  ⟨ready_of _ _ _ (by decide), by decide, ready_of _ _ _ (by decide), by decide⟩

theorem witness_Immediates : Ready ({ FI.blank 0 with d := .g 3 } : FI).fields [.g 3] s0 := ready_of _ _ _ (by decide)

theorem witness_Compares_ready : Ready f0.fields r0 s0 := ready_of _ _ _ (by decide)

theorem witness_Compares : ({ f0 with flg := 8, d := .m 1, t := .i32x8 } : FR).vec = true ∧
    (f0.vec = false ∧ f0.skip = 0) ∧ (({ f0 with flg := 3, d := .z } : FR).vec = false ∧ ({ f0 with flg := 3, d := .z } : FR).skip = 3) := by
  decide

/-- A context with every flag enabled; the reciprocal of zero raises one. -/
def enabled0 : State := issuing { ctx0 with fpstat := 0x3F00 } core0
def rcp0 : FR := { fr (.g 3) (.g 9) .z .z with t := .f32 }

def rr0 (s : State) : List Opnd := FR.reads rcp0 s

set_option maxRecDepth 20000 in
theorem witness_FloatResults_FloatOperations : Ready rcp0.fields (rr0 s0) s0 ∧
    noTrapOf s0 (orFlags (floatResult (fun _ a _ _ => frcpF a) rcp0 (markRead (rr0 s0) s0))) := by
  refine ⟨ready_of _ _ _ (by decide), ?_⟩
  unfold noTrapOf; decide

set_option maxRecDepth 20000 in
theorem witness_FloatResults_FloatTraps : Ready rcp0.fields (rr0 enabled0) enabled0 ∧
    ¬ noTrapOf enabled0 (orFlags (floatResult (fun _ a _ _ => frcpF a) rcp0 (markRead (rr0 enabled0) enabled0))) := by
  refine ⟨ready_of _ _ _ (by decide), ?_⟩
  unfold noTrapOf; decide

/-- The square root of -1, which is invalid. -/
def root0 : FR := { fr (.g 3) (.g 1) .z .z with t := .f32 }
def minus1 (c : Ctx) : State := issuing c { core0 with rf := [(1, 0xBF800000)] }
def dot0 : FR := { fr (.g 3) (.g 1) (.g 2) .z with t := .f32x8 }

set_option maxRecDepth 20000 in
theorem witness_RootAndDot : Ready root0.fields (FR.reads root0 s0) s0 ∧ Ready dot0.fields dot0.srcs s0 ∧
    noTrapOf s0 (orFlags (floatResult (fun _ a _ _ => fsqtF a) root0 (markRead (FR.reads root0 s0) s0))) ∧
    ¬ noTrapOf (minus1 { ctx0 with fpstat := 0x3F00 }) (orFlags (floatResult (fun _ a _ _ => fsqtF a) root0
      (markRead (FR.reads root0 (minus1 { ctx0 with fpstat := 0x3F00 })) (minus1 { ctx0 with fpstat := 0x3F00 })))) ∧
    noTrapOf s0 ((fdotSum dot0 (markRead dot0.srcs s0)).2 |||
      (roundSat fp32 dot0.rm dot0.sat (drawOf 1 1) (fdotSum dot0 (markRead dot0.srcs s0)).1).flags) := by
  refine ⟨ready_of _ _ _ (by decide), ready_of _ _ _ (by decide), ?_, ?_, ?_⟩ <;> (unfold noTrapOf; decide)

theorem witness_LaneMoves_LaneInstructions : Ready f0.fields r0 s0 ∧ Ready f0.fields f0.srcs s0 ∧
    Ready f0.fields (f0.d :: f0.srcs) s0 ∧ f0.t.isFloat = false ∧ rcp0.t.isFloat = true :=
  ⟨ready_of _ _ _ (by decide), ready_of _ _ _ (by decide), ready_of _ _ _ (by decide), by decide, by decide⟩

/-- A float reduction of lanes whose sum overflows. -/
def red32 : FR := { fr (.g 3) (.g 1) .z .z with t := .f32x8 }
def huge0 : State := issuing { ctx0 with fpstat := 0x3F00 } { core0 with rf := [(1, 0x7F7FFFFF_7F7FFFFF)] }

set_option maxRecDepth 20000 in
theorem witness_LaneMoves_Reductions : Ready f0.fields f0.srcs s0 ∧ f0.t.isFloat = false ∧ Ready red32.fields red32.srcs huge0 ∧
    red32.t.isFloat = true ∧
    (let s1 := markRead red32.srcs s0
     noTrapOf s0 ((redFloat red32 s1).2 ||| (roundF fp32 red32.rm (drawOf 1 1) (redFloat red32 s1).1).flags)) ∧
    (let s1 := markRead red32.srcs huge0
     ¬ noTrapOf huge0 ((redFloat red32 s1).2 ||| (roundF fp32 red32.rm (drawOf 1 1) (redFloat red32 s1).1).flags)) := by
  refine ⟨ready_of _ _ _ (by decide), by decide, ready_of _ _ _ (by decide), by decide, ?_, ?_⟩ <;>
    (simp only [noTrapOf]; decide)

def cvt0 : FR := { FR.blank 6 with
  d := .g 3
  a := .g 1
  t := .i32 }

/-- The lanes that a conversion by `f` to `cvt0` gives from the register `v`. -/
def cvtLanes (f : FR) (v : Reg) : List (Option (Nat × Flags)) :=
  let s := withRegs [(1, v)] []
  Machine.convLanes f (lanesOn f s) (wideSrc s 1 f.d) 1 (fun i => convSrc f (srcTy f) s f.a f.negA i)

set_option maxRecDepth 20000 in
theorem witness_NumberConversions_Conversions : Ready cvt0.fields (FR.reads cvt0 s0) s0 ∧ none ∉ cvtLanes cvt0 3 ∧
    none ∈ cvtLanes cvt0 0x7F000000 ∧ noTrapOf s0 (orFlags ((cvtLanes cvt0 3).map fun x => x.getD (0, 0))) ∧
    ¬ noTrapOf enabled0 (orFlags ((cvtLanes cvt0 0x3F000001).map fun x => x.getD (0, 0))) := by
  refine ⟨ready_of _ _ _ (by decide), by decide, by decide, ?_, ?_⟩ <;> (unfold noTrapOf; decide)

/-- A block of zeros with scale 0x7D, and one whose first element is too large for it. -/
def qnt0 : FR := { FR.blank 9 with
  d := .g 3
  a := .g 1
  b := .g 2
  c := .i20
  imm20 := 0x7D
  t := .o4 }
def large0 : State := withRegs [(1, 0x7F00)] []

set_option maxRecDepth 20000 in
theorem witness_NumberConversions_Blocks : Ready qnt0.fields (FR.reads qnt0 large0) large0 ∧
    (let s := withRegs [] []
     ∃ b fl, qntBlock (blockElems qnt0 s) 0x7D .rn false (strictOf qnt0) (drawOf 1) = .ok (b, fl) ∧ noTrapOf s fl) ∧
    (∃ i, qntBlock (blockElems qnt0 large0) 0x7D .rn false (strictOf qnt0) (drawOf 1) = .error i) ∧
    (∃ b, sclxByte (blockElems qnt0 (withRegs [] [])) 2 false = .ok b) := by
  refine ⟨ready_of _ _ _ (by decide), ⟨_, _, rfl, by unfold noTrapOf; decide⟩, ⟨_, rfl⟩, ⟨_, rfl⟩⟩

/-- A next state of a register instruction: the NOP's. -/
theorem witness_RegisterFrame : exec (.nop (FR.blank 0)) s0 = .next (advance s0) := rfl

/-- Core 0 with a result in its write window, one of variable latency, and one in each unit. -/
def landing0 : State := issuing ctx0 { core0 with
  pend := [⟨1, 0, 0, .reg 3, 5⟩]
  vpend := [⟨2, 0, 0, .reg 4, 6, none, false⟩]
  divq := [⟨9, 0, .reg 5, 7⟩]
  sqq := [⟨9, 0, .reg 6, 8⟩] }

theorem witness_Landings : (firstWhere (fun v => v.id == 1) (coreOf landing0 0).pend).isSome = true ∧
    (firstWhere (fun v => v.id == 2) (coreOf landing0 0).vpend).map (·.load) = some none ∧
    (coreOf landing0 0).divq ≠ [] ∧ (coreOf landing0 0).sqq ≠ [] := by
  decide

def br0 : FB := { FB.blank 1 with
  a := .g 1
  tcell := 2
  loff := 3 }

def callState2 : State := withLine { s0 with cur := { s0.cur with
  pc := 0x20041
  pc0 := 0x20041
  nx := 0x20042 } } 0x100 (4 + 2 ^ 29)

set_option exponentiation.threshold 500 in
set_option maxRecDepth 20000 in
theorem witness_ControlTransfers_Branches :
    (Ready br0.fields br0.srcs callState2 ∧ brTaken br0 callState2 = true ∧ checkTarget callState2 (me callState2) 0x20102 = .ok) ∧
    brTaken { br0 with a := .g 9 } s0 = false ∧ successor callState2 (me callState2) allLines 0x20042 = .ok 0x20042 ∧
    src64u s0 (.g 1) - 1 ≠ 0 ∧ src64u (withRegs [(1, 1)] []) (.g 1) - 1 = 0 := by
  refine ⟨⟨ready_of _ _ _ (by decide), by decide, by decide⟩, by decide, rfl, by decide, by decide⟩

/-- The end of a line, whose successor is in a page that cannot be read as code. -/
def lineEnd (nx : VA) : State := { s0 with cur := { s0.cur with nx := nx } }

set_option exponentiation.threshold 500 in
set_option maxRecDepth 20000 in
theorem witness_ControlTransfers_BranchFaults : (brTaken br0 callState2 = true ∧ successor callState2 (me callState2) allLines 0x20042 = .ok 0x20042) ∧
    checkTarget callState2 (me callState2) 0x20100 = .badTarget ∧ checkTarget callState2 (me callState2) 0x20105 = .badPc ∧
    (successor (lineEnd 0x30000) ⟨0, 0⟩ allLines 0x30000 matches .error (.fault .protection false, _)) = true := by
  refine ⟨⟨by decide, rfl⟩, by decide⟩

/-- The clauses of R354 in turn, and its causes at the edges: a user interrupt, HVC, TRANSLATION with and without bit
57, SVC, a delegated cause and one that is not. -/
theorem witness_TargetLevel :
    let u := { ctx0 with prv := .user, udeleg := 2 ^ Cause.alignment.code }
    u.prv ≠ .maker ∧ targetLevel u .userInt 0 = .user ∧ targetLevel u .hvc 0 = .hyp ∧
    targetLevel u .translation (BitVec.ofNat 64 (2 ^ 57)) = .hyp ∧ targetLevel u .translation 0 = .guest ∧
    targetLevel u .svc 0 = .guest ∧ targetLevel u .alignment 0 = .user ∧ targetLevel u .poisoned 0 = .guest ∧
    targetLevel { u with prv := .hyp } .alignment 0 = .hyp := by
  decide

theorem witness_TrapEntries_HandlerEntry : Prv.user ≠ .maker ∧ Prv.hyp ≠ .maker ∧ Prv.guest ≠ .hyp := by decide

theorem witness_TrapEntries_Nesting :
    (let c := { ctx0 with status := 1 }
     levelRuns c .user = true ∧ levelRuns c .guest = false ∧ targetLevel c .trap 0 = .hyp ∧ escalate c .hyp = some (.hyp, false)) ∧
    (levelRuns { ctx0 with status := 3 } .guest = true ∧ levelRuns { ctx0 with status := 3 } .hyp = false) ∧
    escalate { ctx0 with status := 7 } .user = none := by
  decide

def trapF : FS := fs .z .z .z .z 5

/-- Its context with an open write window. -/
def open0 : State := issuing ctx0 { core0 with pend := [⟨1, 9, 0, .reg 3, 5⟩] }

set_option maxRecDepth 20000 in
theorem witness_SelfTraps : Ready trapF.fields [] s0 ∧ successor s0 (me s0) allLines s0.cur.nx = .ok 0x10001 ∧
    (windowOpen s0 (me s0) = false ∧ visiting s0 (me s0) = false) ∧ (windowOpen open0 (me open0) = true ∧ open0.cur.pair = false) :=
  ⟨ready_of _ _ _ (by decide), rfl, by decide, by decide⟩

theorem witness_Returns : Ready trapF.fields [] s0 ∧ (∀ o ∈ trapF.fields, badLiteral s0 o = false) ∧
    (myCtx s0).prv = .hyp ∧ bitsOf (bankOf (myCtx s0) .hyp).estat.toNat 0 2 ≤ 2 ∧
    (prvNo (myCtx (at_level .guest)).prv < bitsOf (bankOf { ctx0 with guestBank := { Bank.zero with estat := 2 } } .guest).estat.toNat 0 2) ∧
    levelRuns { ctx0 with status := 1 } .user = true ∧ levelRuns ctx0 .user = false :=
  ⟨ready_of _ _ _ (by decide), by decide⟩

/-- A load or store of eight bytes of the data page, and what its access finds. -/
def data0 : FM := { fm (.g 3) (.g 5) .b64 with scope := .ctx }
def dataHit : Hit := ⟨pte 0x61F 0, 0x20000, .dram 0⟩
def rel0 : FM := { data0 with
  flg := 2
  scope := .part }
def acq0 : FM := { data0 with
  flg := 1
  scope := .part }

set_option maxRecDepth 20000 in
theorem witness_Loads : Ready data0.fields data0.srcs s0 ∧ Unclamped data0 s0 ∧
    Clear (markRead data0.srcs s0) (fmAddr data0 s0) (needOf 8 true false) dataHit ∧
    seedAt s0 (me s0) dataHit.pa 8 = false ∧ (acqOf data0 = false ∧ Unraced s0 dataHit false) ∧
    (acqOf acq0 = true ∧ storeAt s0 (me s0) dataHit.pa 8 = false ∧ Free s0 ∧ syncRace s0 (me s0) dataHit false = none) :=
  ⟨ready_of _ _ _ (by decide), .inl (by decide), clear_of _ _ _ _ (by decide), by decide,
    ⟨by decide, .inr (by decide)⟩, by decide, by decide, free_of _ (by decide), by decide⟩

/-- No address is bound to a stash. -/
theorem alone0 (va : VA) (key : Nat) (h : stashBind s0 0 0 va = none) : Alone s0 va key := by
  intro m hm
  exact absurd (hm.symm.trans h) (by simp)

set_option maxRecDepth 20000 in
theorem witness_Stores : Ready data0.fields data0.fields s0 ∧ Unclamped data0 s0 ∧
    Clear (markRead data0.fields s0) (fmAddr data0 s0) (needOf 8 false true) dataHit ∧
    (relOf data0 = false ∧ seedAt s0 (me s0) dataHit.pa 8 = false ∧ recordsFull s0 (me s0) (dataHit.pa / 32) = false ∧
      Alone s0 (fmAddr data0 s0) dataHit.pa) ∧
    (relOf rel0 = true ∧ Settled (copseScope rel0.scope s0) s0 ∧ syncRace s0 (me s0) dataHit true = none) :=
  ⟨ready_of _ _ _ (by decide), .inl (by decide), clear_of _ _ _ _ (by decide),
    ⟨by decide, by decide, by decide, alone0 _ _ (by decide)⟩, by decide, settled_of _ _ (by decide), by decide⟩

def copse0 : FM := { data0 with a := .g 7 }
def hub0 : FM := { data0 with a := .g 8 }
def copseHit : Hit := ⟨pte 0xE17 0, 2 ^ 44, .copse 0⟩
def hubHit : Hit := ⟨pte 0x617 0, 2 ^ 43 + 8, .hub 8⟩

/-- A state in which a store of the context to copse word 0 waits for transmission, and one in which that word is of
a barrier. -/
def framed0 : State := { s0 with pkgs := [(0, { Pkg.zero with
  boot := 6
  toSend := [.store 0 0 1 ⟨0, 0⟩] })] }
def barred0 : State := { s0 with pkgs := [(0, { Pkg.zero with
  boot := 6
  copseBars := [0] })] }

set_option maxRecDepth 20000 in
theorem witness_WordsElsewhere_LoadsElsewhere : Ready copse0.fields copse0.srcs s0 ∧ Unclamped copse0 s0 ∧
    checkAccess s0 (me s0) (fmAddr copse0 s0) (needOf 8 true false) = .hit copseHit ∧
    checkAccess s0 (me s0) (fmAddr hub0 s0) (needOf 8 true false) = .hit hubHit ∧ frameTo s0 0 = false ∧
    frameTo framed0 0 = true ∧ Free s0 :=
  ⟨ready_of _ _ _ (by decide), .inl (by decide), by decide, by decide, by decide, by decide, free_of _ (by decide)⟩

set_option maxRecDepth 20000 in
theorem witness_WordsElsewhere_StoresElsewhere : Ready copse0.fields copse0.fields s0 ∧ Unclamped copse0 s0 ∧
    checkAccess s0 (me s0) (fmAddr copse0 s0) (needOf 8 false true) = .hit copseHit ∧
    checkAccess s0 (me s0) (fmAddr hub0 s0) (needOf 8 false true) = .hit hubHit ∧
    guarded s0 (myPart s0) (myCtx s0).prv (fmAddr copse0 s0) copseHit.pa 8 = false ∧
    barrierWord s0 0 = false ∧ barrierWord barred0 0 = true ∧ Settled false s0 :=
  ⟨ready_of _ _ _ (by decide), .inl (by decide), by decide, by decide, by decide, by decide, by decide,
    settled_of _ _ (by decide)⟩

/-- A partition whose one frame holds a table without entries, where a load and a store go. -/
def mapped0 : State := writePA { s0 with parts := [(0, { Part.zero with fmlen := 1 })] } 0 0 8 (1 + 2 ^ 16)

set_option maxRecDepth 20000 in
theorem witness_AccessFaults : Ready data0.fields data0.fields s0 ∧ (fmAddr { data0 with off := 1 } s0).toNat % 8 ≠ 0 ∧
    (fmAddr { data0 with off := 0x50000 } s0 = 0x70000 ∧ tlbLook mapped0 0 0 0x70000 = none ∧
      walkHeld mapped0 ⟨0, 0⟩ 0x70000 = .fault false) ∧
    ((tlbLook s0 0 0 (fmAddr data0 s0)).map fun t => t.pte.getLsbD 4) = some true ∧
    (let s := issuing { ctx0 with prv := .user } { core0 with tlb := [⟨0, 2, pte 0x40B 0, 2, 0, false, false⟩] }
     (myCtx s).prv = .user ∧ ((tlbLook s 0 0 (fmAddr data0 s)).map fun t =>
       (t.pte.getLsbD 10, t.pte.getLsbD 4, t.pte.getLsbD 2)) = some (true, false, false)) :=
  ⟨ready_of _ _ _ (by decide), by decide⟩

/-- The same state with the channel of site 0 gated. -/
def dark0 : State := modSite s0 0 fun k => { k with gated := true }

theorem witness_AccessFaults_gated : Ready data0.fields data0.fields dark0 ∧
    (checkAccess dark0 (me dark0) (fmAddr data0 dark0) (needOf data0.sz.bytes true false) = .hit dataHit ∧
      reachesSpace dark0 (me dark0) dataHit.space = true) ∧ dataHit.space = .dram 0 ∧ (siteOf dark0 0).gated = true :=
  ⟨ready_of _ _ _ (by decide), by decide⟩

/-- A load from a gated channel waits, and goes on once the channel serves again (R455). -/
theorem test_channel_gated : (match exec (.ld data0) dark0 with
    | .next t => ((slotOf t ⟨0, 0⟩).st, (ctxOf t ⟨0, 0⟩).wait == .channel 0) | _ => (.free, false)) =
    (.parkedMemory, true) := by decide

theorem test_channel_ungated : (match exec (.ld data0) dark0 with
    | .next t => (match exec (.ungateChannel 0 0 0) t with | .next u => (slotOf u ⟨0, 0⟩).st | _ => .free)
    | _ => .free) = .ready := by decide

def gth0 : FM := { fm (.g 3) (.g 5) .b64 with
  b := .g 9
  c := .m 1
  scope := .ctx }
/-- Only lane 0 is selected. -/
def lane0 : State := issuing { ctx0 with masks := [(1, 1)] } core0

set_option maxRecDepth 20000 in
theorem witness_GatherScatter : Ready gth0.fields gth0.fields s0 ∧ Ready gth0.fields (gth0.d :: gth0.srcs) s0 ∧ vecOn gth0 s0 = [] ∧ vecOn gth0 lane0 = [0] ∧
    Clear lane0 (vecAddr gth0 lane0 0) (needOther 8 true false) dataHit ∧
    Clear lane0 (vecAddr gth0 lane0 0) (needOther 8 false true) dataHit ∧ seedAt lane0 (me lane0) dataHit.pa 8 = false ∧
    Unraced lane0 dataHit false ∧ recordsFull lane0 (me lane0) (dataHit.pa / 32) = false :=
  ⟨ready_of _ _ _ (by decide), ready_of _ _ _ (by decide), by decide, by decide, clear_of _ _ _ _ (by decide),
    clear_of _ _ _ _ (by decide), by decide, .inr (by decide), by decide⟩

def fe0 : FM := fm (.g 3) (.g 6) .b64
def feHit : Hit := ⟨pte 0x717 5, 0x30000, .dram 0⟩
/-- The word empty, held by another context, or poisoned. -/
def empty0 : State := { s0 with fe := [(0x6000, ⟨false, false, .prefetcher 7⟩)] }
def poison0 : State := { s0 with fe := [(0x6000, ⟨true, true, .none⟩)] }
/-- Its context owes something of rank 80. -/
def owing0 : State := issuing { ctx0 with obls := [(0, ⟨.done, 1, 80, 1, 0⟩)] } core0

set_option maxRecDepth 20000 in
theorem witness_FullEmptyLoads : Ready fe0.fields fe0.srcs s0 ∧ Unclamped fe0 s0 ∧ tableHeld s0 (me s0) = false ∧
    Free s0 ∧ Clear s0 (fmAddr fe0 s0) (needFe true false) feHit ∧ seedAt s0 (me s0) feHit.pa 8 = false ∧
    storeAt s0 (me s0) feHit.pa 8 = false ∧ ((feOf s0 feHit.pa).full = true ∧ (feOf s0 feHit.pa).poison = false) ∧
    syncRace s0 (me s0) feHit true = none ∧ (feOf poison0 feHit.pa).poison = true ∧
    ((feOf empty0 feHit.pa).full = false ∧ feHit.pte.rank < obminOf (myCtx empty0)) ∧ obminOf (myCtx owing0) ≤ feHit.pte.rank :=
  ⟨ready_of _ _ _ (by decide), .inl (by decide), by decide, free_of _ (by decide), clear_of _ _ _ _ (by decide),
    by decide⟩

set_option maxRecDepth 20000 in
theorem witness_FullEmptyStores : Ready fe0.fields fe0.fields s0 ∧ Clear s0 (fmAddr fe0 s0) (needFe true true) feHit ∧
    Ready fe0.fields fe0.srcs s0 ∧ Clear s0 (fmAddr fe0 s0) (needFe false true) feHit ∧ Unclamped fe0 s0 ∧
    Settled (copseScope fe0.scope s0) s0 ∧ syncRace s0 (me s0) feHit true = none ∧
    foreign s0 feHit.pa = false ∧ foreign empty0 feHit.pa = true ∧ freeEntry (myCtx s0) = some 0 ∧
    findObl (myCtx s0) .fill 0x30000 = none ∧
    freeEntry { ctx0 with obls := (upto 16).map fun i => (i, ⟨.done, 1, 80, 1, 0⟩) } = none :=
  ⟨ready_of _ _ _ (by decide), clear_of _ _ _ _ (by decide), ready_of _ _ _ (by decide), clear_of _ _ _ _ (by decide),
    .inl (by decide), settled_of _ _ (by decide), by decide⟩

/-- Core 0 runs the context's launch, with the first KiB of its data page bound to its stash. -/
def stash0 : State := issuing ctx0 { core0 with
  stashWays := 1
  resident := some (launchKey 0 0)
  maps := [(0, ⟨0, 0x20000, 0, 1⟩)]
  tags := [(0, 7)]
  rf := [(1, 2 ^ 32), (2, 7), (3, 7), (5, 0x20000)] }
def stmap0 : FM := { fm .z (.g 5) .b8 with
  c := .g 1
  scope := .ctx }
def ldt0 : FM := { fm (.g 3) (.g 5) .b8 with
  c := .g 2
  scope := .ctx }

set_option maxRecDepth 20000 in
theorem witness_StashInstructions : Ready ldt0.fields ldt0.fields stash0 ∧ Ready ldt0.fields ldt0.srcs stash0 ∧
    (myCore stash0).resident = some (launchKey (myCtx stash0).part (myCtx stash0).grp) ∧
    Clear stash0 (fmAddr ldt0 stash0) (needOther 1 true false) dataHit ∧
    stashBind stash0 0 0 (fmAddr ldt0 stash0) = some ⟨0, 0x20000, 0, 1⟩ ∧ tileTag (myCore stash0) 0 = 7 ∧
    (src64 stash0 ldt0.c).setWidth 16 = (7 : BitVec 16) ∧ (myCore s0).resident ≠ some (launchKey 0 0) ∧
    Reaches stash0 (fmAddr stmap0 stash0) ⟨1024, true, false, false, false, true⟩ dataHit ∧
    Reaches stash0 (fmAddr ldt0 stash0) (needOther 1 false false) dataHit ∧
    seedAt stash0 (me stash0) dataHit.pa 1 = false ∧ Unraced (newRegion stash0 (me stash0)) dataHit false ∧
    stmapCheck { myCore stash0 with maps := [] } 0 0x20000 (src64 stash0 stmap0.c) false = none ∧
    (stmapCheck (myCore stash0) 0 0x20000 (src64 stash0 stmap0.c) true).isSome = true :=
  ⟨ready_of _ _ _ (by decide), ready_of _ _ _ (by decide), by decide, clear_of _ _ _ _ (by decide), by decide, by decide,
    by decide, by decide, ⟨by decide, by decide, nofun⟩, ⟨by decide, by decide, nofun⟩, by decide, .inr (by decide),
    by decide, by decide⟩

def pfr0 : FM := { fm .z (.g 5) .b8 with
  b := .g 1
  c := .g 6
  scope := .ctx }

/-- A state in which an earlier load of the context has no result yet, and one with an unacknowledged store. -/
def loading0 : State := issuing ctx0 { core0 with vpend := [⟨2, 0, 0, .reg 4, 6, some ⟨0, ⟨0, 0⟩, []⟩, false⟩] }
def storing0 : State :=
  { s0 with stores := [⟨1, ⟨0, 0⟩, ⟨0, 0, 0⟩, ⟨0, 0⟩, 0, 0, 8, 0, false, false, 0, 0, false, false, none, none, 0⟩] }
def fence0 : FS := fs .z .z .z .z 1

theorem witness_CachesAndFences_CacheControl : Ready pfr0.fields pfr0.srcs s0 ∧ Reaches s0 (fmAddr data0 s0) cacheNeed dataHit ∧
    Reaches s0 (fmAddr copse0 s0) cacheNeed copseHit ∧ s0.Inv ∧
    Clear s0 ((src64 s0 pfr0.c).setWidth 57) (needFe false true) feHit ∧ foreign s0 feHit.pa = false ∧
    foreign empty0 feHit.pa = true ∧ 0 < (src64 s0 pfr0.b).toNat ∧ (src64 s0 (.g 9)).toNat = 0 :=
  ⟨ready_of _ _ _ (by decide), ⟨by decide, by decide, nofun⟩, ⟨by decide, by decide, nofun⟩, by unfold State.Inv; decide,
    clear_of _ _ _ _ (by decide), by decide⟩

theorem witness_CachesAndFences_Fences : Ready fence0.fields [] s0 ∧ Ready fence0.fields [] storing0 ∧ Ready fence0.fields [] loading0 ∧
    drained storing0 (me storing0) = false ∧ loadsOut loading0 (me loading0) = true ∧
    drained s0 (me s0) = true ∧ loadsOut s0 (me s0) = false ∧ hasJobs s0 (me s0) = false ∧
    bitsOf fence0.imm.toNat 0 3 ≠ 5 ∧ Settled (fenceCopse fence0 s0) s0 ∧ ¬ Settled false storing0 ∧
    hasJobs (issuing ctx0 { core0 with jobs := [job0] }) ⟨0, 0⟩ = true ∧
    prvNo (myCtx (at_level .guest)).prv < 2 ∧ (myCtx (at_level .guest)).held = none :=
  ⟨ready_of _ _ _ (by decide), ready_of _ _ _ (by decide), ready_of _ _ _ (by decide), by decide, by decide, by decide,
    by decide, by decide, by decide, settled_of _ _ (by decide), fun h => absurd h.1 (by decide), by decide⟩

def atom0 : FM := { fm (.g 3) (.g 5) .b64 with c := .g 1 }

theorem witness_AtomicAccess_AtomOperations : 0 < 64 ∧ 5 < 2 ^ 64 := by decide

/-- A state in which the word's home is another core, to which the context may travel. -/
def travel0 : State := issuing { ctx0 with winSize := 16 } { core0 with rf := Map.put core0.rf 5 0x60000 }

set_option maxRecDepth 20000 in
theorem witness_AtomicAccess_Atomics : Ready atom0.fields atom0.srcs s0 ∧ Unclamped atom0 s0 ∧
    Clear s0 (fmAddr atom0 s0) (needOf 8 true true) dataHit ∧
    Settled (copseScope atom0.scope s0) s0 ∧ atomTravels s0 dataHit = none ∧ syncRace s0 (me s0) dataHit true = none ∧
    (∃ c, atomTravels travel0 (⟨pte 0x717 5, 0x4060000, .dram 1⟩ : Hit) = some c) ∧ windowQuiet travel0 (me travel0) = true ∧
    Reaches s0 (fmAddr copse0 s0) (needOf 8 true true) copseHit ∧ Reaches s0 (fmAddr hub0 s0) (needOf 8 true true) hubHit ∧
    barrierWord s0 0 = false ∧ barrierWord barred0 0 = true :=
  ⟨ready_of _ _ _ (by decide), .inl (by decide), clear_of _ _ _ _ (by decide), settled_of _ _ (by decide), by decide,
    by decide, ⟨_, rfl⟩, by decide, ⟨by decide, by decide, fun _ => by decide⟩, ⟨by decide, by decide, fun _ => by decide⟩,
    by decide, by decide⟩

/-- RED with a DONE handle in g7: a handle with stray bits, one of which the context has no entry, and none. -/
def red0 : FM := { fm (.g 3) (.g 5) .b64 with c := .g 7 }
def stray0 : State := issuing ctx0 { core0 with rf := Map.put core0.rf 7 0x8000000000010000 }

set_option maxRecDepth 20000 in
theorem witness_AtomicAccess_Atomics_red : Ready red0.fields red0.fields stray0 ∧ red0.c ≠ .z ∧ tableHeld stray0 (me stray0) = false ∧
    Reaches stray0 (fmAddr red0 stray0) (needOf 8 true true) dataHit ∧ lostAt stray0 dataHit.pa 8 = false ∧
    strayCounter (src64 stray0 red0.c) = true ∧
    Ready red0.fields red0.fields s0 ∧ strayCounter (src64 s0 red0.c) = false ∧ redCarries red0 s0 = none ∧
    redCarries { red0 with c := .z } s0 = some none ∧ storeAt s0 (me s0) dataHit.pa 8 = false ∧ Free s0 ∧
    seedsOf s0 (myPart s0) < limitOf s0 (myPart s0) 6 0xFFFF ∧ (pkgAt s0 0).viral = false :=
  ⟨ready_of _ _ _ (by decide), by decide, by decide, ⟨by decide, by decide, fun _ => by decide⟩, by decide, by decide,
    ready_of _ _ _ (by decide), by decide, by decide, by decide, by decide, free_of _ (by decide), by decide, by decide⟩

def clamp0 : FM := { acq0 with scope := .copse }

set_option maxRecDepth 20000 in
theorem witness_ScopeClamp : Ready clamp0.fields clamp0.srcs (at_level .guest) ∧ clamp0.scope = .copse ∧
    prvNo (myCtx (at_level .guest)).prv < 2 ∧ visiting (at_level .guest) ⟨0, 0⟩ = false ∧
    (let k := fun u => access (fmAddr clamp0 u) (needOf 8 true false) (loadHit clamp0 (fmAddr clamp0 u)) u
     let s := at_level .guest
     (k (markRead clamp0.srcs s)).cur.undone = false ∧ (myCtx (k (markRead clamp0.srcs s))).held = none ∧
       (k (clampStep (markRead clamp0.srcs s))).cur.undone = false) :=
  ⟨ready_of _ _ _ (by decide), by decide⟩

set_option maxRecDepth 20000 in
theorem witness_ScopeClamp_undone :
    (let k := fun u => access (fmAddr clamp0 u) (needOf 8 true false) (loadHit clamp0 (fmAddr clamp0 u)) u
     let s := issuing { ctx0 with prv := .guest } { core0 with rf := [(5, 0x20001)] }
     (k (markRead clamp0.srcs s)).cur.undone = true ∧ (k s).cur.undone = true) := by
  decide

/-- A wait of rank 79 is legal for the context that owes rank 80, one of rank 80 is not. -/
theorem witness_Ranks_WaitLegality : waitCheck owing0 ⟨0, 0⟩ 79 = none ∧ (waitCheck owing0 ⟨0, 0⟩ 80).isSome = true ∧
    79 < 0x10000 ∧ (∀ e ∈ (ctxOf owing0 ⟨0, 0⟩).obls, e.2.rank < 0x10000) ∧ (ctxOf s0 ⟨0, 0⟩).obls = [] := by
  decide

theorem witness_Ranks_ObligationTable : Map.sorted (myCtx owing0).obls = true ∧ 0 < 1 ∧
    findObl (myCtx owing0) .done 1 = some (0, ⟨.done, 1, 80, 1, 0⟩) ∧ findObl (myCtx owing0) .done 2 = none ∧
    freeEntry (myCtx owing0) = some 1 ∧
    freeEntry { ctx0 with obls := (upto 16).map fun i => (i, ⟨.done, 1, 80, 1, 0⟩) } = none := by
  decide

theorem witness_RankSplit : Ready f0.fields f0.srcs s0 ∧
    ((myCtx s0).rklo ≤ (src64i s0 0 f0.a).toNat ∧ (src64i s0 0 f0.a).toNat < (src64i s0 0 f0.b).toNat ∧
      (src64i s0 0 f0.b).toNat ≤ (myCtx s0).rkhi) ∧
    ¬ (src64i s0 0 (.g 2)).toNat < (src64i s0 0 (.g 1)).toNat :=
  ⟨ready_of _ _ _ (by decide), by decide, by decide⟩

/-- The context holds two acts of the FEED handle 3. -/
def feeding0 : State := issuing { ctx0 with obls := [(0, ⟨.feed, 3, 80, 2, 0⟩)] } core0
def poison_f : FR := { fr .z (.g 1) (.g 9) .z with min := 2 }

/-- It holds one act of the DONE handle that names counter 5, and of the word at 0x3_0000. -/
def counting0 : State := issuing { ctx0 with obls := [(0, ⟨.done, 0x8000000000000005, 80, 1, 0⟩), (1, ⟨.fill, 0x30000, 80, 1, 0⟩)] }
  { core0 with rf := [(1, 0x8000000000000005), (6, 0x30000)] }
def fillPoison : FR := { fr .z (.g 6) (.g 9) .z with min := 1 }

set_option maxRecDepth 20000 in
theorem witness_ObligationInstructions : Ready poison_f.fields poison_f.srcs feeding0 ∧ tableHeld feeding0 (me feeding0) = false ∧
    kindOf 2 = .feed ∧ (findObl (myCtx feeding0) .feed 3).isSome = true ∧ findObl (myCtx s0) .feed 3 = none ∧
    actCount ⟨.feed, 3, 80, 2, 0⟩ 0 = some 2 ∧ actCount ⟨.feed, 3, 80, 2, 0⟩ 3 = none ∧ feedRank s0 3 = none ∧
    Ready fillPoison.fields fillPoison.srcs counting0 ∧ kindOf fillPoison.min.toNat = .fill ∧
    Resolves s0 .fill 0x30000 80 ∧ (takeObl ctx0 .fill 0x30000 80 1).isSome = true ∧
    doneCounter 0x8000000000000005 = some 5 ∧ badCounter s0 (myPart s0) 0x8000000000000005 = true ∧
    Settled false counting0 ∧ poisonWord counting0 .done 0x8000000000000005 = none ∧
    (let s := { feeding0 with cur := { feeding0.cur with pair := true } }
     tableHeld s (me s) = false) :=
  ⟨ready_of _ _ _ (by decide), by decide, by decide, by decide, by decide, by decide, by decide, by decide,
    ready_of _ _ _ (by decide), by decide, .inr ⟨by decide, feHit, clear_of _ _ _ _ (by decide), by decide⟩, by decide,
    by decide, by decide, settled_of _ _ (by decide), by decide, by decide⟩

/-- The context offers one act of FEED 3 to itself, to a context that is not there, and to its neighbour in slot 1. -/
def offering (dst : Reg) : State :=
  let s := issuing { ctx0 with obls := [(0, ⟨.feed, 3, 80, 2, 0⟩)] } { core0 with rf := [(1, dst), (2, 3), (3, 1)] }
  modCore s 0 fun k => { k with slots := k.slots ++ [(1, ⟨.ready, .ready, .ready, 0, { ctx0 with origin := ⟨0, 1⟩ }⟩)] }
def xfer0 : FR := { fr (.g 4) (.g 1) (.g 2) (.g 3) with min := 2 }

theorem witness_ObligationInstructions_offers : Ready xfer0.fields xfer0.srcs (offering 1) ∧
    xferTarget (offering 0) xfer0 = some (refOf (offering 0) (me (offering 0))) ∧
    xferTarget (offering 64) xfer0 = none ∧
    (∃ r, xferTarget (offering 1) xfer0 = some r ∧ r ≠ refOf (offering 1) (me (offering 1)) ∧
      xferDropped (offering 1) r = false ∧ refLive (offering 1) ⟨0, 0⟩ r = true) := by
  refine ⟨ready_of _ _ _ (by decide), by decide, by decide, ⟨0, 0, 1⟩, by decide⟩

/-- A context with a window of sixteen registers that may travel, the same with a store under way, and away from its core. -/
def mover0 : State := issuing { ctx0 with winSize := 16 } core0
def storing1 : State := { mover0 with stores := storing0.stores }
def middle1 : State := issuing { ctx0 with winSize := 16, origin := ⟨33, 0⟩ } core0
def far0 : FR := fr (.g 3) (.g 6) .z .z

set_option maxRecDepth 20000 in
theorem witness_Migrations_Migration : Ready far0.fields far0.srcs mover0 ∧ mayTravel s0 (me s0) = false ∧
    (mayTravel mover0 (me mover0) = true ∧ MayLeave mover0 ∧ canCarry mover0 (me mover0) = true) ∧
    (mayTravel storing1 (me storing1) = true ∧ storing1.cur.pair = false ∧ drained storing1 (me storing1) = false) ∧
    checkAccess mover0 (me mover0) 0x20000 ⟨1, true, false, false, false, true⟩ = .hit dataHit ∧
    homeCore mover0 0 = 0 ∧ (checkAccess mover0 (me mover0) 0x60000 ⟨1, true, false, false, false, true⟩ matches .hit _) = true ∧
    checkAccess mover0 (me mover0) 0x40000 ⟨1, true, false, false, false, true⟩ = .hit copseHit ∧
    (originOf mover0 (me mover0)).core = (me mover0).core ∧ (originOf middle1 (me middle1)).core ≠ (me middle1).core :=
  ⟨ready_of _ _ _ (by decide), by decide, ⟨by decide, .inr (by decide), by decide⟩, by decide⟩

/-- The descriptor in g1: token word at 0x3_0000, ranks 0 to 80, size 16. -/
def spawner0 : State := issuing ctx0 { core0 with rf := [(1, 16 * 2 ^ 128 + 80 * 2 ^ 80 + 0x30000), (2, 0x10000), (5, 0x20005)] }
def spawn0 : FR := fr (.g 3) (.g 2) (.g 1) .z

set_option maxRecDepth 20000 in
theorem witness_Spawning : Ready spawn0.fields spawn0.srcs spawner0 ∧
    (let d := spawnDesc (src256 spawner0 0 spawn0.b)
     (badPc 0x10000 = false ∧ badPc 0x20005 = true) ∧ intervalOk (myCtx spawner0) d.lo d.hi = true ∧
      intervalOk (myCtx (at_level .user)) 5 5 = false ∧ badShape spawner0 d 0 = false ∧ badShape spawner0 (spawnDesc 0) 0 = true ∧
      freeSlot spawner0 (myPart spawner0) 0 = some 1 ∧ (spawnWindow spawner0 d 0).isSome = true ∧
      logicalCore spawner0 (myPart spawner0) d.core = none ∧ (coreOf spawner0 0).suspended = false) ∧
    Clear spawner0 0x30000 (needFe false true) feHit ∧ Settled false spawner0 ∧ reachesCore spawner0 (me spawner0) 0 = true ∧
    ((feOf spawner0 feHit.pa).full = true ∧ syncRace spawner0 (me spawner0) feHit true = none) ∧
    successor spawner0 (me spawner0) allLines spawner0.cur.nx = .ok 0x10001 :=
  ⟨ready_of _ _ _ (by decide), by decide, clear_of _ _ _ _ (by decide), settled_of _ _ (by decide), by decide, by decide, rfl⟩

/-- JOIN of the word at g6. -/
def join0 : FR := fr (.g 3) (.g 6) .z .z

set_option maxRecDepth 20000 in
theorem witness_Spawning_join : Ready join0.fields join0.srcs s0 ∧ tableHeld s0 (me s0) = false ∧ Free s0 ∧
    Clear s0 0x30000 (needFe true false) feHit ∧ (src64i s0 0 join0.a).setWidth 57 = (0x30000 : VA) ∧
    seedAt s0 (me s0) feHit.pa 8 = false ∧ storeAt s0 (me s0) feHit.pa 8 = false ∧ (feOf s0 feHit.pa).full = true ∧
    (feOf poison0 feHit.pa).poison = true ∧ (feOf empty0 feHit.pa).full = false ∧ feHit.pte.rank < obminOf (myCtx s0) ∧
    obminOf (myCtx owing0) ≤ feHit.pte.rank ∧ syncRace s0 (me s0) feHit false = none :=
  ⟨ready_of _ _ _ (by decide), by decide, free_of _ (by decide), clear_of _ _ _ _ (by decide), by decide⟩

/-- A group whose plan gives each port of core 0 a rank. -/
def group0 : Group where
  part := ⟨0, 0⟩
  gid := 0
  st := .running
  rklo := 0
  rkhi := 0x10000
  rebuilds := 0
  wfired := false
  wact := false
  wdog := 4
  wcount := 0
  steward := 0
  stewardCtx := none
  stewardGone := false
  issuer := .none
  lcnt := 0
  nunits := 1
  plan := 0
  ranges := [⟨true, false, 0, 0, 1, 0⟩]
  trees := [⟨true, 0, 2, 0⟩]
  timed := true
  t0 := none
  heldObls := []
  noticed := []
  queue := none

/-- A deposit to register 4 of slot 0, and one to a slot that is free. -/
def deposit0 (slot : Nat) : Deposit := ⟨1, 0, 0, slot, 4, 9, ⟨0, 0⟩, ⟨0, 0, 0⟩, false⟩

theorem witness_NeighbourWrites : Ready (fr .z (.g 1) (.g 9) .z).fields [.g 1, .g 9] s0 ∧ tableHeld s0 (me s0) = false ∧
    badFeed s0 0x8000 = true ∧ portRank s0 (me s0) 0 = none ∧ inWindow s0 (.g 3) = false ∧
    (let s := { s0 with deposits := [deposit0 0] }
     (firstWhere (fun d => d.id == 1) s.deposits).isSome = true ∧ (coreOf s 0).suspended = false ∧
      depositEntry s (deposit0 0) = some 4 ∧ depositEntry s (deposit0 9) = none ∧
      findCtx s (deposit0 9).part (deposit0 9).sender = some ⟨0, 0⟩) :=
  ⟨ready_of _ _ _ (by decide), by decide⟩

/-- A core in the middle of its die, with a good FEED handle, and a port of the plan. -/
def middle0 : State :=
  let s := { s0 with groups := [{ group0 with plan := 5 }] }
  { s with
    cores := [(33, { core0 with slots := [(0, ⟨.ready, .ready, .ready, 0, { ctx0 with origin := ⟨33, 0⟩ }⟩)] })]
    cur := { s.cur with id := ⟨33, 0⟩ } }

set_option maxRecDepth 20000 in
theorem witness_NeighbourWrites_good : badFeed middle0 0 = false ∧ portRank middle0 (me middle0) 0 ≠ none ∧
    middle0.seeds = [] ∧ (pkgAt middle0 0).toSend = [] ∧
    inWindow (issuing ctx0 { core0 with pend := [⟨1, 9, 0, .reg 3, 5⟩] }) (.g 3) = true := by decide

def exit0 : FS := fs .z (.g 1) .z .z 0

theorem witness_Exits : Ready exit0.fields [exit0.a] s0 ∧ tableHeld s0 (me s0) = false ∧ loadsOut s0 (me s0) = false ∧
    Settled false s0 ∧ ownEntry (myCtx s0) = none ∧ loadsOut loading0 ⟨0, 0⟩ = true ∧
    (slotOf (setSt s0 ⟨0, 0⟩ .exited) ⟨0, 0⟩).st = .exited ∧ (slotOf s0 ⟨0, 0⟩).st ≠ .exited ∧
    (let s := { s0 with
        xfers := [⟨1, ⟨0, 0⟩, ⟨0, 0, 0⟩, 0, ⟨0, 0, 1⟩, ⟨.done, 1, 80, 1, 0⟩, .none⟩]
        merges := [⟨2, ⟨0, 0, 0⟩, ⟨0, 0⟩, ⟨0, 1⟩, ⟨0, 0, 1⟩, []⟩, ⟨3, ⟨9, 0, 0⟩, ⟨0, 0⟩, ⟨0, 1⟩, ⟨0, 0, 1⟩, []⟩] }
     (firstWhere (fun m => m.id == 1) s.xfers).isSome = true ∧ (coreOf s 0).suspended = false ∧
      refLive s ⟨0, 0⟩ ⟨0, 0, 0⟩ = true ∧ refLive s ⟨0, 0⟩ ⟨9, 0, 0⟩ = false ∧
      (firstWhere (fun m => m.id == 2) s.merges).isSome = true) :=
  ⟨ready_of _ _ _ (by decide), by decide, by decide, settled_of _ _ (by decide), by decide⟩

/-- A barrier of rank 80 in entry 0 of site 0, whose handle is 0: two participants, `owed` owed, `waiters` waiting. -/
def barrierState (c : Ctx) (owed waiters : Nat) : State :=
  { issuing c core0 with sites := [(0, { Site.zero with bars := [(0, ⟨1, false, 80, 2, 0, owed, waiters, 0, 0, 0, 0⟩)] })] }
def bar0 : FR := fr (.g 3) (.g 9) (.g 9) .z

set_option maxRecDepth 20000 in
theorem witness_Barriers_BarrierPhase :
    (let b : Barrier := ⟨1, false, 80, 2, 0, 1, 0, 0, 0, 0, 0⟩
     b.arrived < b.npart ∧ ({ b with arrived := 2 } : Barrier).npart ≤ 2 ∧ b.st ≠ 2 ∧ b.arrived + 1 < b.npart) ∧
    ({ Barrier.zero with st := 2 } : Barrier).st = 2 := by
  decide

/-- BNEW of g1 = 3 participants and rank g2 = 7, with no word, with the data page's, and with a copse word. -/
def bnew0 (c : Opnd) : FR := fr (.g 3) (.g 1) (.g 2) c

set_option maxRecDepth 20000 in
theorem witness_Barriers_BarrierNew : Ready (bnew0 (.g 5)).fields (bnew0 (.g 5)).srcs s0 ∧ Free s0 ∧
    ((myCtx s0).rklo ≤ 7 ∧ 7 < (myCtx s0).rkhi) ∧ 0x10000 ≤ (src64i s0 0 (.g 5)).toNat ∧
    (0 < (src64i s0 0 (.g 1)).toNat ∧ (src64i s0 0 (.g 1)).toNat ≤ 65535) ∧
    barCount s0 ⟨0, 0⟩ < limitOf s0 ⟨0, 0⟩ 4 262144 ∧ freeBar s0 0 = some 0 ∧
    Clear s0 0x20000 ⟨1, true, false, false, false, true⟩ dataHit ∧
    Reaches s0 0x40000 ⟨64, true, false, false, false, true⟩ copseHit ∧ (0x40008 : VA).toNat % 64 ≠ 0 ∧
    ((tlbLook s0 0 0 0x40000).map fun t => (t.pte : Pte).cps) = some true :=
  ⟨ready_of _ _ _ (by decide), free_of _ (by decide), by decide, by decide, by decide, by decide, by decide,
    clear_of _ _ _ _ (by decide), ⟨by decide, by decide, nofun⟩, by decide, by decide⟩

/-- The context holds one arrival of the barrier, and the barrier is in the copse. -/
def owed0 : Ctx := { ctx0 with obls := [(0, ⟨.bar, 0, 80, 1, 0⟩)] }
def copseBar : State := { s0 with pkgs := [(0, { Pkg.zero with
  boot := 6
  copseBars := [0] })] }

set_option maxRecDepth 20000 in
theorem witness_Barriers : Ready bar0.fields bar0.srcs (barrierState ctx0 1 0) ∧ tableHeld (barrierState ctx0 1 0) ⟨0, 0⟩ = false ∧
    Settled (handleCps 0) (barrierState ctx0 1 0) ∧ handleCps 0 = false ∧
    NamesBarrier (barrierState ctx0 1 0) 0 ⟨1, false, 80, 2, 0, 1, 0, 0, 0, 0, 0⟩ ∧ NoBarrier s0 0 ∧
    ((takeObl ctx0 .bar 0 0 1).isSome = true ∧
      takeObl { ctx0 with obls := (upto 16).map fun i => (i, ⟨.done, 1, 80, 1, 0⟩) } .bar 0 0 1 = none) ∧
    ((findObl owed0 .bar 0).isSome = true ∧ findObl ctx0 .bar 0 = none) ∧ (80 < obminOf ctx0 ∧ obminOf owed0 ≤ 80) ∧
    (let b : Barrier := ⟨1, false, 80, 2, 0, 1, 0, 3, 0, 0, 0⟩
     b.done b.phase = false ∧ b.done (b.phase - 1) = true ∧ b.poisoned (b.phase - 1) = false ∧
      ({ b with phist := 1 } : Barrier).poisoned (b.phase - 1) = true ∧ 0 < b.npart ∧ b.st ≠ 2 ∧ b.owed ≠ 65535) := by
  refine ⟨ready_of _ _ _ (by decide), by decide, settled_of _ _ (by decide), by decide, ⟨.inr (by decide), by decide, by decide⟩,
    ⟨.inr (by decide), fun b h => absurd h ?_⟩, by decide⟩
  have e : getBarrier s0 (myPart s0).pkg 0 = none := by decide
  rw [e]; exact nofun

set_option maxRecDepth 20000 in
theorem witness_BarrierDelete : Ready bar0.fields bar0.srcs (barrierState ctx0 0 0) ∧ Free (barrierState ctx0 0 0) ∧
    reachesHome (barrierState ctx0 0 0) ⟨0, 0⟩ (handleSite 0) = true ∧ handleCps 0 = false ∧
    (getBarrier (barrierState ctx0 0 0) 0 0).map (fun b => (b.part, b.owed, b.waiters)) = some (0, 0, 0) ∧
    (getBarrier (barrierState ctx0 1 0) 0 0).map (·.owed) = some 1 ∧
    (getBarrier (barrierState ctx0 0 1) 0 0).map (fun b => (b.owed, b.waiters)) = some (0, 1) :=
  ⟨ready_of _ _ _ (by decide), free_of _ (by decide), by decide⟩

/-- The context parked on `w`, with `r` arrived. -/
def parked (w : WaitOn) (r : Option Reply) : State :=
  setSt (issuing { ctx0 with
    wait := w
    reply := r } core0) ⟨0, 0⟩ .parkedMessage

set_option maxRecDepth 20000 in
theorem witness_ContextEvents : isParked (slotOf (parked .reply none) ⟨0, 0⟩).st = true ∧
    (coreOf (parked .reply none) 0).suspended = false ∧ (ctxOf (parked .reply none) ⟨0, 0⟩).reply = none ∧
    (ctxOf (parked .reply (some (.value (.reg 3) 5))) ⟨0, 0⟩).reply = some (.value (.reg 3) 5) ∧
    (ctxOf (parked .reply (some (.trap .poisoned 0))) ⟨0, 0⟩).reply = some (.trap .poisoned 0) ∧
    (ctxOf (parked (.throttled 0) none) ⟨0, 0⟩).wait = .throttled 0 ∧ throttledSince (.throttled 0) = some 0 ∧
    0 + oneMs ≤ ({ parked (.throttled 0) none with now := oneMs } : State).now := by
  decide

theorem witness_ContextEvents_cancels :
    (let s := { s0 with cancels := [⟨1, ⟨0, 0⟩, [⟨0, 0⟩], [], some ⟨0, 1⟩, 0, .none, false⟩,
        ⟨2, ⟨0, 0⟩, [], [], some ⟨0, 0⟩, 0, .reg 3, true⟩] }
     (s.cancels.any fun k => k.left.contains ⟨0, 0⟩) = true ∧ bodyOf s ⟨0, 0⟩ = some ⟨0, 0⟩ ∧
      (∀ k ∈ s.cancels, k.left.Nodup) ∧ (coreOf s 0).suspended = false ∧
      (s.cancels.any fun k => k.issuer == some ⟨0, 0⟩ && k.left.contains ⟨0, 0⟩) = false ∧
      (s.cancels.any fun k => k.left.contains ⟨0, 7⟩) = false ∧ bodyOf s ⟨0, 7⟩ = none ∧
      (firstWhere (fun k => k.id == 2) s.cancels).map (fun k => (k.left, k.dest)) = some ([], .reg 3)) := by
  decide

set_option maxRecDepth 20000 in
set_option exponentiation.threshold 500 in
theorem witness_ContextEvents_fetch : (fetchLine s0 ⟨0, 0⟩ 0x10000 matches .ok _) = true ∧
    (fetchLine s0 ⟨0, 0⟩ 0x30000 matches .fault .protection false) = true ∧
    (fetchLine { s0 with bad := [(0x400, .media)] } ⟨0, 0⟩ 0x10000 matches .bad _ _) = true := by
  decide

/-- The context with a pending completion, user interrupts open at user level; and with a pending event. -/
def pending0 : State := issuing { ctx0 with
  prv := .user
  ints := [⟨1, 0x20000⟩] } core0
def event0 : State := issuing { ctx0 with
  prv := .user
  events := [⟨.orphan, 0, none⟩] } core0
def trapped0 : State := setSt (issuing { ctx0 with trap := some ⟨.poisoned, 0, 0x10000, false, false⟩ } core0) ⟨0, 0⟩ .trapped

theorem witness_Deliveries : (windowOpen trapped0 ⟨0, 0⟩ = false ∧ visiting trapped0 ⟨0, 0⟩ = false ∧ (slotOf trapped0 ⟨0, 0⟩).st = .trapped) ∧
    (atBoundary event0 ⟨0, 0⟩ = true ∧ nextEvent (wholeCtx event0 ⟨0, 0⟩) = some ⟨.orphan, 0, none⟩) ∧
    (intDue pending0 ⟨0, 0⟩ = true ∧ visiting pending0 ⟨0, 0⟩ = false ∧ (ctxOf pending0 ⟨0, 0⟩).ints ≠ []) := by
  decide

/-- A store, a seed and a prefetch under way, and a dirty and a clean sector in the stash of core 0. -/
def moving0 : State := { s0 with
  stores := [⟨1, ⟨0, 0⟩, ⟨0, 0, 0⟩, ⟨0, 0⟩, 0x20000, 0x20000, 8, 5, false, false, 0, 0, false, false, none, none, 0⟩]
  seeds := [⟨2, ⟨0, 0⟩, ⟨0, 0, 0⟩, ⟨0, 0⟩, 0, true, 0x20008, 0x20008, 5, none, true, 0, false, false, none⟩]
  prefetches := [⟨3, 0, ⟨0, 0⟩, 0x20000, 64, 0x30000, .hyp, 0⟩]
  dir := [(4096, ⟨0, 0, true⟩), (4097, ⟨0, 32, false⟩)] }
/-- A plain write of a sector by another context, in a region that is still open. -/
def clash0 (sec : Nat) : RegionRec :=
  { sector := sec, who := ⟨0, 0, 9⟩, part := ⟨0, 0⟩, job := none, sync := false, start := 0, ended := none,
    wrote := true, pc := 0x1000, va := 0x20000 }

/-- The same, the store in the stash; the sector of the store or of the seed written by another context; the word
of the seed erroneous. -/
def bound0 : State := { moving0 with stores := moving0.stores.map fun (p : PStore) => { p with bind := some (0, 64) } }
def checking0 : State := { moving0 with
  stores := moving0.stores.map fun (p : PStore) => { p with checked := true }
  recs := [clash0 0x1000] }
def erring0 : State := { moving0 with bad := [(0x800, .media)] }

set_option maxRecDepth 20000 in
theorem witness_StoreEvents_store : (Memory.wf moving0.mem = true ∧ Map.sorted moving0.dir = true) ∧
    (findStore moving0 1).map (fun p => (p.len, p.unch, p.bind)) = some (8, false, none) ∧
    firstWhere (clashPlain ⟨0, 0⟩ ⟨0, 0, 0⟩ ctx0.regionAt true (0x20000 / 32)) moving0.recs = none ∧
    (findStore bound0 1).map (fun p => (p.bind, p.key % 32 + p.len)) = some (some (0, 64), 8) ∧
    (firstWhere (clashPlain ⟨0, 0⟩ ⟨0, 0, 0⟩ (ctxOf checking0 ⟨0, 0⟩).regionAt true (0x20000 / 32)) checking0.recs).isSome = true ∧
    heldAt moving0 0 0 = some 4096 ∧ heldAt moving0 0 32 = some 4097 ∧ heldAt moving0 0 64 = none := by
  decide

set_option maxRecDepth 20000 in
theorem witness_StoreEvents_seed : (firstWhere (fun (e : Seed) => e.id == 2) moving0.seeds).isSome = true ∧
    firstWhere (clashSync ⟨0, 0⟩ ⟨0, 0, 0⟩ true (0x20008 / 32)) moving0.recs = none ∧
    badAt moving0 0x20008 8 = none ∧ badAt erring0 0x20008 8 = some .media ∧
    (firstWhere (clashSync ⟨0, 0⟩ ⟨0, 0, 0⟩ true (0x20008 / 32)) checking0.recs).isSome = true ∧
    (firstWhere (fun (p : Prefetch) => p.id == 3) moving0.prefetches).isSome = true := by
  decide

theorem witness_SystemRegisters : prvNo (myCtx (at_level .user)).prv < prvNo Prv.guest ∧
    (∀ o ∈ trapF.fields, badLiteral (at_level .user) o = false) ∧
    readLevel s0 0x40 = none ∧ readLevel s0 0x101 = some 0 ∧ readLevel s0 0x20 = some 1 ∧
    writeLevel 0x108 = some 0 ∧ selectDenied 0x108 5 s0 = false := by
  decide

theorem witness_ControlInstructions : Ready trapF.fields [] s0 ∧ (myCtx s0).uintTaken = false ∧
    (let c := { ctx0 with
        ints := [⟨1, 0x20000⟩]
        status := 8 }
     c.uintOwed < c.ints.length ∧ intsOpen c = false) ∧
    ¬ ((myCtx s0).uintOwed < (myCtx s0).ints.length) ∧ windowOpen s0 (me s0) = false ∧ (myCore s0).bkstop = false ∧
    (slotOf s0 ⟨0, 0⟩).gen = 0 ∧ isLive (slotOf s0 ⟨0, 0⟩).st = true ∧ (slotOf (setSt s0 ⟨0, 0⟩ .stopped) ⟨0, 0⟩).st = .stopped ∧
    (coreOf s0 1).slots = [] ∧ (∃ e ∈ (coreOf s0 0).slots, e.2.st ≠ .free) :=
  ⟨ready_of _ _ _ (by decide), by decide, by decide, by decide, by decide, by decide, by decide, by decide, by decide,
    by decide, ⟨_, List.mem_singleton.mpr rfl, by decide⟩⟩

/-- Cells from values in bytes: address, number of bytes, value, by rising address. -/
def cells (l : List (Nat × Nat × Nat)) : List Host.Cell :=
  l.flatMap fun e => (upto e.2.1).filterMap fun i =>
    if e.2.2 / 256 ^ i % 256 = 0 then none else some (e.1 + i, BitVec.ofNat 8 (e.2.2 / 256 ^ i))

/-- Partition 0 maps its guest frames 2 and 8 to 11 onto themselves, by the frame map at 0x7_0000, and its page 2
onto frame 2, by tables in frames 8 to 11; below them memory holds `l`. -/
def pagedOver (l : List (Nat × Nat × Nat)) (r : Part) (c : Ctx) (k : Core) : State :=
  { issuing c k with
    parts := [(0, { r with
      fmap := 0x70000
      fmlen := 16
      ptroot := 0x80000 })]
    mem := cells (l ++ ([2, 8, 9, 10, 11].map fun i => (0x70000 + 8 * i, 8, 1 + i * 2 ^ 16)) ++
      ([(0x80000, 9), (0x90000, 10), (0xA0000, 11)].map fun e => (e.1, 8, 1 + e.2 * 2 ^ 16)) ++ [(0xB0010, 8, 0x2061F)]) }
def paged := pagedOver []

/-- As `paged`, a page being moved. -/
def paged0 : State := paged Part.zero ctx0 core0
/-- As `paged0`, frame 2 under move; its page copy-on-write with a pool of one frame, the 9; a walk of the page asked
for; and a store to the page under way. -/
def moved0 : State := writePA paged0 0 0x70010 8 (5 + 2 * 2 ^ 16)
def cow0 : State :=
  writePA (pagedOver [(0x20000, 16, 1 + 9 * 2 ^ 64)] { Part.zero with cowpool := 0x20000 } ctx0 core0) 0 0xB0008 8 0x2063F
def asked0 (s : State) : State :=
  { s with dies := [(0, { Die.zero with walks := [⟨0, 0x20040, 0, false, 1⟩] })] }
def tlbing0 : State := { paged0 with
  ids := 4
  stores := [⟨1, ⟨0, 0⟩, ⟨0, 0, 0⟩, ⟨0, 0⟩, 0x20000, 0x20000, 8, 5, false, false, 0, 0, false, false, none, none, 0⟩] }

set_option maxRecDepth 20000 in
theorem test_walk : walk paged0 ⟨0, 0⟩ 0x20040 = .ok (0x2061F : W64) 2 2 0xB0010 := by decide

set_option maxRecDepth 20000 in
theorem witness_Pages_Translations : walkHeld moved0 ⟨0, 0⟩ 0x20040 = .moving ∧ walkHeld paged0 ⟨0, 0⟩ 0x100000 = .fault false ∧
    walkHeld paged0 ⟨0, 0⟩ 0x20040 = .ok (0x2061F : W64) 2 2 0xB0010 ∧ (dieAt (asked0 paged0) (dieKey 0)).walks ≠ [] ∧
    walk cow0 ⟨0, 0⟩ 0x10000 = .ok (0x2063F : W64) 2 2 0xB0008 ∧ Pte.cow (0x2063F : W64) = true ∧
    poolCount cow0 ⟨0, 0⟩ = some 1 ∧ poolPA cow0 ⟨0, 0⟩ 1 = some 0x20008 ∧
    (walkMark cow0 0 ⟨0, 0⟩ 0x20000 true).1 = .ok (0x2061F : W64) 2 2 0xB0010 ∧
    frameFor cow0 ⟨0, 0⟩ false (bitsOf (readPA cow0 0 0x20008 8) 0 36) = .ok 9 ∧
    poolCount paged0 ⟨0, 0⟩ = none ∧
    accessesOver paged0 ⟨0, 0⟩ paged0.ids = true ∧ accessesOver tlbing0 ⟨0, 0⟩ tlbing0.ids = false ∧
    drained tlbing0 (me tlbing0) = false ∧ drained paged0 (me paged0) = true ∧ (0x20040 : VA).toNat / 65536 = 2 := by
  decide

theorem witness_Pages_wide : Claims.WholeIsWide s0 := by
  intro core e he
  have h : ∀ t, t ∈ (coreOf s0 core).tlb → t.whole = false := by
    by_cases hc : core = 0
    · subst hc
      decide
    · have : coreOf s0 core = Core.zero := by
        unfold coreOf Map.get
        rw [show Map.get? s0.cores core = none from ?_]
        · rfl
        · show Map.get? [(0, _)] core = none
          simp only [Map.get?]
          split <;> simp_all
      rw [this]
      intro t ht
      cases ht
  rcases List.mem_append.mp he with g | g
  · rw [h e g]
    exact nofun
  · cases g

/-- Registers of a PGSNAP of page 2 onto page 9, and of a PGRET of frame 2 to frame 3. -/
def snapping : State := paged Part.zero ctx0 { core0 with rf := [(1, 0x20000), (2, 0x90000), (3, 1), (4, 2), (5, 0x30000)] }
def snap0 : FS := fs (.g 6) (.g 1) (.g 2) (.g 3) 0
def pgret0 : FS := fs (.g 6) (.g 4) (.g 5) .z 0

set_option maxRecDepth 20000 in
theorem witness_Pages : Ready snap0.fields snap0.srcs snapping ∧ Ready pgret0.fields pgret0.srcs snapping ∧
    drained snapping (me snapping) = true ∧ 2 ≤ prvNo (myCtx snapping).prv ∧
    (snapStop snapping ⟨0, 0⟩ 0x20000 0x90000 1 0 = none ∧
      snapStop snapping ⟨0, 0⟩ 0x20000 (2 ^ 29) 1 0 = some (.missing (2 ^ 29) false) ∧
      snapStop moved0 ⟨0, 0⟩ 0x20000 0x90000 1 0 = some (.moving 0x20000) ∧
      snapStop tlbing0 ⟨0, 0⟩ 0x20000 0x90000 1 0 = some (.writes 2)) ∧
    (slotWalk snapping ⟨0, 0⟩ 0x20000 = .slot 0xB0010 (0x2061F : W64) ∧ leafOk (0x2061F : W64) = true ∧
      slotWalk snapping ⟨0, 0⟩ 0x90000 = .slot 0xB0048 (0 : W64) ∧ leafOk (0 : W64) = false) ∧
    (frameOf snapping ⟨0, 0⟩ 2 = .ok 2 ∧ frameOf snapping ⟨0, 0⟩ 16 = .bad ∧
      copyingOf snapping 2 = none ∧ copyingOf (at_ cow0 9 (.cowCopy ⟨0, 0⟩ 0x10000)) 2 = some 0x10000 ∧
      badLines { snapping with bad := [(0x800, .media)] } 2 = [0x800] ∧ badLines snapping 2 = [] ∧
      frameOf moved0 ⟨0, 0⟩ 2 = .moving 2) :=
  ⟨ready_of _ _ _ (by decide), ready_of _ _ _ (by decide), by decide⟩

theorem witness_Pages_inv : paged0.Inv ∧ cow0.Inv ∧ moved0.Inv := by
  unfold State.Inv; decide +kernel

/-- A context of a running group with the log on, in a transaction; and one that begins one. -/
def logged (c : Ctx) : State :=
  let s := { issuing c core0 with
    groups := [group0]
    parts := [(0, { Part.zero with cklog := 2 ^ 63 })] }
  { s with cur := { s.cur with rstNext := true } }
def inTx : State := logged { ctx0 with tx := some ⟨0, 0, 0, 5⟩ }

set_option maxRecDepth 20000 in
theorem witness_Transactions : Ready trapF.fields [] (logged ctx0) ∧ Ready trapF.fields [] inTx ∧
    ckEnabled (logged ctx0) ⟨0, 0⟩ = true ∧ ckEnabled s0 ⟨0, 0⟩ = false ∧ Settled false (logged ctx0) ∧
    groupOf (logged ctx0) ⟨0, 0⟩ 0 = some group0 ∧ groupOf s0 ⟨0, 0⟩ 0 = none ∧ (myCtx inTx).tx = some ⟨0, 0, 0, 5⟩ ∧
    (∃ e ∈ (ctxOf feeding0 ⟨0, 0⟩).obls, e.2.kind ≠ .done) ∧ (∀ e ∈ (myCtx inTx).obls, e.2.kind = .done) :=
  ⟨ready_of _ _ _ (by decide), ready_of _ _ _ (by decide), by decide, by decide, settled_of _ _ (by decide), by decide⟩

/-- Line 0x800, of page 2, logged in the interval by the context, and erroneous; a line of the L2 in way 0. -/
def undoing : State :=
  let s := logged ctx0
  let p := partOf s ⟨0, 0⟩
  { s with
    parts := [(0, { p with log := { p.log with undo := [⟨⟨0, 0, 0⟩, 0x800, none, [], []⟩] } })]
    bad := [(0x800, .media)]
    sites := [(0, { Site.zero with l2 := [(24, ⟨9, 0, 3, 0, 0, false⟩)] })] }

set_option maxRecDepth 20000 in
theorem witness_Transactions_events : undoing.Inv ∧ (Map.get? (siteOf undoing 0).l2 (1 * 24 + 0)).isSome = true ∧
    Map.sorted (siteOf undoing 0).l2 = true ∧ isParked (slotOf (parked .reply none) ⟨0, 0⟩).st = true ∧
    (ckEnabled undoing ⟨0, 0⟩ && (partOf undoing ⟨0, 0⟩).log.undo.any fun u => u.line == 0x20000 / 64) = true ∧
    rollbackSet (partOf undoing ⟨0, 0⟩).log ⟨0, 0, 0⟩ 0x800 = [⟨0, 0, 0⟩] ∧
    findCtx s0 ⟨0, 0⟩ (refOf s0 ⟨0, 0⟩) = some ⟨0, 0⟩ ∧
    (∀ x ∈ liveCtxs s0 ⟨0, 0⟩, (ctxOf s0 x).snapAt = (partOf s0 ⟨0, 0⟩).interval.toNat) ∧
    (∃ x ∈ liveCtxs s0 ⟨0, 0⟩, (ctxOf s0 x).snapAt ≠ (partOf inTx ⟨0, 0⟩).interval.toNat + 1) := by
  unfold State.Inv; decide

/-- A gate of rank 80 and rate 4 in entry 0 of site 0, whose handle is 0, with `n` tokens of partition 0. -/
def gate0 (rank n : Nat) (frz strict : Bool) : Gate :=
  ⟨true, strict, false, 0, 0, rank, 4, 1, 5, 0, 0, 0, [⟨true, frz, n, true, true, 0⟩], 0, []⟩
def gateState (c : Ctx) (g : Gate) : State :=
  { issuing c { core0 with rf := [(1, 0), (2, 2), (3, 9), (5, 0x20000)] } with
    sites := [(0, { Site.zero with gates := [(0, g)] })] }
def gsig0 : FR := fr (.g 3) (.g 1) (.g 2) .z

set_option maxRecDepth 20000 in
theorem witness_Gates : Ready gsig0.fields gsig0.srcs (gateState ctx0 (gate0 80 4 false false)) ∧
    Settled false (gateState ctx0 (gate0 80 4 false false)) ∧
    tableHeld (gateState ctx0 (gate0 80 4 false false)) ⟨0, 0⟩ = false ∧
    getGate s0 0 0 = none ∧ getGate (gateState ctx0 (gate0 80 4 false false)) 0 0 = some (gate0 80 4 false false) ∧
    aclS (gate0 80 4 false false) 0 = true ∧ aclW (gate0 80 4 false false) 0 = true ∧ aclS (gate0 80 4 false false) 1 = false ∧
    (gate0 80 4 true false).frozen 0 = true ∧ (gate0 80 4 false false).frozen 0 = false ∧
    (gate0 80 4 false false).short 0 4 = false ∧ (gate0 80 3 false true).short 0 4 = true ∧
    80 < obminOf ctx0 ∧ obminOf (myCtx owing0) ≤ 80 ∧ (gate0 80 4 false false).reached 5 = true ∧
    (gate0 80 4 false false).reached 6 = false ∧ (gate0 80 4 false false).poisoned 5 = false ∧
    ({ gate0 80 4 false false with phist := 1 } : Gate).poisoned 5 = true :=
  ⟨ready_of _ _ _ (by decide), settled_of _ _ (by decide), by decide⟩

/-- A legal image: open, rate 4, interval 1, partition 0 may signal and wait. -/
def image0 : Nat := 1 + 4 * 2 ^ 192 + 2 ^ 208 + (2 ^ 31 + 2 ^ 17 + 2 ^ 16) * 2 ^ 512
def making : State := gateState ctx0 (gate0 80 4 false false)
def gmake0 : FS := fs (.g 6) (.g 5) .z .z 0

set_option maxRecDepth 20000 in
set_option exponentiation.threshold 2000 in
theorem witness_GateMaking : Ready gmake0.fields gmake0.srcs making ∧ Free making ∧
    Clear making 0x20000 (needOther 128 true false) dataHit ∧ Clear making 0x20000 (needOther 128 false true) dataHit ∧
    2 ≤ prvNo (myCtx making).prv ∧ drained making (me making) = true ∧
    imageBad (readOwn making ⟨0, 0⟩ dataHit.pa 128) = true ∧
    imageBad image0 = false ∧ membersFull making 0 image0 none = false ∧
    freeGate (siteOf making 0).gates 16 = some 1 ∧ getGate s0 0 0 = none ∧
    getGate making 0 0 = some (gate0 80 4 false false) ∧ ((gate0 80 4 false false).aclFor 0).isSome = true ∧
    (gate0 80 4 false false).aclFor 1 = none ∧
    freeGate ((upto 16).map fun i => (i, gate0 80 4 false false)) 16 = none :=
  ⟨ready_of _ _ _ (by decide), free_of _ (by decide), clear_of _ _ _ _ (by decide), clear_of _ _ _ _ (by decide),
    by decide⟩

/-- g1 the position of one tile of 32 elements, g2 an offset, g5 the block; TIDs 0 and 1 the tensor. -/
def engines : State :=
  pagedOver [(0x20000, 128, copy0)] Part.zero ctx0 { core0 with
    tids := [(0, tensor0), (1, tensor0)]
    rf := [(1, 32 * 2 ^ 48), (2, 5), (5, 0x20000)] }
def mma0 : FE := { fe (.g 0) (.g 1) .z .z with tidb := 1 }
def cpy0 : FE := fe .z (.g 5) .z .z

/-- The state after the reads of an instruction. -/
def after0 (f : FE) : State := markRead f.srcs engines

set_option maxRecDepth 20000 in
set_option exponentiation.threshold 2000 in
theorem witness_Matrix : Ready mma0.srcs [mma0.a, mma0.b] engines ∧ Ready cpy0.fields cpy0.srcs engines ∧
    Ready cpy0.fields [] engines ∧ Room engines ∧ TilesOk (markRead [mma0.a, mma0.b] engines) false [0x20000] (fun _ => 2) ∧
    TilesOk (markRead [mma0.a, mma0.b] engines) true [0x20000] (fun _ => 2) ∧
    tV tensor0 = true ∧ tidBad tensor0 = false ∧ 0 < limitOf engines ⟨0, 0⟩ 3 256 ∧
    posBad (src64 engines mma0.a) = false ∧ posBad 0 = true ∧ formatsOk (tFmt tensor0) (tFmt tensor0) .fp32 = true ∧
    drainOk .fp32 (tFmt tensor0) = true ∧
    pagesOf (tileRanges tensor0 (32 * posRow (src64 engines mma0.a)) (posK (src64 engines mma0.a))
      (posLen (src64 engines mma0.a))) = [0x20000] ∧ checkAcc Acc.zero 16 = .ok Acc.zero false := by
  have one (w : Bool) (h : (checkAccess (markRead [mma0.a, mma0.b] engines) ⟨0, 0⟩ (BitVec.ofNat 57 0x20000)
      (needOther 1 (!w) w) == .hit dataHit) = true) :
      TilesOk (markRead [mma0.a, mma0.b] engines) w [0x20000] (fun _ => 2) := by
    intro a ha
    obtain rfl := List.mem_singleton.mp ha
    exact ⟨dataHit, eq_of_beq h, by decide, by decide⟩
  exact ⟨ready_of _ _ _ (by decide), ready_of _ _ _ (by decide), ready_of _ _ _ (by decide), ⟨by decide, by decide⟩,
    one _ (by decide), one _ (by decide), by decide⟩

theorem streamer_of (s : State) (b : Block) (e : Pte) (g fr pa : Nat)
    (hw : walk s (myPart s) (BitVec.ofNat 57 (bSrc b)) = .ok e g fr pa)
    (hr : reachesSpace s (me s) (spaceOf s (pkgOf (me s).core) (fr * 65536 + (bSrc b) % 2 ^ 57 % 65536)) = true) :
    StreamerOk s b := by
  intro e' g' fr' pa' h
  rw [hw] at h
  cases h
  exact hr

set_option maxRecDepth 20000 in
set_option exponentiation.threshold 2000 in
theorem witness_Matrix_copies :
    LinesAt (after0 cpy0) 0x20000 2 (fun i => { dataHit with pa := 0x20000 + 64 * i }) ∧
    StreamerOk (after0 cpy0) (BitVec.ofNat 1024 copy0) ∧
    ObligationsOk (after0 cpy0) (BitVec.ofNat 1024 copy0) none dataHit ∧
    linesRead (after0 cpy0) 2 (fun i => { dataHit with pa := 0x20000 + 64 * i }) = copy0 ∧
    blockFault (after0 cpy0) (BitVec.ofNat 1024 copy0) (walkOf (BitVec.ofNat 1024 copy0)) = none ∧
    cardBad 1 = false ∧ cardBad 2 = true ∧
    blockFault engines (BitVec.ofNat 1024 (2 ^ 17)) [] = some (1, 0) := by
  refine ⟨⟨by decide, fun i hi => ?_⟩, streamer_of _ _ (0x2061F : W64) 2 2 0xB0010 (by decide) (by decide),
    ⟨fun h => absurd h (by decide), nofun⟩, by decide⟩
  match i, hi with
  | 0, _ => exact ⟨clear_of _ _ _ _ (by decide), .inr (by decide)⟩
  | 1, _ => exact ⟨clear_of _ _ _ _ (by decide), .inr (by decide)⟩

/-- The same in the window of core 0, beside the queue `q` of the array; walking, following, and as the job of an MMA. -/
def working (j : Job) (q : List MCmd) : State :=
  { paged Part.zero ctx0 { core0 with
      jobs := [j]
      mq := q } with groups := [group0] }
def walking0 : Job := { job0 with st := .walking }
def following0 : Job := { job0 with st := .following }
def matrix0 : Job := { job0 with kind := .mma }

def timed0 (j : Job) : Job := { j with timedAt := some (40, 7) }
/-- The line of the tile is in the L2. -/
def cached0 (s : State) : State :=
  { s with sites := [(l2Site 0 0x20000, { Site.zero with l2 := [(l2Set 0x20000 * 24, ⟨0x800, 0, 3, 0, 0, false⟩)] })] }

set_option maxRecDepth 20000 in
set_option exponentiation.threshold 2000 in
theorem witness_EngineEvents : MayStart (working job0 []) 0 job0 ∧ findJob (working job0 []) 0 7 = some job0 ∧
    findJob s0 0 7 = none ∧ walkMoving (working job0 []) 0 job0 = false ∧
    walkMoving (writePA (working job0 []) 0 0x70010 8 (5 + 2 * 2 ^ 16)) 0 job0 = true ∧
    bStash job0.block = false ∧
    declared (coreOf (working job0 []) 0) job0 job0.reads false 0x20200 (bytesOf job0.block) = true ∧
    declared (coreOf (working job0 []) 0) job0 job0.writes false 0x20300 (bytesOf job0.block) = true ∧
    (jobAccess (working job0 []) 0 job0 0x20200 8 false matches .ok _ _) = true ∧
    (jobAccess (working job0 []) 0 job0 0x20300 8 true matches .ok _ _) = true ∧ bKind walking0.block = 0 ∧
    off walking0 = false ∧ wantsInt job0 = false ∧
    (findCtx (working job0 []) (jobPart 0 job0) job0.who).isSome = true := by
  refine ⟨⟨by decide, by decide, by decide, by decide, by decide⟩, by decide⟩

set_option maxRecDepth 20000 in
set_option exponentiation.threshold 2000 in
theorem witness_EngineEvents_array : findJob (working following0 []) 0 7 = some following0 ∧
    formatsOk (tFmt following0.tidA) (tFmt following0.tidB) .fp32 = true ∧
    formatsOk (tFmt following0.tidA) (tFmt following0.tidB) .i32 = false ∧
    (followPages (working following0 []) 0 following0 [0x20000] [] matches .ok _) = true ∧
    (followPages (working following0 []) 0 following0 [0x100000] [] matches .error _) = true ∧
    pagesOf (opA following0 ++ opB following0) = [0x20000] ∧
    walkHeld (working following0 []) ⟨0, 0⟩ 0x20000 = .ok (0x2061F : W64) 2 2 0xB0010 ∧
    (coreOf (working matrix0 [.mma 7 0 (some 0)]) 0).mq = [.mma 7 0 (some 0)] ∧
    findJob (working matrix0 [.mma 7 0 (some 0)]) 0 7 = some matrix0 := by
  decide

set_option maxRecDepth 20000 in
set_option exponentiation.threshold 2000 in
theorem witness_EngineEvents_timed : findJob (working (timed0 job0) []) 0 7 = some (timed0 job0) ∧
    blocked (working (timed0 job0) []) 0 (timed0 job0) = false ∧
    blocked (working (timed0 following0) []) 0 (timed0 following0) = false ∧
    (timed0 matrix0).kind = .mma ∧ tilesPresent (cached0 (working (timed0 matrix0) [])) 0 (timed0 matrix0) = true ∧
    accBusy (coreOf (working (timed0 job0) []) 0) 0 = false ∧ (checkAcc Acc.zero 0 matches .ok _ _) = true ∧
    groupOf (working job0 []) ⟨0, 0⟩ 0 = some group0 ∧ group0.timed = true ∧ group0.t0 = none ∧
    hasBody (effSt (slotOf (working job0 []) ⟨0, 0⟩)) = true := by
  decide

/-- A unit of the kernel at 0x2_4000 by the spread policy, and a marker that counts counter 0. -/
def launch0 : Nat := 2 * 2 ^ 8 + 0xFFFF * 2 ^ 16 + 2 ^ 32 + 0x24000 * 2 ^ 64 + 0xFFFF * 2 ^ 320 + 80 * 2 ^ 400
def marker0 : Nat := 1 + 0xFFFF * 2 ^ 320
/-- Queue 0 at 0x2_0000: state `st`, 16 slots at 0x2_1000, packets up to `tail`; counter 0 at 0x2_2000 configured, of
rank 80; the packet `b` at 0x2_3000 and in slot 0; kernels at 0x2_4000 and 0x2_5000, ready; core 0 is the partition's
logical core 0. -/
def queued (st tail b : Nat) : State :=
  let kernel := 2 + 16 * 2 ^ 144
  pagedOver [(0x20000, 40, st + 2 ^ 72 + 4 * 2 ^ 128 + tail * 2 ^ 192 + 0x21000 * 2 ^ 256), (0x21000, 64, b),
      (0x22000, 16, 1 + 80 * 2 ^ 64), (0x23000, 64, b), (0x24000, 24, kernel), (0x25000, 24, kernel), (0x26000, 2, 0x8000)]
    { Part.zero with
      qtab := 0x20000
      ctab := 0x22000
      l2ptab := 0x26000
      l2plen := 1 } ctx0 { core0 with rf := [(1, 0), (2, 0x23000), (3, 0x23000), (4, 0x24000), (5, 0x25000), (6, 5)] }
def qsub0 : FR := fr (.g 7) (.g 1) (.g 2) .z
def at0 (pa : Nat) : Hit := ⟨pte 0x61F 0, pa, .dram 0⟩

/-- The same after the reads of the instruction. -/
def submitting : State := markRead qsub0.srcs (queued 2 1 launch0)
/-- The VA of the slot at the tail. -/
def tail0 : VA := BitVec.ofNat 57 (slotVa submitting ⟨0, 0⟩ 0 1)

set_option maxRecDepth 20000 in
set_option exponentiation.threshold 2000 in
theorem witness_Queues : Ready qsub0.fields qsub0.srcs (queued 2 1 launch0) ∧ Settled false submitting ∧
    Clear submitting 0x23000 (needOther 64 true false) { dataHit with pa := 0x23000 } ∧
    qdKey submitting ⟨0, 0⟩ 0 = some 0x20000 ∧ reachesHome submitting ⟨0, 0⟩ (homeOf 0x20000) = true ∧
    qState submitting ⟨0, 0⟩ 0 = 2 ∧ qHostFed submitting ⟨0, 0⟩ 0 = false ∧
    ((qTail submitting ⟨0, 0⟩ 0, qHead submitting ⟨0, 0⟩ 0, qLogn submitting ⟨0, 0⟩ 0) = (1, 0, 4)) ∧
    (walkMark (cowNow submitting 0 ⟨0, 0⟩ tail0) 0 ⟨0, 0⟩ tail0 true).1 = .ok (0x2061F : W64) 2 2 0xB0010 ∧
    isDram (spaceOf submitting 0 0x21040) = true :=
  ⟨ready_of _ _ _ (by decide +kernel), settled_of _ _ (by decide +kernel), clear_of _ _ _ _ (by decide +kernel),
    by decide +kernel⟩

set_option maxRecDepth 20000 in
set_option exponentiation.threshold 2000 in
theorem witness_Queues_launch : ranksInside ctx0 (BitVec.ofNat 512 launch0) = true ∧
    ranksInside Ctx.zero (BitVec.ofNat 512 launch0) = false ∧
    packetCode (queued 2 1 launch0) ⟨0, 0⟩ (BitVec.ofNat 512 launch0) = none ∧
    packetCode (queued 2 1 marker0) ⟨0, 0⟩ (BitVec.ofNat 512 marker0) = none ∧ packetCode s0 ⟨0, 0⟩ 2 = some 1 ∧
    dependMet (queued 2 1 launch0) ⟨0, 0⟩ (BitVec.ofNat 512 launch0) = true ∧
    dependPoison (queued 2 1 launch0) ⟨0, 0⟩ (BitVec.ofNat 512 launch0) = false := by
  decide +kernel

set_option maxRecDepth 20000 in
set_option exponentiation.threshold 2000 in
theorem witness_Queues_counter : Free submitting ∧ tableHeld submitting ⟨0, 0⟩ = false ∧
    ctrOk submitting ⟨0, 0⟩ 0 = true ∧ ctrOk submitting ⟨0, 0⟩ 4096 = false ∧
    counterKey submitting ⟨0, 0⟩ 0 = some 0x22000 ∧ reachesHome submitting ⟨0, 0⟩ (homeOf 0x22000) = true ∧
    ctrRank (counterEntry submitting ⟨0, 0⟩ 0) = 80 ∧ ctrValue (counterEntry submitting ⟨0, 0⟩ 0) = 0 :=
  ⟨free_of _ (by decide +kernel), by decide +kernel⟩

set_option maxRecDepth 20000 in
set_option exponentiation.threshold 2000 in
theorem witness_Queues_kswap :
    Clear submitting 0x24000 (needOther 8 true true) { dataHit with pa := 0x24000 } ∧
    Clear submitting 0x25000 (needOther 8 true true) { dataHit with pa := 0x25000 } ∧
    1 ≤ prvNo (myCtx submitting).prv ∧ kstate submitting ⟨0, 0⟩ 0x24000 = 2 ∧ kstate submitting ⟨0, 0⟩ 0x25000 = 2 ∧
    kstate submitting ⟨0, 0⟩ 0x23000 ≠ 2 ∧ kswapSame submitting ⟨0, 0⟩ 0x24000 0x25000 = true ∧
    readRange submitting ⟨0, 0⟩ 0x25060 32 = readRange submitting ⟨0, 0⟩ 0x24060 32 :=
  ⟨clear_of _ _ _ _ (by decide +kernel), clear_of _ _ _ _ (by decide +kernel), by decide +kernel⟩

/-- The launch waits in the dispatcher of die 0. -/
def dispatched (policy : Nat) : Launch where
  id := 3
  pkg := 0
  part := 0
  die := 0
  gid := 1
  queue := none
  packet := BitVec.ofNat 512 (launch0 - (2 - policy) * 2 ^ 8)
  kdesc := 0x24000
  next := 0
  lastCore := none
  issuer := .none
  stuck := false

set_option maxRecDepth 20000 in
set_option exponentiation.threshold 2000 in
theorem witness_QueueEvents : headLaunch (queued 2 1 launch0) ⟨0, 0⟩ 0 = none ∧ headWaits (queued 2 1 launch0) ⟨0, 0⟩ 0 = false ∧
    vaReadable (queued 2 1 launch0) ⟨0, 0⟩ (slotVa (queued 2 1 launch0) ⟨0, 0⟩ 0 0) 64 = true ∧
    headPacket (queued 2 1 marker0) ⟨0, 0⟩ 0 = BitVec.ofNat 512 marker0 ∧
    kernelBarred (queued 2 1 launch0) ⟨0, 0⟩ 0x24000 = false ∧ kernelBarred s0 ⟨0, 0⟩ 0x24000 = true ∧
    placedKernel (queued 2 1 launch0) ⟨0, 0⟩ 0x24000 = 0x24000 ∧
    (chooseCore (queued 2 1 launch0) ⟨0, 0⟩ (dispatched 2) 0x24000).map (fun r => (r.1, r.2.1)) = some (0, 1) ∧
    chooseCore s0 ⟨0, 0⟩ (dispatched 2) 0x24000 = none := by
  decide +kernel

/-- Its one unit is parked, so that a watchdog counts. -/
def idle0 : State := { parked .reply none with groups := [group0] }

set_option maxRecDepth 20000 in
theorem witness_QueueEvents_counts : isParked (slotOf (parked .placement none) ⟨0, 0⟩).st = true ∧
    (ctxOf (parked .placement none) ⟨0, 0⟩).wait = .placement ∧ ctrOk s0 ⟨0, 0⟩ 0 = false ∧
    group0.wdog ≠ 0 ∧ group0.wcount + 1 < group0.wdog ∧ groupOf idle0 ⟨0, 0⟩ 0 = some group0 ∧
    ((slotsOf idle0 0).filter fun e => isLive (effSt e.2) && e.2.ctx.part == 0 && e.2.ctx.grp == 0).map (·.1) = [⟨0, 0⟩] ∧
    (∀ e ∈ slotsOf idle0 0, isParked e.2.st = true ∧ trapService e.2 = false ∧ (coreOf idle0 e.1.core).suspended = false) ∧
    idle0.flights = [] ∧ savedMembers idle0 ⟨0, 0⟩ [0] = [] := by
  decide

/-- A unit of a group of one member, with a tree; g3 a descriptor of one word to be added. -/
def collecting : State :=
  { issuing { ctx0 with isUnit := true } { core0 with rf := [(1, 0x20000), (2, 0x20100), (3, 2 ^ 35)] } with
    groups := [{ group0 with trees := [⟨true, 1, 2, 0⟩] }] }
def gred0 : FR := fr (.g 4) (.g 1) (.g 2) (.g 3)

/-- The same after the reads of the instruction. -/
def contributing : State := markRead gred0.srcs collecting

set_option maxRecDepth 20000 in
theorem witness_Collectives : Ready gred0.fields gred0.srcs collecting ∧ Settled false contributing ∧
    (cdBad 5 (BitVec.ofNat 256 (2 ^ 35)) = false ∧ cdBad 5 (BitVec.ofNat 256 (2 ^ 16)) = true ∧
      (groupOf collecting ⟨0, 0⟩ 0).isSome = true ∧ groupOf collecting ⟨0, 0⟩ 9 = none ∧ (myCtx collecting).isUnit = true ∧
      memberFrom 0 0 0 0 group0.ranges = some 0 ∧ memberFrom 0 0 1 0 group0.ranges = none) ∧
    (∀ g, groupOf collecting ⟨0, 0⟩ 0 = some g → (treeOf g 0).isSome = true ∧ treeOf g 1 = none ∧
      seqOut contributing g 0 (BitVec.ofNat 256 (2 ^ 35)) = false ∧ rootOf g ⟨true, 1, 2, 0⟩ = some 0) ∧
    RangeOk contributing (BitVec.ofNat 256 (2 ^ 35)) 0x20000 8 false ∧
    RangeOk contributing (BitVec.ofNat 256 (2 ^ 35)) 0x20100 8 true ∧ Free contributing ∧
    (1 ≤ prvNo (myCtx collecting).prv ∧
      groupReserved 1 0 = false ∧ groupReserved 1 (2 ^ 128) = true ∧ rangesClash group0.ranges = false) := by
  refine ⟨ready_of _ _ _ (by decide), settled_of _ _ (by decide), by decide, ?_, ?_, ?_, free_of _ (by decide), by decide⟩
  · intro g hg
    obtain rfl := Option.some.inj hg
    decide
  · refine .inr ⟨by decide, fun e he => ?_⟩
    obtain rfl : e = (0x20000, 8) := List.mem_singleton.mp he
    exact ⟨dataHit, by decide, ⟨0, by decide⟩, by decide, nofun, fun _ => by decide⟩
  · refine .inr ⟨by decide, fun e he => ?_⟩
    obtain rfl : e = (0x20100, 8) := List.mem_singleton.mp he
    exact ⟨{ dataHit with pa := 0x20100 }, by decide, ⟨0, by decide⟩, by decide, fun _ => by decide, nofun⟩

/-- The contribution of the group's one member, and its chunk, a frame of which is on the way to the root. -/
def contrib0 : Contrib where
  member := 0
  pkg := 0
  who := ⟨0, 0, 0⟩
  part := 0
  kind := 5
  src := 0x20000
  dst := 0x20100
  desc := BitVec.ofNat 256 (2 ^ 35)
  core := 0
  vd := 0
  dest := .reg 4
  data := 5
  landed := true
  told := false
def chunk0 : Chunk where
  id := 6
  part := 0
  pkg0 := 0
  gid0 := 0
  tree := 0
  seq := 0
  parts := [contrib0]
  complete := false
  status := 0
def chunked : State := { collecting with
  chunks := [chunk0]
  chunkMsgs := [⟨8, 6, 0, 0, false, 0⟩] }

set_option maxRecDepth 20000 in
theorem witness_Collectives_chunks : findChunk chunked 6 = some chunk0 ∧
    (rootView chunked chunk0).map (fun e => (e.2.1, e.2.2)) = some (⟨true, 1, 2, 0⟩, 0) ∧
    (∀ m ∈ survivors { group0 with trees := [⟨true, 1, 2, 0⟩] }, ∃ e, partFor chunk0 m = some e ∧ e.landed = true) ∧
    disagree chunk0 [0] = false ∧ (firstWhere (fun (m : ChunkMsg) => m.id == 8) chunked.chunkMsgs).isSome = true ∧
    trebAt chunked 0 chunk0 = some 0 ∧
    (chunk0.parts.map fun e => (memberCore chunked e, memberSaved chunked e)) = [(some 0, none)] ∧
    (coreOf chunked 0).suspended = false ∧ group0.noticed.contains (0, 1) = false := by
  refine ⟨by decide, by decide, fun m hm => ?_, by decide⟩
  have : survivors { group0 with trees := [⟨true, 1, 2, 0⟩] } = [0] := by decide
  rw [this] at hm
  obtain rfl := List.mem_singleton.mp hm
  exact ⟨_, rfl, rfl⟩

/-- Package 0 at the end `st` of its link to package 1, with one frame outstanding; package 1 up. -/
def linked (st : LinkSt) (att : Nat) : State :=
  let k : Link := { Link.zero with
    st := st
    lanes := 256
    attempts := att
    sendSeq := 1
    out := [⟨0, 0, 9⟩]
    relay := some 2 }
  let k' : Link := { Link.zero with st := if st = .fenced then .fenced else .up }
  { s0 with pkgs := [(0, { Pkg.zero with
    boot := 6
    members := 3
    bulkOut := [7]
    links := [(.peer 0 1, k)] }), (1, { Pkg.zero with links := [(.peer 1 0, k')] })] }

theorem witness_Links : (linkOf (linked .training 0) (.peer 0 1)).st = .training ∧ (linkOf s0 (.peer 0 1)).st = .down ∧
    (linkOf (linked .viral 0) (.peer 0 1)).st = .viral ∧ (linkOf (linked .fenced 0) (.peer 0 1)).st = .fenced ∧
    linkLive (linked .up 0) (.peer 0 1) = true ∧ linkLive s0 (.peer 0 1) = false ∧
    (linkOf (linked .training 2) (.peer 0 1)).attempts = 2 ∧ lanesOf (.peer 0 1) ≤ 2 * 128 ∧ 2 * 127 < lanesOf (.peer 0 1) ∧
    (∀ q ∈ [0, 1], (pkgAt (linked .up 0) q).txs = []) ∧ (∀ b ∈ (pkgAt (linked .up 0) 0).toSend, isRed b = false) ∧
    (pkgAt (linked .up 0) 0).viral = false := by
  decide

theorem witness_Links_frames : (pkgAt (linked .up 0) 0).bulkOut ≠ [] ∧ ((linked .up 0).pkgs.map (·.1)).Nodup ∧
    (linkOf (linked .up 0) (.peer 0 1)).blocks 0 = false ∧
    ({ linkOf (linked .up 0) (.peer 0 1) with paused := 1 } : Link).blocks 0 = true ∧
    (linkOf (acked 0 1 (linked .up 0)) (.peer 0 1)).out ≠ [] ∧ (linkOf (acked 0 1 (linked .up 0)) (.peer 0 1)).live = true ∧
    (linkOf (linked .fenced 0) (.peer 0 1)).relay = some 2 ∧ (linkOf (linked .fenced 0) (.peer 1 0)).st = .fenced ∧
    (linkOf s0 (.peer 0 1)).relay = none ∧ (pkgAt (linked .up 0) 0).members.getLsbD 1 = true := by
  decide

theorem witness_Links_ends : TwoEnded (.peer 0 1) := by
  intro a b h
  cases h
  decide

/-- Package 0, a member of the copse of packages 0 and 1, with the order frame of `b` to apply. -/
def planed (b : OBody) : State :=
  { s0 with pkgs := [(0, { Pkg.zero with
    boot := 6
    member := true
    members := 3
    lastHolder := 1
    txs := [⟨⟨0, 0, 0, 5⟩, .opened, [], [], [], false⟩]
    arrived := [⟨1, 1, 0, b⟩] })] }

theorem witness_OrderPlane : Next (planed (.store 3 0 9 ⟨0, 0⟩)) 0 ⟨1, 1, 0, .store 3 0 9 ⟨0, 0⟩⟩ [] ∧
    (pkgAt s0 0).arrived = [] ∧ (txFind (planed (.txCommit ⟨0, 0, 0, 5⟩ 0)) 0 ⟨0, 0, 0, 5⟩).map (·.st) = some .opened ∧
    (3 : BitVec 32).getLsbD 0 = true ∧ (2 : BitVec 32).getLsbD 0 = false ∧ (pkgAt (planed (.reserved 20)) 0).gapAt = none ∧
    (let s := { s0 with pkgs := [(0, { Pkg.zero with gapAt := some 4 }), (1, { Pkg.zero with kept := [⟨4, 1, 0, .reserved 20⟩] })] }
     (pkgAt s 0).gapAt = some 4 ∧ (pkgAt s 0).viral = false ∧ (pkgAt s 1).viral = false ∧
      firstWhere (fun f => f.pseq == 4) ((pkgAt s 1).kept ++ (pkgAt s 1).arrived) = some ⟨4, 1, 0, .reserved 20⟩) ∧
    (let s := { s0 with pkgs := [(0, { Pkg.zero with
        member := true
        members := 3
        lastHolder := 1 })] }
     (pkgAt s 0).viral = false ∧ (pkgAt s 0).member = true ∧ (pkgAt s 0).arrived = [] ∧
      (pkgAt s 0).members.getLsbD 0 = true ∧ 0 ∈ s.pkgs.map (·.1)) := by
  refine ⟨⟨by decide, by decide, by decide, by decide⟩, ?_⟩
  decide

theorem witness_OrderPlane_inv : (planed (.store 3 0 9 ⟨0, 0⟩)).Inv := by
  unfold State.Inv; decide

/-- Virtual function 2 belongs to partition 0, which maps frames. -/
def hosted : State :=
  let s := paged { Part.zero with qtab := 0x20000 } ctx0 core0
  { s with pkgs := [(0, { Pkg.zero with
    boot := 6
    vfs := [(2, 0)] })] }

set_option maxRecDepth 20000 in
theorem witness_Host : barZero hosted 0 (some 2) 0x3C00 4 = some 0xBC00 ∧ barZero hosted 0 (some 3) 0 4 = none ∧
    barZero hosted 0 none 0xFFFFC 4 = some 0xFFFFC ∧ barZero hosted 0 none 0xFFFFD 4 = none ∧
    bellAt hosted 0 0xBC00 4 = some (⟨0, 0⟩, 0) ∧ bellAt hosted 0 0xBBFC 4 = none ∧
    barTwo hosted 0 (some 2) 0x20008 = some 0x20008 ∧ barTwo hosted 0 (some 2) 0x100000 = none ∧
    badAt hosted 0x20008 8 = none ∧ (badAt { hosted with bad := [(0x800, .media)] } 0x20008 8).isSome = true ∧
    (partOf s0 ⟨0, 0⟩).qtab = 0 := by
  decide

set_option exponentiation.threshold 2000 in
theorem witness_Host_inv : hosted.Inv ∧ qHostFed (writePA hosted 0 0x20000 40 (2 + 2 ^ 71 + 4 * 2 ^ 128)) ⟨0, 0⟩ 0 = true := by
  refine ⟨?_, by decide +kernel⟩
  unfold State.Inv; decide

theorem witness_Power : s0.Inv ∧ 5 ≤ (pkgAt s0 0).boot ∧ (pkgAt s0 0).viral = false ∧ (pkgAt State.reset 0).boot < 5 ∧
    timedOnDie s0 0 0 = false ∧ (∃ e ∈ (coreOf s0 0).slots, e.2.st ≠ .free) ∧
    (∀ e ∈ (coreOf s0 (coreId 0 3 1023)).slots, e.2.st = .free) ∧
    (∃ b ∈ (siteOf (barrierState ctx0 1 0) 0).bars, b.2.st ≠ 0) ∧ (siteOf s0 0).bars = [] ∧ (siteOf s0 0).gates = [] := by
  refine ⟨?_, by decide⟩
  unfold State.Inv; decide

theorem witness_Power_timed : timedOnDie { s0 with groups := [group0] } 0 0 = true := by decide

/-- Core 0 pre-empted, its context suspended, device 0 in place. -/
def preempted : State := setSt (issuing ctx0 { core0 with suspended := true }) ⟨0, 0⟩ .suspended

/-- The same while it waits for a result on the way. -/
def saving0 : State := { preempted with cores := [(0, { coreOf preempted 0 with pend := [⟨0, 0, 0, .reg 3, 5⟩] })] }
/-- As it runs, with a result on the way and the restart point behind it. -/
def windowed0 : State := issuing { ctx0 with pc := 0x10001 } { core0 with pend := [⟨0, 9, 0, .reg 3, 5⟩] }

theorem witness_Preemption : preemptHeld s0 ⟨0, 0⟩ = false ∧ (slotOf s0 ⟨0, 0⟩).st = .ready ∧
    ((ctxOf s0 ⟨0, 0⟩).wait ≠ .reply ∨ isParked (slotOf s0 ⟨0, 0⟩).st = false) ∧ windowOpen s0 ⟨0, 0⟩ = false ∧
    (windowOpen windowed0 ⟨0, 0⟩ = true ∧ preemptHeld windowed0 ⟨0, 0⟩ = false ∧ (slotOf windowed0 ⟨0, 0⟩).st = .ready) ∧
    ((coreOf s0 0).suspended = false ∧ (coreOf preempted 0).suspended = true ∧ preempting preempted 0 = false ∧
      preempting saving0 0 = true ∧ preempted.agenda = [] ∧ (coreOf preempted 0).vd = 0 ∧
      (slotOf preempted ⟨0, 0⟩).st = .suspended ∧ Map.get? preempted.saves (saveKey preempted ⟨0, 0⟩ 3 0) = none) ∧
    logicalCore s0 ⟨0, 0⟩ 0 = none ∧ bitAt (partOf s0 ⟨0, 0⟩).slotcfg.toNat 63 = false := by
  decide

set_option maxRecDepth 20000 in
theorem witness_Preemption_cores : logicalCore (queued 2 1 0) ⟨0, 0⟩ 0 = some 0 ∧
    (let s := writePA { s0 with parts := [(0, { Part.zero with
        slotcfg := BitVec.ofNat 64 (2 ^ 63 + 1000)
        slottab := 0x26000 })] } 0 0x26000 2 0x8001
     bitAt (partOf s ⟨0, 0⟩).slotcfg.toNat 63 = true ∧ bitAt (readPA s 0 0x26000 2) 15 = true) := by
  decide +kernel

set_option exponentiation.threshold 500 in
/-- The state that runs a placed NOP, and the line it enters. -/
def placed0 : State := State.reset.withFetchWord 96 0x0FFFFFFFFFF00001
def placedLine : Line := lineOf 0x10000 (readPA placed0 0 0x10000 64)
def placedX : CtxId := ⟨0, 0⟩

set_option maxRecDepth 20000 in
set_option exponentiation.threshold 500 in
theorem witness_StepRuns : AtCell placed0 placedX placedLine 0 ∧ decode (placedLine.cell 0) = .ok (.nop (FR.blank 0)) ∧
    memberFault (.nop (FR.blank 0)) (entered placed0 placedX placedLine 0) = none ∧ placedLine.pair 0 = false ∧
    placed0.Inv ∧ (step placed0 matches .next _) = true ∧ decode 0x1F = .error .opcode := by
  have h : placedLine.cell 0 = 0x0FFFFFFFFFF00001 := by decide +kernel
  have e : (ctxOf (applyStatus placed0 placedX) placedX).entry = .flow := by decide +kernel
  refine ⟨⟨?_, by decide +kernel, by decide +kernel, .inl e, by decide +kernel, by decide +kernel, by decide +kernel, ?_,
    by decide +kernel⟩, by rw [h]; rfl, by decide +kernel, by decide +kernel, ?_, by decide +kernel, rfl⟩
  · have t : (coreOf placed0 placedX.core).suspended = false := by decide +kernel
    refine ⟨by decide +kernel, by decide +kernel, by decide +kernel, by decide +kernel, by decide +kernel, fun q => ?_, fun _ => ?_⟩
    · rw [t] at q; cases q
    · decide +kernel
  · unfold mayEnter; rw [e]; trivial
  · unfold State.Inv; decide +kernel

set_option maxRecDepth 20000 in
theorem witness_InvKept : placed0.Inv ∧ (step placed0 matches .next _) = true := by
  refine ⟨?_, by decide +kernel⟩
  unfold State.Inv; decide +kernel

end Sys2Proof.Tests
end

section
/-! The words that the manual writes out. Each one is the cell that the encoder writes for the well-formed
instruction that the manual names, so the round trip of that instruction's format decodes it. -/

namespace Sys2Proof.Proofs

open Sys2Proof.Laws

/-- Settles O2: every word is the encoder's cell of its instruction, which the decoder reads back. The two checks of
each line are that the instruction is well formed and that its cell is the word. -/
theorem decodeWords : Obligations.DecodeWords := by
  unfold Obligations.DecodeWords
  exact
    ⟨RoundTrip.nop _ rfl _ rfl,
     RoundTrip.add _ rfl _ rfl,
     RoundTrip.mov _ rfl _ rfl,
     RoundTrip.li _ rfl _ rfl,
     RoundTrip.fma _ rfl _ rfl,
     RoundTrip.qnt _ rfl _ rfl,
     RoundTrip.bri _ rfl _ rfl,
     RoundTrip.call _ rfl _ rfl,
     RoundTrip.ld _ rfl _ rfl,
     RoundTrip.stmap _ rfl _ rfl,
     RoundTrip.atom _ rfl _ rfl,
     RoundTrip.spawnat _ rfl _ rfl,
     RoundTrip.nwr _ rfl _ rfl,
     RoundTrip.obl _ rfl _ rfl,
     RoundTrip.obq _ rfl _ rfl,
     RoundTrip.bnew _ rfl _ rfl,
     RoundTrip.gsig _ rfl _ rfl,
     RoundTrip.cpy _ rfl _ rfl,
     RoundTrip.mma _ rfl _ rfl,
     RoundTrip.tidw _ rfl _ rfl,
     RoundTrip.qsub _ rfl _ rfl,
     RoundTrip.kswap _ rfl _ rfl,
     RoundTrip.gred _ rfl _ rfl,
     RoundTrip.gtblW _ rfl _ rfl,
     RoundTrip.sysr _ rfl _ rfl,
     RoundTrip.sysw _ rfl _ rfl,
     RoundTrip.tlbiPage _ rfl _ rfl,
     RoundTrip.tbeg _ rfl _ rfl,
     RoundTrip.gmakeCreate _ rfl _ rfl⟩

end Sys2Proof.Proofs
end

section
/-! Issue of an instruction that is ready: it passes its checks, and what it computes from its operands does not
depend on the marks of the registers that it reads, so that it computes the same before and after their unread bits
are cleared (R46, R89). -/

namespace Sys2Proof.Proofs.NumberFormats

open Sys2Proof Sys2Proof.Machine Sys2Proof.Claims

/-! ### States that differ in marks alone -/

/-- The states agree in everything that an operand's value is read from: they may differ in the marks of registers. -/
structure SameButMarks (s t : State) : Prop where
  cur : t.cur = s.cur
  now : t.now = s.now
  pkgs : t.pkgs = s.pkgs
  core : ∀ c, ∃ m, coreOf t c = { coreOf s c with marks := m }

theorem SameButMarks.refl (s : State) : SameButMarks s s := ⟨rfl, rfl, rfl, fun _ => ⟨_, rfl⟩⟩

theorem SameButMarks.trans {s t u : State} (h : SameButMarks s t) (g : SameButMarks t u) : SameButMarks s u where
  cur := g.cur.trans h.cur
  now := g.now.trans h.now
  pkgs := g.pkgs.trans h.pkgs
  core c := by
    obtain ⟨m, hm⟩ := h.core c
    obtain ⟨n, hn⟩ := g.core c
    exact ⟨n, by rw [hn, hm]⟩

theorem sameButMarks_setMarks (s : State) (c e : Nat) (f : Marks → Marks) : SameButMarks s (setMarks s c e f) where
  cur := rfl
  now := rfl
  pkgs := rfl
  core d := by
    rw [setMarks, coreOf_modCore]
    split
    · rename_i h; subst h; exact ⟨_, rfl⟩
    · exact ⟨_, rfl⟩

theorem sameButMarks_markRead (rs : List Opnd) (s : State) : SameButMarks s (markRead rs s) := by
  unfold markRead
  induction rs generalizing s with
  | nil => exact .refl s
  | cons o rs ih =>
    refine SameButMarks.trans ?_ (ih _)
    dsimp only
    split
    · split
      · exact sameButMarks_setMarks _ _ _ _
      · exact .refl s
    · exact .refl s

namespace SameButMarks

section
variable {s t : State} (h : SameButMarks s t)
include h

/-- Any part of a core but its marks. -/
theorem part {α : Type} (g : Core → α) (hg : ∀ k m, g { k with marks := m } = g k) (c : Nat) :
    g (coreOf t c) = g (coreOf s c) := by
  obtain ⟨m, hm⟩ := h.core c
  rw [hm, hg]

theorem me_eq : me t = me s := by simp only [me, h.cur]

theorem slot_eq (x : CtxId) : slotOf t x = slotOf s x :=
  congrArg (fun l => Map.get l x.slot Slot.zero) (h.part (·.slots) (fun _ _ => rfl) x.core)

theorem ctx_eq (x : CtxId) : ctxOf t x = ctxOf s x := congrArg Slot.ctx (h.slot_eq x)

theorem myCtx_eq : myCtx t = myCtx s := by rw [myCtx, h.me_eq, h.ctx_eq]; rfl

theorem lfsr_eq : (myCore t).lfsr = (myCore s).lfsr := by
  rw [myCore, h.me_eq]; exact h.part (·.lfsr) (fun _ _ => rfl) _

theorem mask_eq (x : CtxId) (n : Nat) : maskVal t x n = maskVal s x n := by simp only [maskVal, h.ctx_eq]

theorem g_eq (x : CtxId) (n : Nat) : gVal t x n = gVal s x n := by
  have hr : (coreOf t x.core).rf = (coreOf s x.core).rf := h.part (·.rf) (fun _ _ => rfl) _
  simp only [gVal, entryVal, entryOf, h.ctx_eq, hr]

theorem k_eq (x : CtxId) (n : Nat) : kVal t x n = kVal s x n := by
  have hk : (coreOf t x.core).kbanks = (coreOf s x.core).kbanks := h.part (·.kbanks) (fun _ _ => rfl) _
  simp only [kVal, h.ctx_eq, hk]

theorem lit_eq (c w : Nat) : litVal t c w = litVal s c w := by unfold litVal; rw [h.cur]

theorem sreg_eq (x : CtxId) (n : Nat) (r : SReg) : sregVal t x n r = sregVal s x n r := by
  have hc : (coreOf t x.core).cyc = (coreOf s x.core).cyc := h.part (·.cyc) (fun _ _ => rfl) _
  simp only [sregVal, h.ctx_eq, hc, timeOf, pkgAt, h.now, h.pkgs]

theorem scalar_eq (i : BitVec 20) (o : Opnd) : scalarSrc t i o = scalarSrc s i o := by
  cases o with
  | k n => exact congrArg (fun v : W32 => some (v.toNat, 32)) (h.me_eq ▸ h.k_eq _ _)
  | lit c w => exact congrArg (fun v : W32 => some (v.toNat, 32)) (h.lit_eq c w)
  | _ => rfl

theorem wide_eq (n : Nat) (o : Opnd) : wideSrc t n o = wideSrc s n o := by
  cases o <;> simp only [wideSrc, h.me_eq, h.g_eq, h.sreg_eq, h.mask_eq]

theorem laneBits_eq (imm : BitVec 20) (n : Nat) (o : Opnd) (i w : Nat) (g : Bool) :
    laneBits t imm n o i w g = laneBits s imm n o i w g := by
  simp only [laneBits, h.scalar_eq, h.wide_eq]

theorem src64L_eq (f : FR) (o : Opnd) : src64L f t o = src64L f s o := by simp only [src64L, h.laneBits_eq]

theorem lanesOn_eq (f : FR) : lanesOn f t = lanesOn f s := by simp only [lanesOn, h.me_eq, h.mask_eq]

theorem floatLaneAt_eq (ty : Ty) (imm : BitVec 20) (o : Opnd) (i : Nat) :
    floatLaneAt ty imm t o i = floatLaneAt ty imm s o i := by
  unfold floatLaneAt
  cases o with
  | k n => simp only [h.me_eq, h.k_eq]
  | lit c w => dsimp only; rw [h.lit_eq]
  | i20 => rfl
  | _ => simp only [h.wide_eq]

theorem floatLane_eq (f : FR) (o : Opnd) (neg : Bool) (i : Nat) : floatLane f t o neg i = floatLane f s o neg i := by
  simp only [floatLane, h.floatLaneAt_eq]

theorem floatResult_eq (op : FOp) (f : FR) : floatResult op f t = floatResult op f s := by
  simp only [floatResult, h.lanesOn_eq, h.wide_eq, h.lfsr_eq, h.floatLane_eq]

theorem fdotSum_eq (f : FR) : fdotSum f t = fdotSum f s := by
  simp only [fdotSum, h.lanesOn_eq, h.floatLaneAt_eq, h.floatLane_eq]

theorem convSrc_eq (f : FR) (ty : Ty) (o : Opnd) (neg : Bool) (i : Nat) :
    convSrc f ty t o neg i = convSrc f ty s o neg i := by
  simp only [convSrc, h.floatLaneAt_eq, h.laneBits_eq]

theorem blockElems_eq (f : FR) : blockElems f t = blockElems f s := by
  simp only [blockElems, h.wide_eq]

end

end SameButMarks

/-! ### Issue -/

/-- A ready instruction passes the checks of its issue. -/
theorem holdOf_of_ready {os rs : List Opnd} {s : State} (h : Ready os rs s) : holdOf os rs s = .go := by
  unfold holdOf
  rcases h with hp | ⟨hlit, hwin, hpres, hopen, hpoison⟩
  · rw [if_pos hp]
  · have habs : absent s os = none := (firstWhere_none _ _).mpr fun o ho => by simp [hpres o ho]
    have hlat : ((myCore s).schk && os.any (inWindow s)) = false := by
      rcases hopen with h | h
      · simp [h]
      · have : os.any (inWindow s) = false := List.any_eq_false.mpr fun o ho => by simp [h o ho]
        simp [this]
    have hlit' : os.any (badLiteral s) = false := List.any_eq_false.mpr fun o ho => by simp [hlit o ho]
    have hwin' : os.any (outsideWindow (myCtx s)) = false := List.any_eq_false.mpr fun o ho => by simp [hwin o ho]
    have hpoi : rs.any (fun o => (marksOf s o).poison) = false :=
      List.any_eq_false.mpr fun o ho => by simp [hpoison o ho]
    simp [habs, hlat, hlit', hwin', hpoi]

section
variable {os rs : List Opnd} {s : State} (hr : Ready os rs s)
include hr

/-- An instruction that is performed has its effect on the state in which its operands are read. -/
theorem issue_performed {k : State → State} {t : State} (hk : k (markRead rs s) = t) (ht : t.cur = s.cur) :
    issue os rs k s = .next t := by
  rw [issue_go _ _ _ _ (holdOf_of_ready hr)]
  unfold readThen
  simp [hk, ht]

/-- An instruction that faults has read nothing, unless its pair had been undone before (R46). -/
theorem issue_faults (k g : State → State) (c : Cause) (i : W64)
    (hk : ∀ u, SameButMarks s u → k u = fault c i (g u)) :
    issue os rs k s = .next (fault c i (g (unread rs s))) := by
  have hmark := hk _ (sameButMarks_markRead rs s)
  have hund : ∀ u, (fault c i u).cur.undone = true := fun _ => rfl
  rw [issue_go _ _ _ _ (holdOf_of_ready hr)]
  unfold readThen unread
  simp only [hmark, hk s (.refl s), hund]
  cases s.cur.undone <;> rfl

end

end Sys2Proof.Proofs.NumberFormats
end

section
/-! The flags of a result (R57): an instruction whose raised flags are all disabled has its effect with the flags
raised, and one that raises an enabled flag faults FP. -/

namespace Sys2Proof.Proofs.NumberFormats

open Sys2Proof Sys2Proof.Machine Sys2Proof.Claims

/-! ### Raising flags -/

theorem withFlags_disabled {s : State} {fl : Flags} (h : noTrapOf s fl) (k : State → State) :
    withFlags fl k s = k (flagged fl s) :=
  if_neg (not_not_intro (show enabledFlags (myCtx s) fl = 0 from h))

theorem withFlags_enabled {s : State} {fl : Flags} (h : ¬ noTrapOf s fl) (k : State → State) :
    withFlags fl k s = fault .fp (fl.setWidth 64) (raiseFlags fl s) :=
  if_pos (show enabledFlags (myCtx s) fl ≠ 0 from h)

theorem SameButMarks.noTrapOf_iff {s t : State} (h : SameButMarks s t) (fl : Flags) :
    noTrapOf t fl ↔ noTrapOf s fl := by
  unfold noTrapOf
  rw [h.myCtx_eq]

@[simp] theorem flagged_cur (fl : Flags) (s : State) : (flagged fl s).cur = s.cur := by
  unfold flagged; split <;> rfl

@[simp] theorem me_flagged (fl : Flags) (s : State) : me (flagged fl s) = me s := by simp only [me, flagged_cur]

theorem quiet_flagged (fl : Flags) (s : State) : Quiet s (flagged fl s) := by
  unfold flagged
  split
  · exact .refl s
  · exact quiet_mod _ _

/-- The flags stick in the context that has raised them. -/
theorem ctxOf_flagged (fl : Flags) (s : State) :
    ctxOf (flagged fl s) (me s) = { myCtx s with fpstat := (myCtx s).fpstat ||| fl.setWidth 64 } := by
  unfold flagged
  split
  · rename_i h
    have h0 : (myCtx s).fpstat ||| (0 : Flags).setWidth 64 = (myCtx s).fpstat := by simp
    rw [h, h0]
    rfl
  · exact ctxOf_modCtx_self _ _ _

theorem coreOf_flagged {α : Type} (g : Core → α) (hg : ∀ k l, g { k with slots := l } = g k) (fl : Flags) (s : State)
    (c : Nat) : g (coreOf (flagged fl s) c) = g (coreOf s c) := by
  unfold flagged
  split
  · rfl
  · exact coreOf_modCtx g hg _ _ _ _

/-! ### The LFSR -/

@[simp] theorem stepLfsr_cur (rm : RM) (n : Nat) (s : State) : (stepLfsr rm n s).cur = s.cur := by
  unfold stepLfsr; split <;> rfl

theorem quiet_stepLfsr (rm : RM) (n : Nat) (s : State) : Quiet s (stepLfsr rm n s) := by
  unfold stepLfsr
  split
  · exact quiet_modCore _ _ _ fun _ => ⟨rfl, rfl⟩
  · exact .refl s

theorem ctxOf_stepLfsr (rm : RM) (n : Nat) (s : State) (x : CtxId) : ctxOf (stepLfsr rm n s) x = ctxOf s x := by
  unfold stepLfsr
  split
  · exact ctxOf_modCore _ _ (fun k => { k with lfsr := lfsrSteps n k.lfsr }) (fun _ => rfl) x
  · rfl

theorem coreOf_stepLfsr {α : Type} (g : Core → α) (hg : ∀ k l, g { k with lfsr := l } = g k) (rm : RM) (n : Nat)
    (s : State) (c : Nat) : g (coreOf (stepLfsr rm n s) c) = g (coreOf s c) := by
  unfold stepLfsr
  split
  · rw [coreOf_modCore]
    split
    · rename_i h; rw [hg, h]
    · rfl
  · rfl

theorem coreOf_advance {α : Type} (g : Core → α) (hg : ∀ k l, g { k with slots := l } = g k) (s : State) (c : Nat) :
    g (coreOf (advance s) c) = g (coreOf s c) := coreOf_modCtx g hg _ _ _ _

@[simp] theorem opened_cur (L : Nat) (d : Opnd) (v : Reg) (s : State) : (opened L d v s).cur = s.cur := by
  simp only [opened, advance_cur, openWindow]
  split <;> rfl

/-! ### Issue of an instruction that raises flags -/

section
variable {os rs : List Opnd} {s : State} (hr : Ready os rs s)
include hr

/-- With no raised flag enabled the effect `q` follows on the flags, which stick. -/
theorem issue_flags_performed (k q : State → State) (fl : Flags) (hn : noTrapOf s fl)
    (hk : k (markRead rs s) = withFlags fl q (markRead rs s)) (hq : ∀ v, (q v).cur = v.cur) :
    issue os rs k s = .next (q (flagged fl (markRead rs s))) := by
  have hs := sameButMarks_markRead rs s
  exact issue_performed hr (hk.trans (withFlags_disabled ((hs.noTrapOf_iff fl).mpr hn) q))
    (by rw [hq, flagged_cur, hs.cur])

/-- A raised flag that is enabled faults FP, whatever effect would have followed. -/
theorem issue_flags_faults (k : State → State) (fl : Flags) (hn : ¬ noTrapOf s fl)
    (hk : ∀ u, SameButMarks s u → ∃ q, k u = withFlags fl q u) :
    issue os rs k s = .next (fpTrap fl rs s) :=
  issue_faults hr k (raiseFlags fl) .fp (fl.setWidth 64) fun u hu => by
    obtain ⟨q, hq⟩ := hk u hu
    rw [hq, withFlags_enabled (fun h => hn ((hu.noTrapOf_iff fl).mp h))]

end

/-! ### What a fault leaves of the results that are still to land -/

/-- The results of fixed latency that are still to land stand as they did on every core. -/
def SamePend (s t : State) : Prop := ∀ c, (coreOf t c).pend = (coreOf s c).pend

theorem SamePend.refl (s : State) : SamePend s s := fun _ => rfl

theorem SamePend.trans {s t u : State} (h : SamePend s t) (g : SamePend t u) : SamePend s u := fun c =>
  (g c).trans (h c)

theorem samePend_modCore (s : State) (c : Nat) (f : Core → Core) (h : ∀ k, (f k).pend = k.pend) :
    SamePend s (modCore s c f) := fun d => by
  rw [coreOf_modCore]
  split
  · rename_i e; rw [h, e]
  · rfl

theorem samePend_of_cores {s t : State} (h : t.cores = s.cores) : SamePend s t := fun c => by simp only [coreOf, h]

theorem samePend_setMarks (s : State) (c e : Nat) (f : Marks → Marks) : SamePend s (setMarks s c e f) :=
  samePend_modCore _ _ _ fun _ => rfl

theorem samePend_modSlot (s : State) (x : CtxId) (f : Slot → Slot) : SamePend s (modSlot s x f) :=
  samePend_modCore _ _ _ fun _ => rfl

theorem samePend_dropYield (s : State) (x : CtxId) : SamePend s (dropYield s x) :=
  samePend_modCore _ _ _ fun _ => rfl

theorem samePend_pmCore (s : State) (c ev n : Nat) : SamePend s (pmCore s c ev n) := by
  unfold pmCore
  split
  · exact .refl s
  · exact samePend_modCore _ _ _ fun _ => rfl

theorem samePend_note (s : State) (c k sl sub : Nat) (p : W64) : SamePend s (note s c k sl sub p) := by
  unfold note
  split
  · exact samePend_modCore _ _ _ fun _ => rfl
  · exact .refl s

theorem samePend_withoutBad (s : State) (x : CtxId) (l : Prv) : SamePend s (withoutBad s x l) := by
  unfold withoutBad
  split
  · exact .refl s
  · exact (samePend_setMarks _ _ _ _).trans (samePend_modSlot _ _ _)

theorem samePend_stopCtx (s : State) (x : CtxId) (k : Cause) (e : VA) : SamePend s (stopCtx s x k e) := by
  unfold stopCtx
  refine SamePend.trans (samePend_of_cores ?_) ((samePend_modSlot _ _ _).trans (samePend_dropYield _ _))
  simp only [List.foldl_cons, List.foldl_nil, logPhys_cores]

theorem samePend_enterTrap (s : State) (x : CtxId) (k : Cause) (i : W64) (e : VA) (a r : Bool) :
    SamePend s (enterTrap s x k i e a r) := by
  unfold enterTrap
  dsimp only
  split
  · exact samePend_stopCtx _ _ _ _
  · exact (samePend_pmCore _ _ _ _).trans ((samePend_note _ _ _ _ _ _).trans
      ((samePend_withoutBad _ _ _).trans (samePend_modSlot _ _ _)))

theorem samePend_takeTrap (s : State) (x : CtxId) (k : Cause) (i : W64) (e : VA) (a r : Bool) :
    SamePend s (takeTrap s x k i e a r) := by
  unfold takeTrap
  dsimp only
  split
  · exact (samePend_dropYield _ _).trans (samePend_modSlot _ _ _)
  · exact (samePend_dropYield _ _).trans (samePend_enterTrap _ _ _ _ _ _ _)

theorem samePend_fault (k : Cause) (i : W64) (s : State) : SamePend s (fault k i s) :=
  samePend_takeTrap _ _ _ _ _ _ _

theorem samePend_unread (rs : List Opnd) (s : State) : SamePend s (unread rs s) := by
  unfold unread
  split
  · exact (sameButMarks_markRead rs s).part (·.pend) fun _ _ => rfl
  · exact .refl s

theorem quiet_unread (rs : List Opnd) (s : State) : Quiet s (unread rs s) := by
  unfold unread
  split
  · exact quiet_markRead _ _
  · exact .refl s

/-- D stays as it was where the flags trap (R57): no register is written, and no write window opens. -/
theorem fpTrap_leaves (fl : Flags) (rs : List Opnd) (s : State) :
    SameRegs s (fpTrap fl rs s) ∧ SamePend s (fpTrap fl rs s) :=
  ⟨((quiet_unread rs s).trans ((quiet_mod _ _).trans (quiet_fault _ _ _))).regs,
    (samePend_unread rs s).trans ((samePend_modSlot _ _ _).trans (samePend_fault _ _ _))⟩

end Sys2Proof.Proofs.NumberFormats
end

section
/-! The float operations (R134, R135), the square-root unit (R139) and FDOT (R138). -/

namespace Sys2Proof.Proofs.NumberFormats

open Sys2Proof Sys2Proof.Machine Sys2Proof.Claims

/-! ### FADD to FLG2 -/

theorem exec_eq_floatOp : ∀ e ∈ floatOps, ∀ (f : FR) (s : State), exec (e.1 f) s = floatOp e.2.1 e.2.2 f s := by
  simp only [floatOps, List.forall_mem_cons]
  refine ⟨?_, ?_, ?_, ?_, ?_, ?_, ?_, ?_, ?_, ?_, by simp⟩ <;> exact fun _ _ => rfl

/-- No raised flag is enabled: the lanes are in their write window (R134). -/
theorem floatOp_performed (L : Nat) (op : FOp) {f : FR} {s : State} (hr : Ready f.fields (FR.reads f s) s)
    (hn : noTrapOf s (orFlags (floatResult op f (markRead (FR.reads f s) s)))) :
    let s1 := markRead (FR.reads f s) s
    let l := floatResult op f s1
    floatOp L op f s = .next (stepLfsr f.rm (drawsBefore (lanesOn f s1) f.t.lanes)
      (opened L f.d (nat256 (packLanes (fmtOf f.t).width (l.map (·.1)))) (flagged (orFlags l) s1))) :=
  issue_flags_performed hr _ (fun v => stepLfsr f.rm _ (opened L f.d _ v)) _ hn rfl
    fun _ => (stepLfsr_cur _ _ _).trans (opened_cur _ _ _ _)

/-- A raised flag is enabled: the operation faults FP with all the flags of its lanes (R57). -/
theorem floatOp_faults (L : Nat) (op : FOp) {f : FR} {s : State} (hr : Ready f.fields (FR.reads f s) s)
    (hn : ¬ noTrapOf s (orFlags (floatResult op f (markRead (FR.reads f s) s)))) :
    floatOp L op f s = .next (fpTrap (orFlags (floatResult op f (markRead (FR.reads f s) s))) (FR.reads f s) s) :=
  issue_flags_faults hr _ _ hn fun u hu => by
    rw [(sameButMarks_markRead _ s).floatResult_eq, ← hu.floatResult_eq]
    exact ⟨_, rfl⟩

theorem floatOperations : FloatOperations := fun e he f s hr hn => by
  rw [exec_eq_floatOp e he]
  exact floatOp_performed _ _ hr hn

theorem floatTraps : FloatTraps := fun e he f s hr hn => by
  obtain ⟨hregs, hpend⟩ := fpTrap_leaves (orFlags (floatResult e.2.2 f (markRead (FR.reads f s) s))) (FR.reads f s) s
  exact ⟨_, rfl, by rw [exec_eq_floatOp e he]; exact floatOp_faults _ _ hr hn, hregs, hpend _⟩

/-- Settles O11: every float operation has the one shape `floatOp`, which raises the flags of its lanes. -/
theorem floatResults : Obligations.FloatResults := by
  unfold Obligations.FloatResults
  exact ⟨floatOperations, floatTraps⟩

/-! ### FSQT -/

/-- The square-root unit takes a request of the slot `x` for the result `v`, which lands in `d` (R139). -/
def takeRoot (f : FR) (x : CtxId) (d : Dest) (v : Reg) (k : Core) : Core :=
  { k with sqq := k.sqq ++ [⟨unitDue k.sqq k.cyc (if f.t = .f32 then 16 else 24), x.slot, d, v⟩] }

/-- A request of FSQT with the result `v` is with the square-root unit, D is absent, and the context has moved on. -/
def rootQueued (f : FR) (v : Reg) (s : State) : State :=
  let d := destOf s f.d
  let u := clearPresence s d
  advance (modCore u (me u).core (takeRoot f (me u) d v))

/-- The square root of a lane, as a lane operation on floats. -/
def rootOp : FOp := fun _ a _ _ => fsqtF a

/-- What FSQT does once its flags are raised. -/
def rootEffect (f : FR) (s v : State) : State :=
  stepLfsr f.rm (drawsBefore (lanesOn f s) f.t.lanes)
    (rootQueued f (nat256 (packLanes 32 ((floatResult rootOp f s).map (·.1)))) v)

theorem exec_fsqt (f : FR) (s : State) :
    exec (.fsqt f) s = issue f.fields (FR.reads f s)
      (fun u => withFlags (orFlags (floatResult rootOp f u)) (rootEffect f u) u) s := rfl

theorem sameButMarks_clearPresence (s : State) (d : Dest) : SameButMarks s (clearPresence s d) := by
  unfold clearPresence
  split
  · exact sameButMarks_setMarks _ _ _ _
  · exact .refl s

theorem destOf_congr {s t : State} (hm : me t = me s) (hw : (ctxOf t (me s)).winBase = (ctxOf s (me s)).winBase)
    (d : Opnd) : destOf t d = destOf s d := by
  cases d <;> simp only [destOf, entryOf, hm, hw]

theorem rootQueued_cur (f : FR) (v : Reg) (s : State) : (rootQueued f v s).cur = s.cur :=
  (sameButMarks_clearPresence s (destOf s f.d)).cur

theorem quiet_rootQueued (f : FR) (v : Reg) (s : State) : Quiet s (rootQueued f v s) :=
  have hunit (u : State) (c : Nat) (x : CtxId) (d : Dest) : Quiet u (modCore u c (takeRoot f x d v)) :=
    quiet_modCore _ _ _ fun _ => ⟨rfl, rfl⟩
  (quiet_clearPresence _ _).trans ((hunit _ _ _ _).trans (quiet_advance _))

theorem sqq_rootQueued (f : FR) (v : Reg) (s : State) :
    (coreOf (rootQueued f v s) (me s).core).sqq = (myCore s).sqq ++
      [⟨unitDue (myCore s).sqq (myCore s).cyc (if f.t = .f32 then 16 else 24), (me s).slot, destOf s f.d, v⟩] := by
  have h := sameButMarks_clearPresence s (destOf s f.d)
  have hq : (coreOf (clearPresence s (destOf s f.d)) (me s).core).sqq = (myCore s).sqq :=
    h.part (·.sqq) (fun _ _ => rfl) _
  have hc : (coreOf (clearPresence s (destOf s f.d)) (me s).core).cyc = (myCore s).cyc :=
    h.part (·.cyc) (fun _ _ => rfl) _
  have hadv : ∀ u, (coreOf (advance u) (me s).core).sqq = (coreOf u (me s).core).sqq := fun u =>
    coreOf_advance (·.sqq) (fun _ _ => rfl) u _
  unfold rootQueued
  dsimp only
  rw [h.me_eq, hadv, coreOf_modCore_self]
  unfold takeRoot
  rw [hq, hc]

theorem ctxOf_takeRoot (s : State) (c : Nat) (f : FR) (x : CtxId) (d : Dest) (v : Reg) (y : CtxId) :
    ctxOf (modCore s c (takeRoot f x d v)) y = ctxOf s y := ctxOf_modCore s c (takeRoot f x d v) (fun _ => rfl) y

theorem ctxOf_rootQueued (f : FR) (v : Reg) (s : State) :
    ctxOf (rootQueued f v s) (me s) = { myCtx s with pc := s.cur.nx, entry := .flow, source := s.cur.src } := by
  have h := sameButMarks_clearPresence s (destOf s f.d)
  unfold rootQueued
  dsimp only
  rw [ctxOf_advance, me_modCore, h.me_eq, if_pos rfl, modCore_cur, h.cur, myCtx, me_modCore, h.me_eq, ctxOf_takeRoot,
    h.ctx_eq, myCtx]

/-- The flags and the marks of what has been read do not move D. -/
theorem destOf_flagged_markRead (fl : Flags) (rs : List Opnd) (s : State) (d : Opnd) :
    destOf (flagged fl (markRead rs s)) d = destOf s d := by
  have h := sameButMarks_markRead rs s
  refine destOf_congr (by rw [me_flagged, h.me_eq]) ?_ d
  rw [← h.me_eq, ctxOf_flagged, h.myCtx_eq, h.me_eq]
  rfl

theorem rootEffect_cur (f : FR) (s v : State) : (rootEffect f s v).cur = v.cur :=
  (stepLfsr_cur _ _ _).trans (rootQueued_cur _ _ _)

theorem quiet_rootEffect (f : FR) (s v : State) : Quiet v (rootEffect f s v) :=
  (quiet_rootQueued _ _ _).trans (quiet_stepLfsr _ _ _)

theorem sqq_rootEffect (f : FR) (s v : State) :
    (coreOf (rootEffect f s v) (me v).core).sqq = (myCore v).sqq ++
      [⟨unitDue (myCore v).sqq (myCore v).cyc (if f.t = .f32 then 16 else 24), (me v).slot, destOf v f.d,
        nat256 (packLanes 32 ((floatResult rootOp f s).map (·.1)))⟩] :=
  (coreOf_stepLfsr (·.sqq) (fun _ _ => rfl) _ _ _ _).trans (sqq_rootQueued _ _ _)

theorem ctxOf_rootEffect (f : FR) (s v : State) :
    ctxOf (rootEffect f s v) (me v) = { myCtx v with pc := v.cur.nx, entry := .flow, source := v.cur.src } :=
  (ctxOf_stepLfsr _ _ _ _).trans (ctxOf_rootQueued _ _ _)

section
variable {f : FR} {s : State} (hr : Ready f.fields (FR.reads f s) s)
include hr

theorem fsqt_performed (hn : noTrapOf s (orFlags (floatResult rootOp f (markRead (FR.reads f s) s)))) :
    let s1 := markRead (FR.reads f s) s
    exec (.fsqt f) s = .next (rootEffect f s1 (flagged (orFlags (floatResult rootOp f s1)) s1)) :=
  (exec_fsqt f s).trans (issue_flags_performed hr _ (rootEffect f _) _ hn rfl (rootEffect_cur f _))

theorem fsqt_faults (hn : ¬ noTrapOf s (orFlags (floatResult rootOp f (markRead (FR.reads f s) s)))) :
    exec (.fsqt f) s =
      .next (fpTrap (orFlags (floatResult rootOp f (markRead (FR.reads f s) s))) (FR.reads f s) s) :=
  (exec_fsqt f s).trans (issue_flags_faults hr _ _ hn fun u hu => by
    rw [(sameButMarks_markRead _ s).floatResult_eq, ← hu.floatResult_eq]
    exact ⟨_, rfl⟩)

end

/-- What the effect of FSQT is on the state in which its operands are read and its flags raised. -/
theorem rootEffect_flagged (f : FR) (rs : List Opnd) (fl : Flags) (s : State) :
    let s1 := markRead rs s
    let t := rootEffect f s1 (flagged fl s1)
    SameMemory s t ∧ SameRegs s t ∧
      (coreOf t (me s).core).sqq = (myCore s).sqq ++
        [⟨unitDue (myCore s).sqq (myCore s).cyc (if f.t = .f32 then 16 else 24), (me s).slot, destOf s f.d,
          nat256 (packLanes 32 ((floatResult rootOp f s1).map (·.1)))⟩] ∧
      (ctxOf t (me s)).pc = s.cur.nx ∧ (ctxOf t (me s)).fpstat = (myCtx s).fpstat ||| fl.setWidth 64 := by
  intro s1 t
  have h := sameButMarks_markRead rs s
  have hme : me (flagged fl s1) = me s := (me_flagged _ _).trans h.me_eq
  have hquiet : Quiet s t := (quiet_markRead rs s).trans ((quiet_flagged fl s1).trans (quiet_rootEffect f s1 _))
  have hcore {α : Type} (g : Core → α) (hl : ∀ k l, g { k with slots := l } = g k)
      (hm : ∀ k m, g { k with marks := m } = g k) : g (myCore (flagged fl s1)) = g (myCore s) := by
    rw [myCore, hme]
    exact (coreOf_flagged g hl fl s1 _).trans (h.part g hm _)
  have hctx : ctxOf t (me s) = _ := hme ▸ ctxOf_rootEffect f s1 (flagged fl s1)
  have hflags : myCtx (flagged fl s1) = { myCtx s with fpstat := (myCtx s).fpstat ||| fl.setWidth 64 } := by
    rw [myCtx, me_flagged, ctxOf_flagged, h.myCtx_eq]
  refine ⟨hquiet.memory, hquiet.regs, ?_, ?_, ?_⟩
  · have hq := sqq_rootEffect f s1 (flagged fl s1)
    rw [hme, destOf_flagged_markRead] at hq
    rw [← hcore (·.sqq) (fun _ _ => rfl) (fun _ _ => rfl), ← hcore (·.cyc) (fun _ _ => rfl) (fun _ _ => rfl)]
    exact hq
  · rw [hctx]
    exact congrArg Cur.nx ((flagged_cur fl s1).trans h.cur)
  · rw [hctx, hflags]

/-! ### FDOT -/

/-- The sum of FDOT rounded to FP32. -/
def dotRounded (f : FR) (s : State) : Rounded :=
  roundSat fp32 f.rm f.sat (drawOf (myCore s).lfsr 1) (fdotSum f s).1

theorem exec_fdot (f : FR) (s : State) :
    exec (.fdot f) s = issue f.fields f.srcs
      (fun u => withFlags ((fdotSum f u).2 ||| (dotRounded f u).flags)
        (fun v => stepLfsr f.rm 1 (opened 6 f.d (nat256 (encodeF fp32 (dotRounded f u).val)) v)) u) s := rfl

theorem SameButMarks.dotRounded_eq {s t : State} (h : SameButMarks s t) (f : FR) : dotRounded f t = dotRounded f s := by
  simp only [dotRounded, h.lfsr_eq, h.fdotSum_eq]

theorem fdot_performed {f : FR} {s : State} (hr : Ready f.fields f.srcs s) :
    let s1 := markRead f.srcs s
    let fl := (fdotSum f s1).2 ||| (dotRounded f s1).flags
    noTrapOf s fl → exec (.fdot f) s = .next (stepLfsr f.rm 1
      (opened 6 f.d (nat256 (encodeF fp32 (dotRounded f s1).val)) (flagged fl s1))) := fun hn =>
  (exec_fdot f s).trans (issue_flags_performed hr _ (fun v => stepLfsr f.rm 1 (opened 6 f.d _ v)) _ hn rfl
    fun _ => (stepLfsr_cur _ _ _).trans (opened_cur _ _ _ _))

theorem fdot_faults {f : FR} {s : State} (hr : Ready f.fields f.srcs s) :
    let s1 := markRead f.srcs s
    let fl := (fdotSum f s1).2 ||| (dotRounded f s1).flags
    ¬ noTrapOf s fl → exec (.fdot f) s = .next (fpTrap fl f.srcs s) := fun hn =>
  (exec_fdot f s).trans (issue_flags_faults hr _ _ hn fun u hu => by
    have h1 := sameButMarks_markRead f.srcs s
    rw [h1.fdotSum_eq, h1.dotRounded_eq, ← hu.fdotSum_eq, ← hu.dotRounded_eq]
    exact ⟨_, rfl⟩)

/-- Settles O12: the effect of FSQT is a request at the end of the unit's queue, that of FDOT a write window; both
stand under the flags of their result. -/
theorem rootAndDot : Obligations.RootAndDot := by
  unfold Obligations.RootAndDot
  refine ⟨fun f s hr hn => ?_, fun f s hr hn => fsqt_faults hr hn, fun f s hr => ?_⟩
  · obtain ⟨hmem, hregs, hsqq, hpc, hfl⟩ := rootEffect_flagged f (FR.reads f s)
      (orFlags (floatResult rootOp f (markRead (FR.reads f s) s))) s
    exact ⟨_, fsqt_performed hr hn, hmem, hregs, hsqq, hpc, hfl⟩
  · rw [← (sameButMarks_markRead f.srcs s).lfsr_eq]
    exact ⟨fdot_performed hr, fdot_faults hr⟩

end Sys2Proof.Proofs.NumberFormats
end

section
/-! The conversions by lanes (R145, R146, R151) and by O4 blocks (R147 to R150). -/

namespace Sys2Proof.Proofs.NumberFormats

open Sys2Proof Sys2Proof.Machine Sys2Proof.Claims

/-! ### CVT and PACK -/

theorem ite_ne_range {c : Prop} [Decidable c] {a b : Conv} (ha : a ≠ .range) (hb : b ≠ .range) :
    (if c then a else b) ≠ .range := by
  split <;> assumption

/-- With SAT a conversion gives an encoding, whatever the value (R56). -/
theorem convertTo_sat (td : Ty) (du : Bool) (rm : RM) (draw : Nat) (x : FVal) :
    convertTo td du rm true draw x ≠ .range := by
  unfold convertTo
  simp only [if_true]
  split
  · cases x with
    | nan => exact nofun
    | inf n => exact nofun
    | fin n m e st => exact ite_ne_range nofun nofun
  · cases x with
    | nan => exact nofun
    | inf n => exact ite_ne_range nofun nofun
    | fin n m e st => exact ite_ne_range nofun nofun

theorem convLanes_sat {f : FR} (hs : f.sat = true) (on : W64) (old : Reg) (lfsr : W32) (x : Nat → FVal) :
    none ∉ Machine.convLanes f on old lfsr x := by
  unfold Machine.convLanes
  rw [List.mem_map]
  rintro ⟨i, -, hi⟩
  split at hi
  · split at hi
    · exact nomatch hi
    · rename_i h
      rw [hs] at h
      exact convertTo_sat _ _ _ _ _ h
  · exact nomatch hi

theorem firstNone_eq_none {α : Type} {l : List (Option α)} (h : none ∉ l) (i : Nat) : firstNone l i = none := by
  induction l generalizing i with
  | nil => rfl
  | cons a l ih =>
    cases a with
    | none => exact absurd List.mem_cons_self h
    | some a => exact ih (fun hl => h (List.mem_cons_of_mem _ hl)) (i + 1)

/-- The first lane that raises RANGE, counted from `i`, raises it, and none before it does. -/
theorem firstNone_eq_some {α : Type} {l : List (Option α)} (h : none ∈ l) (i : Nat) :
    ∃ n, firstNone l i = some (i + n) ∧ l[n]? = some none ∧ ∀ j < n, l[j]? ≠ some none := by
  induction l generalizing i with
  | nil => simp at h
  | cons a l ih =>
    cases a with
    | none => exact ⟨0, rfl, rfl, fun j hj => absurd hj (Nat.not_lt_zero j)⟩
    | some a =>
      obtain ⟨n, hn, hat, hbefore⟩ := ih (by simpa using h) (i + 1)
      refine ⟨n + 1, by rw [firstNone, hn]; congr 1; omega, by simpa using hat, fun j hj => ?_⟩
      cases j with
      | zero => simp
      | succ j => simpa using hbefore j (by omega)

/-- The lanes of a conversion whose source lanes are `x`. -/
def convResult (x : State → Nat → FVal) (f : FR) (s : State) : List (Option (Nat × Flags)) :=
  Machine.convLanes f (lanesOn f s) (wideSrc s 1 f.d) (myCore s).lfsr (x s)

theorem SameButMarks.convResult_eq {s t : State} (h : SameButMarks s t) {x : State → Nat → FVal} (hx : x t = x s)
    (f : FR) : convResult x f t = convResult x f s := by
  simp only [convResult, h.lanesOn_eq, h.wide_eq, h.lfsr_eq, hx]

theorem exec_eq_convOp : ∀ e ∈ conversions, ∀ (f : FR) (s : State), exec (e.1 f) s = convOp 4 (e.2 f) f s := by
  simp only [conversions, List.forall_mem_cons]
  exact ⟨fun _ _ => rfl, fun _ _ => rfl, by simp⟩

/-- The source lanes of a conversion do not depend on marks. -/
theorem SameButMarks.conversion_eq {s t : State} (h : SameButMarks s t) :
    ∀ e ∈ conversions, ∀ f : FR, e.2 f t = e.2 f s := by
  simp only [conversions, List.forall_mem_cons, h.convSrc_eq]
  simp

section
variable {x : State → Nat → FVal} (hx : ∀ s t, SameButMarks s t → x t = x s) {f : FR} {s : State}
  (hr : Ready f.fields (FR.reads f s) s)
include hr

theorem convOp_performed (L : Nat) (hsome : none ∉ convResult x f (markRead (FR.reads f s) s)) :
    let s1 := markRead (FR.reads f s) s
    let v := (convResult x f s1).map fun e => e.getD (0, 0)
    noTrapOf s (orFlags v) →
      convOp L x f s = .next (stepLfsr f.rm (drawsBefore (lanesOn f s1) f.t.lanes)
        (opened L f.d (nat256 (packLanes f.t.width (v.map (·.1)))) (flagged (orFlags v) s1))) := fun hn =>
  issue_flags_performed hr _ (fun v => stepLfsr f.rm _ (opened L f.d _ v)) _ hn
    (by
      have h := firstNone_eq_none hsome 0
      unfold convResult at h
      simp only [h]
      rfl)
    fun _ => (stepLfsr_cur _ _ _).trans (opened_cur _ _ _ _)

include hx

theorem convOp_fp (L : Nat) (hsome : none ∉ convResult x f (markRead (FR.reads f s) s)) :
    let v := (convResult x f (markRead (FR.reads f s) s)).map fun e => e.getD (0, 0)
    ¬ noTrapOf s (orFlags v) → convOp L x f s = .next (fpTrap (orFlags v) (FR.reads f s) s) := fun hn =>
  issue_flags_faults hr _ _ hn fun u hu => by
    have hm := sameButMarks_markRead (FR.reads f s) s
    rw [hm.convResult_eq (hx _ _ hm), ← hu.convResult_eq (hx _ _ hu)] at hsome ⊢
    have h := firstNone_eq_none hsome 0
    unfold convResult at h
    simp only [h]
    exact ⟨_, rfl⟩

theorem convOp_range (L i : Nat) (hi : firstNone (convResult x f (markRead (FR.reads f s) s)) 0 = some i) :
    convOp L x f s = .next (fault .range (BitVec.ofNat 64 i) (unread (FR.reads f s) s)) :=
  issue_faults hr _ (fun u => u) .range _ fun u hu => by
    have hm := sameButMarks_markRead (FR.reads f s) s
    rw [hm.convResult_eq (hx _ _ hm), ← hu.convResult_eq (hx _ _ hu)] at hi
    unfold convResult at hi
    simp only [hi]

end

theorem laneConversions : Conversions := fun e he f s hr => by
  have hx (u t : State) (h : SameButMarks u t) : e.2 f t = e.2 f u := h.conversion_eq e he f
  rw [exec_eq_convOp e he, ← (sameButMarks_markRead (FR.reads f s) s).lfsr_eq]
  refine ⟨fun hs => convLanes_sat hs _ _ _ _, fun hl hn => convOp_performed hr 4 hl hn,
    fun hl hn => convOp_fp hx hr 4 hl hn, fun hl => ?_⟩
  obtain ⟨i, hi, hat, hbefore⟩ := firstNone_eq_some hl 0
  rw [Nat.zero_add] at hi
  exact ⟨i, convOp_range hx hr 4 i hi, hat, hbefore⟩

/-! ### Lanes of a result -/

theorem packLanes_lt (w : Nat) (l : List Nat) : packLanes w l < 2 ^ (w * l.length) := by
  induction l with
  | nil => simp [packLanes]
  | cons v l ih =>
    have hv : v % 2 ^ w < 2 ^ w := Nat.mod_lt _ (Nat.two_pow_pos w)
    calc packLanes w (v :: l) = v % 2 ^ w + 2 ^ w * packLanes w l := rfl
      _ < 2 ^ w + 2 ^ w * packLanes w l := Nat.add_lt_add_right hv _
      _ = 2 ^ w * (packLanes w l + 1) := by rw [Nat.mul_succ, Nat.add_comm]
      _ ≤ 2 ^ w * 2 ^ (w * l.length) := Nat.mul_le_mul_left _ ih
      _ = 2 ^ (w * (v :: l).length) := by rw [← Nat.pow_add, List.length_cons, Nat.mul_succ, Nat.add_comm]

/-- The lanes of every type fill at most a register (R40). -/
theorem width_mul_lanes_le (t : Ty) : t.width * t.lanes ≤ 256 := by cases t <;> decide

/-- A lane of a register that is built lane by lane. -/
theorem lane_packed (t : Ty) (v : Nat → Nat) (i : Nat) (hi : i < t.lanes) :
    bitsOf (nat256 (packLanes t.width ((upto t.lanes).map v))).toNat (t.width * i) t.width = v i % 2 ^ t.width := by
  have hlt : packLanes t.width ((upto t.lanes).map v) < 2 ^ 256 :=
    calc packLanes t.width ((upto t.lanes).map v) < 2 ^ (t.width * ((upto t.lanes).map v).length) := packLanes_lt _ _
      _ = 2 ^ (t.width * t.lanes) := by rw [List.length_map, upto, List.length_range]
      _ ≤ 2 ^ 256 := Nat.pow_le_pow_right (by decide) (width_mul_lanes_le t)
  rw [nat256, BitVec.toNat_ofNat, Nat.mod_eq_of_lt hlt, bitsOf, packLanes_lane]
  simp [upto, List.getD_eq_getElem?_getD, hi]

/-! ### QNT and SCLX with SAT -/

theorem outByte_sat (rm : RM) (q : FVal) : (outByte rm true q).isNone = false := by
  unfold outByte
  generalize roundF f8e _ 0 q = r
  dsimp only
  split <;> rfl

/-- With SAT no element is lost in quantization (R148). -/
theorem qntBlock_sat (xs : List FVal) (scale : Nat) (rm : RM) (strict : Bool) (draw : Nat → Nat) :
    ∃ r, qntBlock xs scale rm true strict draw = .ok r := by
  unfold qntBlock
  split
  · exact ⟨_, rfl⟩
  · dsimp only
    split
    · rename_i i hi
      have hlost := (firstWhere_some _ _ _ hi).2
      simp only [outByte_sat, Bool.not_true, Bool.and_false, Bool.false_and, Bool.or_false] at hlost
      split at hlost <;> exact nomatch hlost
    · exact ⟨_, rfl⟩

/-- With SAT the scale of SCLX is a byte, whatever the elements (R150). -/
theorem sclxByte_sat (xs : List FVal) (k : Nat) : ∃ b, sclxByte xs k true = .ok b ∧ b < 256 := by
  unfold sclxByte
  split
  · exact ⟨255, rfl, by decide⟩
  · split
    · exact ⟨254, rfl, by decide⟩
    · dsimp only
      split
      · rename_i e he
        have hlt := (firstWhere_some _ _ _ he).1
        rw [upto, List.mem_range] at hlt
        exact ⟨e, rfl, by omega⟩
      · exact ⟨254, rfl, by decide⟩

/-! ### UNPK -/

theorem unpk_performed {f : FR} {s : State} (hr : Ready f.fields (FR.reads f s) s) :
    let s1 := markRead (FR.reads f s) s
    exec (.unpk f) s = .next (opened 4 f.d (nat256 (packLanes f.t.width ((upto f.t.lanes).map fun i =>
      unpkLane f (wideSrc s1 1 f.a) ((src64L f s1 f.b).toNat % 2 * f.t.lanes + i)))) s1) :=
  issue_performed hr rfl ((opened_cur _ _ _ _).trans (sameButMarks_markRead _ _).cur)

/-! ### QNT -/

/-- The block that QNT makes of its operands. -/
def quantized (f : FR) (s : State) : Except Nat (Nat × Flags) :=
  qntBlock (blockElems f s) ((src64L f s f.c).toNat % 256) f.rm f.sat (strictOf f) (drawOf (myCore s).lfsr)

theorem SameButMarks.quantized_eq {s t : State} (h : SameButMarks s t) (f : FR) : quantized f t = quantized f s := by
  simp only [quantized, h.blockElems_eq, h.src64L_eq, h.lfsr_eq]

section
variable {f : FR} {s : State} (hr : Ready f.fields (FR.reads f s) s)
include hr

theorem qnt_performed {blk : Nat} {fl : Flags} (hq : quantized f (markRead (FR.reads f s) s) = .ok (blk, fl))
    (hn : noTrapOf s fl) :
    exec (.qnt f) s = .next (stepLfsr f.rm 32
      (opened 6 f.d (nat256 blk) (flagged fl (markRead (FR.reads f s) s)))) :=
  issue_flags_performed hr _ (fun v => stepLfsr f.rm 32 (opened 6 f.d _ v)) fl hn
    (by
      unfold quantized at hq
      simp only [hq]
      rfl)
    fun _ => (stepLfsr_cur _ _ _).trans (opened_cur _ _ _ _)

theorem qnt_fp {blk : Nat} {fl : Flags} (hq : quantized f (markRead (FR.reads f s) s) = .ok (blk, fl))
    (hn : ¬ noTrapOf s fl) : exec (.qnt f) s = .next (fpTrap fl (FR.reads f s) s) :=
  issue_flags_faults hr _ fl hn fun u hu => by
    rw [(sameButMarks_markRead _ s).quantized_eq, ← hu.quantized_eq] at hq
    unfold quantized at hq
    simp only [hq]
    exact ⟨_, rfl⟩

theorem qnt_range {i : Nat} (hq : quantized f (markRead (FR.reads f s) s) = .error i) :
    exec (.qnt f) s = .next (fault .range (BitVec.ofNat 64 i) (unread (FR.reads f s) s)) :=
  issue_faults hr _ (fun u => u) .range _ fun u hu => by
    rw [(sameButMarks_markRead _ s).quantized_eq, ← hu.quantized_eq] at hq
    unfold quantized at hq
    simp only [hq]

end

/-! ### DQNT -/

/-- The lanes of the group of its block that DQNT decodes, each with its flags. -/
def dequantized (f : FR) (s : State) : List (Nat × Flags) :=
  floatLanes f.t f.rm f.sat (lanesOn f s) (wideSrc s 1 f.d) (myCore s).lfsr fun i =>
    (((o4Decode ((wideSrc s 1 f.a).toNat % 2 ^ 144))[(src64L f s f.b).toNat % (32 / f.t.lanes) * f.t.lanes + i]?).getD
      .nan, 0)

/-- The flags of DQNT: those of its lanes, and badblk for a block with a third outlier (R53, R149). -/
def dequantFlags (f : FR) (s : State) : Flags :=
  orFlags (dequantized f s) ||| flagIf (o4Bad ((wideSrc s 1 f.a).toNat % 2 ^ 144)) fBAD

theorem SameButMarks.dequantFlags_eq {s t : State} (h : SameButMarks s t) (f : FR) :
    dequantFlags f t = dequantFlags f s := by
  simp only [dequantFlags, dequantized, h.lanesOn_eq, h.wide_eq, h.lfsr_eq, h.src64L_eq]

theorem dqnt_performed {f : FR} {s : State} (hr : Ready f.fields (FR.reads f s) s) :
    let s1 := markRead (FR.reads f s) s
    noTrapOf s (dequantFlags f s1) →
      exec (.dqnt f) s = .next (stepLfsr f.rm (drawsBefore (lanesOn f s1) f.t.lanes)
        (opened 6 f.d (nat256 (packLanes f.t.width ((dequantized f s1).map (·.1))))
          (flagged (dequantFlags f s1) s1))) := fun hn =>
  issue_flags_performed hr _ (fun v => stepLfsr f.rm _ (opened 6 f.d _ v)) _ hn rfl
    fun _ => (stepLfsr_cur _ _ _).trans (opened_cur _ _ _ _)

theorem dqnt_faults {f : FR} {s : State} (hr : Ready f.fields (FR.reads f s) s)
    (hn : ¬ noTrapOf s (dequantFlags f (markRead (FR.reads f s) s))) :
    exec (.dqnt f) s = .next (fpTrap (dequantFlags f (markRead (FR.reads f s) s)) (FR.reads f s) s) :=
  issue_flags_faults hr _ _ hn fun u hu => by
    rw [(sameButMarks_markRead _ s).dequantFlags_eq, ← hu.dequantFlags_eq]
    exact ⟨_, rfl⟩

/-! ### SCLX -/

/-- The scale byte that SCLX makes of its operands. -/
def scaleOf (f : FR) (s : State) : Except Nat Nat :=
  sclxByte (blockElems f s) (Nat.min (src64L f s f.c).toNat 2) f.sat

theorem SameButMarks.scaleOf_eq {s t : State} (h : SameButMarks s t) (f : FR) : scaleOf f t = scaleOf f s := by
  simp only [scaleOf, h.blockElems_eq, h.src64L_eq]

section
variable {f : FR} {s : State} (hr : Ready f.fields (FR.reads f s) s)
include hr

theorem sclx_performed {b : Nat} (hb : scaleOf f (markRead (FR.reads f s) s) = .ok b) :
    exec (.sclx f) s = .next (opened 6 f.d (nat256 b) (markRead (FR.reads f s) s)) :=
  issue_performed hr
    (by
      unfold scaleOf at hb
      simp only [hb]
      rfl)
    ((opened_cur _ _ _ _).trans (sameButMarks_markRead _ _).cur)

theorem sclx_range {i : Nat} (hi : scaleOf f (markRead (FR.reads f s) s) = .error i) :
    exec (.sclx f) s = .next (fault .range (BitVec.ofNat 64 i) (unread (FR.reads f s) s)) :=
  issue_faults hr _ (fun u => u) .range _ fun u hu => by
    rw [(sameButMarks_markRead _ s).scaleOf_eq, ← hu.scaleOf_eq] at hi
    unfold scaleOf at hi
    simp only [hi]

end

theorem blockConversions : Blocks := fun f s hr => by
  rw [← (sameButMarks_markRead (FR.reads f s) s).lfsr_eq]
  refine ⟨⟨_, unpk_performed hr, fun i hi => lane_packed f.t _ i hi⟩, fun hs => ?_,
    fun blk fl hq => ⟨qnt_performed hr hq, qnt_fp hr hq⟩, fun i hi => qnt_range hr hi,
    ⟨dqnt_performed hr, dqnt_faults hr⟩, fun b hb => sclx_performed hr hb, fun i hi => sclx_range hr hi⟩
  rw [hs]
  exact ⟨qntBlock_sat _ _ _ _ _, sclxByte_sat _ _⟩

/-- Settles O14: the lanes and blocks that the conversions compute do not depend on marks, and with SAT none of them
raises RANGE. -/
theorem numberConversions : Obligations.NumberConversions := by
  unfold Obligations.NumberConversions
  exact ⟨laneConversions, blockConversions⟩

end Sys2Proof.Proofs.NumberFormats
end

section
/-! Integers of a width as bit vectors (R47), and LI, LIH and NOP (R122, R123). -/

namespace Sys2Proof.Proofs.IntegerControl

open Sys2Proof Sys2Proof.Machine Sys2Proof.Claims Sys2Proof.Proofs.NumberFormats

/-! ### Integers of a width as bit vectors (R47) -/

theorem two_pow_eq_natCast (k : Nat) : (2 ^ k : Int) = ((2 ^ k : Nat) : Int) := (Int.natCast_pow 2 k).symm

theorem wrapNat_eq_toNat (w : Nat) (x : Int) : wrapNat w x = (BitVec.ofInt w x).toNat := by
  rw [BitVec.toNat_ofInt, wrapNat, two_pow_eq_natCast]

theorem wrapNat_natCast (w n : Nat) : wrapNat w (n : Int) = n % 2 ^ w := by
  rw [wrapNat_eq_toNat, BitVec.ofInt_natCast, BitVec.toNat_ofNat]

theorem wrapNat_lt (w : Nat) (x : Int) : wrapNat w x < 2 ^ w := by
  rw [wrapNat_eq_toNat]
  exact BitVec.isLt _

/-- A number below 2^w that is read signed is its bit vector's signed value. -/
theorem signed_toNat {w : Nat} (hw : 0 < w) (x : BitVec w) : signed w x.toNat = x.toInt := by
  have hpow : 2 ^ w = 2 * 2 ^ (w - 1) := by rw [← Nat.pow_succ', Nat.succ_eq_add_one, Nat.sub_add_cancel hw]
  rw [BitVec.toInt_eq_toNat_cond, signed]
  split
  · rw [if_pos (by omega)]
  · rw [if_neg (by omega), two_pow_eq_natCast]

/-- Reading a number of `n` bits signed and wrapping it to `w` bits is sign extension. -/
theorem wrapNat_signed {n : Nat} (hn : 0 < n) (w : Nat) (x : BitVec n) :
    wrapNat w (signed n x.toNat) = (x.signExtend w).toNat := by
  rw [signed_toNat hn, wrapNat_eq_toNat]
  rfl

/-! ### LI, LIH and NOP -/

/-- The immediate of LI, which MIN extends to 64 bits (R123). -/
theorem extend_immediate (f : FI) : extend (!f.min.getLsbD 0) f.imm.toNat 32 64 =
    if f.min.getLsbD 0 then f.imm.toNat else (f.imm.signExtend 64).toNat := by
  cases f.min.getLsbD 0 with
  | true => exact Nat.mod_eq_of_lt (Nat.lt_trans f.imm.isLt (by decide))
  | false => exact wrapNat_signed (by decide) 64 f.imm

theorem liResult_lane (f : FI) (i : Nat) (hi : i < f.t.lanes) :
    bitsOf (liResult f).toNat (f.t.width * i) f.t.width =
      (if f.min.getLsbD 0 then f.imm.toNat else (f.imm.signExtend 64).toNat) % 2 ^ f.t.width := by
  rw [← extend_immediate]
  exact lane_packed f.t _ i hi

theorem lanes_of_scalar {t : Ty} (h : t.isScalar = true) : t.lanes = 1 := by
  revert h; cases t <;> decide

/-- A register that is built lane by lane is zero above the width of a scalar type. -/
theorem packed_scalar_lt {t : Ty} (h : t.isScalar = true) (v : Nat → Nat) :
    (nat256 (packLanes t.width ((upto t.lanes).map v))).toNat < 2 ^ t.width := by
  have hlt := packLanes_lt t.width ((upto t.lanes).map v)
  rw [List.length_map, upto, List.length_range, lanes_of_scalar h, Nat.mul_one] at hlt
  rw [nat256, BitVec.toNat_ofNat, lanes_of_scalar h]
  exact Nat.lt_of_le_of_lt (Nat.mod_le _ _) hlt

/-- Settles O9: LI reads nothing and writes the extended immediate lane by lane; what LIH keeps of D does not depend on
D's marks; NOP is its definition. -/
theorem immediates : Obligations.Immediates := by
  unfold Obligations.Immediates
  refine ⟨fun f s hr => ⟨liResult f, ?_, liResult_lane f, fun h => packed_scalar_lt h _⟩, fun f s hr => ?_,
    fun _ _ => rfl⟩
  · exact issue_performed hr rfl (opened_cur _ _ _ _)
  · have hs := sameButMarks_markRead [f.d] s
    rw [← hs.wide_eq, ← Nat.div_one (wideSrc _ 1 f.d).toNat]
    exact issue_performed hr rfl ((opened_cur _ _ _ _).trans hs.cur)

end Sys2Proof.Proofs.IntegerControl
end

section
/-! The lanes of an integer result, and what the lane operations compute (R117 to R119). -/

namespace Sys2Proof.Proofs.IntegerControl

open Sys2Proof Sys2Proof.Machine Sys2Proof.Claims Sys2Proof.Proofs.NumberFormats

/-! ### Lanes -/

theorem integerLanes : IntegerLanes := fun op f s i hi => by
  have hlane := lane_packed f.t (intResLane op f s) i hi
  refine ⟨fun hon => ?_, fun hoff => ?_, fun h => packed_scalar_lt h _⟩
  · rw [intResult, hlane, intResLane, if_pos hon]
    exact Nat.mod_eq_of_lt (wrapNat_lt _ _)
  · rw [intResult, hlane, intResLane, if_neg (by simp [hoff])]
    exact Nat.mod_mod _ _

/-! ### Shifts -/

/-- A shift left is a product with a power of two, which is zero from the width on. -/
theorem wrapNat_opShl (w : Nat) (g : Bool) (a b c : Int) :
    wrapNat w (opShl w g a b c) = (BitVec.ofInt w a <<< wrapNat w b).toNat := by
  have hmul (k : Nat) : BitVec.ofInt w (a * 2 ^ k) = BitVec.ofInt w a <<< k := by
    have hpow : BitVec.ofInt w (2 ^ k) = BitVec.twoPow w k := by
      apply BitVec.eq_of_toNat_eq
      rw [← wrapNat_eq_toNat, BitVec.toNat_twoPow, two_pow_eq_natCast, wrapNat_natCast]
    rw [BitVec.ofInt_mul, BitVec.shiftLeft_eq_mul_twoPow, hpow]
  rw [wrapNat_eq_toNat w (opShl w g a b c), opShl, shiftCount]
  split
  · rename_i hk
    have hzero : (if a = 0 then 0 else a * 2 ^ w) = a * 2 ^ w :=
      ite_eq_right_iff.mpr fun h0 => by rw [h0, Int.zero_mul]
    rw [hzero, hmul, BitVec.shiftLeft_eq_zero hk, BitVec.shiftLeft_eq_zero (Nat.le_refl w)]
  · rw [hmul]

theorem wrapNat_opShrl (w : Nat) (g : Bool) (a b c : Int) :
    wrapNat w (opShrl w g a b c) = (BitVec.ofInt w a >>> wrapNat w b).toNat := by
  rw [BitVec.toNat_ushiftRight, ← wrapNat_eq_toNat, Nat.shiftRight_eq_div_pow, opShrl, shiftCount]
  split
  · rename_i hk
    rw [Nat.div_eq_of_lt (Nat.lt_of_lt_of_le (wrapNat_lt w a) (Nat.pow_le_pow_right (by decide) hk))]
    exact wrapNat_natCast w 0
  · rw [wrapNat_natCast, Nat.mod_eq_of_lt (Nat.lt_of_le_of_lt (Nat.div_le_self _ _) (wrapNat_lt w a))]

/-- An arithmetic shift by the width or more leaves the sign in every bit. -/
theorem sshiftRight_min {w : Nat} (x : BitVec w) (k : Nat) : x.sshiftRight (min w k) = x.sshiftRight k := by
  rcases Nat.le_total k w with h | h
  · rw [Nat.min_eq_right h]
  · rw [Nat.min_eq_left h]
    ext i hi
    rw [BitVec.getElem_sshiftRight, BitVec.getElem_sshiftRight, dif_neg (by omega), dif_neg (by omega)]

theorem wrapNat_opShra {w : Nat} (hw : 0 < w) (g : Bool) (a b c : Int) :
    wrapNat w (opShra w g a b c) = ((BitVec.ofInt w a).sshiftRight (wrapNat w b)).toNat := by
  have hfloor (v : Int) (k : Nat) : v.fdiv (2 ^ k : Int) = v >>> k := by
    rw [two_pow_eq_natCast, Int.fdiv_eq_ediv_of_nonneg _ (Int.natCast_nonneg _), Int.shiftRight_eq_div_pow]
  rw [← sshiftRight_min, wrapNat_eq_toNat w (opShra w g a b c), opShra, wrapNat_eq_toNat w a, signed_toNat hw, hfloor]
  rfl

/-- The bits that a rotation shifts out fill the bits that it leaves free. -/
theorem wrapNat_opRot {w : Nat} (hw : 0 < w) (g : Bool) (a b c : Int) :
    wrapNat w (opRot w g a b c) = ((BitVec.ofInt w a).rotateLeft (wrapNat w b)).toNat := by
  have hv := wrapNat_lt w a
  rw [BitVec.toNat_rotateLeft, ← wrapNat_eq_toNat, opRot, shiftCount]
  generalize wrapNat w a = v at *
  have hk : wrapNat w b % w < w := Nat.mod_lt _ hw
  generalize wrapNat w b % w = k at *
  have hpow : 2 ^ w = 2 ^ k * 2 ^ (w - k) := by rw [← Nat.pow_add, Nat.add_sub_cancel' (Nat.le_of_lt hk)]
  have hlow : v / 2 ^ (w - k) < 2 ^ k := Nat.div_lt_of_lt_mul (by rwa [Nat.mul_comm, ← hpow])
  have hhigh : v * 2 ^ k % 2 ^ w = 2 ^ k * (v % 2 ^ (w - k)) := by
    rw [hpow, Nat.mul_comm v, Nat.mul_mod_mul_left]
  have hor := Nat.two_pow_add_eq_or_of_lt hlow (v % 2 ^ (w - k))
  have hlt : 2 ^ k * (v % 2 ^ (w - k)) + v / 2 ^ (w - k) < 2 ^ w := by
    rw [hor]
    exact Nat.or_lt_two_pow (hhigh ▸ Nat.mod_lt _ (Nat.two_pow_pos w)) (Nat.lt_of_le_of_lt (Nat.div_le_self _ _) hv)
  rw [wrapNat_natCast, Nat.shiftLeft_eq, Nat.shiftRight_eq_div_pow, hhigh, ← hor, Nat.mod_eq_of_lt hlt]

theorem laneArithmetic : LaneArithmetic := fun w g a b c hw => by
  refine ⟨?_, ?_, ?_, wrapNat_opShl w g a b c, wrapNat_opShrl w g a b c,
    wrapNat_opShra hw g a b c, wrapNat_opRot hw g a b c⟩
  · rw [wrapNat_eq_toNat, BitVec.ofInt_add]
  · rw [wrapNat_eq_toNat, Int.sub_eq_add_neg, BitVec.ofInt_add, BitVec.ofInt_neg, BitVec.sub_eq_add_neg]
  · rw [wrapNat_eq_toNat, BitVec.ofInt_mul]

/-! ### Counting -/

/-- The number of significant bits of a number other than zero. -/
theorem bitLen_of_ne_zero {v : Nat} (hv : v ≠ 0) : bitLen v = v.log2 + 1 := if_neg hv

theorem bitLen_le {v w : Nat} (hv : v < 2 ^ w) : bitLen v ≤ w := by
  by_cases h0 : v = 0
  · simp [bitLen, h0]
  · rw [bitLen_of_ne_zero h0]
    exact (Nat.log2_lt h0).mpr hv

/-- CLZ counts the zeros above the highest one, which has the weight 2^(w − 1 − n). -/
theorem opClz_spec (w : Nat) (g : Bool) (a b c : Int) :
    0 ≤ opClz w g a b c ∧ opClz w g a b c ≤ w ∧ (wrapNat w a = 0 → opClz w g a b c = w) ∧
      (wrapNat w a ≠ 0 → ∃ n : Nat, opClz w g a b c = n ∧ n < w ∧
        2 ^ (w - 1 - n) ≤ wrapNat w a ∧ wrapNat w a < 2 ^ (w - n)) := by
  have hle := bitLen_le (wrapNat_lt w a)
  simp only [opClz]
  refine ⟨by omega, by omega, fun h0 => by simp [h0, bitLen], fun h0 => ?_⟩
  rw [bitLen_of_ne_zero h0] at hle ⊢
  refine ⟨w - ((wrapNat w a).log2 + 1), by omega, by omega, ?_, ?_⟩
  · rw [show w - 1 - (w - ((wrapNat w a).log2 + 1)) = (wrapNat w a).log2 by omega]
    exact Nat.log2_self_le h0
  · rw [show w - (w - ((wrapNat w a).log2 + 1)) = (wrapNat w a).log2 + 1 by omega]
    exact Nat.lt_log2_self

/-- The ones among the low bits are the bits that are set there. -/
theorem onesOf_eq_countP (n x : Nat) : onesOf n x = (upto n).countP fun i => x.testBit i := by
  induction n generalizing x with
  | zero => rfl
  | succ n ih =>
    have hbit : x % 2 = if x.testBit 0 then 1 else 0 := by
      rw [Nat.testBit_zero]
      rcases Nat.mod_two_eq_zero_or_one x with h | h <;> simp [h]
    have htail : (fun i => x.testBit i) ∘ Nat.succ = fun i => (x / 2).testBit i :=
      funext fun i => Nat.testBit_succ x i
    rw [onesOf, ih, upto, upto, List.range_succ_eq_map, List.countP_cons, List.countP_map, htail, ← hbit, Nat.add_comm]

/-! ### Bit fields -/

theorem bitsOf_zero (x n : Nat) : bitsOf x 0 n = x % 2 ^ n := by rw [bitsOf, Nat.pow_zero, Nat.div_one]

theorem bitsOf_low_byte (x : Nat) : bitsOf x 0 8 = x % 256 := bitsOf_zero x 8

theorem bitsOf_lt (x lo n : Nat) : bitsOf x lo n < 2 ^ n := Nat.mod_lt _ (Nat.two_pow_pos n)

theorem testBit_bitsOf (x lo n j : Nat) : (bitsOf x lo n).testBit j = (decide (j < n) && x.testBit (lo + j)) := by
  rw [bitsOf, Nat.testBit_mod_two_pow, Nat.testBit_div_two_pow, Nat.add_comm]

theorem testBit_wrapNat_natCast {w j : Nat} (hj : j < w) (v : Nat) : (wrapNat w (v : Int)).testBit j = v.testBit j := by
  rw [wrapNat_natCast, Nat.testBit_mod_two_pow, decide_eq_true hj, Bool.true_and]

/-- Above a field read signed stand copies of its highest bit. -/
theorem testBit_wrapNat_signed {w n j : Nat} (hn : 0 < n) (hj : j < w) {v : Nat} (hv : v < 2 ^ n) :
    (wrapNat w (signed n v)).testBit j = v.testBit (if j < n then j else n - 1) := by
  have hval : (BitVec.ofNat n v).toNat = v := by rw [BitVec.toNat_ofNat, Nat.mod_eq_of_lt hv]
  rw [← hval, wrapNat_signed hn, BitVec.testBit_toNat, BitVec.testBit_toNat, BitVec.getLsbD_signExtend,
    BitVec.msb_eq_getLsbD_last, decide_eq_true hj, Bool.true_and]
  split <;> rfl

/-- A field replaced by the low bits of a number, the bits above it and below it kept. -/
theorem testBit_replaceField (v m pos n j : Nat) :
    (v - bitsOf v pos n * 2 ^ pos + m % 2 ^ n * 2 ^ pos).testBit j =
      if pos ≤ j ∧ j < pos + n then m.testBit (j - pos) else v.testBit j := by
  have hparts (f : Nat) : 2 ^ pos * (2 ^ n * (v / 2 ^ pos / 2 ^ n) + f) + v % 2 ^ pos =
      2 ^ pos * (2 ^ n * (v / 2 ^ pos / 2 ^ n)) + f * 2 ^ pos + v % 2 ^ pos := by
    rw [Nat.mul_add, Nat.mul_comm f]
  have hv : v = 2 ^ pos * (2 ^ n * (v / 2 ^ pos / 2 ^ n) + bitsOf v pos n) + v % 2 ^ pos := by
    rw [bitsOf, Nat.div_add_mod, Nat.div_add_mod]
  have hnew : v - bitsOf v pos n * 2 ^ pos + m % 2 ^ n * 2 ^ pos =
      2 ^ pos * (2 ^ n * (v / 2 ^ pos / 2 ^ n) + m % 2 ^ n) + v % 2 ^ pos := by
    rw [hparts] at hv ⊢
    omega
  rw [hnew, Nat.testBit_two_pow_mul_add _ (Nat.mod_lt _ (Nat.two_pow_pos pos)),
    Nat.testBit_two_pow_mul_add _ (Nat.mod_lt _ (Nat.two_pow_pos n))]
  simp only [Nat.testBit_mod_two_pow, Nat.testBit_div_two_pow]
  by_cases hlo : j < pos
  · simp [hlo, Nat.not_le.mpr hlo]
  · by_cases hhi : j - pos < n
    · simp [hlo, hhi, Nat.not_lt.mp hlo, show j < pos + n by omega]
    · simp [hlo, hhi, show ¬ j < pos + n by omega, show j - pos - n + n + pos = j by omega]

/-- BFX (R119): the field at bit 0, and above it zeros or copies of its highest bit. -/
theorem testBit_opBfx {w j : Nat} (hj : j < w) (g : Bool) (a b c : Int) :
    let pos := bitsOf (wrapNat w b) 0 8
    let n := fieldLen w pos (bitsOf (wrapNat w b) 8 8)
    (wrapNat w (opBfx w g a b c)).testBit j =
      if n = 0 then false else (wrapNat w a).testBit (pos + if j < n then j else n - 1) && (decide (j < n) || g) := by
  intro pos n
  have hop : opBfx w g a b c = if n = 0 then 0 else
      if g then signed n (bitsOf (wrapNat w a) pos n) else (bitsOf (wrapNat w a) pos n : Int) := rfl
  rw [hop]
  by_cases hn : n = 0
  · rw [if_pos hn, if_pos hn]
    exact (testBit_wrapNat_natCast hj 0).trans (Nat.zero_testBit j)
  · rw [if_neg hn, if_neg hn]
    cases g with
    | false =>
      rw [if_neg Bool.false_ne_true, testBit_wrapNat_natCast hj, testBit_bitsOf]
      by_cases hjn : j < n <;> simp [hjn]
    | true =>
      rw [if_pos rfl, testBit_wrapNat_signed (Nat.pos_of_ne_zero hn) hj (bitsOf_lt _ _ _), testBit_bitsOf]
      have hlast : n - 1 < n := Nat.sub_one_lt hn
      by_cases hjn : j < n
      · simp [hjn]
      · simp [hjn, hlast]

/-- BFI (R119): the field replaced in B, every other bit kept. -/
theorem testBit_opBfi {w j : Nat} (hj : j < w) (g : Bool) (a b c : Int) :
    let pos := bitsOf (wrapNat w c) 0 8
    let n := fieldLen w pos (bitsOf (wrapNat w c) 8 8)
    (wrapNat w (opBfi w g a b c)).testBit j =
      if pos ≤ j ∧ j < pos + n then (wrapNat w a).testBit (j - pos) else (wrapNat w b).testBit j := by
  intro pos n
  have hop : opBfi w g a b c = if n = 0 then (wrapNat w b : Int) else
      ((wrapNat w b - bitsOf (wrapNat w b) pos n * 2 ^ pos + wrapNat w a % 2 ^ n * 2 ^ pos : Nat) : Int) := rfl
  rw [hop]
  by_cases hn : n = 0
  · rw [if_pos hn, testBit_wrapNat_natCast hj, if_neg (by omega)]
  · rw [if_neg hn, testBit_wrapNat_natCast hj, testBit_replaceField]

theorem fieldOperations : FieldOperations := fun w g a b c _ _ => by
  refine ⟨opClz_spec w g a b c, congrArg Nat.cast (onesOf_eq_countP w (wrapNat w a)), fun j hj => ?_, fun j hj => ?_⟩
  · have h := testBit_opBfx hj g a b c
    rw [bitsOf_low_byte] at h
    exact h
  · have h := testBit_opBfi hj g a b c
    rw [bitsOf_low_byte] at h
    exact h

/-- Settles O7: a result's lanes are those it is packed from; words of the lane's width give its sums and shifts, and the
fields are compared bit by bit. -/
theorem laneResults : Obligations.LaneResults := by
  unfold Obligations.LaneResults
  exact ⟨integerLanes, laneArithmetic, fieldOperations⟩

end Sys2Proof.Proofs.IntegerControl
end

section
/-! Instructions that read no register, and the traps that TRAP, SVC and HVC raise (R130, R361, R363). -/

namespace Sys2Proof.Proofs.IntegerControl

open Sys2Proof Sys2Proof.Machine Sys2Proof.Claims Sys2Proof.Proofs.NumberFormats

/-- A ready instruction that reads no register has its effect on the state as it is. -/
theorem issue_reading_nothing {os : List Opnd} {s : State} (hr : Ready os [] s) (k : State → State) :
    issue os [] k s = .next (k s) := by
  have hk : readThen [] k s = k s := by rcases readThen_cases [] k s with h | h <;> exact h
  rw [issue_go _ _ _ _ (holdOf_of_ready hr), hk]

/-! ### What a context keeps that no longer holds back a YIELD (R107) -/

/-- A map whose values are replaced, the keys kept. -/
theorem get?_map_values {V : Type} (f : Nat × V → Nat × V) (hf : ∀ e, (f e).1 = e.1) (m : Map V) (a : Nat) :
    Map.get? (m.map f) a = (Map.get? m a).map fun v => (f (a, v)).2 := by
  induction m with
  | nil => rfl
  | cons e m ih =>
    simp only [List.map_cons, Map.get?, hf, ih]
    split
    · rename_i h
      subst h
      rfl
    · rfl

/-- Of a slot only the list of the slots that its YIELD waits for may change. -/
theorem slotOf_dropYield (s : State) (x y : CtxId) :
    ∃ l, slotOf (dropYield s x) y = { slotOf s y with ctx := { ctxOf s y with yielded := l } } := by
  simp only [dropYield, ctxOf, slotOf, coreOf_modCore]
  split
  · rename_i h
    simp only [h, Map.get, get?_map_values, implies_true]
    cases Map.get? (coreOf s x.core).slots y.slot <;> exact ⟨_, rfl⟩
  · exact ⟨_, rfl⟩

@[simp] theorem visiting_dropYield (s : State) (x y : CtxId) : visiting (dropYield s x) y = visiting s y := by
  obtain ⟨l, hl⟩ := slotOf_dropYield s x y
  rw [visiting, ctxOf, hl]
  rfl

@[simp] theorem windowOpen_dropYield (s : State) (x y : CtxId) : windowOpen (dropYield s x) y = windowOpen s y := by
  rw [windowOpen, samePend_dropYield s x y.core]
  rfl

/-! ### Taking a trap (R85, R96, R103) -/

/-- At its origin and with no write window open a context enters the handler at once. -/
theorem takeTrap_enters {s : State} {x : CtxId} (hw : windowOpen s x = false) (hv : visiting s x = false)
    (k : Cause) (i : W64) (e : VA) (a r : Bool) :
    takeTrap s x k i e a r = enterTrap (dropYield s x) x k i e a false := by
  simp [takeTrap, hw, hv]

/-- Elsewhere, or with a window open, its slot is trapped, and the trap whose own rule fixes the PC is kept. -/
theorem takeTrap_waits {s : State} {x : CtxId} (h : windowOpen s x = true ∨ visiting s x = true)
    (k : Cause) (i : W64) (e : VA) (a : Bool) :
    (slotOf (takeTrap s x k i e a true) x).st = .trapped ∧
      (ctxOf (takeTrap s x k i e a true) x).trap = some ⟨k, i, e, a, false⟩ := by
  simp [takeTrap, h, ctxOf]

/-! ### TRAP, SVC and HVC -/

theorem exec_eq_raiseAfter : ∀ e ∈ selfTraps, ∀ (f : FS) (s : State),
    exec (e.1 f) s = issue f.fields [] (raiseAfter e.2 (f.imm.setWidth 64)) s := by
  simp only [selfTraps, List.forall_mem_cons]
  exact ⟨fun _ _ => rfl, fun _ _ => rfl, fun _ _ => rfl, by simp⟩

/-- The trap of an instruction that does not wait for its windows reports the sequential successor (R363). -/
theorem raiseAfter_taken {s : State} {nx : VA} (hnx : successor s (me s) allLines s.cur.nx = .ok nx)
    (h : windowOpen s (me s) = false ∨ s.cur.pair = true) (k : Cause) (i : W64) :
    raiseAfter k i s = takeTrap s (me s) k i nx false true := by
  have hgo : (windowOpen s (me s) && !s.cur.pair) = false := by rcases h with h | h <;> simp [h]
  simp [raiseAfter, holdWindows, withSuccessor, hgo, hnx]

/-- A context that does not issue keeps the state of its slot. -/
theorem slotOf_undo_mod (s : State) (f : Ctx → Ctx) :
    (slotOf (undo (mod s f)) (me s)).st = (slotOf s (me s)).st ∧ ctxOf (undo (mod s f)) (me s) = f (myCtx s) := by
  have h : slotOf (undo (mod s f)) (me s) = { slotOf s (me s) with ctx := f (myCtx s) } :=
    slotOf_modSlot_self s (me s) fun sl => { sl with ctx := f sl.ctx }
  rw [ctxOf, h]
  exact ⟨rfl, rfl⟩

/-- Alone in its cell the instruction does not issue while a window is open: its slot stays as it is (R90, R130). -/
theorem raiseAfter_held {s : State} (hw : windowOpen s (me s) = true) (hp : s.cur.pair = false) (k : Cause) (i : W64) :
    let t := raiseAfter k i s
    t.cur.undone = true ∧ (slotOf t (me s)).st = (slotOf s (me s)).st ∧ (ctxOf t (me s)).pc = (myCtx s).pc := by
  have ht : raiseAfter k i s =
      undo (mod s fun c => { c with nextIssue := Nat.max c.nextIssue (windowEnd s (me s)) }) := by
    simp [raiseAfter, holdWindows, hw, hp]
  obtain ⟨hst, hctx⟩ := slotOf_undo_mod s fun c => { c with nextIssue := Nat.max c.nextIssue (windowEnd s (me s)) }
  rw [ht]
  exact ⟨rfl, hst, by rw [hctx]⟩

/-- Settles O20: the three instructions have the one effect `raiseAfter`, which holds back for an open window or takes
the trap that reports the successor. -/
theorem selfTraps : Obligations.SelfTraps := by
  unfold Obligations.SelfTraps
  intro e he f s nx hr hnx
  rw [exec_eq_raiseAfter e he, issue_reading_nothing hr]
  refine ⟨fun hw hv => ?_, fun hgo hwait => ?_, fun hw hp => ⟨_, rfl, raiseAfter_held hw hp _ _⟩⟩
  · rw [raiseAfter_taken hnx (.inl hw), takeTrap_enters hw hv]
  · rw [raiseAfter_taken hnx hgo]
    exact ⟨_, rfl, takeTrap_waits hwait _ _ _ _⟩

end Sys2Proof.Proofs.IntegerControl
end

section
/-! The lane moves SHUF, BCST, EXTL and INSL, the mask operations MLOG, MPOP and MMOV, and the reduction REDL
(R141 to R143). -/

namespace Sys2Proof.Proofs.FloatLanes

open Sys2Proof Sys2Proof.Machine Sys2Proof.Claims Sys2Proof.Proofs.NumberFormats Sys2Proof.Proofs.IntegerControl

/-! ### Lane moves -/

/-- Every lane and mask instruction but REDL lands its value after 3 cycles (R141). -/
theorem laneOp_performed {rs : List Opnd} {f : FR} {s : State} (hr : Ready f.fields rs s) (v : State → Reg) :
    laneOp rs f v s = .next (opened 3 f.d (v (markRead rs s)) (markRead rs s)) :=
  issue_performed hr rfl ((opened_cur _ _ _ _).trans (sameButMarks_markRead rs s).cur)

/-- A lane of a result under the mask: the new lane where the mask selects it, the old lane of D elsewhere (R141). -/
theorem maskedLanes_lane (f : FR) (s : State) {v : Nat → Nat} (hv : ∀ i, v i < 2 ^ f.t.width) {i : Nat}
    (hi : i < f.t.lanes) :
    rawLane f.t (maskedLanes f s v) i =
      if (maskVal s (me s) f.mask).getLsbD i then v i else rawLane f.t (wideSrc s 1 f.d) i := by
  refine (lane_packed f.t _ i hi).trans (Nat.mod_eq_of_lt ?_)
  split
  · exact hv i
  · exact bitsOf_lt _ _ _

section
variable {f : FR} {s : State} (hr : Ready f.fields (FR.reads f s) s)
include hr

theorem shuf_performed :
    let s1 := markRead (FR.reads f s) s
    ∃ v, exec (.shuf f) s = .next (opened 3 f.d v s1) ∧ ∀ i < f.t.lanes, rawLane f.t v i =
      if (maskVal s1 (me s1) f.mask).getLsbD i then
        (if 2 ^ (f.t.width - 1) ≤ rawLane f.t (wideSrc s1 1 f.b) i then 0
          else rawLane f.t (wideSrc s1 1 f.a) (rawLane f.t (wideSrc s1 1 f.b) i % f.t.lanes))
      else rawLane f.t (wideSrc s1 1 f.d) i := by
  refine ⟨_, laneOp_performed hr _, fun i hi => maskedLanes_lane f _ (fun j => ?_) hi⟩
  dsimp only
  split
  · exact Nat.two_pow_pos _
  · exact bitsOf_lt _ _ _

theorem bcst_performed :
    let s1 := markRead (FR.reads f s) s
    ∃ v, exec (.bcst f) s = .next (opened 3 f.d v s1) ∧ ∀ i < f.t.lanes, rawLane f.t v i =
      if (maskVal s1 (me s1) f.mask).getLsbD i then rawLane f.t (wideSrc s1 1 f.a) (laneIndex f s1 f.b)
      else rawLane f.t (wideSrc s1 1 f.d) i :=
  ⟨_, laneOp_performed hr _, fun _ hi => maskedLanes_lane f _ (fun _ => bitsOf_lt _ _ _) hi⟩

end

section
variable {f : FR} {s : State} (hr : Ready f.fields f.srcs s)
include hr

theorem extl_integer (ht : f.t.isFloat = false) :
    let s1 := markRead f.srcs s
    exec (.extl f) s = .next (opened 3 f.d
      (nat256 (extend f.sgn (rawLane f.t (wideSrc s1 1 f.a) (laneIndex f s1 f.b)) f.t.width 64)) s1) := by
  refine (laneOp_performed hr _).trans ?_
  simp only [ht, Bool.false_eq_true, if_false]

theorem extl_float (ht : f.t.isFloat = true) :
    let s1 := markRead f.srcs s
    exec (.extl f) s = .next (opened 3 f.d (nat256 (encodeF fp32 (roundF fp32 .rn 0
      (decodeF (fmtOf f.t) (rawLane f.t (wideSrc s1 1 f.a) (laneIndex f s1 f.b)))).val)) s1) := by
  refine (laneOp_performed hr _).trans ?_
  simp only [ht, if_true]

end

theorem insl_performed {f : FR} {s : State} (hr : Ready f.fields (f.d :: f.srcs) s) :
    let s1 := markRead (f.d :: f.srcs) s
    ∃ v, exec (.insl f) s = .next (opened 3 f.d v s1) ∧ ∀ i < f.t.lanes, rawLane f.t v i =
      if i = laneIndex f s1 f.b then inslValue f s1 % 2 ^ f.t.width else rawLane f.t (wideSrc s1 1 f.d) i := by
  refine ⟨_, laneOp_performed hr _, fun i hi => (lane_packed f.t _ i hi).trans ?_⟩
  split
  · rfl
  · exact Nat.mod_eq_of_lt (bitsOf_lt _ _ _)

/-! ### MPOP -/

/-- The highest one among the low bits of a number. -/
theorem testBit_log2_low {n v : Nat} (h : v % 2 ^ n ≠ 0) :
    v.testBit (v % 2 ^ n).log2 = true ∧ (v % 2 ^ n).log2 < n ∧
      ∀ j, (v % 2 ^ n).log2 < j → j < n → v.testBit j = false := by
  have hlow {j : Nat} (hj : j < n) : (v % 2 ^ n).testBit j = v.testBit j := by simp [hj]
  have hlt : (v % 2 ^ n).log2 < n := (Nat.log2_lt h).mpr (Nat.mod_lt _ (Nat.two_pow_pos n))
  refine ⟨hlow hlt ▸ Nat.testBit_log2 h, hlt, fun j hlog hj => ?_⟩
  rw [← hlow hj]
  exact Nat.testBit_lt_two_pow ((Nat.log2_lt h).mp hlog)

theorem firstWhere_eq_find? {α : Type} (p : α → Bool) (l : List α) : firstWhere p l = l.find? p := by
  induction l with
  | nil => rfl
  | cons a l ih => rw [firstWhere, List.find?_cons, ih]; cases p a <;> rfl

theorem bitAt_eq_testBit (x i : Nat) : bitAt x i = x.testBit i := Nat.testBit_eq_decide_div_mod_eq.symm

/-- The lowest one among the low bits of a number. -/
theorem firstWhere_bitAt {n v : Nat} (h : v % 2 ^ n ≠ 0) :
    ∃ i, firstWhere (bitAt v) (upto n) = some i ∧ v.testBit i = true ∧ i < n ∧ ∀ j < i, v.testBit j = false := by
  obtain ⟨hset, hlt, -⟩ := testBit_log2_low h
  have hbits : bitAt v = v.testBit := funext (bitAt_eq_testBit v)
  rw [firstWhere_eq_find?, hbits, upto]
  cases hfind : (List.range n).find? v.testBit with
  | none => exact absurd hset (by simpa using List.find?_range_eq_none.mp hfind _ hlt)
  | some i =>
    obtain ⟨hi, hmem, hbelow⟩ := List.find?_range_eq_some.mp hfind
    exact ⟨i, rfl, hi, List.mem_range.mp hmem, fun j hj => by simpa using hbelow j hj⟩

/-- With no bit set MPOP's two searches give the lane count (R143). -/
theorem mpopResult_empty {n v : Nat} (h : v % 2 ^ n = 0) : mpopResult 1 n v = n ∧ mpopResult 2 n v = n := by
  simp [mpopResult, h]

theorem mpopResult_lowest {n v : Nat} (h : v % 2 ^ n ≠ 0) :
    v.testBit (mpopResult 1 n v) = true ∧ mpopResult 1 n v < n ∧ ∀ j < mpopResult 1 n v, v.testBit j = false := by
  obtain ⟨i, hfirst, hi⟩ := firstWhere_bitAt h
  have hval : mpopResult 1 n v = i := by simp [mpopResult, h, hfirst]
  rwa [hval]

theorem mpopResult_highest {n v : Nat} (h : v % 2 ^ n ≠ 0) :
    v.testBit (mpopResult 2 n v) = true ∧ mpopResult 2 n v < n ∧
      ∀ j, mpopResult 2 n v < j → j < n → v.testBit j = false := by
  have hval : mpopResult 2 n v = (v % 2 ^ n).log2 := by simp [mpopResult, h, bitLen_of_ne_zero h]
  rw [hval]
  exact testBit_log2_low h

theorem laneInstructions : LaneInstructions := by
  refine ⟨fun f s hr => ?_, fun f s hr => ⟨extl_integer hr, extl_float hr, laneOp_performed hr _,
    laneOp_performed hr _, laneOp_performed hr _⟩, fun f s hr => insl_performed hr, fun _ _ => rfl,
    fun _ _ => mpopResult_empty, fun n v hv => ?_⟩
  · dsimp only
    rw [← (sameButMarks_markRead (FR.reads f s) s).me_eq]
    exact ⟨shuf_performed hr, bcst_performed hr⟩
  · obtain ⟨hlow, hlowlt, hbelow⟩ := mpopResult_lowest (Nat.ne_of_gt hv)
    exact ⟨hlow, hlowlt, hbelow, mpopResult_highest (Nat.ne_of_gt hv)⟩

/-! ### REDL -/

/-- The value of a float reduction rounded to FP32 (R142). -/
def redRounded (f : FR) (s : State) : Rounded := roundF fp32 f.rm (drawOf (myCore s).lfsr 1) (redFloat f s).1

/-- The flags of a float reduction: those of the reduction and those of its rounding. -/
def redFlags (f : FR) (s : State) : Flags := (redFloat f s).2 ||| (redRounded f s).flags

theorem sameButMarks_redFloat {s t : State} (h : SameButMarks s t) (f : FR) : redFloat f t = redFloat f s := by
  have hchosen : chosen f t = chosen f s := by simp only [chosen, h.me_eq, h.mask_eq]
  unfold redFloat
  rw [hchosen, h.wide_eq]

theorem sameButMarks_redFlags {s t : State} (h : SameButMarks s t) (f : FR) : redFlags f t = redFlags f s := by
  simp only [redFlags, redRounded, h.lfsr_eq, sameButMarks_redFloat h]

/-- On a float type REDL raises its flags and then writes the rounded value. -/
theorem exec_redl_float {f : FR} (ht : f.t.isFloat = true) (s : State) :
    exec (.redl f) s = issue f.fields f.srcs
      (fun u => withFlags (redFlags f u)
        (fun v => stepLfsr f.rm 1 (opened 3 f.d (nat256 (encodeF fp32 (redRounded f u).val)) v)) u) s := by
  change execRedl f s = _
  simp only [execRedl, ht, if_true]
  rfl

section
variable {f : FR} {s : State} (hr : Ready f.fields f.srcs s)
include hr

theorem redl_integer (ht : f.t.isFloat = false) :
    exec (.redl f) s = .next (opened 3 f.d (redInt f (markRead f.srcs s)) (markRead f.srcs s)) :=
  issue_performed hr (if_neg (by simp [ht])) ((opened_cur _ _ _ _).trans (sameButMarks_markRead _ s).cur)

theorem redl_float_performed (ht : f.t.isFloat = true) :
    let s1 := markRead f.srcs s
    noTrapOf s (redFlags f s1) → exec (.redl f) s = .next (stepLfsr f.rm 1
      (opened 3 f.d (nat256 (encodeF fp32 (redRounded f s1).val)) (flagged (redFlags f s1) s1))) := fun hn =>
  (exec_redl_float ht s).trans (issue_flags_performed hr _ (fun v => stepLfsr f.rm 1 (opened 3 f.d _ v)) _ hn rfl
    fun _ => (stepLfsr_cur _ _ _).trans (opened_cur _ _ _ _))

theorem redl_float_faults (ht : f.t.isFloat = true) (hn : ¬ noTrapOf s (redFlags f (markRead f.srcs s))) :
    exec (.redl f) s = .next (fpTrap (redFlags f (markRead f.srcs s)) f.srcs s) :=
  (exec_redl_float ht s).trans (issue_flags_faults hr _ _ hn fun u hu => by
    rw [sameButMarks_redFlags (sameButMarks_markRead _ s), ← sameButMarks_redFlags hu]
    exact ⟨_, rfl⟩)

end

theorem reductions : Reductions := fun f s hr => by
  have h := sameButMarks_markRead f.srcs s
  dsimp only
  rw [← h.me_eq, ← h.lfsr_eq]
  exact ⟨redl_integer hr, fun ht => ⟨redl_float_performed hr ht, redl_float_faults hr ht⟩⟩

/-- Settles O13: the lane and mask instructions have the one shape `laneOp`, which lands a value after 3 cycles; MPOP's
searches end at the lowest and at the highest one; a float REDL stands under the flags of its result. -/
theorem laneMoves : Obligations.LaneMoves := by
  unfold Obligations.LaneMoves
  exact ⟨laneInstructions, reductions⟩

end Sys2Proof.Proofs.FloatLanes
end
